-- ==== Sys2Proof/Word.lean ====
section
/-! DEFINITION. The words and number ranges of the CR64: bytes and identities as bit vectors, and one bounded
number type for each thing that the manual numbers (00_scope.md, sections 1.3 and 1.4). -/

namespace Sys2Proof

/-- A byte on either port. -/
abbrev Byte := BitVec 8

/-- A headset identity, 24 bits (R1). -/
abbrev Identity := BitVec 24

/-- A set of crew lines: line n is bit n (R182). -/
abbrev LineSet := BitVec 32

/-- A registry position, 0 to 511 (R3). -/
abbrev Position := Fin 512

/-- An antenna number, 0 to 47 (R24). -/
abbrev AntennaNo := Fin 48

/-- A venue number, 0 to 15 (R37). -/
abbrev VenueNo := Fin 16

/-- A crew line number, 0 to 31 (R47). -/
abbrev LineNo := Fin 32

/-- A talk slot number, 0 to 9 (R28). -/
abbrev SlotNo := Fin 10

/-- A listen carrier number, 0 to 3 (R50). -/
abbrev CarrierNo := Fin 4

/-- A crew class, 0 to 3; 3 is the highest (R1). -/
abbrev ClassNo := Fin 4

/-- A transfer context number, 0 to 23 (R119). -/
abbrev ContextNo := Fin 24

/-- A measurement tap number, 0 to 3. -/
abbrev TapNo := Fin 4

end Sys2Proof
end

