-- ==== Sys2Proof/Config.lean ====
section
/-! DEFINITION. The fixed capacities and codes of the part (00_scope.md section 1.3, R166), and the one value that the
manual leaves open. -/

namespace Sys2Proof

/-- Cells the head input buffer holds (R144). -/
abbrev Config.inputCells : Nat := 128

/-- Occupancy at and above which an arriving HEAR is shed (R145). -/
abbrev Config.shedAt : Nat := 96

/-- Occupancy below which shedding ends (R145). -/
abbrev Config.shedOffBelow : Nat := 64

/-- Occupancy at or below which HSTALL is released (R146). -/
abbrev Config.stallReleaseAt : Nat := 112

/-- Cells the head output queue holds (R148). -/
abbrev Config.outputCells : Nat := 128

/-- Notices the notice queue holds (R163). -/
abbrev Config.noticeQueue : Nat := 64

/-- Input frame buffers of the control port (R156). -/
abbrev Config.frameBuffers : Nat := 2

/-- Answer frames waiting unsent at which no request frame is taken (R157). -/
abbrev Config.answersForTaking : Nat := 2

/-- Answer frames waiting unsent at which no REJECT is produced (R155). -/
abbrev Config.answersForReject : Nat := 4

/-- Records of one frame that are carried out (R158). -/
abbrev Config.recordsPerFrame : Nat := 8

/-- Longest request body, in bytes (R154). -/
abbrev Config.requestBody : Nat := 256

/-- Longest reply body, in bytes (R160). -/
abbrev Config.replyBody : Nat := 2048

/-- Time without a byte after which a frame is abandoned, in milliseconds (R154). -/
abbrev Config.frameQuiet : Nat := 20

/-- Entries a hearing list holds (R72). -/
abbrev Config.hearingEntries : Nat := 6

/-- Entries a wait list holds (R107). -/
abbrev Config.waitEntries : Nat := 8

/-- Lines a carrier holds (R50). -/
abbrev Config.linesPerCarrier : Nat := 3

/-- Records a tap's buffer holds (R179). -/
abbrev Config.tapBuffer : Nat := 16

/-- Records one tap frame carries at most (R180). -/
abbrev Config.tapFrameRecords : Nat := 8

/-- OPEN VALUE (log 7, DESIGN CHOICE, safe). R153 keeps the cell that is part-way through being sent when WARM is taken and
discards the rest of the output queue; no rule says whether the oldest cell of a queue that holds any has begun to be
sent at that moment, unless an earlier WARM has kept it. The answer is this constant at the number of free values drawn
before, State.freeIndex. -/
opaque Config.oldestCellBegun : Nat → Bool

/-- OPEN VALUE (log 4, DESIGN CHOICE, safe). Where several waiting events fit, any of them may be taken first (R149, R151). The
one taken is at this constant's value at State.freeIndex, modulo how many they are. -/
opaque Config.waitingTaken : Nat → Nat

end Sys2Proof
end

