-- ==== Sys2Proof/Syntax.lean ====
section
/-! DEFINITION. The commands of the part: one constructor of `Instr` for each row of spec/opcode_table.json, and the
request records and cells that they carry. Fields are raw bytes and words, since the part itself judges their ranges. -/

namespace Sys2Proof

/-- A cell as it arrives on HDI: eight bytes, in the layout of R183. -/
structure RawCell where
  kind : Byte
  antenna : Byte
  ident : Identity
  byte5 : Byte
  byte6 : Byte
  byte7 : Byte
deriving DecidableEq, Repr

/-- The fields of an ENROL record, offsets 2 to 16 (R4). -/
structure EnrolFields where
  ident : Identity
  cls : Byte
  home : Byte
  mode : Byte
  talk : LineSet
  listen : LineSet
  monitor : Byte
deriving DecidableEq, Repr

/-- The fields of a TUNE record, offsets 2 to 20 (R167). -/
structure TuneFields where
  mask : BitVec 16
  avgShift : Byte
  hysteresis : Byte
  persist : Byte
  floor : Byte
  homeBonus : Byte
  loadWeight : Byte
  showMargin : Byte
  staleLimit : Byte
  backoff : Byte
  tPrep : BitVec 16
  tMove : BitVec 16
  tHold : Byte
  tWait : Byte
  preempt : Byte
  arbitration : Byte
deriving DecidableEq, Repr

/-- A request record without its header and tag (R182): the 23 request kinds. -/
inductive Request where
  | ident
  | tune (f : TuneFields)
  | floor (value : Byte)
  | go
  | warm
  | enrol (f : EnrolFields)
  | unenrol (ident : Identity)
  | site (antenna presence venue : Byte)
  | venue (venue : Byte) (low high : Identity) (wake : Byte)
  | line (line kind : Byte)
  | setVenue (venue state : Byte)
  | bar (antenna : Byte)
  | unbar (antenna : Byte)
  | steer (ident : Identity) (target options : Byte)
  | evict (ident : Identity)
  | unstick (ident : Identity)
  | tap (tap kind selector : Byte) (count : BitVec 16) (circular : Byte)
  | untap (tap : Byte)
  | peekHeadset (ident : Identity)
  | peekAntenna (antenna : Byte)
  | peekVenue (venue : Byte)
  | peekContext (context : Byte)
  | list (start : BitVec 16) (count filter : Byte)
deriving DecidableEq, Repr

/-- The commands: one constructor for each row of spec/opcode_table.json, in the table's order.
A host request carries the tag of its record and the record's fields (log 1). A unit's cell carries what the part reads
of it (log 2). The irregular records carry the chain they stand in, that is, the bytes of a request body after the frame
type (log 8). -/
inductive Instr where
  | ident (tag : Byte)
  | tune (tag : Byte) (f : TuneFields)
  | floor (tag value : Byte)
  | go (tag : Byte)
  | warm (tag : Byte)
  | enrol (tag : Byte) (f : EnrolFields)
  | unenrol (tag : Byte) (h : Identity)
  | site (tag antenna presence venue : Byte)
  | venue (tag venue : Byte) (low high : Identity) (wake : Byte)
  | line (tag line kind : Byte)
  | setVenue (tag venue state : Byte)
  | bar (tag antenna : Byte)
  | unbar (tag antenna : Byte)
  | steer (tag : Byte) (h : Identity) (target options : Byte)
  | evict (tag : Byte) (h : Identity)
  | unstick (tag : Byte) (h : Identity)
  | tap (tag tap kind selector : Byte) (count : BitVec 16) (circular : Byte)
  | untap (tag tap : Byte)
  | peekHeadset (tag : Byte) (h : Identity)
  | peekAntenna (tag antenna : Byte)
  | peekVenue (tag venue : Byte)
  | peekContext (tag context : Byte)
  | list (tag : Byte) (start : BitVec 16) (count filter : Byte)
  | unknownKindRecord (chain : List Byte)
  | shortRecord (chain : List Byte)
  | skippedRecord (chain : List Byte)
  | frameBegin
  | frameLengthTooLong (length : BitVec 16)
  | frameComplete (body : List Byte) (check : BitVec 16)
  | frameTimeout
  | sendAnswerFrame
  | sendNoticeFrame
  | sendTapFrame
  | frameSendDone
  | cellArrival (c : RawCell)
  | hear (antenna : Byte) (h : Identity) (level errors : Byte)
  | join (antenna : Byte) (h : Identity)
  | ready (antenna : Byte) (h : Identity)
  | noroom (antenna : Byte) (h : Identity)
  | landed (antenna : Byte) (h : Identity)
  | gone (antenna : Byte) (h : Identity)
  | quit (antenna : Byte) (h : Identity)
  | up (antenna : Byte)
  | down (antenna : Byte)
  | cellSent
  | tPrepExpiry (c : ContextNo)
  | tMoveExpiry (c : ContextNo)
  | waitExpiry (h : Identity)
  | holdExpiry (h : Identity)
  | resetAssert
  | resetRelease
  | requestFrameTaken
  | nonUnitKindCell (c : RawCell)
deriving DecidableEq, Repr

end Sys2Proof
end

