-- ==== Sys2Proof/Machine/Chain.lean ====
section
/-! DEFINITION. Request records as bytes (R182) and the delimiting of a record chain (R158). -/

namespace Sys2Proof.Machine

/-- The bytes of a 16-bit field, most significant first (R182). -/
def be16 (v : BitVec 16) : List Byte := [v.extractLsb' 8 8, v.extractLsb' 0 8]

/-- The bytes of an identity, most significant first. -/
def be24 (v : Identity) : List Byte := [v.extractLsb' 16 8, v.extractLsb' 8 8, v.extractLsb' 0 8]

/-- The bytes of a set of crew lines, most significant first (R182). -/
def be32 (v : LineSet) : List Byte :=
  [v.extractLsb' 24 8, v.extractLsb' 16 8, v.extractLsb' 8 8, v.extractLsb' 0 8]

/-- A number as one byte. -/
def byte (n : Nat) : Byte := BitVec.ofNat 8 n

/-- A number as two bytes, most significant first. -/
def nat16 (n : Nat) : List Byte := be16 (BitVec.ofNat 16 n)

/-- The kind code of a request, bits 6 to 0 of its header (R182). -/
def requestCode : Request → Byte
  | .ident => 0x01
  | .tune _ => 0x02
  | .floor _ => 0x03
  | .go => 0x04
  | .warm => 0x05
  | .enrol _ => 0x10
  | .unenrol _ => 0x11
  | .site _ _ _ => 0x12
  | .venue _ _ _ _ => 0x13
  | .line _ _ => 0x14
  | .setVenue _ _ => 0x15
  | .bar _ => 0x16
  | .unbar _ => 0x17
  | .steer _ _ _ => 0x20
  | .evict _ => 0x21
  | .unstick _ => 0x22
  | .tap _ _ _ _ _ => 0x30
  | .untap _ => 0x31
  | .peekHeadset _ => 0x40
  | .peekAntenna _ => 0x41
  | .peekVenue _ => 0x42
  | .peekContext _ => 0x43
  | .list _ _ _ => 0x44

/-- The record length that a kind code fixes, header and tag included; none for a code that is no request kind (R182). -/
def recordLength (code : Byte) : Option Nat :=
  match code.toNat with
  | 0x01 => some 2
  | 0x02 => some 21
  | 0x03 => some 3
  | 0x04 => some 2
  | 0x05 => some 2
  | 0x10 => some 17
  | 0x11 => some 5
  | 0x12 => some 5
  | 0x13 => some 10
  | 0x14 => some 4
  | 0x15 => some 4
  | 0x16 => some 3
  | 0x17 => some 3
  | 0x20 => some 7
  | 0x21 => some 5
  | 0x22 => some 5
  | 0x30 => some 8
  | 0x31 => some 3
  | 0x40 => some 5
  | 0x41 => some 3
  | 0x42 => some 3
  | 0x43 => some 3
  | 0x44 => some 6
  | _ => none

/-- The bytes of a request's fields, from offset 2 of its record (R4, R25, R38, R41, R48, R140, R167, R177, R178). -/
def requestFields : Request → List Byte
  | .ident => []
  | .tune f =>
    be16 f.mask ++ [f.avgShift, f.hysteresis, f.persist, f.floor, f.homeBonus, f.loadWeight, f.showMargin,
      f.staleLimit, f.backoff] ++ be16 f.tPrep ++ be16 f.tMove ++ [f.tHold, f.tWait, f.preempt, f.arbitration]
  | .floor v => [v]
  | .go => []
  | .warm => []
  | .enrol f => be24 f.ident ++ [f.cls, f.home, f.mode] ++ be32 f.talk ++ be32 f.listen ++ [f.monitor]
  | .unenrol h => be24 h
  | .site a p v => [a, p, v]
  | .venue v lo hi w => [v] ++ be24 lo ++ be24 hi ++ [w]
  | .line n k => [n, k]
  | .setVenue v st => [v, st]
  | .bar a => [a]
  | .unbar a => [a]
  | .steer h t o => be24 h ++ [t, o]
  | .evict h => be24 h
  | .unstick h => be24 h
  | .tap n k sel c circ => [n, k, sel] ++ be16 c ++ [circ]
  | .untap n => [n]
  | .peekHeadset h => be24 h
  | .peekAntenna a => [a]
  | .peekVenue v => [v]
  | .peekContext c => [c]
  | .list st c f => be16 st ++ [c, f]

/-- Two bytes as a 16-bit field. -/
def un16 (a b : Byte) : BitVec 16 := a ++ b

/-- Three bytes as an identity. -/
def un24 (a b c : Byte) : Identity := a ++ b ++ c

/-- Four bytes as a set of crew lines. -/
def un32 (a b c d : Byte) : LineSet := a ++ b ++ c ++ d

/-- The request that a kind code and the bytes of its fields spell; none when the code is no request kind or the bytes
are not as many as the kind fixes (R182). -/
def parseRequest (code : Byte) (fields : List Byte) : Option Request :=
  match code.toNat, fields with
  | 0x01, [] => some .ident
  | 0x02, [m0, m1, k, h, p, f, b, w, m, s, bo, p0, p1, v0, v1, th, tw, pr, ar] =>
    some (.tune ⟨un16 m0 m1, k, h, p, f, b, w, m, s, bo, un16 p0 p1, un16 v0 v1, th, tw, pr, ar⟩)
  | 0x03, [v] => some (.floor v)
  | 0x04, [] => some .go
  | 0x05, [] => some .warm
  | 0x10, [i0, i1, i2, c, hv, m, t0, t1, t2, t3, l0, l1, l2, l3, mon] =>
    some (.enrol ⟨un24 i0 i1 i2, c, hv, m, un32 t0 t1 t2 t3, un32 l0 l1 l2 l3, mon⟩)
  | 0x11, [i0, i1, i2] => some (.unenrol (un24 i0 i1 i2))
  | 0x12, [a, p, v] => some (.site a p v)
  | 0x13, [v, l0, l1, l2, h0, h1, h2, w] => some (.venue v (un24 l0 l1 l2) (un24 h0 h1 h2) w)
  | 0x14, [n, k] => some (.line n k)
  | 0x15, [v, st] => some (.setVenue v st)
  | 0x16, [a] => some (.bar a)
  | 0x17, [a] => some (.unbar a)
  | 0x20, [i0, i1, i2, t, o] => some (.steer (un24 i0 i1 i2) t o)
  | 0x21, [i0, i1, i2] => some (.evict (un24 i0 i1 i2))
  | 0x22, [i0, i1, i2] => some (.unstick (un24 i0 i1 i2))
  | 0x30, [n, k, sel, c0, c1, circ] => some (.tap n k sel (un16 c0 c1) circ)
  | 0x31, [n] => some (.untap n)
  | 0x40, [i0, i1, i2] => some (.peekHeadset (un24 i0 i1 i2))
  | 0x41, [a] => some (.peekAntenna a)
  | 0x42, [v] => some (.peekVenue v)
  | 0x43, [c] => some (.peekContext c)
  | 0x44, [s0, s1, c, f] => some (.list (un16 s0 s1) c f)
  | _, _ => none

/-- The bytes of a request record: header with the continuation flag in bit 7, tag, fields (R182). -/
def recordBytes (continued : Bool) (tag : Byte) (r : Request) : List Byte :=
  ((if continued then 0x80 else 0x00) ||| requestCode r) :: tag :: requestFields r

/-- The body of a request frame that holds one record alone: frame type REQUEST, then the record (R182). -/
def oneRecordBody (tag : Byte) (r : Request) : List Byte := 0x01 :: recordBytes false tag r

/-- What the delimiting of a chain finds, in chain order (R158). -/
inductive ChainItem where
  /-- A record of a request kind that fits, among the first eight. -/
  | record (tag : Byte) (r : Request)
  /-- A record of a request kind that fits, beyond the eighth: its kind echo and tag. -/
  | tooMany (code tag : Byte)
  /-- A record whose kind is not a request kind: its kind echo and tag. -/
  | badKind (code tag : Byte)
  /-- A record that is short or missing: its kind echo and tag. -/
  | badLength (code tag : Byte)
  /-- The bytes after an unknown kind, and how many they are. -/
  | remainder (count : Nat)
deriving DecidableEq, Repr

/-- The continuation flag of a header byte (R182). -/
def headerContinues (header : Byte) : Bool := header.getLsbD 7

/-- The kind of a header byte (R182). -/
def headerKind (header : Byte) : Byte := header &&& 0x7F

/-- Delimits a chain (R158). `fuel` bounds the records still to be looked at (no chain holds more records than bytes), and
`done` counts the records delimited so far. Answers the items in order and whether the reply carries EXTRA. -/
def delimitFrom (fuel : Nat) (done : Nat) (bytes : List Byte) : List ChainItem × Bool :=
  match fuel with
  | 0 => ([], false)
  | fuel + 1 =>
    match bytes with
    | [] => ([.badLength 0 0], false)
    | [header] =>
      match recordLength (headerKind header) with
      | some _ => ([.badLength (headerKind header) 0], false)
      | none => ([.badKind (headerKind header) 0], false)
    | header :: tag :: rest =>
      match recordLength (headerKind header) with
      | none =>
        if headerContinues header then
          if rest.isEmpty then ([.badKind (headerKind header) tag, .badLength 0 0], false)
          else ([.badKind (headerKind header) tag, .remainder rest.length], false)
        else ([.badKind (headerKind header) tag], false)
      | some len =>
        match parseRequest (headerKind header) (rest.take (len - 2)) with
        | none => ([.badLength (headerKind header) tag], false)
        | some r =>
          let item := if done < Config.recordsPerFrame then ChainItem.record tag r
            else ChainItem.tooMany (headerKind header) tag
          let left := rest.drop (len - 2)
          if headerContinues header then
            let more := delimitFrom fuel (done + 1) left
            (item :: more.1, more.2)
          else ([item], !left.isEmpty)

/-- The items of a whole chain, and the EXTRA flag; a body of the frame type alone has an empty chain (R158). -/
def delimitChain (chain : List Byte) : List ChainItem × Bool :=
  if chain.isEmpty then ([], false) else delimitFrom (chain.length + 1) 0 chain

end Sys2Proof.Machine
end

