-- ==== Sys2Proof/WellFormed.lean ====
section
/-! DEFINITION. The commands that the part's ports can spell. Only rows whose operands are wider than the row have a check:
a length above the limit (R154), a body within it (R154), a chain that holds the irregular record (R158), and a cell of
no unit kind (R147). -/

namespace Sys2Proof

/-- The cell kinds that a unit sends, 0x01 to 0x09 (R183). -/
def isUnitKind (kind : Byte) : Bool := decide (1 ≤ kind.toNat ∧ kind.toNat ≤ 9)

/-- The chain fits a request body and delimiting it finds an item that satisfies `p`. -/
def chainHolds (p : Machine.ChainItem → Bool) (chain : List Byte) : Bool :=
  decide (chain.length + 1 ≤ Config.requestBody) && (Machine.delimitChain chain).1.any p

/-- The operands are such that the named event can occur. -/
def Instr.wellFormed : Instr → Bool
  | .unknownKindRecord chain => chainHolds (fun i => match i with | .badKind _ _ => true | _ => false) chain
  | .shortRecord chain => chainHolds (fun i => match i with | .badLength _ _ => true | _ => false) chain
  | .skippedRecord chain =>
    chainHolds (fun i => match i with | .tooMany _ _ => true | .remainder _ => true | _ => false) chain
  | .frameLengthTooLong length => decide (Config.requestBody < length.toNat)
  | .frameComplete body _ => decide (body.length ≤ Config.requestBody)
  | .nonUnitKindCell c => !isUnitKind c.kind
  | .ident _ | .tune _ _ | .floor _ _ | .go _ | .warm _ | .enrol _ _ | .unenrol _ _ | .site _ _ _ _
  | .venue _ _ _ _ _ | .line _ _ _ | .setVenue _ _ _ | .bar _ _ | .unbar _ _ | .steer _ _ _ _ | .evict _ _
  | .unstick _ _ | .tap _ _ _ _ _ _ | .untap _ _ | .peekHeadset _ _ | .peekAntenna _ _ | .peekVenue _ _
  | .peekContext _ _ | .list _ _ _ _ | .frameBegin | .frameTimeout | .sendAnswerFrame | .sendNoticeFrame
  | .sendTapFrame | .frameSendDone | .cellArrival _ | .hear _ _ _ _ | .join _ _ | .ready _ _ | .noroom _ _
  | .landed _ _ | .gone _ _ | .quit _ _ | .up _ | .down _ | .cellSent | .tPrepExpiry _ | .tMoveExpiry _
  | .waitExpiry _ | .holdExpiry _ | .resetAssert | .resetRelease | .requestFrameTaken => true

end Sys2Proof
end

