-- ==== Sys2Proof/Decode.lean ====
section
/-! DEFINITION. The decoder that the host asks for. The part is a block: its commands arrive on two ports and as events, and
spec/opcode_table.json gives no row any bits (every row's "fields" is empty and none has "fixed"), so no word spells a
command (log 23). The bytes of request records and their parsing are in Machine/Chain.lean. -/

namespace Sys2Proof

/-- The command that a word of `nbits` bits spells by the table's bits: none, since the table gives no row any bits
(log 23). -/
def decodeTableWord (_nbits _w : Nat) : Option Instr := none

end Sys2Proof
end

