-- ==== Sys2Proof/Machine/State.lean ====
section
/-! DEFINITION. Everything the manual gives the part to hold, as plain data, and the state after reset. -/

namespace Sys2Proof.Machine

/-- The two modes (R165). -/
inductive Mode where
  | setup | run
deriving DecidableEq, Repr

/-- The service of a headset in SERVED or TRANSFER (R2). -/
inductive Service where
  | talk | listen | listenSlot | demoted
deriving DecidableEq, Repr

/-- The mode of a profile (R1). -/
inductive HeadsetMode where
  | duplex | listen
deriving DecidableEq, Repr

/-- A talk slot or a listen carrier of one antenna (R2). -/
inductive Place where
  | slot (i : SlotNo)
  | carrier (k : CarrierNo)
deriving DecidableEq, Repr

/-- A resource: an antenna with one of its slots or carriers (R2). -/
structure Resource where
  ant : AntennaNo
  place : Place
deriving DecidableEq, Repr

/-- The pin of a hearing list entry (R76); `unpinned` is the manual's NONE. -/
inductive Pin where
  | unpinned | serving | target
deriving DecidableEq, Repr

/-- One entry of a hearing list (R72); an unmeasured entry has no average (R77). -/
structure HearEntry where
  ant : AntennaNo
  avg : Option Nat
  age : Nat
  backoff : Nat
  clip : Bool
  pin : Pin
deriving DecidableEq, Repr

/-- What the evaluator and the quality unit keep of a headset in SERVED or TRANSFER: candidate, trigger count (R84) and
hearing list, head first (R72, R73). -/
structure Track where
  candidate : Option AntennaNo
  count : Nat
  hearing : List HearEntry
deriving DecidableEq, Repr

/-- The state of a record with its attachment part (R2). Each state holds the fields that R2 gives it. In TRANSFER the held
resource is the source resource of the context, and is kept there (log 22). Timers are milliseconds left. -/
inductive Attachment where
  | idle
  | waiting (ant : AntennaNo) (timer : Nat)
  | served (service : Service) (held : Resource) (track : Track)
  | transfer (service : Service) (ctx : ContextNo) (track : Track)
  | orphan (timer : Nat)
deriving DecidableEq, Repr

/-- The profile part of a record with the sticky clip flag; the position stands in the record (R1). -/
structure Profile where
  ident : Identity
  cls : ClassNo
  home : VenueNo
  mode : HeadsetMode
  talk : LineSet
  listen : LineSet
  monitor : LineNo
  sticky : Bool
deriving DecidableEq, Repr

/-- A headset record (R1 to R3). -/
structure HeadsetRecord where
  position : Position
  profile : Profile
  att : Attachment
deriving DecidableEq, Repr

/-- The state of a talk slot (R28). -/
inductive SlotState where
  | free
  | reserved (h : Identity) (ctx : ContextNo)
  | held (h : Identity)
deriving DecidableEq, Repr

/-- A line of a carrier's line set with its two listener counts (R51). -/
structure CarrierLine where
  line : LineNo
  served : Nat
  reserved : Nat
deriving DecidableEq, Repr

/-- A listen carrier: its line set in ascending line number (R50). -/
abbrev Carrier := List CarrierLine

/-- The kind of a wait list entry; WAIT_JOIN carries the recovery mark (R107). -/
inductive WaitKind where
  | join (recovery : Bool)
  | promote
deriving DecidableEq, Repr

/-- A wait list entry (R107). -/
structure WaitEntry where
  headset : Identity
  kind : WaitKind
  cls : ClassNo
deriving DecidableEq, Repr

/-- An antenna entry with its slot map, carriers and wait list (R24, R50, R107). -/
structure Antenna where
  present : Bool
  venue : VenueNo
  online : Bool
  barred : Bool
  slots : Vector SlotState 10
  rotation : ClassNo
  carriers : Vector Carrier 4
  wait : List WaitEntry
deriving DecidableEq, Repr

/-- The states of a venue (R37). -/
inductive VenueState where
  | closed | opened | show | draining
deriving DecidableEq, Repr

/-- A venue record (R37); bit n of the wake mask is class n. -/
structure Venue where
  state : VenueState
  low : Identity
  high : Identity
  wake : BitVec 4
  claims : Nat
deriving DecidableEq, Repr

/-- The kind of a crew line (R47). -/
inductive LineKind where
  | opened | cue
deriving DecidableEq, Repr

/-- The cause of a transfer (R119). -/
inductive Cause where
  | auto | rescue | drain | steer
deriving DecidableEq, Repr

/-- The options of a transfer (R119). -/
structure Options where
  breakFirst : Bool
  noChecks : Bool
  preempt : Bool
deriving DecidableEq, Repr

/-- The phase of a transfer (R119). -/
inductive Phase where
  | prepare | ordered
deriving DecidableEq, Repr

/-- A transfer context in use (R119); its number is its index. `source` is absent once the source resource has been
released. The timer is t_prep in PREPARE and t_move in ORDERED, in milliseconds left. -/
structure Context where
  headset : Identity
  sourceAnt : AntennaNo
  source : Option Place
  targetAnt : AntennaNo
  target : Place
  cause : Cause
  options : Options
  phase : Phase
  timer : Nat
deriving DecidableEq, Repr

/-- The arbitration of offers (R110, R111). -/
inductive Arbitration where
  | fixed | rotating
deriving DecidableEq, Repr

/-- The fifteen tuning values (R167), in the units of that rule. -/
structure Tuning where
  avgShift : Nat
  hysteresis : Nat
  persist : Nat
  floor : Nat
  homeBonus : Nat
  loadWeight : Nat
  showMargin : Nat
  staleLimit : Nat
  backoff : Nat
  tPrep : Nat
  tMove : Nat
  tHold : Nat
  tWait : Nat
  preempt : Bool
  arbitration : Arbitration
deriving DecidableEq, Repr

/-- The kind of a tap and of its records. -/
inductive TapKind where
  | measure | round
deriving DecidableEq, Repr

/-- The outcome of a round (R100). -/
inductive RoundOutcome where
  | noCandidate | stay | auto | rescue | drain | noContext | noResource
deriving DecidableEq, Repr

/-- A measurement record: MEASURE (R82) or ROUND (R100). The serving antenna of a ROUND record is what a selector reads. -/
inductive TapRecord where
  | measure (ant : AntennaNo) (h : Identity) (q avg : Nat) (clip : Bool)
  | round (serving : AntennaNo) (h : Identity) (scoreServing : Int) (candidate : Option AntennaNo)
      (scoreCandidate : Int) (count : Nat) (outcome : RoundOutcome)
deriving DecidableEq, Repr

/-- A measurement tap (chapter 11). -/
structure Tap where
  running : Bool
  kind : TapKind
  selector : Nat
  count : Nat
  remaining : Nat
  circular : Bool
  block : BitVec 16
  buffer : List TapRecord
  gap : Bool
deriving DecidableEq, Repr

/-- The reason of a REFUSE cell (R183). -/
inductive RefuseReason where
  | unknown | full | barred | closed | window | evicted
deriving DecidableEq, Repr

/-- A cell that the part sends to a unit (R183). -/
inductive OutCell where
  | seat (ant : AntennaNo) (h : Identity) (place : Place)
  | refuse (ant : AntennaNo) (h : Identity) (reason : RefuseReason)
  | book (ant : AntennaNo) (h : Identity) (place : Place)
  | goto (ant : AntennaNo) (h : Identity) (targetAnt : AntennaNo) (target : Place)
  | free (ant : AntennaNo) (h : Identity)
  | mix (ant : AntennaNo) (k : CarrierNo) (lines : List LineNo)
  | mode (ant : AntennaNo) (serve : Bool)
  | clear (ant : AntennaNo)
deriving DecidableEq, Repr

/-- The cause of an ORPHANED notice (R9). -/
inductive OrphanCause where
  | gone | unitDown | transfer
deriving DecidableEq, Repr

/-- The reason of a DENIED notice (R162). -/
inductive DeniedReason where
  | full | barred | closed | window | offline
deriving DecidableEq, Repr

/-- The reason of a TRANSFER_FAILED notice (R126). -/
inductive FailReason where
  | refused | noAnswer | offline | targetLost | sourceLost | noLanding | rejoin
deriving DecidableEq, Repr

/-- The cause of a DETACHED notice (R162). -/
inductive DetachCause where
  | quit | evict
deriving DecidableEq, Repr

/-- The cause of a VENUE_STATE notice (R162). -/
inductive VenueCause where
  | request | wake | drained
deriving DecidableEq, Repr

/-- A notice with its contents (R162). -/
inductive Notice where
  | orphaned (h : Identity) (last : AntennaNo) (cause : OrphanCause)
  | unitState (ant : AntennaNo) (online : Bool)
  | denied (h : Identity) (ant : AntennaNo) (reason : DeniedReason)
  | transferFailed (h : Identity) (source target : AntennaNo) (cause : Cause) (reason : FailReason)
  | demoted (h : Identity) (ant : AntennaNo) (mover : Identity)
  | shedding (on : Bool)
  | dropped (h : Identity)
  | attached (h : Identity) (ant : AntennaNo) (place : Place) (service : Service)
  | recovered (h : Identity) (ant : AntennaNo) (place : Place) (service : Service)
  | detached (h : Identity) (cause : DetachCause)
  | transferDone (h : Identity) (source target : AntennaNo) (cause : Cause) (ctx : ContextNo)
  | promoted (h : Identity) (ant : AntennaNo) (slot : SlotNo)
  | venueState (venue : VenueNo) (state : VenueState) (cause : VenueCause)
  | route (h : Identity) (ant : AntennaNo) (place : Option Place) (talk listen : LineSet)
  | mix (ant : AntennaNo) (k : CarrierNo) (lines : List LineNo)
  | tapBlock (tap : TapNo) (block : BitVec 16)
  | tapDone (tap : TapNo)
deriving DecidableEq, Repr

/-- The status of a reply record (R160). -/
inductive Status where
  | ok | clamped | badKind | badLength | badValue | wrongMode | notFound | full | busy | attached | notAttached
  | bound | inUse | skipped | notServed | sameAntenna | offline | barred | closed | window | noContext | noResource
  | noCandidate
deriving DecidableEq, Repr

/-- A reply record: kind echo, tag, status, error offset and result fields (R160). The continuation flag of its header is
set on every record but the last of its frame. -/
structure ReplyRecord where
  code : Byte
  tag : Byte
  status : Status
  offset : Nat
  result : List Byte
deriving DecidableEq, Repr

/-- The reason of a REJECT frame (R155). -/
inductive RejectReason where
  | check | length | type | overrun
deriving DecidableEq, Repr

/-- An answer frame: a reply with its EXTRA flag and records (R160), or a REJECT (R155). -/
inductive Answer where
  | reply (extra : Bool) (records : List ReplyRecord)
  | reject (reason : RejectReason)
deriving DecidableEq, Repr

/-- A frame being sent on CTXD (R161, R180). -/
inductive TxFrame where
  | answer (a : Answer)
  | notice (lost : Bool) (n : Notice)
  | tap (tap : TapNo) (gap : Bool) (records : List TapRecord)
deriving DecidableEq, Repr

/-- The control port's receiver (R154): hunting, or inside a frame, with a buffer or without (R156), and the milliseconds
left before the frame is abandoned. -/
inductive Receiver where
  | hunting
  | inFrame (buffered : Bool) (quiet : Nat)
deriving DecidableEq, Repr

/-- The head port (chapter 8). `overflow` holds the cells of an oversize event that have not yet entered the output queue
(R150). `begun` says that a WARM has kept the oldest cell of the output queue as part-way through being sent, and that it has
not been sent since (R153; log 7). -/
structure HeadPort where
  input : List RawCell
  shedding : Bool
  hstall : Bool
  output : List OutCell
  overflow : List OutCell
  begun : Bool
deriving DecidableEq, Repr

/-- The control port (chapter 9). `frames` holds the bodies of the complete request frames in the input buffers, in the
order of their completion. -/
structure ControlPort where
  rx : Receiver
  frames : List (List Byte)
  answers : List Answer
  ctxd : Option TxFrame
  notices : List Notice
  lost : Bool
  floor : Nat
deriving DecidableEq, Repr

/-- An event that output room can hold back (R149): the taking of the cell at the head of the input buffer, the taking of the
oldest complete request frame (R157), and the four expiries. -/
inductive WaitingEvent where
  | cell
  | frame
  | tPrep (c : ContextNo)
  | tMove (c : ContextNo)
  | wait (h : Identity)
  | hold (h : Identity)
deriving DecidableEq, Repr

/-- The state of the part. `registry` holds the records in position order (R3). `tapTurn` is the tap at which the search for
the next tap frame begins (R180). `waiting` names the events that were considered and wait (R149, R151, R157; log 4).
`freeIndex` (logs 4 and 7) and `pending`, the queue of waiting commands, are the model's own. -/
structure State where
  resetPin : Bool
  mode : Mode
  tuning : Tuning
  registry : List HeadsetRecord
  antennas : Vector Antenna 48
  venues : Vector Venue 16
  lines : Vector LineKind 32
  contexts : Vector (Option Context) 24
  head : HeadPort
  ctrl : ControlPort
  taps : Vector Tap 4
  tapTurn : TapNo
  waiting : List WaitingEvent
  freeIndex : Nat
  pending : List Instr
deriving DecidableEq, Repr

/-- The faults of the part: none. No rule of the manual gives the part a fault state; a bad cell is discarded (R147), a bad
frame is rejected (R155) and a bad request is answered with a status (R159). -/
inductive Fault where
deriving DecidableEq, Repr

/-- The refusals of the model. -/
inductive Refusal where
  /-- Raised only by an arm of `exec` whose command has no meaning yet (safe: the model stops). No arm raises it. -/
  | notModelled (mnemonic : String)
deriving DecidableEq, Repr

/-- An antenna entry after pin reset (R46, R61, R118). -/
def Antenna.reset : Antenna :=
  { present := false, venue := 0, online := false, barred := false, slots := Vector.replicate 10 .free,
    rotation := 0, carriers := Vector.replicate 4 [], wait := [] }

/-- A venue record after pin reset (R46). -/
def Venue.reset : Venue := { state := .closed, low := 0xFFFFFF, high := 0, wake := 0xF, claims := 0 }

/-- The tuning set after pin reset: the defaults of R167. -/
def Tuning.reset : Tuning :=
  { avgShift := 3, hysteresis := 8, persist := 3, floor := 40, homeBonus := 10, loadWeight := 2, showMargin := 12,
    staleLimit := 4, backoff := 5, tPrep := 100, tMove := 400, tHold := 30, tWait := 10, preempt := true,
    arbitration := .fixed }

/-- A tap after pin reset and after WARM (chapter 11). The circular flag is the model's choice (log 13). -/
def Tap.reset : Tap :=
  { running := false, kind := .measure, selector := 0, count := 0, remaining := 0, circular := false, block := 0,
    buffer := [], gap := false }

/-- The head port after pin reset (R152). -/
def HeadPort.reset : HeadPort :=
  { input := [], shedding := false, hstall := false, output := [], overflow := [], begun := false }

/-- The control port after pin reset (R164). -/
def ControlPort.reset : ControlPort :=
  { rx := .hunting, frames := [], answers := [], ctxd := none, notices := [], lost := false, floor := 0 }

/-- The part right after the release of the reset pin (R173; log 10), with no command waiting. -/
def State.reset : State :=
  { resetPin := false, mode := .setup, tuning := Tuning.reset, registry := [],
    antennas := Vector.replicate 48 Antenna.reset, venues := Vector.replicate 16 Venue.reset,
    lines := Vector.replicate 32 .opened, contexts := Vector.replicate 24 none, head := HeadPort.reset,
    ctrl := ControlPort.reset, taps := Vector.replicate 4 Tap.reset, tapTurn := 0, waiting := [], freeIndex := 0,
    pending := [] }

/-- An event in progress: the part as the event has left it so far, the cells the event has produced for the output queue
(R148), the number of cells produced before a WARM in the same event (R157), and the antennas whose lowest FREE slot is
offered at the end of the event (R124 step 6). -/
structure Ev where
  st : State
  cells : List OutCell
  beforeWarm : Option Nat
  late : List AntennaNo
deriving DecidableEq, Repr

end Sys2Proof.Machine
end

