-- ==== Sys2Proof/Machine/Ops.lean ====
section
/-! DEFINITION. The named operations over the part's state: reading and writing each table, producing cells and notices
inside an event, looking up records, and the clock. -/

namespace Sys2Proof.Machine

/-! ## Tables -/

/-- The entry of an antenna (R24). -/
def State.ant (s : State) (a : AntennaNo) : Antenna := s.antennas[a.val]

/-- The part with the entry of one antenna replaced. -/
def State.setAnt (s : State) (a : AntennaNo) (x : Antenna) : State :=
  { s with antennas := s.antennas.set a.val x }

/-- The record of a venue (R37). -/
def State.ven (s : State) (v : VenueNo) : Venue := s.venues[v.val]

/-- The part with the record of one venue replaced. -/
def State.setVen (s : State) (v : VenueNo) (x : Venue) : State :=
  { s with venues := s.venues.set v.val x }

/-- The kind of a crew line (R47). -/
def State.lineKind (s : State) (m : LineNo) : LineKind := s.lines[m.val]

/-- A transfer context, absent when it is free (R119). -/
def State.ctx (s : State) (c : ContextNo) : Option Context := s.contexts[c.val]

/-- The part with one transfer context replaced. -/
def State.setCtx (s : State) (c : ContextNo) (x : Option Context) : State :=
  { s with contexts := s.contexts.set c.val x }

/-- A measurement tap. -/
def State.tap (s : State) (t : TapNo) : Tap := s.taps[t.val]

/-- The part with one tap replaced. -/
def State.setTap (s : State) (t : TapNo) (x : Tap) : State := { s with taps := s.taps.set t.val x }

/-- The part with another head port. -/
def State.setHead (s : State) (x : HeadPort) : State := { s with head := x }

/-- The part with another control port. -/
def State.setCtrl (s : State) (x : ControlPort) : State := { s with ctrl := x }

/-- The part with other waiting events (R149). -/
def State.setWaiting (s : State) (x : List WaitingEvent) : State := { s with waiting := x }

/-- The part with another registry. -/
def State.setRegistry (s : State) (x : List HeadsetRecord) : State := { s with registry := x }

/-- The state of one talk slot (R28). -/
def State.slot (s : State) (a : AntennaNo) (i : SlotNo) : SlotState := (s.ant a).slots[i.val]

/-- The line set of one carrier (R50). -/
def State.carrier (s : State) (a : AntennaNo) (k : CarrierNo) : Carrier := (s.ant a).carriers[k.val]

/-- The part with one talk slot replaced. -/
def State.setSlot (s : State) (a : AntennaNo) (i : SlotNo) (x : SlotState) : State :=
  s.setAnt a { s.ant a with slots := (s.ant a).slots.set i.val x }

/-- The part with one carrier replaced. -/
def State.setCarrier (s : State) (a : AntennaNo) (k : CarrierNo) (x : Carrier) : State :=
  s.setAnt a { s.ant a with carriers := (s.ant a).carriers.set k.val x }

/-- The part with the wait list of one antenna replaced. -/
def State.setWait (s : State) (a : AntennaNo) (x : List WaitEntry) : State :=
  s.setAnt a { s.ant a with wait := x }

/-! ## The registry -/

/-- The record of an identity: a lookup that takes no part in any order (R3). -/
def State.rec? (s : State) (h : Identity) : Option HeadsetRecord :=
  s.registry.find? (fun r => r.profile.ident == h)

/-- The part with the record of one identity changed; no change when the identity has no record. -/
def State.updRec (s : State) (h : Identity) (f : HeadsetRecord → HeadsetRecord) : State :=
  s.setRegistry (s.registry.map (fun r => if r.profile.ident == h then f r else r))

/-- The part with the attachment of one headset replaced (R2). -/
def State.setAtt (s : State) (h : Identity) (x : Attachment) : State :=
  s.updRec h (fun r => { r with att := x })

/-- The record at a position (R3). -/
def State.recAt? (s : State) (p : Nat) : Option HeadsetRecord :=
  s.registry.find? (fun r => r.position.val == p)

/-- The record has no attachment part (R2). -/
def Attachment.isIdle : Attachment → Bool
  | .idle => true
  | _ => false

/-- The record is in TRANSFER (R2). -/
def Attachment.inTransfer : Attachment → Bool
  | .transfer _ _ _ => true
  | _ => false

/-- The track of a record in SERVED or TRANSFER. -/
def Attachment.track? : Attachment → Option Track
  | .served _ _ t => some t
  | .transfer _ _ t => some t
  | _ => none

/-- The attachment with its track changed, in SERVED and TRANSFER. -/
def Attachment.mapTrack (f : Track → Track) : Attachment → Attachment
  | .served svc held t => .served svc held (f t)
  | .transfer svc c t => .transfer svc c (f t)
  | x => x

/-- The identity is in TRANSFER. -/
def State.isTransferring (s : State) (h : Identity) : Bool :=
  match s.rec? h with
  | some r => r.att.inTransfer
  | none => false

/-- The held resource of a headset: in SERVED its own field, in TRANSFER the context's source resource while present
(R2, R119; log 22). -/
def State.heldOf (s : State) (r : HeadsetRecord) : Option Resource :=
  match r.att with
  | .served _ held _ => some held
  | .transfer _ c _ =>
    match s.ctx c with
    | some x => x.source.map (fun p => ⟨x.sourceAnt, p⟩)
    | none => none
  | _ => none

/-! ## Notices -/

/-- The priority of a notice kind (R162). -/
def Notice.priority : Notice → Nat
  | .orphaned _ _ _ => 3
  | .unitState _ _ => 3
  | .denied _ _ _ => 2
  | .transferFailed _ _ _ _ _ => 2
  | .demoted _ _ _ => 2
  | .shedding _ => 2
  | .dropped _ => 2
  | .attached _ _ _ _ => 1
  | .recovered _ _ _ _ => 1
  | .detached _ _ => 1
  | .transferDone _ _ _ _ _ => 1
  | .promoted _ _ _ => 1
  | .venueState _ _ _ => 1
  | .route _ _ _ _ _ => 0
  | .mix _ _ _ => 0
  | .tapBlock _ _ => 0
  | .tapDone _ => 0

/-- A notice placed after every notice of equal or higher priority and before every notice of lower priority (R163). -/
def insertNotice (n : Notice) : List Notice → List Notice
  | [] => [n]
  | m :: rest => if n.priority ≤ m.priority then m :: insertNotice n rest else n :: m :: rest

/-- The queuing of a notice: dropped below the floor, placed while there is room, else lost with the lost flag (R163). -/
def ControlPort.queueNotice (c : ControlPort) (n : Notice) : ControlPort :=
  if n.priority < c.floor then c
  else if c.notices.length < Config.noticeQueue then { c with notices := insertNotice n c.notices }
  else { c with lost := true }

/-- The part with a notice queued (R163). -/
def State.notify (s : State) (n : Notice) : State := s.setCtrl (s.ctrl.queueNotice n)

/-! ## Events in progress -/

/-- An event that begins on a state, with nothing produced yet. -/
def Ev.start (s : State) : Ev := { st := s, cells := [], beforeWarm := none, late := [] }

/-- The event with the part's state changed. -/
def Ev.upd (e : Ev) (f : State → State) : Ev := { e with st := f e.st }

/-- The event with one more cell at the end of its run (R148). -/
def Ev.emit (e : Ev) (c : OutCell) : Ev := { e with cells := e.cells ++ [c] }

/-- The event with one more cell when the condition holds. -/
def Ev.emitIf (e : Ev) (b : Bool) (c : OutCell) : Ev := if b then e.emit c else e

/-- The event with a notice queued. -/
def Ev.notify (e : Ev) (n : Notice) : Ev := e.upd (·.notify n)

/-- The event with the lowest FREE slot of an antenna marked to be offered at its end (R124 step 6). -/
def Ev.offerLate (e : Ev) (a : AntennaNo) : Ev := { e with late := e.late ++ [a] }

/-- The ROUTE notice of a headset: a resource's place at an antenna, or NONE (R8). Its line sets are those of the profile
(R185). -/
def Ev.route (e : Ev) (p : Profile) (a : AntennaNo) (place : Option Place) : Ev :=
  e.notify (.route p.ident a place p.talk p.listen)

/-! ## The clock -/

/-- One millisecond of a running timer. -/
def Attachment.tick : Attachment → Attachment
  | .waiting a t => .waiting a (t - 1)
  | .orphan t => .orphan (t - 1)
  | x => x

/-- One millisecond of the receiver's quiet time. -/
def Receiver.tick : Receiver → Receiver
  | .inFrame b q => .inFrame b (q - 1)
  | .hunting => .hunting

/-- One millisecond passes: every running timer falls by 1 and stops at 0, where its expiry is pending (R151; log 5). While
the reset pin is asserted no timer runs (R173). -/
def State.tick (s : State) : State :=
  if s.resetPin then s
  else
    { s with
      registry := s.registry.map (fun r => { r with att := r.att.tick })
      contexts := s.contexts.map (fun x => x.map (fun c => { c with timer := c.timer - 1 }))
      ctrl := { s.ctrl with rx := s.ctrl.rx.tick } }

end Sys2Proof.Machine
end

