-- ==== Sys2Proof/Machine/Operands.lean ====
section
/-! DEFINITION. Operand forms: the bytes and words of a request or a cell read as the numbered things they name, absent when
they name none. -/

namespace Sys2Proof.Machine

/-- A number as a bounded number, absent out of range. -/
def bounded (n m : Nat) : Option (Fin n) := if h : m < n then some ⟨m, h⟩ else none

/-- The antenna a byte names, 0 to 47. -/
def antennaOf (b : Byte) : Option AntennaNo := bounded 48 b.toNat

/-- The venue a byte names, 0 to 15. -/
def venueOf (b : Byte) : Option VenueNo := bounded 16 b.toNat

/-- The crew line a byte names, 0 to 31. -/
def lineOf (b : Byte) : Option LineNo := bounded 32 b.toNat

/-- The crew class a byte names, 0 to 3. -/
def classOf (b : Byte) : Option ClassNo := bounded 4 b.toNat

/-- The context a byte names, 0 to 23. -/
def contextOf (b : Byte) : Option ContextNo := bounded 24 b.toNat

/-- The tap a byte names, 0 to 3. -/
def tapOf (b : Byte) : Option TapNo := bounded 4 b.toNat

/-- The two identities that name no headset, 0x000000 and 0xFFFFFF (R1). -/
def identityOk (h : Identity) : Bool := h != 0x000000 && h != 0xFFFFFF

/-- The options byte of a STEER: BREAK_FIRST, NO_CHECKS, PREEMPT from the lowest bit (R140). -/
def optionsOf (b : Byte) : Options :=
  { breakFirst := b.getLsbD 0, noChecks := b.getLsbD 1, preempt := b.getLsbD 2 }

/-- Membership of a crew line in a line set (R182). -/
def hasLine (s : LineSet) (n : LineNo) : Bool := s.getLsbD n.val

/-- The class is a member of a wake mask (R37). -/
def wakes (mask : BitVec 4) (c : ClassNo) : Bool := mask.getLsbD c.val

/-- Every antenna number in ascending order (R36). -/
def allAntennas : List AntennaNo := List.finRange 48

/-- Every slot number in ascending order. -/
def allSlots : List SlotNo := List.finRange 10

/-- Every carrier number in ascending order. -/
def allCarriers : List CarrierNo := List.finRange 4

/-- Every context number in ascending order. -/
def allContexts : List ContextNo := List.finRange 24

/-- Every tap number in ascending order. -/
def allTaps : List TapNo := List.finRange 4

/-- Every crew class in ascending order. -/
def allClasses : List ClassNo := List.finRange 4

end Sys2Proof.Machine
end

