-- ==== Sys2Proof/Machine/Flags.lean ====
section
/-! DEFINITION. Flags and pins that are computed from the part's state: CRDY, shedding and HSTALL at a taking and an arrival,
and the state of a carrier. -/

namespace Sys2Proof.Machine

/-- Input frame buffers in use: one for each complete frame, and one for the frame being received with a buffer (R156). -/
def ControlPort.buffersUsed (c : ControlPort) : Nat :=
  c.frames.length + (match c.rx with | .inFrame true _ => 1 | _ => 0)

/-- An answer frame is being sent on CTXD. -/
def ControlPort.sendingAnswer (c : ControlPort) : Bool :=
  match c.ctxd with
  | some (.answer _) => true
  | _ => false

/-- The CRDY pin (R156): a buffer is free and no answer frame waits or is being sent; deasserted while the reset pin is
asserted. -/
def State.crdy (s : State) : Bool :=
  !s.resetPin && decide (s.ctrl.buffersUsed < Config.frameBuffers) && s.ctrl.answers.isEmpty && !s.ctrl.sendingAnswer

/-- Occupancy of the head input buffer (R144). -/
def HeadPort.occupancy (p : HeadPort) : Nat := p.input.length

/-- Room in the head output queue (R149). -/
def HeadPort.room (p : HeadPort) : Nat := Config.outputCells - p.output.length

/-- HSTALL after an arrival (R146). -/
def stallAfterArrival (hstall : Bool) (occupancy : Nat) : Bool :=
  if Config.inputCells ≤ occupancy then true else hstall

/-- HSTALL after a taking (R146). -/
def stallAfterTaking (hstall : Bool) (occupancy : Nat) : Bool :=
  if occupancy ≤ Config.stallReleaseAt then false else hstall

/-- The three states of a carrier (R50). -/
inductive CarrierState where
  | free | sole | mixed
deriving DecidableEq, Repr

/-- The state of a carrier, given by its line set and the kinds of its lines (R50). -/
def State.carrierState (s : State) (c : Carrier) : CarrierState :=
  match c with
  | [] => .free
  | l :: _ => if s.lineKind l.line = .cue then .sole else .mixed

/-- A set of crew lines holds a CUE line (R104). -/
def State.hasCue (s : State) (set : LineSet) : Bool :=
  (List.finRange 32).any (fun m : LineNo => hasLine set m && (s.lineKind m == .cue))

end Sys2Proof.Machine
end

