-- ==== Sys2Proof/Machine/Venues.lean ====
section
/-! DEFINITION. The venue table's shared operations: the running claim count, the closing of a drained venue, the wake, and
the MODE cells (chapter 2). -/

namespace Sys2Proof.Machine

/-- The present, ONLINE antennas of a venue in ascending number (R36). -/
def State.venueUnits (s : State) (v : VenueNo) : List AntennaNo :=
  allAntennas.filter (fun a => (s.ant a).present && (s.ant a).online && (s.ant a).venue == v)

/-- The present, ONLINE antennas of the part in ascending number (R36). -/
def State.onlineUnits (s : State) : List AntennaNo :=
  allAntennas.filter (fun a => (s.ant a).present && (s.ant a).online)

/-- The present antennas of a venue (R176). -/
def State.presentIn (s : State) (v : VenueNo) : List AntennaNo :=
  allAntennas.filter (fun a => (s.ant a).present && (s.ant a).venue == v)

/-- The identity window of a venue admits an identity (R39). -/
def Venue.admits (v : Venue) (h : Identity) : Bool :=
  decide (v.high.toNat < v.low.toNat) || decide (v.low.toNat ≤ h.toNat ∧ h.toNat ≤ v.high.toNat)

/-- The venue accepts a headset of a class as a transfer target (R88). -/
def Venue.accepts (v : Venue) (c : ClassNo) : Bool :=
  match v.state with
  | .opened => true
  | .show => true
  | .closed => wakes v.wake c
  | .draining => false

/-- A MODE cell for each of the antennas (R36). -/
def Ev.modeCells (e : Ev) (units : List AntennaNo) (serve : Bool) : Ev :=
  { e with cells := e.cells ++ units.map (fun a => OutCell.mode a serve) }

/-- The unit mode that a venue state calls for: SERVE but in CLOSED (R32, R36). -/
def VenueState.serves : VenueState → Bool
  | .closed => false
  | .opened => true
  | .show => true
  | .draining => true

/-- The part with the state of one venue changed. -/
def State.setVenueState (s : State) (v : VenueNo) (x : VenueState) : State :=
  s.setVen v { s.ven v with state := x }

/-- A venue becomes CLOSED: MODE BEACON to its antennas and a VENUE_STATE notice with the cause (R43, R44). -/
def Ev.closeVenue (e : Ev) (v : VenueNo) (cause : VenueCause) : Ev :=
  let e := e.upd (·.setVenueState v .closed)
  let e := e.modeCells (e.st.venueUnits v) false
  e.notify (.venueState v .closed cause)

/-- A claim begins at an antenna of the venue (R40). -/
def Ev.claimUp (e : Ev) (v : VenueNo) : Ev :=
  e.upd (fun s => s.setVen v { s.ven v with claims := (s.ven v).claims + 1 })

/-- A claim ends at an antenna of the venue (R40); a DRAINING venue brought to 0 closes at that moment (R44). -/
def Ev.claimDown (e : Ev) (v : VenueNo) : Ev :=
  let e := e.upd (fun s => s.setVen v { s.ven v with claims := (s.ven v).claims - 1 })
  if (e.st.ven v).state = .draining ∧ (e.st.ven v).claims = 0 then e.closeVenue v .drained else e

/-- The venue of an antenna, as the antenna table holds it. -/
def State.venueOfAnt (s : State) (a : AntennaNo) : VenueNo := (s.ant a).venue

/-- The wake of a CLOSED venue (R45): OPEN, MODE SERVE to its antennas, VENUE_STATE with cause WAKE. The caller has found
the class in the wake mask. -/
def Ev.wakeVenue (e : Ev) (v : VenueNo) : Ev :=
  let e := e.upd (·.setVenueState v .opened)
  let e := e.modeCells (e.st.venueUnits v) true
  e.notify (.venueState v .opened .wake)

/-- The wake, when the venue is CLOSED. -/
def Ev.wakeIfClosed (e : Ev) (v : VenueNo) : Ev :=
  if (e.st.ven v).state = .closed then e.wakeVenue v else e

/-- The listener places on a carrier, served and reserved (R51). -/
def Carrier.places (c : Carrier) : Nat := (c.map (fun l => l.served + l.reserved)).sum

/-- The claims at an antenna: slots not FREE, listener places, wait entries (R31). -/
def Antenna.claims (x : Antenna) : Nat :=
  x.slots.toList.countP (· ≠ .free) + (x.carriers.toList.map Carrier.places).sum + x.wait.length

end Sys2Proof.Machine
end

