-- ==== Sys2Proof/Machine/Carriers.lean ====
section
/-! DEFINITION. The carrier allocator (chapter 3): placing a monitor line, the placement test, conversion and release of a
listener place, and the MIX cells and notices. -/

namespace Sys2Proof.Machine

/-- The carrier carries the line (R50). -/
def Carrier.carries (c : Carrier) (m : LineNo) : Bool := c.any (fun l => l.line == m)

/-- The lines of a carrier in ascending number (R58). -/
def Carrier.lines (c : Carrier) : List LineNo := c.map (·.line)

/-- The placement test (R54): the carrier that a placement of the line would take, by the steps of R52, or none. -/
def State.placementTest (s : State) (a : AntennaNo) (m : LineNo) : Option CarrierNo :=
  if !(s.ant a).present || !(s.ant a).online then none
  else
    match allCarriers.find? (fun k => (s.carrier a k).carries m) with
    | some k => some k
    | none =>
      match allCarriers.find? (fun k => (s.carrier a k).isEmpty) with
      | some k => some k
      | none =>
        if s.lineKind m = .opened then
          allCarriers.find? (fun k =>
            s.carrierState (s.carrier a k) == .mixed && decide ((s.carrier a k).length < Config.linesPerCarrier))
        else none

/-- A line with new counts put into a line set in ascending line number. -/
def Carrier.insertLine (x : CarrierLine) : Carrier → Carrier
  | [] => [x]
  | l :: rest => if x.line < l.line then x :: l :: rest else l :: Carrier.insertLine x rest

/-- A carrier with one more place for the line: its count rises, or the line joins the set (R53). -/
def Carrier.addPlace (c : Carrier) (m : LineNo) (reserved : Bool) : Carrier :=
  if c.carries m then
    c.map (fun l => if l.line = m then
      (if reserved then { l with reserved := l.reserved + 1 } else { l with served := l.served + 1 }) else l)
  else
    Carrier.insertLine (if reserved then ⟨m, 0, 1⟩ else ⟨m, 1, 0⟩) c

/-- A carrier with one place fewer for the line; a line whose listener count reaches 0 leaves the set (R56). -/
def Carrier.dropPlace (c : Carrier) (m : LineNo) (reserved : Bool) : Carrier :=
  (c.map (fun l => if l.line = m then
    (if reserved then { l with reserved := l.reserved - 1 } else { l with served := l.served - 1 }) else l)).filter
    (fun l => decide (1 ≤ l.served + l.reserved))

/-- A carrier with a reserved place of the line turned into a served place (R55). -/
def Carrier.convertPlace (c : Carrier) (m : LineNo) : Carrier :=
  c.map (fun l => if l.line = m then { l with reserved := l.reserved - 1, served := l.served + 1 } else l)

/-- The MIX cell, to an ONLINE antenna alone, and the MIX notice of a changed line set (R57 to R59). -/
def Ev.mixChanged (e : Ev) (a : AntennaNo) (k : CarrierNo) : Ev :=
  let lines := (e.st.carrier a k).lines
  (e.emitIf (e.st.ant a).online (.mix a k lines)).notify (.mix a k lines)

/-- A carrier takes a new content; a change of its line set is reported (R58, R59). -/
def Ev.changeCarrier (e : Ev) (a : AntennaNo) (k : CarrierNo) (x : Carrier) : Ev :=
  let changed := decide ((e.st.carrier a k).lines ≠ x.lines)
  let e := e.upd (·.setCarrier a k x)
  if changed then e.mixChanged a k else e

/-- A placement on the carrier that the search names: one more place and one more claim (R53). -/
def Ev.place (e : Ev) (a : AntennaNo) (k : CarrierNo) (m : LineNo) (reserved : Bool) : Ev :=
  (e.changeCarrier a k ((e.st.carrier a k).addPlace m reserved)).claimUp (e.st.venueOfAnt a)

/-- The release of one listener place: MIX cell and notice if the line set changes, and one claim fewer (R56, R57). -/
def Ev.releasePlace (e : Ev) (a : AntennaNo) (k : CarrierNo) (m : LineNo) (reserved : Bool) : Ev :=
  (e.changeCarrier a k ((e.st.carrier a k).dropPlace m reserved)).claimDown (e.st.venueOfAnt a)

/-- The conversion of a reserved place into a served place: no cell, no notice, no change of claims (R55). -/
def Ev.convertPlace (e : Ev) (a : AntennaNo) (k : CarrierNo) (m : LineNo) : Ev :=
  e.upd (fun s => s.setCarrier a k ((s.carrier a k).convertPlace m))

/-- The antennas that carry a line, in ascending number (R48). -/
def State.carriedAt (s : State) (m : LineNo) : List AntennaNo :=
  allAntennas.filter (fun a => allCarriers.any (fun k => (s.carrier a k).carries m))

end Sys2Proof.Machine
end

