-- ==== Sys2Proof/Machine/Waiting.lean ====
section
/-! DEFINITION. The registry's detach and orphan steps (R7, R9), and the admission unit's wait lists, offers, grants and
promotions with the release of a talk slot (R30, R107 to R114). -/

namespace Sys2Proof.Machine

/-! ## Attachment parts -/

/-- The detach step: the attachment part is removed whole (R7). -/
def Ev.detach (e : Ev) (h : Identity) : Ev := e.upd (·.setAtt h .idle)

/-- The track a grant creates: no candidate, count 0, one unmeasured entry for the antenna, pinned SERVING (R11, R76). -/
def Track.granted (a : AntennaNo) : Track :=
  { candidate := none, count := 0, hearing := [⟨a, none, 0, 0, false, .serving⟩] }

/-- The service a talk slot gives to a profile (R101, R112). -/
def slotService (p : Profile) : Service :=
  match p.mode with
  | .duplex => .talk
  | .listen => .listenSlot

/-- The service a place gives to a profile (R101, R123). -/
def placeService (p : Profile) (place : Place) : Service :=
  match p.mode, place with
  | .duplex, _ => .talk
  | .listen, .slot _ => .listenSlot
  | .listen, .carrier _ => .listen

/-- Entry into ORPHAN: the attachment part is rebuilt with the hold timer at t_hold, and an ORPHANED notice is queued (R9). -/
def Ev.orphan (e : Ev) (h : Identity) (last : AntennaNo) (cause : OrphanCause) : Ev :=
  (e.upd (fun s => s.setAtt h (.orphan (s.tuning.tHold * 1000)))).notify (.orphaned h last cause)

/-- The ATTACHED notice, or RECOVERED when the grant ends a recovery, and then the ROUTE notice (R15, R112, R116). -/
def Ev.grantNotices (e : Ev) (p : Profile) (a : AntennaNo) (place : Place) (svc : Service) (recovery : Bool) : Ev :=
  (e.notify (if recovery then .recovered p.ident a place svc else .attached p.ident a place svc)).route p a (some place)

/-! ## Wait lists -/

/-- The wait list of an antenna has room (R107). -/
def State.waitRoom (s : State) (a : AntennaNo) : Bool := decide ((s.ant a).wait.length < Config.waitEntries)

/-- An entry joins a wait list at its tail, one claim more (R107, R40). -/
def Ev.appendWait (e : Ev) (a : AntennaNo) (w : WaitEntry) : Ev :=
  (e.upd (fun s => s.setWait a ((s.ant a).wait ++ [w]))).claimUp (e.st.venueOfAnt a)

/-- The entry of a headset leaves a wait list from wherever it stands, one claim fewer (R107, R114). -/
def Ev.removeWait (e : Ev) (a : AntennaNo) (h : Identity) : Ev :=
  (e.upd (fun s => s.setWait a ((s.ant a).wait.eraseP (fun w => w.headset == h)))).claimDown (e.st.venueOfAnt a)

/-- The entries of a wait list of kind WAIT_JOIN, in list order. -/
def State.waitJoins (s : State) (a : AntennaNo) : List Identity :=
  ((s.ant a).wait.filter (fun w => match w.kind with | .join _ => true | .promote => false)).map (·.headset)

/-! ## Arbitration -/

/-- An offer considers an entry: every one but a WAIT_PROMOTE entry whose headset is in TRANSFER (R109). -/
def State.considers (s : State) (w : WaitEntry) : Bool :=
  match w.kind with
  | .join _ => true
  | .promote => !s.isTransferring w.headset

/-- The classes in the order in which FIXED arbitration serves them (R110). -/
def fixedOrder : List ClassNo := [3, 2, 1, 0]

/-- The classes in the order in which ROTATING arbitration searches them, from the pointer (R111). -/
def rotatingOrder (p : ClassNo) : List ClassNo := [p - 1, p - 2, p - 3, p]

/-- The oldest entry of the first class of the order that has one (R110, R111). -/
def chooseEntry (order : List ClassNo) (ws : List WaitEntry) : Option WaitEntry :=
  order.findSome? (fun c => ws.find? (fun w => w.cls == c))

/-- The entry an offer at an antenna chooses (R109 to R111). -/
def State.offerChoice (s : State) (a : AntennaNo) : Option WaitEntry :=
  chooseEntry
    (match s.tuning.arbitration with
      | .fixed => fixedOrder
      | .rotating => rotatingOrder (s.ant a).rotation)
    ((s.ant a).wait.filter s.considers)

/-- The rotation pointer takes the class served, under ROTATING alone (R110, R111). -/
def State.rotate (s : State) (a : AntennaNo) (c : ClassNo) : State :=
  match s.tuning.arbitration with
  | .fixed => s
  | .rotating => s.setAnt a { s.ant a with rotation := c }

/-! ## Grants of an offered slot -/

/-- The claim of a slot: HELD by the headset, one claim more (R29). -/
def Ev.claimSlot (e : Ev) (a : AntennaNo) (i : SlotNo) (h : Identity) : Ev :=
  (e.upd (·.setSlot a i (.held h))).claimUp (e.st.venueOfAnt a)

/-- The grant of an offered slot to a WAIT_JOIN entry (R112). -/
def Ev.grantJoin (e : Ev) (a : AntennaNo) (i : SlotNo) (p : Profile) (recovery : Bool) : Ev :=
  let e := e.removeWait a p.ident
  let e := e.claimSlot a i p.ident
  let e := e.upd (·.setAtt p.ident (.served (slotService p) ⟨a, .slot i⟩ (Track.granted a)))
  let e := e.emit (.seat a p.ident (.slot i))
  e.grantNotices p a (.slot i) (slotService p) recovery

/-- The promotion of a DEMOTED headset to an offered slot (R113). -/
def Ev.promote (e : Ev) (a : AntennaNo) (i : SlotNo) (p : Profile) (held : Resource) (t : Track) : Ev :=
  let e := e.removeWait a p.ident
  let e := e.claimSlot a i p.ident
  let e := e.emit (.seat a p.ident (.slot i))
  let e := match held.place with
    | .carrier k => e.releasePlace held.ant k p.monitor false
    | .slot _ => e
  let e := e.upd (·.setAtt p.ident (.served .talk ⟨a, .slot i⟩ t))
  let e := e.notify (.promoted p.ident a i)
  e.route p a (some (.slot i))

/-- The grant of an offered slot to the entry that the arbitration chose (R109). The last case is met in no reachable state:
an entry's headset is WAITING or SERVED (R107). -/
def Ev.grantEntry (e : Ev) (a : AntennaNo) (i : SlotNo) (w : WaitEntry) : Ev :=
  match w.kind, e.st.rec? w.headset with
  | .join recovery, some r => e.grantJoin a i r.profile recovery
  | .promote, some { profile := p, att := .served _ held t, .. } => e.promote a i p held t
  | _, _ => e

/-- The offer of a FREE slot to the antenna's wait list (R109): at most one grant, and the rotation pointer after it. -/
def Ev.offer (e : Ev) (a : AntennaNo) (i : SlotNo) : Ev :=
  match e.st.offerChoice a with
  | none => e
  | some w => (e.grantEntry a i w).upd (·.rotate a w.cls)

/-- The release of a talk slot (R30): FREE, one claim fewer, and the offer when the antenna is ONLINE. -/
def Ev.releaseSlot (e : Ev) (a : AntennaNo) (i : SlotNo) : Ev :=
  let e := (e.upd (·.setSlot a i .free)).claimDown (e.st.venueOfAnt a)
  if (e.st.ant a).online then e.offer a i else e

/-- The lowest FREE slot of an antenna (R29). -/
def State.freeSlot (s : State) (a : AntennaNo) : Option SlotNo :=
  allSlots.find? (fun i => s.slot a i == .free)

/-- The lowest FREE slot of an antenna, if it has one, is offered (R109, R124 step 6). -/
def Ev.offerLowest (e : Ev) (a : AntennaNo) : Ev :=
  match e.st.freeSlot a with
  | none => e
  | some i => e.offer a i

/-- The offers that R124 puts at the end of the event. -/
def Ev.finish (e : Ev) : Ev :=
  e.late.foldl (fun e a => e.offerLowest a) { e with late := [] }

/-! ## Giving up a held resource -/

/-- The release of a headset's held resource in the maps: a slot with its offer (R30); a carrier place, and the WAIT_PROMOTE
entry of a DEMOTED headset with it (R56, R114; log 15). -/
def Ev.releaseHeld (e : Ev) (p : Profile) (svc : Service) (held : Resource) : Ev :=
  match held.place with
  | .slot i => e.releaseSlot held.ant i
  | .carrier k =>
    let e := e.releasePlace held.ant k p.monitor false
    if svc = .demoted then e.removeWait held.ant p.ident else e

/-- The release of a reservation at a transfer's target: a slot with its offer (R30), or a reserved place (R56). -/
def Ev.releaseReserved (e : Ev) (p : Profile) (a : AntennaNo) (place : Place) : Ev :=
  match place with
  | .slot i => e.releaseSlot a i
  | .carrier k => e.releasePlace a k p.monitor true

/-- A transfer context is freed, and its timer with it (R120). -/
def Ev.freeCtx (e : Ev) (c : ContextNo) : Ev := e.upd (·.setCtx c none)

end Sys2Proof.Machine
end

