-- ==== Sys2Proof/Machine/Admission.lean ====
section
/-! DEFINITION. The admission unit (chapter 6): what a headset needs, the talk slot search with re-seat and pre-emption, the
taking of a resource for a JOIN or for a transfer, and the checks of a JOIN. -/

namespace Sys2Proof.Machine

/-! ## The search (it changes nothing) -/

/-- A talk slot found by the search (R102): a FREE slot; a slot of a LISTEN_SLOT holder that moves to a carrier; a slot of a
TALK victim that is demoted to a carrier. -/
inductive SlotPlan where
  | free (i : SlotNo)
  | reseat (i : SlotNo) (holder : Profile) (k : CarrierNo)
  | demote (i : SlotNo) (victim : Profile) (k : CarrierNo)
deriving DecidableEq, Repr

/-- A resource found for a headset (R101): a carrier place, or a talk slot. -/
inductive NeedPlan where
  | carrier (k : CarrierNo)
  | slot (p : SlotPlan)
deriving DecidableEq, Repr

/-- The profile of the SERVED holder of a slot with the service named, if the slot has one. A holder in TRANSFER is no such
holder (R103, R104). -/
def State.slotHolder (s : State) (a : AntennaNo) (i : SlotNo) (svc : Service) : Option Profile :=
  match s.slot a i with
  | .held h =>
    match s.rec? h with
    | some { profile := p, att := .served svc' _ _, .. } => if svc' = svc then some p else none
    | _ => none
  | _ => none

/-- Slot numbers from the highest down (R103, R104). -/
def slotsDown : List SlotNo := allSlots.reverse

/-- The re-seat a slot offers: its LISTEN_SLOT holder and the carrier its monitor line would take (R103). -/
def State.reseatAt (s : State) (a : AntennaNo) (i : SlotNo) : Option SlotPlan :=
  match s.slotHolder a i .listenSlot with
  | none => none
  | some p => (s.placementTest a p.monitor).map (fun k => .reseat i p k)

/-- The demotion a slot offers to a mover's class, for a victim of class `c` (R104). -/
def State.demoteAt (s : State) (a : AntennaNo) (c : ClassNo) (i : SlotNo) : Option SlotPlan :=
  match s.slotHolder a i .talk with
  | none => none
  | some p =>
    if p.cls = c ∧ s.hasCue p.talk = false then (s.placementTest a p.monitor).map (fun k => .demote i p k) else none

/-- The pre-emption step: wait room, then the lowest class below the mover's, then the highest slot (R104). -/
def State.preemption (s : State) (a : AntennaNo) (mover : ClassNo) : Option SlotPlan :=
  if s.waitRoom a then
    (allClasses.filter (· < mover)).findSome? (fun c => slotsDown.findSome? (s.demoteAt a c))
  else none

/-- The talk slot search at an antenna for a mover of a class (R102). -/
def State.slotSearch (s : State) (a : AntennaNo) (mover : ClassNo) (preempt : Bool) : Option SlotPlan :=
  if !(s.ant a).present || !(s.ant a).online then none
  else
    match s.freeSlot a with
    | some i => some (.free i)
    | none =>
      match slotsDown.findSome? (s.reseatAt a) with
      | some plan => some plan
      | none => if preempt then s.preemption a mover else none

/-- What a profile needs at an antenna (R101): a talk slot in DUPLEX; in LISTEN a carrier place first. -/
def State.findNeed (s : State) (a : AntennaNo) (p : Profile) (preempt : Bool) : Option NeedPlan :=
  match p.mode with
  | .duplex => (s.slotSearch a p.cls preempt).map .slot
  | .listen =>
    match s.placementTest a p.monitor with
    | some k => some (.carrier k)
    | none => (s.slotSearch a p.cls preempt).map .slot

/-- The place a plan takes. -/
def NeedPlan.place : NeedPlan → Place
  | .carrier k => .carrier k
  | .slot (.free i) => .slot i
  | .slot (.reseat i _ _) => .slot i
  | .slot (.demote i _ _) => .slot i

/-! ## Taking what the search found -/

/-- A SERVED headset moved to a carrier of its own antenna with another service; its track is unchanged (R103, R105). -/
def Ev.moveToCarrier (e : Ev) (h : Identity) (svc : Service) (held : Resource) : Ev :=
  e.upd (fun s => s.updRec h (fun r =>
    match r.att with
    | .served _ _ t => { r with att := .served svc held t }
    | _ => r))

/-- A re-seat, up to the hand-over of the slot (R103). -/
def Ev.reseat (e : Ev) (a : AntennaNo) (holder : Profile) (k : CarrierNo) : Ev :=
  let e := e.place a k holder.monitor false
  let e := e.moveToCarrier holder.ident .listen ⟨a, .carrier k⟩
  let e := e.emit (.seat a holder.ident (.carrier k))
  e.route holder a (some (.carrier k))

/-- A demotion, up to the hand-over of the slot (R105). -/
def Ev.demote (e : Ev) (a : AntennaNo) (victim : Profile) (k : CarrierNo) (mover : Identity) : Ev :=
  let e := e.place a k victim.monitor false
  let e := e.moveToCarrier victim.ident .demoted ⟨a, .carrier k⟩
  let e := e.appendWait a ⟨victim.ident, .promote, victim.cls⟩
  let e := e.emit (.seat a victim.ident (.carrier k))
  let e := e.notify (.demoted victim.ident a mover)
  e.route victim a (some (.carrier k))

/-- The slot state of a new claimant: HELD, or RESERVED for its context (R29, R101). -/
def claimant (h : Identity) : Option ContextNo → SlotState
  | none => .held h
  | some c => .reserved h c

/-- The taking of a talk slot for a mover: Claim or Reserve of a FREE slot, one claim more; or a hand-over, which leaves the
claim count as it is (R29). -/
def Ev.takeSlot (e : Ev) (a : AntennaNo) (mover : Identity) (plan : SlotPlan) (ctx : Option ContextNo) : Ev :=
  match plan with
  | .free i => (e.upd (·.setSlot a i (claimant mover ctx))).claimUp (e.st.venueOfAnt a)
  | .reseat i holder k => (e.reseat a holder k).upd (·.setSlot a i (claimant mover ctx))
  | .demote i victim k => (e.demote a victim k mover).upd (·.setSlot a i (claimant mover ctx))

/-- The taking of a resource, as held (no context) or as reserved for a context (R101). -/
def Ev.takeNeed (e : Ev) (a : AntennaNo) (p : Profile) (plan : NeedPlan) (ctx : Option ContextNo) : Ev :=
  match plan with
  | .carrier k => e.place a k p.monitor ctx.isSome
  | .slot sp => e.takeSlot a p.ident sp ctx

/-! ## The admission of a JOIN -/

/-- The ROUTE notice with resource NONE of an event that ends without a grant, for the antenna of the resource released in
it, if one was (R8, R13). -/
def Ev.lostRoute (e : Ev) (p : Profile) (lost : Option AntennaNo) : Ev :=
  match lost with
  | none => e
  | some a => e.route p a none

/-- The REFUSE reason that goes with a DENIED reason; OFFLINE goes with no cell (R117, R33). -/
def DeniedReason.refuse : DeniedReason → Option RefuseReason
  | .full => some .full
  | .barred => some .barred
  | .closed => some .closed
  | .window => some .window
  | .offline => none

/-- The REFUSE cell, where the reason has one, and the DENIED notice (R117). -/
def Ev.deny (e : Ev) (h : Identity) (a : AntennaNo) (reason : DeniedReason) : Ev :=
  (match reason.refuse with
    | some r => e.emit (.refuse a h r)
    | none => e).notify (.denied h a reason)

/-- The refusal of a JOIN: REFUSE cell, DENIED notice, and the ROUTE notice of a re-attach (R117; log 18). -/
def Ev.refuseJoin (e : Ev) (p : Profile) (a : AntennaNo) (reason : DeniedReason) (lost : Option AntennaNo) : Ev :=
  (e.deny p.ident a reason).lostRoute p lost

/-- The grant of a JOIN (R116). -/
def Ev.grantAdmission (e : Ev) (p : Profile) (a : AntennaNo) (plan : NeedPlan) (recovery : Bool) : Ev :=
  let svc := placeService p plan.place
  let e := e.takeNeed a p plan none
  let e := e.upd (·.setAtt p.ident (.served svc ⟨a, plan.place⟩ (Track.granted a)))
  let e := e.emit (.seat a p.ident plan.place)
  e.grantNotices p a plan.place svc recovery

/-- The wait of a JOIN (R108). -/
def Ev.waitAdmission (e : Ev) (p : Profile) (a : AntennaNo) (recovery : Bool) (lost : Option AntennaNo) : Ev :=
  let e := e.appendWait a ⟨p.ident, .join recovery, p.cls⟩
  let e := e.upd (fun s => s.setAtt p.ident (.waiting a (s.tuning.tWait * 1000)))
  e.lostRoute p lost

/-- The last two checks of a JOIN, after the venue check: window, then resource (R116). -/
def Ev.admitOpen (e : Ev) (p : Profile) (a : AntennaNo) (recovery : Bool) (lost : Option AntennaNo) : Ev :=
  if (e.st.ven (e.st.venueOfAnt a)).admits p.ident then
    match e.st.findNeed a p e.st.tuning.preempt with
    | some plan => e.grantAdmission p a plan recovery
    | none => if e.st.waitRoom a then e.waitAdmission p a recovery lost else e.refuseJoin p a .full lost
  else e.refuseJoin p a .window lost

/-- The checks of a JOIN at an antenna, in the order of R116. `lost` is the antenna of the resource that the event has
released before, and `recovery` says that the JOIN came from ORPHAN (R15). -/
def Ev.admitJoin (e : Ev) (p : Profile) (a : AntennaNo) (recovery : Bool) (lost : Option AntennaNo) : Ev :=
  let v := e.st.venueOfAnt a
  if (e.st.ant a).barred then e.refuseJoin p a .barred lost
  else
    match (e.st.ven v).state with
    | .draining => e.refuseJoin p a .closed lost
    | .closed =>
      if wakes (e.st.ven v).wake p.cls then (e.wakeVenue v).admitOpen p a recovery lost
      else e.refuseJoin p a .closed lost
    | .opened => e.admitOpen p a recovery lost
    | .show => e.admitOpen p a recovery lost

end Sys2Proof.Machine
end

