-- ==== Sys2Proof/Machine/Measure.lean ====
section
/-! DEFINITION. The capture of measurement records by the taps (R179), the quality unit's arithmetic (R63 to R68, R70) and the
hearing list (R72 to R80). -/

namespace Sys2Proof.Machine

/-! ## Capture -/

/-- The kind of a measurement record. -/
def TapRecord.kind : TapRecord → TapKind
  | .measure _ _ _ _ _ => .measure
  | .round _ _ _ _ _ _ _ => .round

/-- The antenna that a selector reads: of the HEAR, or the serving antenna of the round (R179). -/
def TapRecord.antenna : TapRecord → AntennaNo
  | .measure a _ _ _ _ => a
  | .round a _ _ _ _ _ _ => a

/-- A running tap admits a record: its kind, and selector 0 or the antenna plus 1 (R179). -/
def Tap.admits (t : Tap) (r : TapRecord) : Bool :=
  t.running && t.kind == r.kind && (t.selector == 0 || t.selector == r.antenna.val + 1)

/-- One tap captures a record, skips it with its gap flag, or leaves it; a count that reaches 0 ends the capture or reloads,
with TAP_DONE or TAP_BLOCK (R179). -/
def Ev.captureAt (e : Ev) (r : TapRecord) (n : TapNo) : Ev :=
  let t := e.st.tap n
  if !t.admits r then e
  else if t.buffer.length < Config.tapBuffer then
    let t := { t with buffer := t.buffer ++ [r], remaining := t.remaining - 1 }
    if t.remaining = 0 then
      if t.circular then
        let t := { t with remaining := t.count, block := t.block + 1 }
        (e.upd (·.setTap n t)).notify (.tapBlock n t.block)
      else (e.upd (·.setTap n { t with running := false })).notify (.tapDone n)
    else e.upd (·.setTap n t)
  else e.upd (·.setTap n { t with gap := true })

/-- A record is offered to the taps: each that admits it captures it into its own buffer (R179). The order of the taps among
themselves, and so of their TAP_DONE and TAP_BLOCK notices, is stated by no rule: ascending tap number is the model's choice
(DESIGN CHOICE, log 25). -/
def Ev.capture (e : Ev) (r : TapRecord) : Ev := allTaps.foldl (fun e n => e.captureAt r n) e

/-! ## Quality -/

/-- The effective level of a level code, and whether it clips (R63). -/
def effectiveLevel (code : Byte) : Nat × Bool :=
  if code = 251 then (0, true) else if code = 255 then (250, true) else (code.toNat, false)

/-- The effective error count, and whether it clips (R64). -/
def effectiveErrors (count : Byte) : Nat × Bool :=
  if count.toNat ≤ 64 then (count.toNat, false) else (64, true)

/-- The quality of a report, and whether the update clips (R65, R66). -/
def quality (level errors : Byte) : Nat × Bool :=
  let l := effectiveLevel level
  let x := effectiveErrors errors
  (l.1 - 3 * x.1, l.2 || x.2 || decide (l.1 < 3 * x.1))

/-- The average after a report of quality q: seeded at 16q, or stepped toward it by the difference over 2^k, truncated
toward zero (R67, R68). -/
def averageAfter (k : Nat) (old : Option Nat) (q : Nat) : Nat :=
  match old with
  | none => 16 * q
  | some a => ((a : Int) + ((16 * q : Int) - a).tdiv (2 ^ k)).toNat

/-! ## The hearing list -/

/-- The entry of an antenna in a hearing list. -/
def entryOf (l : List HearEntry) (a : AntennaNo) : Option HearEntry := l.find? (fun x => x.ant == a)

/-- The list without the entry nearest the tail whose pin is NONE (R75). -/
def dropReplaced (l : List HearEntry) : List HearEntry := (l.reverse.eraseP (fun x => x.pin == .unpinned)).reverse

/-- A new entry at the head, with a replacement when the list is full (R74, R75). -/
def addEntry (x : HearEntry) (l : List HearEntry) : List HearEntry :=
  x :: (if l.length < Config.hearingEntries then l else dropReplaced l)

/-- The list after a HEAR from an antenna (R62 steps 2 to 5, R73 to R75). -/
def hearUpdate (k : Nat) (a : AntennaNo) (q : Nat) (clip : Bool) (l : List HearEntry) : List HearEntry :=
  match entryOf l a with
  | some x =>
    { x with avg := some (averageAfter k x.avg q), age := 0, clip := clip } :: l.eraseP (fun y => y.ant == a)
  | none => addEntry ⟨a, some (averageAfter k none q), 0, 0, clip, .unpinned⟩ l

/-- The ageing of a round: unpinned entries age by 1, and entries older than the limit leave (R78). -/
def ageList (limit : Nat) (l : List HearEntry) : List HearEntry :=
  (l.map (fun x => if x.pin = .unpinned then { x with age := x.age + 1 } else x)).filter (fun x => decide (x.age ≤ limit))

/-- The count-down of the backoffs of a round (R79). -/
def countDownBackoff (l : List HearEntry) : List HearEntry := l.map (fun x => { x with backoff := x.backoff - 1 })

/-- The list at a transfer start: the target entry pinned TARGET, created unmeasured where it is missing (R76). -/
def pinTarget (a : AntennaNo) (l : List HearEntry) : List HearEntry :=
  match entryOf l a with
  | some _ => l.map (fun x => if x.ant = a then { x with pin := .target } else x)
  | none => addEntry ⟨a, none, 0, 0, false, .target⟩ l

/-- The list at a completion: the target entry alone is pinned, SERVING, with age 0 (R76). -/
def pinLanded (a : AntennaNo) (l : List HearEntry) : List HearEntry :=
  l.map (fun x => if x.ant = a then { x with pin := .serving, age := 0 } else { x with pin := .unpinned })

/-- The list at a return: the target entry takes pin NONE and the backoff in force (R76, R79); no TARGET pin is left. -/
def unpinTarget (a : AntennaNo) (backoff : Nat) (l : List HearEntry) : List HearEntry :=
  l.map (fun x =>
    if x.ant = a then { x with pin := .unpinned, backoff := backoff }
    else if x.pin = .target then { x with pin := .unpinned } else x)

/-! ## The score -/

/-- The load of an antenna for a headset: slots RESERVED or HELD by others (R28). -/
def State.load (s : State) (a : AntennaNo) (h : Identity) : Nat :=
  allSlots.countP (fun i =>
    match s.slot a i with
    | .free => false
    | .reserved h' _ => h' != h
    | .held h' => h' != h)

/-- The score of an average at an antenna for a profile, in sixteenths of a half-dB (R70). -/
def State.score (s : State) (p : Profile) (a : AntennaNo) (avg : Nat) : Int :=
  (avg : Int) + (if s.venueOfAnt a = p.home then 16 * (s.tuning.homeBonus : Int) else 0)
    - 16 * (s.tuning.loadWeight : Int) * (s.load a p.ident : Int)

end Sys2Proof.Machine
end

