-- ==== Sys2Proof/Machine/Transfer.lean ====
section
/-! DEFINITION. The transfer engine (chapter 7): the start, the three endings, the source release of BREAK_FIRST and of a lost
source, and the rules of READY, NOROOM, the timers and the loss of a unit. -/

namespace Sys2Proof.Machine

/-- A headset in TRANSFER with everything its transfer concerns. -/
structure Moving where
  profile : Profile
  service : Service
  ctx : ContextNo
  track : Track
  context : Context
deriving DecidableEq, Repr

/-- The transfer of a headset, when it has one (R119). -/
def State.movingOf (s : State) (h : Identity) : Option Moving :=
  match s.rec? h with
  | some { profile := p, att := .transfer svc c t, .. } =>
    match s.ctx c with
    | some x => some ⟨p, svc, c, t, x⟩
    | none => none
  | _ => none

/-- The transfer of a context, when it is in use (R119). -/
def State.movingIn (s : State) (c : ContextNo) : Option Moving :=
  match s.ctx c with
  | some x => s.movingOf x.headset
  | none => none

/-- The lowest-numbered free context (R120). -/
def State.freeContext (s : State) : Option ContextNo := allContexts.find? (fun c => (s.ctx c).isNone)

/-- The source resource of a transfer, while present. -/
def Moving.source (m : Moving) : Option Resource := m.context.source.map (fun p => ⟨m.context.sourceAnt, p⟩)

/-! ## The start -/

/-- The target resource search of a transfer start: the need of the profile, or a FREE slot alone for a DEMOTED headset
(R96, R101, R143). -/
def State.transferNeed (s : State) (a : AntennaNo) (p : Profile) (svc : Service) (preempt : Bool) : Option NeedPlan :=
  match svc with
  | .demoted => (s.freeSlot a).map (fun i => .slot (.free i))
  | .talk => s.findNeed a p preempt
  | .listen => s.findNeed a p preempt
  | .listenSlot => s.findNeed a p preempt

/-- A start that proceeds, with the context and the resource that its tests found (R121). -/
def Ev.startTransfer (e : Ev) (p : Profile) (svc : Service) (held : Resource) (t : Track) (c : ContextNo)
    (target : AntennaNo) (plan : NeedPlan) (cause : Cause) (options : Options) : Ev :=
  let e := e.wakeIfClosed (e.st.venueOfAnt target)
  let e := e.takeNeed target p plan (some c)
  let e := e.upd (fun s => s.setCtx c (some
    { headset := p.ident, sourceAnt := held.ant, source := some held.place, targetAnt := target, target := plan.place,
      cause := cause, options := options, phase := .prepare, timer := s.tuning.tPrep }))
  let e := e.upd (·.setAtt p.ident (.transfer svc c { t with hearing := pinTarget target t.hearing }))
  e.emit (.book target p.ident plan.place)

/-! ## The endings -/

/-- The reservation becomes the held resource in the maps: Convert of a slot (R29), or of a reserved place (R55). -/
def Ev.convertTarget (e : Ev) (m : Moving) : Ev :=
  match m.context.target with
  | .slot i => e.upd (·.setSlot m.context.targetAnt i (.held m.profile.ident))
  | .carrier k => e.convertPlace m.context.targetAnt k m.profile.monitor

/-- A FREE cell for the headset to a unit. -/
def Ev.freeCell (e : Ev) (a : AntennaNo) (h : Identity) : Ev := e.emit (.free a h)

/-- The release of the source resource, where it is present (R30, R56). -/
def Ev.releaseSource (e : Ev) (m : Moving) : Ev :=
  match m.source with
  | some held => e.releaseHeld m.profile m.service held
  | none => e

/-- A FREE cell to the source unit, where the source resource is present. -/
def Ev.freeSourceCell (e : Ev) (m : Moving) : Ev := e.emitIf m.source.isSome (.free m.context.sourceAnt m.profile.ident)

/-- A completion (R123). -/
def Ev.complete (e : Ev) (m : Moving) : Ev :=
  let x := m.context
  let e := e.convertTarget m
  let e := (e.freeSourceCell m).releaseSource m
  let e := e.upd (·.setAtt m.profile.ident (.served (placeService m.profile x.target) ⟨x.targetAnt, x.target⟩
    { candidate := none, count := 0, hearing := pinLanded x.targetAnt m.track.hearing }))
  let e := e.freeCtx m.ctx
  let e := e.notify (.transferDone m.profile.ident x.sourceAnt x.targetAnt x.cause m.ctx)
  e.route m.profile x.targetAnt (some x.target)

/-- The TRANSFER_FAILED notice (R126). -/
def Ev.failed (e : Ev) (m : Moving) (reason : FailReason) : Ev :=
  e.notify (.transferFailed m.profile.ident m.context.sourceAnt m.context.targetAnt m.context.cause reason)

/-- A return to the source resource `held`, which is present (R124). -/
def Ev.returnTo (e : Ev) (m : Moving) (held : Resource) (reason : FailReason) : Ev :=
  let x := m.context
  let e := e.releaseReserved m.profile x.targetAnt x.target
  let e := e.upd (fun s => s.setAtt m.profile.ident (.served m.service held
    { candidate := none, count := 0, hearing := unpinTarget x.targetAnt s.tuning.backoff m.track.hearing }))
  let e := e.freeCtx m.ctx
  let e := e.failed m reason
  if m.service = .demoted then e.offerLate held.ant else e

/-- A failure with orphaning (R125). -/
def Ev.failOrphan (e : Ev) (m : Moving) (reason : FailReason) : Ev :=
  let e := e.releaseReserved m.profile m.context.targetAnt m.context.target
  let e := e.releaseSource m
  let e := e.freeCtx m.ctx
  let e := e.failed m reason
  let e := e.orphan m.profile.ident m.context.sourceAnt .transfer
  if m.source.isSome then e.route m.profile m.context.sourceAnt none else e

/-- An ending that gives the reservation up: a return where the source resource is present, else orphaning (R132, R135). -/
def Ev.giveUp (e : Ev) (m : Moving) (reason : FailReason) : Ev :=
  match m.source with
  | some held => e.returnTo m held reason
  | none => e.failOrphan m reason

/-- The source resource is released while the transfer goes on (R128, R134): it becomes absent in the context, a DEMOTED mover
becomes TALK, and a ROUTE notice with resource NONE names the source antenna. -/
def Ev.dropSource (e : Ev) (m : Moving) : Ev :=
  let e := e.releaseSource m
  let e := e.upd (·.setCtx m.ctx (some { m.context with source := none }))
  let e := if m.service = .demoted then e.upd (·.setAtt m.profile.ident (.transfer .talk m.ctx m.track)) else e
  e.route m.profile m.context.sourceAnt none

/-- The end of a transfer by QUIT, EVICT or a JOIN from elsewhere: FREE to the target and its release, then FREE to the source
and its release where it is present, then the context freed. `silent` is the antenna whose source unit gets no FREE
(R14, R17, R20). That each FREE cell comes before the MODE cells of a venue that its release closes is the model's choice (DESIGN
CHOICE, log 28). -/
def Ev.abortTransfer (e : Ev) (m : Moving) (silent : Option AntennaNo) : Ev :=
  let x := m.context
  let e := e.freeCell x.targetAnt m.profile.ident
  let e := e.releaseReserved m.profile x.targetAnt x.target
  let e := if silent = some x.sourceAnt then e else e.freeSourceCell m
  let e := e.releaseSource m
  e.freeCtx m.ctx

/-! ## Cells and expiries of a transfer -/

/-- The matched READY (R127), with the release of BREAK_FIRST after the GOTO cell (R128). -/
def Ev.orderMove (e : Ev) (m : Moving) : Ev :=
  let x := m.context
  let e := e.emit (.goto x.sourceAnt m.profile.ident x.targetAnt x.target)
  let ordered := { x with phase := .ordered, timer := e.st.tuning.tMove }
  let e := e.upd (·.setCtx m.ctx (some ordered))
  if x.options.breakFirst then (e.freeSourceCell m).dropSource { m with context := ordered } else e

/-- The antenna of the resource a headset holds, as an unmatched READY or LANDED asks for it (R137, R138). -/
def State.heldAntenna (s : State) (h : Identity) : Option AntennaNo :=
  match s.rec? h with
  | some r => (s.heldOf r).map (·.ant)
  | none => none

/-- A READY that R127 does not match: discarded from the antenna of the held resource, else answered with FREE (R137). -/
def Ev.lateReady (e : Ev) (a : AntennaNo) (h : Identity) : Ev :=
  if e.st.heldAntenna h = some a then e else e.freeCell a h

/-- A READY taken (R127, R136, R137). -/
def Ev.readyTaken (e : Ev) (a : AntennaNo) (h : Identity) : Ev :=
  match e.st.movingOf h with
  | some m =>
    if m.context.targetAnt = a then
      match m.context.phase with
      | .prepare => e.orderMove m
      | .ordered => e
    else e.lateReady a h
  | none => e.lateReady a h

/-- A NOROOM taken: a return in PREPARE from the target, else discarded (R129). -/
def Ev.noroomTaken (e : Ev) (a : AntennaNo) (h : Identity) : Ev :=
  match e.st.movingOf h with
  | some m => if m.context.targetAnt = a ∧ m.context.phase = .prepare then e.giveUp m .refused else e
  | none => e

/-- GONE or DOWN of the source whose resource is present: SOURCE_LOST in PREPARE with a FREE cell to the target (R131); in
ORDERED the source resource is released and the transfer goes on (R134). -/
def Ev.sourceLost (e : Ev) (m : Moving) : Ev :=
  match m.context.phase with
  | .prepare => (e.freeCell m.context.targetAnt m.profile.ident).failOrphan m .sourceLost
  | .ordered => e.dropSource m

/-- A GONE for a headset in TRANSFER, from its source with the resource present or from its target (R131, R132, R134). -/
def Ev.goneMoving (e : Ev) (m : Moving) (a : AntennaNo) : Ev :=
  if m.context.sourceAnt = a ∧ m.source.isSome then e.sourceLost m
  else if m.context.targetAnt = a then e.giveUp m .targetLost
  else e

/-- What a DOWN of an antenna does to one context (R33 step 3, R131, R132, R134). -/
def Ev.downContext (a : AntennaNo) (e : Ev) (c : ContextNo) : Ev :=
  match e.st.movingIn c with
  | some m =>
    if m.context.sourceAnt = a then (if m.source.isSome then e.sourceLost m else e)
    else if m.context.targetAnt = a then e.giveUp m .offline
    else e
  | none => e

/-- The t_prep expiry (R130) and the t_move expiry (R135): FREE to the target, then the ending. -/
def Ev.expireTransfer (e : Ev) (m : Moving) (reason : FailReason) : Ev :=
  (e.freeCell m.context.targetAnt m.profile.ident).giveUp m reason

end Sys2Proof.Machine
end

