-- ==== Sys2Proof/Machine/Roaming.lean ====
section
/-! DEFINITION. The roaming evaluator (chapter 5): eligibility, the choice of the candidate, the trigger, rescue and drain tests,
and the round. -/

namespace Sys2Proof.Machine

/-- An entry is an eligible candidate for a headset served at an antenna (R87). The window and venue are read from the venue
table at the moment. -/
def State.eligible (s : State) (p : Profile) (serving : AntennaNo) (x : HearEntry) : Bool :=
  x.ant != serving && x.avg.isSome && x.backoff == 0 && (s.ant x.ant).present && (s.ant x.ant).online
    && !(s.ant x.ant).barred && (s.ven (s.venueOfAnt x.ant)).accepts p.cls && (s.ven (s.venueOfAnt x.ant)).admits p.ident

/-- The entries STEER may choose among under NO_CHECKS: backoff, bar and window are disregarded (R142). -/
def State.eligibleUnchecked (s : State) (p : Profile) (serving : AntennaNo) (x : HearEntry) : Bool :=
  x.ant != serving && x.avg.isSome && (s.ant x.ant).present && (s.ant x.ant).online
    && (s.ven (s.venueOfAnt x.ant)).accepts p.cls

/-- A candidate: antenna, average and score. -/
structure Scored where
  ant : AntennaNo
  avg : Nat
  score : Int
deriving DecidableEq, Repr

/-- The better of two candidates: the higher score, and of equal scores the lower antenna number (R89). -/
def better (x y : Scored) : Scored :=
  if y.score < x.score ∨ (x.score = y.score ∧ x.ant < y.ant) then x else y

/-- The scored form of a measured entry (R70). -/
def State.scored (s : State) (p : Profile) (x : HearEntry) : Option Scored :=
  x.avg.map (fun a => ⟨x.ant, a, s.score p x.ant a⟩)

/-- The best of a list of candidates (R89). -/
def bestOf : List Scored → Option Scored
  | [] => none
  | x :: rest =>
    match bestOf rest with
    | none => some x
    | some y => some (better x y)

/-- The candidate that a round would choose (R89). -/
def State.roundCandidate (s : State) (p : Profile) (serving : AntennaNo) (l : List HearEntry) : Option Scored :=
  bestOf ((l.filter (s.eligible p serving)).filterMap (s.scored p))

/-- The added margin M': the show margin when the serving venue is in SHOW, the candidate is in another venue, and the serving
venue is the headset's home (R90). -/
def State.addedMargin (s : State) (p : Profile) (serving candidate : AntennaNo) : Nat :=
  let v := s.venueOfAnt serving
  if (s.ven v).state = .show ∧ s.venueOfAnt candidate ≠ v ∧ p.home = v then s.tuning.showMargin else 0

/-- The trigger condition (R90). -/
def State.triggerMet (s : State) (p : Profile) (serving : AntennaNo) (scoreServing : Int) (c : Scored) : Bool :=
  decide (scoreServing + 16 * ((s.tuning.hysteresis + s.addedMargin p serving c.ant : Nat) : Int) ≤ c.score)

/-- The trigger count after the update of a round with a candidate (R91). -/
def countAfter (persist : Nat) (stored : Option AntennaNo) (count : Nat) (candidate : AntennaNo) (met : Bool) : Nat :=
  let count := if stored = some candidate then count else 0
  if met then (if count < persist then count + 1 else persist) else 0

/-- The start a round calls for, by the first of RESCUE, DRAIN and AUTO whose test is met (R92 to R95). -/
def State.startCause (s : State) (serving : AntennaNo) (avgServing : Nat) (c : Scored) (count : Nat) : Option Cause :=
  if avgServing < 16 * s.tuning.floor ∧ 16 * s.tuning.floor ≤ c.avg then some .rescue
  else if (s.ven (s.venueOfAnt serving)).state = .draining ∧ 16 * s.tuning.floor ≤ c.avg then some .drain
  else if count = s.tuning.persist then some .auto
  else none

/-- The outcome of a round whose start proceeded (R100). -/
def Cause.outcome : Cause → RoundOutcome
  | .auto => .auto
  | .rescue => .rescue
  | .drain => .drain
  | .steer => .auto

/-- The options of a start by a round: none (R96, R119). -/
def noOptions : Options := { breakFirst := false, noChecks := false, preempt := false }

/-- The request of a start and its two tests (R96, R97): the event after it and the outcome the ROUND record gives. -/
def Ev.requestStart (e : Ev) (p : Profile) (svc : Service) (held : Resource) (t : Track) (target : AntennaNo)
    (cause : Cause) : Ev × RoundOutcome :=
  match e.st.freeContext with
  | none => (e, .noContext)
  | some c =>
    match e.st.transferNeed target p svc e.st.tuning.preempt with
    | none => (e, .noResource)
    | some plan => (e.startTransfer p svc held t c target plan cause noOptions, cause.outcome)

/-- A SERVED headset's track is replaced. -/
def Ev.setTrack (e : Ev) (h : Identity) (t : Track) : Ev :=
  e.upd (fun s => s.updRec h (fun r => { r with att := r.att.mapTrack (fun _ => t) }))

/-- The ageing and count-down that come before the evaluation of a round (R62 step 7, R78, R79). -/
def State.roundList (s : State) (l : List HearEntry) : List HearEntry :=
  countDownBackoff (ageList s.tuning.staleLimit l)

/-- The serving entry's average at a round; every round sees it measured (R77, R85). -/
def servingAverage (l : List HearEntry) (a : AntennaNo) : Nat := ((entryOf l a).bind (·.avg)).getD 0

/-- The round of a SERVED headset, after the quality update of its HEAR (R62 step 7, R86). -/
def Ev.round (e : Ev) (p : Profile) (svc : Service) (held : Resource) (t : Track) : Ev :=
  let l := e.st.roundList t.hearing
  let avg := servingAverage l held.ant
  let scoreServing := e.st.score p held.ant avg
  match e.st.roundCandidate p held.ant l with
  | none =>
    (e.setTrack p.ident { candidate := none, count := 0, hearing := l }).capture
      (.round held.ant p.ident scoreServing none 0 0 .noCandidate)
  | some c =>
    let count := countAfter e.st.tuning.persist t.candidate t.count c.ant (e.st.triggerMet p held.ant scoreServing c)
    let t := { candidate := some c.ant, count := count, hearing := l }
    let e := e.setTrack p.ident t
    let r := match e.st.startCause held.ant avg c count with
      | none => (e, RoundOutcome.stay)
      | some cause => e.requestStart p svc held t c.ant cause
    r.1.capture (.round held.ant p.ident scoreServing (some c.ant) c.score count r.2)

/-- A HEAR processed for a headset with a track (R62): the update, the flags, the MEASURE record, and the round when the
headset is SERVED at the antenna. -/
def Ev.hearTaken (e : Ev) (a : AntennaNo) (h : Identity) (level errors : Byte) : Ev :=
  match e.st.rec? h with
  | none => e
  | some r =>
    match r.att.track? with
    | none => e
    | some t =>
      let q := quality level errors
      let l := hearUpdate e.st.tuning.avgShift a q.1 q.2 t.hearing
      let t := { t with hearing := l }
      let e := e.setTrack h t
      let e := e.upd (fun s => s.updRec h (fun r =>
        { r with profile := { r.profile with sticky := r.profile.sticky || q.2 } }))
      let e := e.capture (.measure a h q.1 (servingAverage l a) q.2)
      match r.att with
      | .served svc held _ => if held.ant = a then e.round r.profile svc held t else e
      | _ => e

end Sys2Proof.Machine
end

