-- ==== Sys2Proof/Machine/Attach.lean ====
section
/-! DEFINITION. What the registry and the antenna table do with the cells of the units: JOIN, LANDED, QUIT, GONE (chapters 1
and 7), UP and DOWN (chapter 2), and the expiries of the wait and hold timers. -/

namespace Sys2Proof.Machine

/-! ## JOIN and LANDED -/

/-- The re-attach of a SERVED headset, up to its admission (R13 steps 1 and 2). That its FREE cell comes before the MODE cells of a
venue that the release closes is the model's choice (DESIGN CHOICE, log 28). -/
def Ev.reattachRelease (e : Ev) (p : Profile) (svc : Service) (held : Resource) (a : AntennaNo) : Ev :=
  let e := if held.ant = a then e else e.freeCell held.ant p.ident
  (e.releaseHeld p svc held).detach p.ident

/-- A JOIN for a headset in TRANSFER (R14): LANDED from the target; from elsewhere the transfer is aborted with REJOIN and
the headset re-attaches. -/
def Ev.joinMoving (e : Ev) (m : Moving) (a : AntennaNo) : Ev :=
  if m.context.targetAnt = a then e.complete m
  else
    let e := e.abortTransfer m (some a)
    let e := e.failed m .rejoin
    let e := e.detach m.profile.ident
    e.admitJoin m.profile a false (m.source.map (·.ant))

/-- A JOIN acted on by the state of the headset's record (R11 to R15). -/
def Ev.joinTaken (e : Ev) (a : AntennaNo) (h : Identity) : Ev :=
  match e.st.rec? h with
  | none => e.emit (.refuse a h .unknown)
  | some r =>
    match r.att with
    | .idle => e.admitJoin r.profile a false none
    | .waiting w _ => if w = a then e else ((e.removeWait w h).detach h).admitJoin r.profile a false none
    | .served svc held _ => (e.reattachRelease r.profile svc held a).admitJoin r.profile a false (some held.ant)
    | .transfer _ _ _ =>
      match e.st.movingOf h with
      | some m => e.joinMoving m a
      | none => e
    | .orphan _ => (e.detach h).admitJoin r.profile a true none

/-- A LANDED that completes no transfer (R138). -/
def Ev.lateLanded (e : Ev) (a : AntennaNo) (h : Identity) : Ev :=
  match e.st.rec? h with
  | some { profile := p, att := .orphan _, .. } => (e.detach h).admitJoin p a true none
  | _ => if e.st.heldAntenna h = some a then e else e.freeCell a h

/-- A LANDED taken: the completion of a matching transfer in either phase, else a late LANDED (R133, R138). -/
def Ev.landedTaken (e : Ev) (a : AntennaNo) (h : Identity) : Ev :=
  match e.st.movingOf h with
  | some m => if m.context.targetAnt = a then e.complete m else e.lateLanded a h
  | none => e.lateLanded a h

/-! ## QUIT and GONE -/

/-- The detach that ends a QUIT or an EVICT: DETACHED, and ROUTE with resource NONE where a resource was released
(R8, R16, R17, R20). -/
def Ev.detachWith (e : Ev) (p : Profile) (cause : DetachCause) (lost : Option AntennaNo) : Ev :=
  ((e.detach p.ident).notify (.detached p.ident cause)).lostRoute p lost

/-- A QUIT acted on by the state of the headset's record (R16, R17). The FREE cell of a QUIT from another antenna comes before the
cells of the offer's grant (R30) and the MIX cell (R60); that it comes before the MODE BEACON cells of a DRAINING venue that the
release closes (R44) is the model's choice, since no rule orders the two (DESIGN CHOICE, log 28). -/
def Ev.quitTaken (e : Ev) (a : AntennaNo) (h : Identity) : Ev :=
  match e.st.rec? h with
  | none => e
  | some r =>
    match r.att with
    | .idle => e
    | .waiting w _ => (e.removeWait w h).detachWith r.profile .quit none
    | .served svc held _ =>
      let e := if held.ant = a then e else e.freeCell held.ant h
      (e.releaseHeld r.profile svc held).detachWith r.profile .quit (some held.ant)
    | .transfer _ _ _ =>
      match e.st.movingOf h with
      | some m => (e.abortTransfer m (some a)).detachWith r.profile .quit (m.source.map (·.ant))
      | none => e
    | .orphan _ => e.detachWith r.profile .quit none

/-- A GONE for a SERVED headset from the antenna of its held resource (R18), or for a headset in TRANSFER
(R131, R132, R134). -/
def Ev.goneTaken (e : Ev) (a : AntennaNo) (h : Identity) : Ev :=
  match e.st.rec? h with
  | none => e
  | some r =>
    match r.att with
    | .served svc held _ =>
      if held.ant = a then
        let e := e.releaseHeld r.profile svc held
        let e := e.orphan h held.ant .gone
        e.route r.profile held.ant none
      else e
    | .transfer _ _ _ =>
      match e.st.movingOf h with
      | some m => e.goneMoving m a
      | none => e
    | _ => e

/-! ## UP and DOWN -/

/-- The part with the link state of an antenna changed. -/
def State.setOnline (s : State) (a : AntennaNo) (online : Bool) : State := s.setAnt a { s.ant a with online := online }

/-- The MODE cell that the venue of an antenna calls for (R32, R36). -/
def Ev.modeForVenue (e : Ev) (a : AntennaNo) : Ev :=
  e.emit (.mode a (e.st.ven (e.st.venueOfAnt a)).state.serves)

/-- An UP of a present antenna (R32). -/
def Ev.upTaken (e : Ev) (a : AntennaNo) : Ev :=
  let e := if (e.st.ant a).online then e else (e.upd (·.setOnline a true)).notify (.unitState a true)
  if e.st.mode = .run then e.modeForVenue a else e

/-- What a DOWN does to one holder at the antenna that is not in TRANSFER (R33 step 4). -/
def Ev.downHolder (a : AntennaNo) (e : Ev) (h : Identity) : Ev :=
  match e.st.rec? h with
  | some { profile := p, att := .served svc held _, .. } =>
    if held.ant = a then
      let e := e.releaseHeld p svc held
      let e := e.orphan h a .unitDown
      e.route p a none
    else e
  | _ => e

/-- A WAIT_JOIN entry removed with a denial: the entry and its claim, the REFUSE cell where the reason has one, the detach,
the DENIED notice (R33 step 5, R35, R43, R115; log 16). -/
def Ev.denyWait (a : AntennaNo) (reason : DeniedReason) (e : Ev) (h : Identity) : Ev :=
  let e := e.removeWait a h
  let e := match reason.refuse with
    | some r => e.emit (.refuse a h r)
    | none => e
  (e.detach h).notify (.denied h a reason)

/-- The identities of the registry in position order (R3, R33). -/
def State.identities (s : State) : List Identity := s.registry.map (·.profile.ident)

/-- A DOWN of a present antenna that is ONLINE: OFFLINE and UNIT_STATE, and in RUN the end of every claim at it
(R33, R34). An OFFLINE antenna's DOWN has no effect (R34). -/
def Ev.downTaken (e : Ev) (a : AntennaNo) : Ev :=
  if (e.st.ant a).online then
    let e := (e.upd (·.setOnline a false)).notify (.unitState a false)
    match e.st.mode with
    | .setup => e
    | .run =>
      let e := allContexts.foldl (Ev.downContext a) e
      let e := e.st.identities.foldl (Ev.downHolder a) e
      ((e.st.ant a).wait.map (·.headset)).foldl (Ev.denyWait a .offline) e
  else e

/-! ## Expiries -/

/-- The wait timer of a WAITING headset expires (R115). -/
def Ev.waitExpired (e : Ev) (h : Identity) (a : AntennaNo) : Ev := Ev.denyWait a .full e h

/-- The hold timer of an ORPHAN headset expires (R10). -/
def Ev.holdExpired (e : Ev) (h : Identity) : Ev := (e.detach h).notify (.dropped h)

end Sys2Proof.Machine
end

