-- ==== Sys2Proof/Machine/HeadPort.lean ====
section
/-! DEFINITION. The head port (chapter 8): arrival and shedding, the judging and taking of a cell, output room and the output
queue, and the room that an event needs. -/

namespace Sys2Proof.Machine

/-! ## Output room -/

/-- Cells enter the output queue as one run; those beyond its room follow as cells are sent (R148, R150). -/
def HeadPort.enqueue (p : HeadPort) (cells : List OutCell) : HeadPort :=
  { p with output := p.output ++ cells.take p.room, overflow := p.overflow ++ cells.drop p.room }

/-- An event that needs room for `n` cells can be taken (R149, R150): it produces none; or no cell of an oversize event is
still to enter the queue, and there is room, or the event is oversize and the queue is empty. -/
def HeadPort.fits (p : HeadPort) (n : Nat) : Bool :=
  n == 0 || (p.overflow.isEmpty &&
    (decide (n ≤ p.room) || (decide (Config.outputCells < n) && p.output.isEmpty)))

/-- The cells of an event that count against the queue: those before its first WARM, or all of them (R149, R157). -/
def Ev.counted (e : Ev) : Nat := e.beforeWarm.getD e.cells.length

/-- The end of an event: its late offers, and then its taking if the output queue of the state it was considered on has room;
absent when it waits (R149). -/
def Ev.settle (e : Ev) (p : HeadPort) : Option State :=
  let e := e.finish
  if p.fits e.counted then some (e.st.setHead (e.st.head.enqueue e.cells)) else none

/-- The last byte of a cell is sent: the oldest cell leaves the output queue, and a cell of an oversize event follows
(R148, R150). Of the cell that is then the oldest nothing is known yet (R153). -/
def HeadPort.sent (p : HeadPort) : HeadPort :=
  { p with output := p.output.tail ++ p.overflow.take 1, overflow := p.overflow.tail, begun := false }

/-! ## Arrival -/

/-- The kinds a unit sends (R183). -/
inductive UnitKind where
  | hear | join | ready | noroom | landed | gone | quit | up | down
deriving DecidableEq, Repr

/-- The unit kind of a kind byte (R183). -/
def unitKindOf (b : Byte) : Option UnitKind :=
  match b.toNat with
  | 0x01 => some .hear
  | 0x02 => some .join
  | 0x03 => some .ready
  | 0x04 => some .noroom
  | 0x05 => some .landed
  | 0x06 => some .gone
  | 0x07 => some .quit
  | 0x08 => some .up
  | 0x09 => some .down
  | _ => none

/-- The kind byte of a unit kind (R183). -/
def UnitKind.code : UnitKind → Byte
  | .hear => 0x01
  | .join => 0x02
  | .ready => 0x03
  | .noroom => 0x04
  | .landed => 0x05
  | .gone => 0x06
  | .quit => 0x07
  | .up => 0x08
  | .down => 0x09

/-- A cell joins the tail of the input buffer (R144, R146). -/
def HeadPort.joinTail (p : HeadPort) (c : RawCell) : HeadPort :=
  { p with input := p.input ++ [c], hstall := stallAfterArrival p.hstall (p.input.length + 1) }

/-- A HEAR shed on arrival: shedding becomes on, with its notice when it was off (R145). -/
def State.shed (s : State) : State :=
  if s.head.shedding then s else (s.setHead { s.head with shedding := true }).notify (.shedding true)

/-- A cell arrives (R144, R145): a HEAR at 96 or more is shed; any cell at 128 is discarded; else it joins the buffer. While
the reset pin is asserted it is discarded (R152). -/
def State.arrive (s : State) (c : RawCell) : State :=
  if s.resetPin then s
  else if unitKindOf c.kind = some .hear ∧ Config.shedAt ≤ s.head.occupancy then s.shed
  else if Config.inputCells ≤ s.head.occupancy then s
  else s.setHead (s.head.joinTail c)

/-! ## Taking -/

/-- The cell at the head leaves the buffer: HSTALL (R146), and shedding with its notice (R145). -/
def State.leaveBuffer (s : State) : State :=
  let rest := s.head.input.tail
  let hstall := stallAfterTaking s.head.hstall rest.length
  if s.head.shedding && decide (rest.length < Config.shedOffBelow) then
    (s.setHead { s.head with input := rest, hstall := hstall, shedding := false }).notify (.shedding false)
  else s.setHead { s.head with input := rest, hstall := hstall }

/-- The kind is UP or DOWN (R147). -/
def UnitKind.isLink : UnitKind → Bool
  | .up => true
  | .down => true
  | _ => false

/-- The antenna holds something for the headset (R147 item 8). -/
def State.holdsFor (s : State) (a : AntennaNo) (h : Identity) : Bool :=
  match s.rec? h with
  | some { att := .served _ held _, .. } => held.ant == a
  | some { att := .transfer _ _ _, .. } =>
    match s.movingOf h with
    | some m => (m.context.sourceAnt == a && m.source.isSome) || m.context.targetAnt == a
    | none => false
  | _ => false

/-- The headset has a record in SERVED or TRANSFER (R147 item 7). -/
def State.heardFor (s : State) (h : Identity) : Bool :=
  match s.rec? h with
  | some r => r.att.track?.isSome
  | none => false

/-- The judging of a cell at its taking (R147): its kind and antenna when it passes, absent when it is discarded. -/
def State.judge (s : State) (c : RawCell) : Option (UnitKind × AntennaNo) :=
  match unitKindOf c.kind, antennaOf c.antenna with
  | some k, some a =>
    if !(s.ant a).present then none
    else if k.isLink then some (k, a)
    else if !identityOk c.ident || !(s.ant a).online || s.mode == .setup then none
    else
      match k with
      | .hear =>
        if (decide (252 ≤ c.byte5.toNat ∧ c.byte5.toNat ≤ 254)) || !s.heardFor c.ident then none else some (k, a)
      | .gone => if s.holdsFor a c.ident then some (k, a) else none
      | _ => some (k, a)
  | _, _ => none

/-- A cell that passes is handed to its owner (the dispatch table of chapter 8). -/
def Ev.cellEvent (c : RawCell) (k : UnitKind) (a : AntennaNo) (e : Ev) : Ev :=
  match k with
  | .hear => e.hearTaken a c.ident c.byte5 c.byte6
  | .join => e.joinTaken a c.ident
  | .ready => e.readyTaken a c.ident
  | .noroom => e.noroomTaken a c.ident
  | .landed => e.landedTaken a c.ident
  | .gone => e.goneTaken a c.ident
  | .quit => e.quitTaken a c.ident
  | .up => e.upTaken a
  | .down => e.downTaken a

/-- Two cells are the same in every byte that the part reads of them (R147, R183). -/
def sameCell (c d : RawCell) : Bool :=
  c.kind == d.kind && c.antenna == d.antenna &&
    (match unitKindOf c.kind with
      | some .up => true
      | some .down => true
      | some .hear => c.ident == d.ident && c.byte5 == d.byte5 && c.byte6 == d.byte6
      | some _ => c.ident == d.ident
      | none => decide (c = d))

/-- The cell at the head of the input buffer is this one. -/
def State.headIs (s : State) (c : RawCell) : Bool :=
  match s.head.input with
  | [] => false
  | d :: _ => sameCell c d

/-- A cell of a unit kind with zero in its unused bytes (R183). -/
def unitCell (k : UnitKind) (antenna : Byte) (h : Identity) : RawCell := ⟨k.code, antenna, h, 0, 0, 0⟩

end Sys2Proof.Machine
end

