-- ==== Sys2Proof/Machine/Layout.lean ====
section
/-! DEFINITION. The byte layouts of chapter 12: cells on HDO (R183), the codes of R182 and R185, notice and tap frames, replies,
and the envelope with its check (R154). -/

namespace Sys2Proof.Machine

/-! ## Codes -/

/-- A flag as a byte. -/
def flagByte (b : Bool) : Byte := if b then 1 else 0

/-- The resource byte (R183). -/
def Place.code : Place → Byte
  | .slot i => byte i.val
  | .carrier k => byte (0x10 + k.val)

/-- The resource byte, with 0xFF for NONE (R185). -/
def placeCode : Option Place → Byte
  | none => 0xFF
  | some p => p.code

/-- The three line places of a MIX: the lines in ascending number, with 0xFF in each place not used (R183, R185). -/
def mixBytes (lines : List LineNo) : List Byte :=
  ((lines.map (fun m : LineNo => byte m.val)) ++ [0xFF, 0xFF, 0xFF]).take 3

/-- The reason byte of a REFUSE cell (R183). -/
def RefuseReason.code : RefuseReason → Byte
  | .unknown => 0x01
  | .full => 0x02
  | .barred => 0x03
  | .closed => 0x04
  | .window => 0x05
  | .evicted => 0x06

/-- The status byte of a reply record (R182). -/
def Status.code : Status → Byte
  | .ok => 0x00
  | .clamped => 0x01
  | .badKind => 0x02
  | .badLength => 0x03
  | .badValue => 0x04
  | .wrongMode => 0x05
  | .notFound => 0x06
  | .full => 0x07
  | .busy => 0x08
  | .attached => 0x09
  | .notAttached => 0x0A
  | .bound => 0x0B
  | .inUse => 0x0C
  | .skipped => 0x0D
  | .notServed => 0x10
  | .sameAntenna => 0x11
  | .offline => 0x12
  | .barred => 0x13
  | .closed => 0x14
  | .window => 0x15
  | .noContext => 0x16
  | .noResource => 0x17
  | .noCandidate => 0x18

/-- The service byte (R184). -/
def Service.code : Service → Byte
  | .talk => 0
  | .listen => 1
  | .listenSlot => 2
  | .demoted => 3

/-- The state byte of a headset (R184). -/
def Attachment.code : Attachment → Byte
  | .idle => 0
  | .waiting _ _ => 1
  | .served _ _ _ => 2
  | .transfer _ _ _ => 3
  | .orphan _ => 4

/-- The venue state byte (R185). -/
def VenueState.code : VenueState → Byte
  | .closed => 0
  | .opened => 1
  | .show => 2
  | .draining => 3

/-- The transfer cause byte (R185). -/
def Cause.code : Cause → Byte
  | .auto => 0
  | .rescue => 1
  | .drain => 2
  | .steer => 3

/-- The byte of an ORPHANED cause (R185). -/
def OrphanCause.code : OrphanCause → Byte
  | .gone => 1
  | .unitDown => 2
  | .transfer => 3

/-- The byte of a DENIED reason (R185). -/
def DeniedReason.code : DeniedReason → Byte
  | .full => 2
  | .barred => 3
  | .closed => 4
  | .window => 5
  | .offline => 7

/-- The byte of a TRANSFER_FAILED reason (R185). -/
def FailReason.code : FailReason → Byte
  | .refused => 1
  | .noAnswer => 2
  | .offline => 3
  | .targetLost => 4
  | .sourceLost => 5
  | .noLanding => 6
  | .rejoin => 7

/-- The byte of a DETACHED cause (R185). -/
def DetachCause.code : DetachCause → Byte
  | .quit => 1
  | .evict => 2

/-- The byte of a VENUE_STATE cause (R185). -/
def VenueCause.code : VenueCause → Byte
  | .request => 1
  | .wake => 2
  | .drained => 3

/-- The outcome byte of a ROUND record (R185). -/
def RoundOutcome.code : RoundOutcome → Byte
  | .noCandidate => 0
  | .stay => 1
  | .auto => 2
  | .rescue => 3
  | .drain => 4
  | .noContext => 5
  | .noResource => 6

/-- The reason byte of a REJECT frame (R182). -/
def RejectReason.code : RejectReason → Byte
  | .check => 1
  | .length => 2
  | .type => 3
  | .overrun => 4

/-! ## Cells on HDO -/

/-- The eight bytes of a cell that the part sends; every unused byte is zero (R183). -/
def OutCell.bytes : OutCell → List Byte
  | .seat a h p => [0x81, byte a.val] ++ be24 h ++ [p.code, 0, 0]
  | .refuse a h r => [0x82, byte a.val] ++ be24 h ++ [r.code, 0, 0]
  | .book a h p => [0x83, byte a.val] ++ be24 h ++ [p.code, 0, 0]
  | .goto a h t p => [0x84, byte a.val] ++ be24 h ++ [byte t.val, p.code, 0]
  | .free a h => [0x85, byte a.val] ++ be24 h ++ [0, 0, 0]
  | .mix a k lines => [0x86, byte a.val, 0, 0, (Place.carrier k).code] ++ mixBytes lines
  | .mode a serve => [0x87, byte a.val, 0, 0, 0, flagByte (!serve), 0, 0]
  | .clear a => [0x88, byte a.val, 0, 0, 0, 0, 0, 0]

/-! ## Frames on CTXD -/

/-- The kind byte and the contents of a notice (R185). -/
def Notice.bytes : Notice → List Byte
  | .orphaned h a c => [0x01] ++ be24 h ++ [byte a.val, c.code]
  | .unitState a on => [0x02, byte a.val, flagByte on]
  | .denied h a r => [0x03] ++ be24 h ++ [byte a.val, r.code]
  | .transferFailed h s t c r => [0x04] ++ be24 h ++ [byte s.val, byte t.val, c.code, r.code]
  | .demoted h a m => [0x05] ++ be24 h ++ [byte a.val] ++ be24 m
  | .shedding on => [0x06, flagByte on]
  | .dropped h => [0x07] ++ be24 h
  | .attached h a p s => [0x08] ++ be24 h ++ [byte a.val, p.code, s.code]
  | .recovered h a p s => [0x09] ++ be24 h ++ [byte a.val, p.code, s.code]
  | .detached h c => [0x0A] ++ be24 h ++ [c.code]
  | .transferDone h s t c n => [0x0B] ++ be24 h ++ [byte s.val, byte t.val, c.code, byte n.val]
  | .promoted h a i => [0x0C] ++ be24 h ++ [byte a.val, byte i.val]
  | .venueState v s c => [0x0D, byte v.val, s.code, c.code]
  | .route h a p talk listen => [0x0E] ++ be24 h ++ [byte a.val, placeCode p] ++ be32 talk ++ be32 listen
  | .mix a k lines => [0x0F, byte a.val, (Place.carrier k).code] ++ mixBytes lines
  | .tapBlock t b => [0x10, byte t.val] ++ be16 b
  | .tapDone t => [0x11, byte t.val]

/-- A score as a 16-bit two's complement number (R185). -/
def scoreBytes (x : Int) : List Byte := be16 (BitVec.ofInt 16 x)

/-- The bytes of a tap record (R185). -/
def TapRecord.bytes : TapRecord → List Byte
  | .measure a h q avg clip => [byte a.val] ++ be24 h ++ [byte q] ++ nat16 avg ++ [flagByte clip]
  | .round _ h ss c sc n o =>
    be24 h ++ scoreBytes ss ++ [(match c with | some a => byte a.val | none => 0xFF)] ++
      scoreBytes (match c with | some _ => sc | none => 0) ++ [byte n, o.code]

/-- The bytes of a reply record: the continuation flag in bit 7 of its header, tag, status, error offset, result (R182). -/
def ReplyRecord.bytes (continued : Bool) (r : ReplyRecord) : List Byte :=
  ((if continued then 0x80 else 0x00) ||| r.code) :: r.tag :: r.status.code :: byte r.offset :: r.result

/-- The reply records of a frame, the continuation flag set on every one but the last (R160). -/
def replyChain : List ReplyRecord → List Byte
  | [] => []
  | [r] => r.bytes false
  | r :: rest => r.bytes true ++ replyChain rest

/-- The body of a frame that the part sends (R182). -/
def TxFrame.body : TxFrame → List Byte
  | .answer (.reply extra rs) => 0x02 :: flagByte extra :: replyChain rs
  | .answer (.reject r) => [0x05, r.code]
  | .notice lost n => 0x03 :: flagByte lost :: n.bytes
  | .tap t gap rs => 0x04 :: byte t.val :: flagByte gap :: byte rs.length :: (rs.map TapRecord.bytes).flatten

/-- One bit of the CRC-16 with polynomial 0x1021, most significant bit first (R154). -/
def crcShift (crc : BitVec 16) : BitVec 16 :=
  if crc.getLsbD 15 then (crc <<< 1) ^^^ 0x1021 else crc <<< 1

/-- One byte of the CRC-16 (R154). -/
def crcByte (crc : BitVec 16) (b : Byte) : BitVec 16 :=
  (List.range 8).foldl (fun c _ => crcShift c) (crc ^^^ ((b.zeroExtend 16) <<< 8))

/-- The CRC-16 of a run of bytes, from the initial value 0xFFFF and with no final inversion (R154). -/
def crc16 (bytes : List Byte) : BitVec 16 := bytes.foldl crcByte 0xFFFF

/-- The check of a body: the CRC over the length field and the body (R154). -/
def frameCheck (body : List Byte) : BitVec 16 := crc16 (nat16 body.length ++ body)

/-- A body in its envelope: SYNC, length, body, check (R182). -/
def envelope (body : List Byte) : List Byte :=
  [0x7E] ++ nat16 body.length ++ body ++ be16 (frameCheck body)

/-- The bytes of a frame on CTXD (R161, R182). -/
def TxFrame.wire (f : TxFrame) : List Byte := envelope f.body

end Sys2Proof.Machine
end

