-- ==== Sys2Proof/Machine/Registry.lean ====
section
/-! DEFINITION. The requests of the registry: ENROL, UNENROL, EVICT and UNSTICK (chapter 1), and what a carried out record
answers. -/

namespace Sys2Proof.Machine

/-- What a carried out request record answers: status, error offset, result fields (R160). -/
structure Done where
  status : Status
  offset : Nat
  result : List Byte
deriving DecidableEq, Repr

/-- Result fields for which a status gives no value (R160). -/
def zeros (n : Nat) : List Byte := List.replicate n 0

/-- A request carried out. -/
def Ev.ok (e : Ev) (result : List Byte) : Ev × Done := (e, ⟨.ok, 0, result⟩)

/-- A refused request, with `n` result bytes of 0 (R160). -/
def Ev.refuse (e : Ev) (status : Status) (offset : Nat) (n : Nat) : Ev × Done := (e, ⟨status, offset, zeros n⟩)

/-! ## ENROL and UNENROL -/

/-- The offset of the first field of an ENROL that fails its check (R4). -/
def State.enrolFault (s : State) (f : EnrolFields) : Option Nat :=
  if !identityOk f.ident then some 2
  else if 3 < f.cls.toNat then some 5
  else if 15 < f.home.toNat then some 6
  else if s.mode = .run ∧ s.presentIn (Fin.ofNat 16 f.home.toNat) = [] then some 6
  else if 1 < f.mode.toNat then some 7
  else if (f.mode = 0 ∧ f.talk = 0) ∨ (f.mode = 1 ∧ f.talk ≠ 0) then some 8
  else if 31 < f.monitor.toNat ∨ hasLine f.listen (Fin.ofNat 32 f.monitor.toNat) = false then some 16
  else none

/-- The profile of an ENROL that passed its checks, with a sticky clip flag (R1, R5). -/
def enrolProfile (f : EnrolFields) (sticky : Bool) : Profile :=
  { ident := f.ident, cls := Fin.ofNat 4 f.cls.toNat, home := Fin.ofNat 16 f.home.toNat,
    mode := if f.mode = 0 then .duplex else .listen, talk := f.talk, listen := f.listen,
    monitor := Fin.ofNat 32 f.monitor.toNat, sticky := sticky }

/-- The lowest free position (R3). -/
def State.freePosition (s : State) : Option Position :=
  (List.finRange 512).find? (fun p => (s.recAt? p.val).isNone)

/-- A record put into the registry in position order (R3). -/
def insertRecord (r : HeadsetRecord) : List HeadsetRecord → List HeadsetRecord
  | [] => [r]
  | x :: rest => if r.position < x.position then r :: x :: rest else x :: insertRecord r rest

/-- ENROL (R4, R5). -/
def Ev.doEnrol (e : Ev) (f : EnrolFields) : Ev × Done :=
  match e.st.enrolFault f with
  | some offset => e.refuse .badValue offset 3
  | none =>
    match e.st.rec? f.ident with
    | none =>
      match e.st.freePosition with
      | none => (e, ⟨.full, 0, nat16 512 ++ [0]⟩)
      | some p =>
        (e.upd (fun s => s.setRegistry (insertRecord ⟨p, enrolProfile f false, .idle⟩ s.registry))).ok
          (nat16 p.val ++ [0])
    | some r =>
      if r.att.isIdle then
        (e.upd (fun s => s.updRec f.ident (fun x => { x with profile := enrolProfile f x.profile.sticky }))).ok
          (nat16 r.position.val ++ [1])
      else (e, ⟨.attached, 2, nat16 r.position.val ++ [0]⟩)

/-- UNENROL (R6). -/
def Ev.doUnenrol (e : Ev) (h : Identity) : Ev × Done :=
  if !identityOk h then e.refuse .badValue 2 2
  else
    match e.st.rec? h with
    | none => e.refuse .notFound 2 2
    | some r =>
      if r.att.isIdle then
        (e.upd (fun s => s.setRegistry (s.registry.filter (fun x => x.profile.ident != h)))).ok (nat16 r.position.val)
      else e.refuse .attached 2 2

/-! ## EVICT -/

/-- The actions of an accepted EVICT by the headset's state (R20). The FREE cell comes before the cells of the offer's grant (R30)
and the MIX cell (R60); that it comes before the MODE BEACON cells of a DRAINING venue that the release closes (R44) is the model's
choice, since no rule orders the two (DESIGN CHOICE, log 28). -/
def Ev.evictActions (e : Ev) (r : HeadsetRecord) : Ev :=
  let p := r.profile
  match r.att with
  | .idle => e
  | .waiting w _ => ((e.removeWait w p.ident).emit (.refuse w p.ident .evicted)).detachWith p .evict none
  | .served svc held _ =>
    ((e.freeCell held.ant p.ident).releaseHeld p svc held).detachWith p .evict (some held.ant)
  | .transfer _ _ _ =>
    match e.st.movingOf p.ident with
    | some m => (e.abortTransfer m none).detachWith p .evict (m.source.map (·.ant))
    | none => e
  | .orphan _ => e.detachWith p .evict none

/-- EVICT (R19, R20). -/
def Ev.doEvict (e : Ev) (h : Identity) : Ev × Done :=
  if !identityOk h then e.refuse .badValue 2 1
  else
    match e.st.rec? h with
    | none => e.refuse .notFound 2 1
    | some r => if r.att.isIdle then e.refuse .notAttached 2 1 else (e.evictActions r).ok [r.att.code]

/-! ## UNSTICK -/

/-- A record with its sticky clip flag clear (R22). -/
def HeadsetRecord.unstick (r : HeadsetRecord) : HeadsetRecord := { r with profile := { r.profile with sticky := false } }

/-- UNSTICK of one record, or of every record for identity 0xFFFFFF (R22). -/
def Ev.doUnstick (e : Ev) (h : Identity) : Ev × Done :=
  if h = 0 then e.refuse .badValue 2 2
  else if h = 0xFFFFFF then
    (e.upd (fun s => s.setRegistry (s.registry.map HeadsetRecord.unstick))).ok
      (nat16 (e.st.registry.countP (·.profile.sticky)))
  else
    match e.st.rec? h with
    | none => e.refuse .notFound 2 2
    | some r => (e.upd (·.updRec h HeadsetRecord.unstick)).ok [0, flagByte r.profile.sticky]

end Sys2Proof.Machine
end

