-- ==== Sys2Proof/Machine/Tables.lean ====
section
/-! DEFINITION. The requests of the antenna table, the venue table and the crew lines: SITE, VENUE, LINE, SETVENUE, BAR and
UNBAR (chapters 2 and 3). -/

namespace Sys2Proof.Machine

/-! ## SITE -/

/-- The test of a SITE in RUN that removes or moves a present antenna: the error offset of IN_USE, if it is refused (R27). -/
def State.siteFault (s : State) (a : AntennaNo) (present : Bool) (v : VenueNo) : Option Nat :=
  let x := s.ant a
  if x.present ∧ (present = false ∨ v ≠ x.venue) then
    if 0 < x.claims then some 2
    else if s.presentIn x.venue = [a] ∧ s.registry.any (fun r => r.profile.home == x.venue) then
      some (if present then 4 else 3)
    else none
  else none

/-- The carrying out of an accepted SITE (R26, R27). -/
def Ev.site (e : Ev) (a : AntennaNo) (present : Bool) (v : VenueNo) : Ev :=
  let x := e.st.ant a
  match x.present, present with
  | false, true => e.upd (·.setAnt a { x with present := true, venue := v, online := false })
  | true, true =>
    let e := e.upd (·.setAnt a { x with venue := v })
    if e.st.mode = .run ∧ x.online ∧ v ≠ x.venue then e.modeForVenue a else e
  | true, false => (e.emitIf x.online (.clear a)).upd (·.setAnt a { x with present := false, online := false })
  | false, false => e

/-- The result fields of an accepted SITE: presence, venue and link state after it (R25, R186). -/
def State.siteResult (s : State) (a : AntennaNo) : List Byte :=
  [flagByte (s.ant a).present, byte (s.ant a).venue.val, flagByte (s.ant a).online]

/-- SITE (R25 to R27). -/
def Ev.doSite (e : Ev) (antenna presence venue : Byte) : Ev × Done :=
  match antennaOf antenna with
  | none => e.refuse .badValue 2 3
  | some a =>
    if 1 < presence.toNat then e.refuse .badValue 3 3
    else
      match venueOf venue with
      | none => e.refuse .badValue 4 3
      | some v =>
        match (if e.st.mode = .run then e.st.siteFault a (presence == 1) v else none) with
        | some offset => e.refuse .inUse offset 3
        | none => let e := e.site a (presence == 1) v; e.ok (e.st.siteResult a)

/-! ## VENUE and SETVENUE -/

/-- VENUE (R38). -/
def Ev.doVenue (e : Ev) (venue : Byte) (low high : Identity) (wake : Byte) : Ev × Done :=
  match venueOf venue with
  | none => e.refuse .badValue 2 0
  | some v =>
    if 15 < wake.toNat then e.refuse .badValue 9 0
    else
      (e.upd (fun s => s.setVen v { s.ven v with low := low, high := high, wake := wake.extractLsb' 0 4 })).ok []

/-- The opening of a venue, or its change between OPEN and SHOW, or the end of its drain (R42). -/
def Ev.openVenue (e : Ev) (v : VenueNo) (state : VenueState) : Ev :=
  let was := (e.st.ven v).state
  let e := e.upd (·.setVenueState v state)
  let e := if was = .closed then e.modeCells (e.st.venueUnits v) true else e
  e.notify (.venueState v state .request)

/-- The WAIT_JOIN entries of an antenna are removed in list order with a denial (R35, R43). -/
def Ev.denyJoins (reason : DeniedReason) (e : Ev) (a : AntennaNo) : Ev :=
  (e.st.waitJoins a).foldl (Ev.denyWait a reason) e

/-- The closing of an OPEN or SHOW venue: at once at a claim count of 0, else a drain that refuses the WAIT_JOIN entries of
its antennas (R43). -/
def Ev.shutVenue (e : Ev) (v : VenueNo) : Ev :=
  if (e.st.ven v).claims = 0 then e.closeVenue v .request
  else
    let e := (e.upd (·.setVenueState v .draining)).notify (.venueState v .draining .request)
    (e.st.presentIn v).foldl (Ev.denyJoins .closed) e

/-- The change that a requested state makes to a venue (R41 to R43). -/
def Ev.setVenue (e : Ev) (v : VenueNo) (requested : VenueState) : Ev :=
  let now := (e.st.ven v).state
  if requested = now then e
  else
    match requested with
    | .opened => e.openVenue v .opened
    | .show => e.openVenue v .show
    | .closed => if now = .draining then e else e.shutVenue v
    | .draining => e

/-- The state a SETVENUE asks for: 0 CLOSED, 1 OPEN, 2 SHOW (R41). -/
def requestedState (b : Byte) : Option VenueState :=
  match b.toNat with
  | 0 => some .closed
  | 1 => some .opened
  | 2 => some .show
  | _ => none

/-- SETVENUE (R41). -/
def Ev.doSetVenue (e : Ev) (venue state : Byte) : Ev × Done :=
  match venueOf venue with
  | none => e.refuse .badValue 2 1
  | some v =>
    match requestedState state with
    | none => e.refuse .badValue 3 1
    | some x => let e := e.setVenue v x; e.ok [(e.st.ven v).state.code]

/-! ## LINE -/

/-- The byte of a line kind: 0 OPEN, 1 CUE (R48). -/
def LineKind.code : LineKind → Byte
  | .opened => 0
  | .cue => 1

/-- The result fields of LINE: the kind when the request is complete, and the lowest antenna that carries the line, 0xFF
where none does (R48). -/
def State.lineResult (s : State) (m : LineNo) : List Byte :=
  [(s.lineKind m).code, (match s.carriedAt m with | a :: _ => byte a.val | [] => 0xFF)]

/-- LINE (R48). -/
def Ev.doLine (e : Ev) (line kind : Byte) : Ev × Done :=
  match lineOf line with
  | none => e.refuse .badValue 2 2
  | some m =>
    if 1 < kind.toNat then e.refuse .badValue 3 2
    else
      let k := if kind = 1 then LineKind.cue else LineKind.opened
      if k = e.st.lineKind m then e.ok (e.st.lineResult m)
      else if (e.st.carriedAt m).isEmpty then
        let e := e.upd (fun s => { s with lines := s.lines.set m.val k })
        e.ok (e.st.lineResult m)
      else (e, ⟨.bound, 2, e.st.lineResult m⟩)

/-! ## BAR and UNBAR -/

/-- The part with the barred flag of an antenna changed. -/
def State.setBarred (s : State) (a : AntennaNo) (b : Bool) : State := s.setAnt a { s.ant a with barred := b }

/-- BAR (R35). -/
def Ev.doBar (e : Ev) (antenna : Byte) : Ev × Done :=
  match antennaOf antenna with
  | none => e.refuse .badValue 2 1
  | some a =>
    if (e.st.ant a).present then
      let was := (e.st.ant a).barred
      if was then e.ok [1] else (Ev.denyJoins .barred (e.upd (·.setBarred a true)) a).ok [0]
    else e.refuse .notFound 2 1

/-- UNBAR (R35). -/
def Ev.doUnbar (e : Ev) (antenna : Byte) : Ev × Done :=
  match antennaOf antenna with
  | none => e.refuse .badValue 2 1
  | some a =>
    if (e.st.ant a).present then (e.upd (·.setBarred a false)).ok [flagByte (e.st.ant a).barred]
    else e.refuse .notFound 2 1

end Sys2Proof.Machine
end

