-- ==== Sys2Proof/Machine/Steering.lean ====
section
/-! DEFINITION. STEER (R140 to R143). -/

namespace Sys2Proof.Machine

/-- The tests of a STEER on its target, in the order of R141, up to the candidate test: the refusal and its offset. -/
def State.steerTargetFault (s : State) (p : Profile) (held : Resource) (l : List HearEntry) (target : AntennaNo)
    (options : Options) : Option Status :=
  let x := s.ant target
  let v := s.ven x.venue
  if target = held.ant then some .sameAntenna
  else if !x.present || !x.online then some .offline
  else if x.barred && !options.noChecks then some .barred
  else if !v.accepts p.cls then some .closed
  else if !v.admits p.ident && !options.noChecks then some .window
  else if !(l.any (fun y => y.ant == target && y.avg.isSome && y.backoff == 0)) && !options.noChecks then
    some .noCandidate
  else none

/-- The target that a STEER with 0xFF chooses (R142). -/
def State.steerBest (s : State) (p : Profile) (held : Resource) (l : List HearEntry) (options : Options) :
    Option AntennaNo :=
  if options.noChecks then
    (bestOf ((l.filter (s.eligibleUnchecked p held.ant)).filterMap (s.scored p))).map (·.ant)
  else (s.roundCandidate p held.ant l).map (·.ant)

/-- The target of a STEER, or its refusal at offset 5 (R141, R142). -/
def State.steerTarget (s : State) (p : Profile) (held : Resource) (l : List HearEntry) (target : Byte)
    (options : Options) : Except Status AntennaNo :=
  match antennaOf target with
  | some a =>
    match s.steerTargetFault p held l a options with
    | some refusal => .error refusal
    | none => .ok a
  | none =>
    match s.steerBest p held l options with
    | some a => .ok a
    | none => .error .noCandidate

/-- The start of a STEER for a SERVED headset, after its last two tests (R141, R143). -/
def Ev.steerStart (e : Ev) (p : Profile) (svc : Service) (held : Resource) (t : Track) (target : AntennaNo)
    (options : Options) : Ev × Done :=
  match e.st.freeContext with
  | none => e.refuse .noContext 0 2
  | some c =>
    match e.st.transferNeed target p svc (e.st.tuning.preempt || options.preempt) with
    | none => e.refuse .noResource 5 2
    | some plan => (e.startTransfer p svc held t c target plan .steer options).ok [byte c.val, byte target.val]

/-- STEER (R140 to R143). -/
def Ev.doSteer (e : Ev) (h : Identity) (target options : Byte) : Ev × Done :=
  if !identityOk h then e.refuse .badValue 2 2
  else if 48 ≤ target.toNat ∧ target.toNat ≤ 254 then e.refuse .badValue 5 2
  else if 7 < options.toNat then e.refuse .badValue 6 2
  else
    match e.st.rec? h with
    | none => e.refuse .notFound 2 2
    | some r =>
      match r.att with
      | .transfer _ _ _ => e.refuse .busy 2 2
      | .served svc held t =>
        match e.st.steerTarget r.profile held t.hearing target (optionsOf options) with
        | .error refusal => e.refuse refusal 5 2
        | .ok a => e.steerStart r.profile svc held t a (optionsOf options)
      | _ => e.refuse .notServed 2 2

end Sys2Proof.Machine
end

