-- ==== Sys2Proof/Machine/Setup.lean ====
section
/-! DEFINITION. The requests of mode control: IDENT, TUNE, FLOOR, GO and WARM (chapter 10). -/

namespace Sys2Proof.Machine

/-- The mode byte (R166). -/
def Mode.code : Mode → Byte
  | .setup => 0
  | .run => 1

/-! ## IDENT -/

/-- The 27 result bytes of IDENT (R166). -/
def identResult (m : Mode) : List Byte :=
  be16 0x4357 ++ be16 0x0C40 ++ [1, m.code] ++ nat16 512 ++
    [48, 16, 32, 10, 4, 3, 6, 24, 8, 64, 128, 128, 4, 16] ++ nat16 256 ++ [8] ++ nat16 2048

/-- IDENT (R166). -/
def Ev.doIdent (e : Ev) : Ev × Done := e.ok (identResult e.st.mode)

/-! ## TUNE -/

/-- A value brought into its range (R167). -/
def clamp (lo hi x : Nat) : Nat := if x < lo then lo else if hi < x then hi else x

/-- A value of the tuning set after a TUNE: kept where its mask bit is clear, else the given value clamped (R167). -/
def tuned (mask : BitVec 16) (bit lo hi given old : Nat) : Nat := if mask.getLsbD bit then clamp lo hi given else old

/-- The offset of a selected value that is outside its range (R167). -/
def clampedAt (mask : BitVec 16) (bit lo hi given offset : Nat) : Option Nat :=
  if mask.getLsbD bit ∧ ¬ (lo ≤ given ∧ given ≤ hi) then some offset else none

/-- The tuning set after a TUNE (R167). -/
def Tuning.tune (t : Tuning) (f : TuneFields) : Tuning :=
  { avgShift := tuned f.mask 0 1 5 f.avgShift.toNat t.avgShift
    hysteresis := tuned f.mask 1 0 30 f.hysteresis.toNat t.hysteresis
    persist := tuned f.mask 2 2 15 f.persist.toNat t.persist
    floor := tuned f.mask 3 0 250 f.floor.toNat t.floor
    homeBonus := tuned f.mask 4 0 40 f.homeBonus.toNat t.homeBonus
    loadWeight := tuned f.mask 5 0 4 f.loadWeight.toNat t.loadWeight
    showMargin := tuned f.mask 6 0 40 f.showMargin.toNat t.showMargin
    staleLimit := tuned f.mask 7 1 15 f.staleLimit.toNat t.staleLimit
    backoff := tuned f.mask 8 0 15 f.backoff.toNat t.backoff
    tPrep := tuned f.mask 9 20 500 f.tPrep.toNat t.tPrep
    tMove := tuned f.mask 10 50 2000 f.tMove.toNat t.tMove
    tHold := tuned f.mask 11 1 120 f.tHold.toNat t.tHold
    tWait := tuned f.mask 12 1 60 f.tWait.toNat t.tWait
    preempt := if f.mask.getLsbD 13 then decide (1 ≤ f.preempt.toNat) else t.preempt
    arbitration :=
      if f.mask.getLsbD 14 then (if 1 ≤ f.arbitration.toNat then .rotating else .fixed) else t.arbitration }

/-- The offset of the first clamped field in record order (R167). -/
def firstClamped (f : TuneFields) : Option Nat :=
  [clampedAt f.mask 0 1 5 f.avgShift.toNat 4, clampedAt f.mask 1 0 30 f.hysteresis.toNat 5,
    clampedAt f.mask 2 2 15 f.persist.toNat 6, clampedAt f.mask 3 0 250 f.floor.toNat 7,
    clampedAt f.mask 4 0 40 f.homeBonus.toNat 8, clampedAt f.mask 5 0 4 f.loadWeight.toNat 9,
    clampedAt f.mask 6 0 40 f.showMargin.toNat 10, clampedAt f.mask 7 1 15 f.staleLimit.toNat 11,
    clampedAt f.mask 8 0 15 f.backoff.toNat 12, clampedAt f.mask 9 20 500 f.tPrep.toNat 13,
    clampedAt f.mask 10 50 2000 f.tMove.toNat 15, clampedAt f.mask 11 1 120 f.tHold.toNat 17,
    clampedAt f.mask 12 1 60 f.tWait.toNat 18, clampedAt f.mask 13 0 1 f.preempt.toNat 19,
    clampedAt f.mask 14 0 1 f.arbitration.toNat 20].findSome? id

/-- The 17 result bytes of TUNE: the values in force in the layout of offsets 4 to 20 (R167). -/
def Tuning.bytes (t : Tuning) : List Byte :=
  [byte t.avgShift, byte t.hysteresis, byte t.persist, byte t.floor, byte t.homeBonus, byte t.loadWeight,
    byte t.showMargin, byte t.staleLimit, byte t.backoff] ++ nat16 t.tPrep ++ nat16 t.tMove ++
    [byte t.tHold, byte t.tWait, flagByte t.preempt, (match t.arbitration with | .fixed => 0 | .rotating => 1)]

/-- A record whose trigger count is at most the persist value (R99, R168). -/
def HeadsetRecord.lowerCount (persist : Nat) (r : HeadsetRecord) : HeadsetRecord :=
  { r with att := r.att.mapTrack (fun t => { t with count := min t.count persist }) }

/-- TUNE (R167, R168). -/
def Ev.doTune (e : Ev) (f : TuneFields) : Ev × Done :=
  if f.mask.getLsbD 15 then e.refuse .badValue 2 17
  else
    let e := e.upd (fun s => { s with tuning := s.tuning.tune f })
    let e := e.upd (fun s => s.setRegistry (s.registry.map (HeadsetRecord.lowerCount s.tuning.persist)))
    match firstClamped f with
    | none => e.ok e.st.tuning.bytes
    | some offset => (e, ⟨.clamped, offset, e.st.tuning.bytes⟩)

/-! ## FLOOR -/

/-- FLOOR (R169). -/
def Ev.doFloor (e : Ev) (value : Byte) : Ev × Done :=
  if 3 < value.toNat then e.refuse .badValue 2 1
  else (e.upd (fun s => s.setCtrl { s.ctrl with floor := value.toNat })).ok [byte e.st.ctrl.floor]

/-! ## GO -/

/-- The first profile in position order whose home venue has no present antenna (R170). -/
def State.unservedHome (s : State) : Option HeadsetRecord :=
  s.registry.find? (fun r => (s.presentIn r.profile.home).isEmpty)

/-- GO (R170, R171): table, index, venue and the number of MODE cells. -/
def Ev.doGo (e : Ev) : Ev × Done :=
  if (allAntennas.filter (fun a => (e.st.ant a).present)).isEmpty then
    (e, ⟨.notFound, 0, [1] ++ be16 0xFFFF ++ [0xFF, 0]⟩)
  else
    match e.st.unservedHome with
    | some r => (e, ⟨.notFound, 0, [2] ++ nat16 r.position.val ++ [byte r.profile.home.val, 0]⟩)
    | none =>
      let units := e.st.onlineUnits
      ((e.upd (fun s => { s with mode := .run })).modeCells units false).ok [0, 0, 0, 0, byte units.length]

/-! ## WARM -/

/-- A record after WARM: IDLE, with the sticky clip flag clear (R23). -/
def HeadsetRecord.warm (r : HeadsetRecord) : HeadsetRecord :=
  { r with profile := { r.profile with sticky := false }, att := .idle }

/-- An antenna entry after WARM: slots, carriers and wait list empty, rotation pointer 0 (R46, R61, R118). -/
def Antenna.warm (x : Antenna) : Antenna :=
  { x with slots := Vector.replicate 10 .free, rotation := 0, carriers := Vector.replicate 4 [], wait := [] }

/-- A venue record after WARM: CLOSED with claim count 0 (R46). -/
def Venue.warm (x : Venue) : Venue := { x with state := .closed, claims := 0 }

/-- What a WARM finds out about the oldest cell of the output queue: whether it is part-way through being sent, and the number
of free values drawn by then. It is so where an earlier WARM has kept it; else the answer is a free value, drawn where the queue
holds a cell (R153; the open value of log 7). -/
def State.drawBegun (s : State) : Bool × Nat :=
  if s.head.begun || s.head.output.isEmpty then (s.head.begun, s.freeIndex)
  else (Config.oldestCellBegun s.freeIndex, s.freeIndex + 1)

/-- The part after WARM, where the oldest cell of the output queue is part-way through being sent or not (R23, R46, R61, R118,
R120, R153, R164, R172, chapter 11). -/
def State.warm (s : State) (begun : Bool) : State :=
  { s with
    mode := .setup
    registry := s.registry.map HeadsetRecord.warm
    antennas := s.antennas.map Antenna.warm
    venues := s.venues.map Venue.warm
    contexts := Vector.replicate 24 none
    head := { input := [], shedding := false, hstall := false, output := if begun then s.head.output.take 1 else [],
              overflow := [], begun := begun }
    ctrl := { s.ctrl with notices := [], lost := false }
    taps := Vector.replicate 4 Tap.reset
    tapTurn := 0 }

/-- WARM (R172): the part returns to SETUP, the queues are emptied, and the CLEAR cells enter as one run (R153). The cells that
earlier records of its frame produced are discarded with the output queue (R157; log 20). -/
def Ev.warm (e : Ev) : Ev :=
  let out := e.st.drawBegun
  let s := { e.st.warm out.1 with freeIndex := out.2 }
  { st := s, cells := s.onlineUnits.map OutCell.clear, beforeWarm := some e.counted, late := [] }

/-- WARM as a request (R172). -/
def Ev.doWarm (e : Ev) : Ev × Done := e.warm.ok [e.st.mode.code]

end Sys2Proof.Machine
end

