-- ==== Sys2Proof/Machine/Queries.lean ====
section
/-! DEFINITION. The queries and the tap requests (chapter 11): PEEK_HEADSET, PEEK_ANTENNA, PEEK_VENUE, PEEK_CONTEXT, LIST, TAP
and UNTAP. -/

namespace Sys2Proof.Machine

/-! ## PEEK_HEADSET -/

/-- The mode byte of a profile (R184). -/
def HeadsetMode.code : HeadsetMode → Byte
  | .duplex => 0
  | .listen => 1

/-- The pin byte of a hearing list entry: the pin, and the dynamic clip flag in bit 7 (R184). -/
def HearEntry.pinByte (x : HearEntry) : Byte :=
  (match x.pin with | .unpinned => 0 | .serving => 1 | .target => 2) ||| (if x.clip then 0x80 else 0)

/-- The six bytes of a hearing list entry (R184). -/
def HearEntry.bytes (x : HearEntry) : List Byte :=
  [byte x.ant.val] ++ (match x.avg with | some a => nat16 a | none => be16 0xFFFF) ++
    [byte x.age, byte x.backoff, x.pinByte]

/-- One field of the attachment part with its mask bit: the bit and the bytes (R184). -/
abbrev MaskedField := Byte × List Byte

/-- The attachment fields of a record in ascending bit order (R184). -/
def State.attachmentFields (s : State) (r : HeadsetRecord) : List MaskedField :=
  let held : List MaskedField := match s.heldOf r with
    | some x => [(0x02, [byte x.ant.val, x.place.code])]
    | none => []
  let tracked (t : Track) : List MaskedField :=
    (match t.candidate with | some a => [(0x08, [byte a.val])] | none => []) ++ [(0x10, [byte t.count])]
  match r.att with
  | .idle => []
  | .waiting a timer => [(0x20, [byte a.val]), (0x40, be24 (BitVec.ofNat 24 timer))]
  | .orphan timer => [(0x40, be24 (BitVec.ofNat 24 timer))]
  | .served svc _ t => [(0x01, [svc.code])] ++ held ++ tracked t
  | .transfer svc c t => [(0x01, [svc.code])] ++ held ++ [(0x04, [byte c.val])] ++ tracked t

/-- The hearing list of a record, empty where it has none (R184). -/
def Attachment.hearing (x : Attachment) : List HearEntry := (x.track?.map (·.hearing)).getD []

/-- The result fields of PEEK_HEADSET (R184). -/
def State.headsetResult (s : State) (r : HeadsetRecord) : List Byte :=
  let p := r.profile
  let fields := s.attachmentFields r
  nat16 r.position.val ++ be24 p.ident ++ [byte p.cls.val, byte p.home.val, p.mode.code] ++ be32 p.talk ++
    be32 p.listen ++ [byte p.monitor.val, flagByte p.sticky, r.att.code, fields.foldl (fun m f => m ||| f.1) 0] ++
    (fields.map (·.2)).flatten ++ [byte r.att.hearing.length] ++ (r.att.hearing.map HearEntry.bytes).flatten

/-- PEEK_HEADSET (R174). -/
def Ev.doPeekHeadset (e : Ev) (h : Identity) : Ev × Done :=
  if !identityOk h then e.refuse .badValue 2 0
  else
    match e.st.rec? h with
    | none => e.refuse .notFound 2 0
    | some r => e.ok (e.st.headsetResult r)

/-! ## PEEK_ANTENNA -/

/-- The five bytes of a slot entry (R186). -/
def SlotState.bytes : SlotState → List Byte
  | .free => [0, 0, 0, 0, 0]
  | .reserved h c => [1] ++ be24 h ++ [byte c.val]
  | .held h => [2] ++ be24 h ++ [0]

/-- The state byte of a carrier (R186). -/
def CarrierState.code : CarrierState → Byte
  | .free => 0
  | .sole => 1
  | .mixed => 2

/-- The bytes of a carrier entry (R186). -/
def State.carrierBytes (s : State) (c : Carrier) : List Byte :=
  [(s.carrierState c).code, byte c.length] ++
    (c.map (fun l => [byte l.line.val] ++ nat16 l.served ++ nat16 l.reserved)).flatten

/-- The six bytes of a wait list entry (R186). The recovery mark belongs to WAIT_JOIN entries alone (R107); that its byte is 0 for
a WAIT_PROMOTE entry is the model's choice (DESIGN CHOICE, log 27). -/
def WaitEntry.bytes (w : WaitEntry) : List Byte :=
  be24 w.headset ++
    (match w.kind with | .join r => [0, byte w.cls.val, flagByte r] | .promote => [1, byte w.cls.val, 0])

/-- The result fields of PEEK_ANTENNA (R175, R186). -/
def State.antennaResult (s : State) (x : Antenna) : List Byte :=
  [flagByte x.present, byte x.venue.val, flagByte x.online, flagByte x.barred, byte x.rotation.val] ++
    (x.slots.toList.map SlotState.bytes).flatten ++ (x.carriers.toList.map s.carrierBytes).flatten ++
    [byte x.wait.length] ++ (x.wait.map WaitEntry.bytes).flatten

/-- PEEK_ANTENNA (R175). -/
def Ev.doPeekAntenna (e : Ev) (antenna : Byte) : Ev × Done :=
  match antennaOf antenna with
  | none => e.refuse .badValue 2 0
  | some a => e.ok (e.st.antennaResult (e.st.ant a))

/-! ## PEEK_VENUE and PEEK_CONTEXT -/

/-- PEEK_VENUE (R176). -/
def Ev.doPeekVenue (e : Ev) (venue : Byte) : Ev × Done :=
  match venueOf venue with
  | none => e.refuse .badValue 2 0
  | some v =>
    let x := e.st.ven v
    e.ok ([x.state.code] ++ be24 x.low ++ be24 x.high ++ [x.wake.zeroExtend 8] ++ nat16 x.claims ++
      [byte (e.st.presentIn v).length])

/-- The options in the bits of the STEER options byte (R186). -/
def Options.code (o : Options) : Byte :=
  (if o.breakFirst then 1 else 0) ||| (if o.noChecks then 2 else 0) ||| (if o.preempt then 4 else 0)

/-- The result fields of PEEK_CONTEXT (R176, R186). Of an absent source resource the rules give the presence byte alone; that the
source resource byte is then 0 is the model's choice (DESIGN CHOICE, log 26). -/
def contextResult (c : ContextNo) : Option Context → List Byte
  | none => zeros 15
  | some x =>
    [1, byte c.val] ++ be24 x.headset ++ [byte x.sourceAnt.val] ++
      (match x.source with | some p => [1, p.code] | none => [0, 0]) ++
      [byte x.targetAnt.val, x.target.code, x.cause.code, x.options.code,
        (match x.phase with | .prepare => 0 | .ordered => 1)] ++ nat16 x.timer

/-- PEEK_CONTEXT (R176). -/
def Ev.doPeekContext (e : Ev) (context : Byte) : Ev × Done :=
  match contextOf context with
  | none => e.refuse .badValue 2 0
  | some c => e.ok (contextResult c (e.st.ctx c))

/-! ## LIST -/

/-- The bit of a record's state in the filter of LIST: IDLE, WAITING, SERVED, TRANSFER, ORPHAN from the lowest (R177). -/
def filterAdmits (filter : Byte) (x : Attachment) : Bool := filter == 0 || filter.getLsbD x.code.toNat

/-- The records that a LIST walk gathers (R177). -/
def State.listed (s : State) (start count : Nat) (filter : Byte) : List HeadsetRecord :=
  (s.registry.filter (fun r => decide (start ≤ r.position.val) && filterAdmits filter r.att)).take count

/-- The next position of a LIST reply (R177). -/
def nextPosition (count : Nat) (gathered : List HeadsetRecord) : Nat :=
  if gathered.length = count then
    match gathered.getLast? with
    | some r => r.position.val + 1
    | none => 512
  else 512

/-- LIST (R177). -/
def Ev.doList (e : Ev) (start : BitVec 16) (count filter : Byte) : Ev × Done :=
  if 512 < start.toNat then e.refuse .badValue 2 0
  else if count.toNat = 0 ∨ 16 < count.toNat then e.refuse .badValue 4 0
  else if 31 < filter.toNat then e.refuse .badValue 5 0
  else
    let rs := e.st.listed start.toNat count.toNat filter
    e.ok (nat16 (nextPosition count.toNat rs) ++ [byte rs.length] ++
      (rs.map (fun r => nat16 r.position.val ++ be24 r.profile.ident ++ [r.att.code])).flatten)

/-! ## TAP and UNTAP -/

/-- TAP (R178). -/
def Ev.doTap (e : Ev) (tap kind selector : Byte) (count : BitVec 16) (circular : Byte) : Ev × Done :=
  match tapOf tap with
  | none => e.refuse .badValue 2 1
  | some n =>
    if 1 < kind.toNat then e.refuse .badValue 3 1
    else if 48 < selector.toNat then e.refuse .badValue 4 1
    else if count = 0 then e.refuse .badValue 5 1
    else if 1 < circular.toNat then e.refuse .badValue 7 1
    else if (e.st.tap n).running || !(e.st.tap n).buffer.isEmpty then e.refuse .busy 2 1
    else
      (e.upd (fun s => s.setTap n
        { running := true, kind := if kind = 0 then .measure else .round, selector := selector.toNat,
          count := count.toNat, remaining := count.toNat, circular := circular == 1, block := 0, buffer := [],
          gap := false })).ok [byte n.val]

/-- UNTAP (R181). -/
def Ev.doUntap (e : Ev) (tap : Byte) : Ev × Done :=
  match tapOf tap with
  | none => e.refuse .badValue 2 2
  | some n =>
    let t := e.st.tap n
    (e.upd (fun s => s.setTap n { t with running := false, buffer := [], gap := false, block := 0 })).ok
      [flagByte t.running, byte t.buffer.length]

end Sys2Proof.Machine
end

