-- ==== Sys2Proof/Machine/Frames.lean ====
section
/-! DEFINITION. The control port (chapter 9): the carrying out of the records of a request frame, its reply, its taking, the
receiver, and the sender. -/

namespace Sys2Proof.Machine

/-! ## Records -/

/-- The mode accepts a kind of request (R165). -/
def accepts (m : Mode) : Request → Bool
  | .ident => true
  | .tune _ => true
  | .floor _ => true
  | .enrol _ => true
  | .unenrol _ => true
  | .site _ _ _ => true
  | .venue _ _ _ _ => true
  | .line _ _ => true
  | .peekHeadset _ => true
  | .peekAntenna _ => true
  | .peekVenue _ => true
  | .peekContext _ => true
  | .list _ _ _ => true
  | .warm => true
  | .go => m == .setup
  | .setVenue _ _ => m == .run
  | .bar _ => m == .run
  | .unbar _ => m == .run
  | .steer _ _ _ => m == .run
  | .evict _ => m == .run
  | .unstick _ => m == .run
  | .tap _ _ _ _ _ => m == .run
  | .untap _ => m == .run

/-- The kinds whose result has a varying length and stands at status OK alone (R160). -/
def isQuery : Request → Bool
  | .peekHeadset _ => true
  | .peekAntenna _ => true
  | .peekVenue _ => true
  | .peekContext _ => true
  | .list _ _ _ => true
  | _ => false

/-- The length of the result fields that a kind fixes, 0 for a query (R160, R166, R167, R170, R186). -/
def resultLength : Request → Nat
  | .ident => 27
  | .tune _ => 17
  | .floor _ => 1
  | .go => 5
  | .warm => 1
  | .enrol _ => 3
  | .unenrol _ => 2
  | .site _ _ _ => 3
  | .venue _ _ _ _ => 0
  | .line _ _ => 2
  | .setVenue _ _ => 1
  | .bar _ => 1
  | .unbar _ => 1
  | .steer _ _ _ => 2
  | .evict _ => 1
  | .unstick _ => 2
  | .tap _ _ _ _ _ => 1
  | .untap _ => 2
  | .peekHeadset _ => 0
  | .peekAntenna _ => 0
  | .peekVenue _ => 0
  | .peekContext _ => 0
  | .list _ _ _ => 0

/-- A request carried out by its owner (R159 tests 2 and 3, and the owner's rule). -/
def Ev.doRequest (e : Ev) : Request → Ev × Done
  | .ident => e.doIdent
  | .tune f => e.doTune f
  | .floor v => e.doFloor v
  | .go => e.doGo
  | .warm => e.doWarm
  | .enrol f => e.doEnrol f
  | .unenrol h => e.doUnenrol h
  | .site a p v => e.doSite a p v
  | .venue v lo hi w => e.doVenue v lo hi w
  | .line n k => e.doLine n k
  | .setVenue v st => e.doSetVenue v st
  | .bar a => e.doBar a
  | .unbar a => e.doUnbar a
  | .steer h t o => e.doSteer h t o
  | .evict h => e.doEvict h
  | .unstick h => e.doUnstick h
  | .tap n k sel c circ => e.doTap n k sel c circ
  | .untap n => e.doUntap n
  | .peekHeadset h => e.doPeekHeadset h
  | .peekAntenna a => e.doPeekAntenna a
  | .peekVenue v => e.doPeekVenue v
  | .peekContext c => e.doPeekContext c
  | .list st c f => e.doList st c f

/-- A record carried out: the mode test first (R159, R165). -/
def Ev.carryOut (e : Ev) (r : Request) : Ev × Done :=
  if accepts e.st.mode r then e.doRequest r else e.refuse .wrongMode 0 (resultLength r)

/-- The length of a reply record (R182). -/
def ReplyRecord.length (r : ReplyRecord) : Nat := 4 + r.result.length

/-- The shortest length of the reply record of an item (R160; log 19). -/
def ChainItem.shortest : ChainItem → Nat
  | .record _ r => 4 + resultLength r
  | .tooMany _ _ => 7
  | .badKind _ _ => 4
  | .badLength _ _ => 4
  | .remainder _ => 7

/-- A record of a request kind carried out, as its reply record: a query whose record would bring the reply body past 2048
bytes, with `other` bytes built and to come, is answered FULL (R160). -/
def Ev.runRecord (e : Ev) (other : Nat) (tag : Byte) (r : Request) : Ev × ReplyRecord :=
  let out := e.carryOut r
  if isQuery r ∧ Config.replyBody < other + 4 + out.2.result.length then
    (e, ⟨requestCode r, tag, .full, 0, []⟩)
  else (out.1, ⟨requestCode r, tag, out.2.status, out.2.offset, out.2.result⟩)

/-- An item of a chain answered (R158 to R160). -/
def Ev.runItem (e : Ev) (other : Nat) : ChainItem → Ev × ReplyRecord
  | .record tag r => e.runRecord other tag r
  | .tooMany code tag => (e, ⟨code, tag, .skipped, 0, [1, 0, 0]⟩)
  | .badKind code tag => (e, ⟨code, tag, .badKind, 0, []⟩)
  | .badLength code tag => (e, ⟨code, tag, .badLength, 0, []⟩)
  | .remainder n => (e, ⟨0, 0, .skipped, 0, 2 :: nat16 n⟩)

/-- The items of a chain answered in chain order, each on the state that the ones before it left; `built` is the length of
the reply body built so far (R159, R160). -/
def Ev.runChain (e : Ev) (built : Nat) : List ChainItem → Ev × List ReplyRecord
  | [] => (e, [])
  | i :: rest =>
    let out := e.runItem (built + (rest.map ChainItem.shortest).sum) i
    let more := Ev.runChain out.1 (built + out.2.length) rest
    (more.1, out.2 :: more.2)

/-- An answer frame joins those that wait (R155, R160). -/
def ControlPort.answer (c : ControlPort) (a : Answer) : ControlPort := { c with answers := c.answers ++ [a] }

/-- The chain of a request frame carried out, and its reply frame placed among the answers that wait (R157 to R160). The two
bytes built first are the frame type and the flags. -/
def Ev.frame (chain : List ChainItem × Bool) (e : Ev) : Ev :=
  let out := e.runChain 2 chain.1
  out.1.upd (fun s => s.setCtrl (s.ctrl.answer (.reply chain.2 out.2)))

/-! ## The taking of a request frame -/

/-- The chain of a complete frame: the body after its frame type (R158). -/
def bodyChain (body : List Byte) : List ChainItem × Bool := delimitChain body.tail

/-- Fewer than two answer frames wait unsent (R157). -/
def ControlPort.mayTake (c : ControlPort) : Bool := decide (c.answers.length < Config.answersForTaking)

/-! ## The receiver -/

/-- A REJECT frame, not produced when four answer frames wait unsent (R155). -/
def ControlPort.reject (c : ControlPort) (r : RejectReason) : ControlPort :=
  if c.answers.length < Config.answersForReject then c.answer (.reject r) else c

/-- A SYNC byte: it begins a frame while the receiver hunts, in a buffer if one is free (R154, R156); inside a frame it is a
byte of that frame (log 9). -/
def ControlPort.sync (c : ControlPort) : ControlPort :=
  match c.rx with
  | .hunting => { c with rx := .inFrame (decide (c.buffersUsed < Config.frameBuffers)) Config.frameQuiet }
  | .inFrame b _ => { c with rx := .inFrame b Config.frameQuiet }

/-- A length above 256 received: the frame is discarded with REJECT LENGTH (R154). -/
def ControlPort.tooLong (c : ControlPort) : ControlPort :=
  match c.rx with
  | .hunting => c
  | .inFrame _ _ => { c with rx := .hunting }.reject .length

/-- The first test of R155 that a complete frame fails, if one does. -/
def frameFault (buffered : Bool) (body : List Byte) (check : BitVec 16) : Option RejectReason :=
  if !buffered then some .overrun
  else if check ≠ frameCheck body then some .check
  else
    match body with
    | [] => some .length
    | kind :: _ => if kind ≠ 0x01 then some .type else none

/-- A complete frame judged: stored for taking, or discarded with its REJECT (R155). -/
def ControlPort.judged (c : ControlPort) (buffered : Bool) (body : List Byte) (check : BitVec 16) : ControlPort :=
  match frameFault buffered body check with
  | some r => c.reject r
  | none => { c with frames := c.frames ++ [body] }

/-- The second check byte received: the receiver hunts again and the frame is judged (R154, R155). -/
def ControlPort.completed (c : ControlPort) (body : List Byte) (check : BitVec 16) : ControlPort :=
  match c.rx with
  | .hunting => c
  | .inFrame b _ => { c with rx := .hunting }.judged b body check

/-- 20 ms without a byte: the frame is abandoned and its buffer freed (R154). -/
def ControlPort.timedOut (c : ControlPort) : ControlPort :=
  match c.rx with
  | .inFrame _ 0 => { c with rx := .hunting }
  | .inFrame _ (_ + 1) => c
  | .hunting => c

/-- A change of the control port, while the reset pin is not asserted (R173). -/
def State.onCtrl (s : State) (f : ControlPort → ControlPort) : State :=
  if s.resetPin then s else s.setCtrl (f s.ctrl)

/-! ## The sender -/

/-- The oldest waiting answer frame begins to be sent (R161). -/
def ControlPort.sendAnswer (c : ControlPort) : ControlPort :=
  match c.ctxd, c.answers with
  | none, a :: rest => { c with ctxd := some (.answer a), answers := rest }
  | _, _ => c

/-- The notice at the head of the queue begins to be sent, its frame carries the lost flag, and the flag is cleared
(R161, R163). -/
def ControlPort.sendNotice (c : ControlPort) : ControlPort :=
  match c.ctxd, c.answers, c.notices with
  | none, [], n :: rest => { c with ctxd := some (.notice c.lost n), notices := rest, lost := false }
  | _, _, _ => c

/-- The tap whose records the next tap frame carries: the first from the turn upward, wrapping, whose buffer holds a record
(R180). -/
def State.nextTap (s : State) : Option TapNo :=
  (allTaps.map (fun i => s.tapTurn + i)).find? (fun n : TapNo => !(s.tap n).buffer.isEmpty)

/-- A tap frame begins to be sent: up to eight of the oldest records leave the buffer, the gap flag is cleared, and the turn
passes to the next tap (R180). DEDUCED (log 12): the next search begins there, after the tap served last. -/
def State.startTapFrame (s : State) (n : TapNo) : State :=
  let t := s.tap n
  let s := s.setTap n { t with buffer := t.buffer.drop Config.tapFrameRecords, gap := false }
  let s := s.setCtrl { s.ctrl with ctxd := some (.tap n t.gap (t.buffer.take Config.tapFrameRecords)) }
  { s with tapTurn := n + 1 }

/-- The sending of a tap frame, when the line is free, no answer and no notice waits, and a tap holds records
(R161, R180). -/
def State.sendTap (s : State) : State :=
  if s.resetPin then s
  else
    match s.ctrl.ctxd, s.ctrl.answers, s.ctrl.notices, s.nextTap with
    | none, [], [], some n => s.startTapFrame n
    | _, _, _, _ => s

/-- The last byte of the frame on CTXD is sent (R161). -/
def ControlPort.sendDone (c : ControlPort) : ControlPort := { c with ctxd := none }

/-! ## The reset pin -/

/-- The reset state with the model's own fields kept: the queue of commands, and the number of free values drawn
(R173; logs 10 and 11). -/
def State.resetTo (s : State) (pin : Bool) : State :=
  { State.reset with resetPin := pin, freeIndex := s.freeIndex, pending := s.pending }

end Sys2Proof.Machine
end

