-- ==== Sys2Proof/Machine/Taking.lean ====
section
/-! DEFINITION. The taking of events (R149 to R151, R157): what becomes of an event that is considered, the events that wait for
output room and are considered again, and with them the units' cells, the request frames and the expiries as commands. -/

namespace Sys2Proof.Machine

/-! ## One event considered -/

/-- What considering an event finds: there is no such event (an expiry that is withdrawn, R151); it waits; or it is taken, with
the state after it. -/
inductive Attempt where
  | absent
  | waits
  | taken (t : State)
deriving DecidableEq, Repr

/-- An event carried out on a state whose head port is `p`: taken where its cells have room, else it waits (R149). -/
def Ev.attempt (e : Ev) (p : HeadPort) : Attempt :=
  match e.settle p with
  | some t => .taken t
  | none => .waits

/-- The cell at the head of the input buffer: discarded, taken by its owner, or waiting (R144, R147, R149). -/
def State.attemptCell (s : State) : Attempt :=
  match s.head.input with
  | [] => .absent
  | c :: _ =>
    match s.judge c with
    | none => .taken s.leaveBuffer
    | some (k, a) => (Ev.cellEvent c k a (Ev.start s.leaveBuffer)).attempt s.head

/-- The oldest complete frame: taken and its buffer freed when fewer than two answers wait and its cells have room, else
waiting (R157). -/
def State.attemptFrame (s : State) : Attempt :=
  match s.ctrl.frames with
  | [] => .absent
  | body :: rest =>
    if s.ctrl.mayTake then
      (((Ev.start s).upd (fun t => t.setCtrl { t.ctrl with frames := rest })).frame (bodyChain body)).attempt s.head
    else .waits

/-- The expiry of a context's timer in a phase (R130, R135, R151; log 6). -/
def State.attemptTransfer (s : State) (c : ContextNo) (phase : Phase) (reason : FailReason) : Attempt :=
  match s.movingIn c with
  | some m =>
    if m.context.phase = phase ∧ m.context.timer = 0 then ((Ev.start s).expireTransfer m reason).attempt s.head
    else .absent
  | none => .absent

/-- The expiry of a headset's wait timer (R115, R151; log 6). -/
def State.attemptWait (s : State) (h : Identity) : Attempt :=
  match s.rec? h with
  | some { att := .waiting a 0, .. } => ((Ev.start s).waitExpired h a).attempt s.head
  | _ => .absent

/-- The expiry of a headset's hold timer (R10, R151; log 6). -/
def State.attemptHold (s : State) (h : Identity) : Attempt :=
  match s.rec? h with
  | some { att := .orphan 0, .. } => ((Ev.start s).holdExpired h).attempt s.head
  | _ => .absent

/-- An event considered on the state as it stands (R149). -/
def State.attempt (s : State) : WaitingEvent → Attempt
  | .cell => s.attemptCell
  | .frame => s.attemptFrame
  | .tPrep c => s.attemptTransfer c .prepare .noAnswer
  | .tMove c => s.attemptTransfer c .ordered .noLanding
  | .wait h => s.attemptWait h
  | .hold h => s.attemptHold h

/-! ## Waiting events considered again -/

/-- The event was found. -/
def Attempt.present : Attempt → Bool
  | .absent => false
  | .waits => true
  | .taken _ => true

/-- The state after the event, where it was taken. -/
def Attempt.state? : Attempt → Option State
  | .absent => none
  | .waits => none
  | .taken t => some t

/-- The part without the waiting events that are withdrawn, and without a port's mark when nothing is left at it
(R151). -/
def State.withdraw (s : State) : State := s.setWaiting (s.waiting.filter (fun w => (s.attempt w).present))

/-- An expiry that is taken waits no longer; the marks of the two ports stay for what waits behind the one taken. -/
def State.unwait (s : State) (w : WaitingEvent) : State :=
  match w with
  | .cell => s
  | .frame => s
  | .tPrep _ => s.setWaiting (s.waiting.erase w)
  | .tMove _ => s.setWaiting (s.waiting.erase w)
  | .wait _ => s.setWaiting (s.waiting.erase w)
  | .hold _ => s.setWaiting (s.waiting.erase w)

/-- The states after each of the waiting events that fit. -/
def State.takeable (s : State) : List State :=
  s.waiting.filterMap (fun w => (s.attempt w).state?.map (·.unwait w))

/-- The one taken first of the waiting events that fit. Where there are several it is a free value, since either may be taken
first (R149, R151; log 4). -/
def State.firstTaken (s : State) : Option State :=
  match s.takeable with
  | [] => none
  | [t] => some t
  | t :: u :: rest =>
    let t := (t :: u :: rest).getD (Config.waitingTaken s.freeIndex % (rest.length + 2)) t
    some { t with freeIndex := t.freeIndex + 1 }

/-- The waiting events are considered on the state as it stands, and one that fits is taken, again and again until none fits.
`fuel` bounds the number of times. -/
def State.reconsiderFrom : Nat → State → State
  | 0, s => s
  | fuel + 1, s =>
    match s.withdraw.firstTaken with
    | none => s.withdraw
    | some t => State.reconsiderFrom fuel t

/-- The waiting events are considered again (R149, R151, R157). Each taking takes a cell from the input buffer, a frame from its
buffer, or an expiry from the waiting events, so as many takings as there are of these are enough. -/
def State.reconsider (s : State) : State :=
  State.reconsiderFrom (s.head.input.length + s.ctrl.frames.length + s.waiting.length + 1) s

/-- An event waits (R149). -/
def State.addWaiting (s : State) (w : WaitingEvent) : State :=
  if s.waiting.contains w then s else s.setWaiting (s.waiting ++ [w])

/-- An event is considered: nothing changes where it is absent; else it waits, or it is taken, and then the waiting events are
considered again, since their counts may have changed (R149). -/
def State.consider (s : State) (w : WaitingEvent) : State :=
  match s.attempt w with
  | .absent => s
  | .waits => s.addWaiting w
  | .taken t => t.reconsider

/-! ## The units' cells as commands (log 2) -/

/-- A unit's cell as a command: unless it stands at the head of the input buffer already, it arrives; and when it stands at the
head it is considered for taking. -/
def State.presentCell (s : State) (c : RawCell) : State :=
  if s.resetPin then s
  else
    let s := if s.headIs c then s else s.arrive c
    if s.headIs c then s.consider .cell else s

/-- The last byte of a cell is sent: room grows, and the waiting events are considered again (R148 to R150). -/
def State.cellSent (s : State) : State :=
  if s.resetPin || s.head.output.isEmpty then s else (s.setHead s.head.sent).reconsider

/-! ## Host requests as commands (log 1) -/

/-- A request body in a free buffer, where it waits for its taking (R157). -/
def State.storeBody (s : State) (body : List Byte) : State :=
  (s.setCtrl { s.ctrl with frames := s.ctrl.frames ++ [body] }).addWaiting .frame

/-- The taking of a frame that has just been received, at once: no older frame waits, fewer than two answers wait, and its
cells have room; else it waits in its buffer (R157). -/
def State.takeOrStore (s : State) (body : List Byte) (chain : List ChainItem × Bool) : State :=
  if s.ctrl.frames.isEmpty && s.ctrl.mayTake then
    match ((Ev.start s).frame chain).settle s.head with
    | some t => t.reconsider
    | none => s.storeBody body
  else s.storeBody body

/-- A request frame received whole (log 1): it has no effect while the reset pin is asserted or another frame is being
received; it is rejected when both buffers are occupied; else it is taken at once or waits (R155 to R157). -/
def State.presentFrame (s : State) (body : List Byte) (chain : List ChainItem × Bool) : State :=
  if s.resetPin then s
  else
    match s.ctrl.rx with
    | .inFrame _ _ => s
    | .hunting =>
      if s.ctrl.buffersUsed < Config.frameBuffers then s.takeOrStore body chain
      else s.setCtrl (s.ctrl.reject .overrun)

/-- A host request as a command: the frame that holds it as its one record (log 1). -/
def State.presentRequest (s : State) (tag : Byte) (r : Request) : State :=
  s.presentFrame (oneRecordBody tag r) ([.record tag r], false)

/-- A whole chain as a command: the frame that holds it (log 8). -/
def State.presentChain (s : State) (chain : List Byte) : State := s.presentFrame (0x01 :: chain) (delimitChain chain)

/-- An answer frame begins to be sent: one answer fewer waits, and a frame that waits for that is considered again (R157,
R161). -/
def State.answerSent (s : State) : State :=
  if s.resetPin || s.ctrl.ctxd.isSome || s.ctrl.answers.isEmpty then s else (s.setCtrl s.ctrl.sendAnswer).reconsider

end Sys2Proof.Machine
end

