-- ==== Sys2Proof/Machine/ControlEvents.lean ====
section
/-! DEFINITION. The meanings of the events of the control port's receiver and sender, and of the taking of a frame
(chapter 9). None has an effect while the reset pin is asserted (R173). -/

namespace Sys2Proof.Machine

/-- FRAME_BEGIN (R154, R156). -/
def execFrameBegin (s : State) : Host.Outcome State Fault Refusal :=
  .next (s.onCtrl ControlPort.sync)

/-- FRAME_LENGTH_TOO_LONG (R154). -/
def execFrameLengthTooLong (length : BitVec 16) (s : State) : Host.Outcome State Fault Refusal :=
  .next (if (Instr.frameLengthTooLong length).wellFormed then s.onCtrl ControlPort.tooLong else s)

/-- FRAME_COMPLETE (R154, R155). -/
def execFrameComplete (body : List Byte) (check : BitVec 16) (s : State) : Host.Outcome State Fault Refusal :=
  .next (if (Instr.frameComplete body check).wellFormed then s.onCtrl (·.completed body check) else s)

/-- FRAME_TIMEOUT (R154). -/
def execFrameTimeout (s : State) : Host.Outcome State Fault Refusal :=
  .next (s.onCtrl ControlPort.timedOut)

/-- SEND_ANSWER_FRAME (R157, R161). -/
def execSendAnswerFrame (s : State) : Host.Outcome State Fault Refusal :=
  .next s.answerSent

/-- SEND_NOTICE_FRAME (R161, R163). -/
def execSendNoticeFrame (s : State) : Host.Outcome State Fault Refusal :=
  .next (s.onCtrl ControlPort.sendNotice)

/-- SEND_TAP_FRAME (R161, R180). -/
def execSendTapFrame (s : State) : Host.Outcome State Fault Refusal :=
  .next s.sendTap

/-- FRAME_SEND_DONE (R156, R161). -/
def execFrameSendDone (s : State) : Host.Outcome State Fault Refusal :=
  .next (s.onCtrl ControlPort.sendDone)

/-- REQUEST_FRAME_TAKEN (R157). -/
def execRequestFrameTaken (s : State) : Host.Outcome State Fault Refusal :=
  .next (if s.resetPin then s else s.consider .frame)

end Sys2Proof.Machine
end

