-- ==== Sys2Proof/Machine/HeadEvents.lean ====
section
/-! DEFINITION. The meanings of the head port's events: the arrival of a cell, its taking by kind (log 2), and the sending of
the oldest cell (chapter 8). -/

namespace Sys2Proof.Machine

/-- CELL_ARRIVAL (R144 to R146). -/
def execCellArrival (c : RawCell) (s : State) : Host.Outcome State Fault Refusal :=
  .next (s.arrive c)

/-- HEAR (R62, R85). -/
def execHear (antenna : Byte) (h : Identity) (level errors : Byte) (s : State) : Host.Outcome State Fault Refusal :=
  .next (s.presentCell { unitCell .hear antenna h with byte5 := level, byte6 := errors })

/-- JOIN (R11 to R15, R116). -/
def execJoin (antenna : Byte) (h : Identity) (s : State) : Host.Outcome State Fault Refusal :=
  .next (s.presentCell (unitCell .join antenna h))

/-- READY (R127, R128, R137). -/
def execReady (antenna : Byte) (h : Identity) (s : State) : Host.Outcome State Fault Refusal :=
  .next (s.presentCell (unitCell .ready antenna h))

/-- NOROOM (R129). -/
def execNoroom (antenna : Byte) (h : Identity) (s : State) : Host.Outcome State Fault Refusal :=
  .next (s.presentCell (unitCell .noroom antenna h))

/-- LANDED (R133, R138). -/
def execLanded (antenna : Byte) (h : Identity) (s : State) : Host.Outcome State Fault Refusal :=
  .next (s.presentCell (unitCell .landed antenna h))

/-- GONE (R18, R131, R132, R134). -/
def execGone (antenna : Byte) (h : Identity) (s : State) : Host.Outcome State Fault Refusal :=
  .next (s.presentCell (unitCell .gone antenna h))

/-- QUIT (R16, R17). -/
def execQuit (antenna : Byte) (h : Identity) (s : State) : Host.Outcome State Fault Refusal :=
  .next (s.presentCell (unitCell .quit antenna h))

/-- UP (R32). -/
def execUp (antenna : Byte) (s : State) : Host.Outcome State Fault Refusal :=
  .next (s.presentCell (unitCell .up antenna 0))

/-- DOWN (R33, R34). -/
def execDown (antenna : Byte) (s : State) : Host.Outcome State Fault Refusal :=
  .next (s.presentCell (unitCell .down antenna 0))

/-- NON_UNIT_KIND_CELL (R147 test 1). -/
def execNonUnitKindCell (c : RawCell) (s : State) : Host.Outcome State Fault Refusal :=
  .next (if (Instr.nonUnitKindCell c).wellFormed then s.presentCell c else s)

/-- CELL_SENT (R148 to R150). -/
def execCellSent (s : State) : Host.Outcome State Fault Refusal :=
  .next s.cellSent

end Sys2Proof.Machine
end

