-- ==== Sys2Proof/Machine/HostCommands.lean ====
section
/-! DEFINITION. The meanings of the host's commands: the 23 requests, each in a request frame of its own (log 1), and the three
irregular records, each with the chain it stands in (log 8). -/

namespace Sys2Proof.Machine

/-- IDENT (R166). -/
def execIdent (tag : Byte) (s : State) : Host.Outcome State Fault Refusal :=
  .next (s.presentRequest tag .ident)

/-- TUNE (R167, R168). -/
def execTune (tag : Byte) (f : TuneFields) (s : State) : Host.Outcome State Fault Refusal :=
  .next (s.presentRequest tag (.tune f))

/-- FLOOR (R169). -/
def execFloor (tag value : Byte) (s : State) : Host.Outcome State Fault Refusal :=
  .next (s.presentRequest tag (.floor value))

/-- GO (R170, R171). -/
def execGo (tag : Byte) (s : State) : Host.Outcome State Fault Refusal :=
  .next (s.presentRequest tag .go)

/-- WARM (R172). -/
def execWarm (tag : Byte) (s : State) : Host.Outcome State Fault Refusal :=
  .next (s.presentRequest tag .warm)

/-- ENROL (R4, R5). -/
def execEnrol (tag : Byte) (f : EnrolFields) (s : State) : Host.Outcome State Fault Refusal :=
  .next (s.presentRequest tag (.enrol f))

/-- UNENROL (R6). -/
def execUnenrol (tag : Byte) (h : Identity) (s : State) : Host.Outcome State Fault Refusal :=
  .next (s.presentRequest tag (.unenrol h))

/-- SITE (R25 to R27). -/
def execSite (tag antenna presence venue : Byte) (s : State) : Host.Outcome State Fault Refusal :=
  .next (s.presentRequest tag (.site antenna presence venue))

/-- VENUE (R38). -/
def execVenue (tag venue : Byte) (low high : Identity) (wake : Byte) (s : State) : Host.Outcome State Fault Refusal :=
  .next (s.presentRequest tag (.venue venue low high wake))

/-- LINE (R48). -/
def execLine (tag line kind : Byte) (s : State) : Host.Outcome State Fault Refusal :=
  .next (s.presentRequest tag (.line line kind))

/-- SETVENUE (R41 to R43). -/
def execSetVenue (tag venue state : Byte) (s : State) : Host.Outcome State Fault Refusal :=
  .next (s.presentRequest tag (.setVenue venue state))

/-- BAR (R35). -/
def execBar (tag antenna : Byte) (s : State) : Host.Outcome State Fault Refusal :=
  .next (s.presentRequest tag (.bar antenna))

/-- UNBAR (R35). -/
def execUnbar (tag antenna : Byte) (s : State) : Host.Outcome State Fault Refusal :=
  .next (s.presentRequest tag (.unbar antenna))

/-- STEER (R140 to R143). -/
def execSteer (tag : Byte) (h : Identity) (target options : Byte) (s : State) : Host.Outcome State Fault Refusal :=
  .next (s.presentRequest tag (.steer h target options))

/-- EVICT (R19, R20). -/
def execEvict (tag : Byte) (h : Identity) (s : State) : Host.Outcome State Fault Refusal :=
  .next (s.presentRequest tag (.evict h))

/-- UNSTICK (R22). -/
def execUnstick (tag : Byte) (h : Identity) (s : State) : Host.Outcome State Fault Refusal :=
  .next (s.presentRequest tag (.unstick h))

/-- TAP (R178). -/
def execTap (tag tap kind selector : Byte) (count : BitVec 16) (circular : Byte) (s : State) : Host.Outcome State Fault Refusal :=
  .next (s.presentRequest tag (.tap tap kind selector count circular))

/-- UNTAP (R181). -/
def execUntap (tag tap : Byte) (s : State) : Host.Outcome State Fault Refusal :=
  .next (s.presentRequest tag (.untap tap))

/-- PEEK_HEADSET (R174, R184). -/
def execPeekHeadset (tag : Byte) (h : Identity) (s : State) : Host.Outcome State Fault Refusal :=
  .next (s.presentRequest tag (.peekHeadset h))

/-- PEEK_ANTENNA (R175, R186). -/
def execPeekAntenna (tag antenna : Byte) (s : State) : Host.Outcome State Fault Refusal :=
  .next (s.presentRequest tag (.peekAntenna antenna))

/-- PEEK_VENUE (R176, R186). -/
def execPeekVenue (tag venue : Byte) (s : State) : Host.Outcome State Fault Refusal :=
  .next (s.presentRequest tag (.peekVenue venue))

/-- PEEK_CONTEXT (R176, R186). -/
def execPeekContext (tag context : Byte) (s : State) : Host.Outcome State Fault Refusal :=
  .next (s.presentRequest tag (.peekContext context))

/-- LIST (R177, R186). -/
def execList (tag : Byte) (start : BitVec 16) (count filter : Byte) (s : State) : Host.Outcome State Fault Refusal :=
  .next (s.presentRequest tag (.list start count filter))

/-- UNKNOWN_KIND_RECORD (R158 step 3): the frame that holds the chain; no effect for a chain without such a record (log 3). -/
def execUnknownKindRecord (chain : List Byte) (s : State) : Host.Outcome State Fault Refusal :=
  .next (if (Instr.unknownKindRecord chain).wellFormed then s.presentChain chain else s)

/-- SHORT_RECORD (R158 steps 2, 4 and 6): the frame that holds the chain; no effect for a chain without such a record (log 3). -/
def execShortRecord (chain : List Byte) (s : State) : Host.Outcome State Fault Refusal :=
  .next (if (Instr.shortRecord chain).wellFormed then s.presentChain chain else s)

/-- SKIPPED_RECORD (R158: TOO_MANY and REMAINDER): the frame that holds the chain; no effect for a chain without such a record (log 3). -/
def execSkippedRecord (chain : List Byte) (s : State) : Host.Outcome State Fault Refusal :=
  .next (if (Instr.skippedRecord chain).wellFormed then s.presentChain chain else s)

end Sys2Proof.Machine
end

