-- ==== Sys2Proof/Machine/TimerEvents.lean ====
section
/-! DEFINITION. The meanings of the timer expiries (R151; log 6) and of the reset pin (R173; logs 10 and 11). -/

namespace Sys2Proof.Machine

/-- T_PREP_EXPIRY (R130). -/
def execTPrepExpiry (c : ContextNo) (s : State) : Host.Outcome State Fault Refusal :=
  .next (if s.resetPin then s else s.consider (.tPrep c))

/-- T_MOVE_EXPIRY (R135). -/
def execTMoveExpiry (c : ContextNo) (s : State) : Host.Outcome State Fault Refusal :=
  .next (if s.resetPin then s else s.consider (.tMove c))

/-- WAIT_EXPIRY (R115). -/
def execWaitExpiry (h : Identity) (s : State) : Host.Outcome State Fault Refusal :=
  .next (if s.resetPin then s else s.consider (.wait h))

/-- HOLD_EXPIRY (R10). -/
def execHoldExpiry (h : Identity) (s : State) : Host.Outcome State Fault Refusal :=
  .next (if s.resetPin then s else s.consider (.hold h))

/-- RESET_ASSERT (R173). -/
def execResetAssert (s : State) : Host.Outcome State Fault Refusal :=
  .next (s.resetTo true)

/-- RESET_RELEASE (R173). -/
def execResetRelease (s : State) : Host.Outcome State Fault Refusal :=
  .next (if s.resetPin then s.resetTo false else s)

end Sys2Proof.Machine
end

