-- ==== Sys2Proof/Machine/Dispatch.lean ====
section
/-! DEFINITION. The dispatch of a command to its meaning: one arm for each row of spec/opcode_table.json. -/

namespace Sys2Proof.Machine

def exec (i : Instr) (s : State) : Host.Outcome State Fault Refusal :=
  match i with
  | .ident a => Sys2Proof.Machine.execIdent a s
  | .tune a b => Sys2Proof.Machine.execTune a b s
  | .floor a b => Sys2Proof.Machine.execFloor a b s
  | .go a => Sys2Proof.Machine.execGo a s
  | .warm a => Sys2Proof.Machine.execWarm a s
  | .enrol a b => Sys2Proof.Machine.execEnrol a b s
  | .unenrol a b => Sys2Proof.Machine.execUnenrol a b s
  | .site a b c d => Sys2Proof.Machine.execSite a b c d s
  | .venue a b c d e => Sys2Proof.Machine.execVenue a b c d e s
  | .line a b c => Sys2Proof.Machine.execLine a b c s
  | .setVenue a b c => Sys2Proof.Machine.execSetVenue a b c s
  | .bar a b => Sys2Proof.Machine.execBar a b s
  | .unbar a b => Sys2Proof.Machine.execUnbar a b s
  | .steer a b c d => Sys2Proof.Machine.execSteer a b c d s
  | .evict a b => Sys2Proof.Machine.execEvict a b s
  | .unstick a b => Sys2Proof.Machine.execUnstick a b s
  | .tap a b c d e f => Sys2Proof.Machine.execTap a b c d e f s
  | .untap a b => Sys2Proof.Machine.execUntap a b s
  | .peekHeadset a b => Sys2Proof.Machine.execPeekHeadset a b s
  | .peekAntenna a b => Sys2Proof.Machine.execPeekAntenna a b s
  | .peekVenue a b => Sys2Proof.Machine.execPeekVenue a b s
  | .peekContext a b => Sys2Proof.Machine.execPeekContext a b s
  | .list a b c d => Sys2Proof.Machine.execList a b c d s
  | .unknownKindRecord a => Sys2Proof.Machine.execUnknownKindRecord a s
  | .shortRecord a => Sys2Proof.Machine.execShortRecord a s
  | .skippedRecord a => Sys2Proof.Machine.execSkippedRecord a s
  | .frameBegin => Sys2Proof.Machine.execFrameBegin s
  | .frameLengthTooLong a => Sys2Proof.Machine.execFrameLengthTooLong a s
  | .frameComplete a b => Sys2Proof.Machine.execFrameComplete a b s
  | .frameTimeout => Sys2Proof.Machine.execFrameTimeout s
  | .sendAnswerFrame => Sys2Proof.Machine.execSendAnswerFrame s
  | .sendNoticeFrame => Sys2Proof.Machine.execSendNoticeFrame s
  | .sendTapFrame => Sys2Proof.Machine.execSendTapFrame s
  | .frameSendDone => Sys2Proof.Machine.execFrameSendDone s
  | .cellArrival a => Sys2Proof.Machine.execCellArrival a s
  | .hear a b c d => Sys2Proof.Machine.execHear a b c d s
  | .join a b => Sys2Proof.Machine.execJoin a b s
  | .ready a b => Sys2Proof.Machine.execReady a b s
  | .noroom a b => Sys2Proof.Machine.execNoroom a b s
  | .landed a b => Sys2Proof.Machine.execLanded a b s
  | .gone a b => Sys2Proof.Machine.execGone a b s
  | .quit a b => Sys2Proof.Machine.execQuit a b s
  | .up a => Sys2Proof.Machine.execUp a s
  | .down a => Sys2Proof.Machine.execDown a s
  | .cellSent => Sys2Proof.Machine.execCellSent s
  | .tPrepExpiry a => Sys2Proof.Machine.execTPrepExpiry a s
  | .tMoveExpiry a => Sys2Proof.Machine.execTMoveExpiry a s
  | .waitExpiry a => Sys2Proof.Machine.execWaitExpiry a s
  | .holdExpiry a => Sys2Proof.Machine.execHoldExpiry a s
  | .resetAssert => Sys2Proof.Machine.execResetAssert s
  | .resetRelease => Sys2Proof.Machine.execResetRelease s
  | .requestFrameTaken => Sys2Proof.Machine.execRequestFrameTaken s
  | .nonUnitKindCell a => Sys2Proof.Machine.execNonUnitKindCell a s

end Sys2Proof.Machine
end

