-- ==== Sys2Proof/Machine/Step.lean ====
section
/-! DEFINITION. One step of the part: the command at the front of the queue, or one millisecond when no command waits. -/

namespace Sys2Proof.Machine

/-- The part with another queue of commands. -/
def State.setPending (s : State) (cs : List Instr) : State := { s with pending := cs }

/-- One step: the command at the front of the queue is taken with the queue's rest; on an empty queue one millisecond passes
(R151; log 5). -/
def step (s : State) : Host.Outcome State Fault Refusal :=
  match s.pending with
  | [] => .next s.tick
  | c :: rest => exec c (s.setPending rest)

/-- The part with the command that a word spells put at the front of its queue; unchanged where the word spells none, and none
does (log 23). -/
def State.withFetchWord (s : State) (nbits w : Nat) : State :=
  match decodeTableWord nbits w with
  | some c => s.setPending (c :: s.pending)
  | none => s

end Sys2Proof.Machine
end

