-- ==== Sys2Proof/Safety.lean ====
section
/-! DEFINITION. The terms in which statements about the part are made: the states in which a command meets an idle port, what a
reply and a run of cells do to a state, and the laws of the device that hold of every reachable state. -/

namespace Sys2Proof.Machine

/-! ## Idle ports -/

/-- The control port receives and takes a request at once: no reset, no frame being received or waiting, fewer than two
answers waiting (R156, R157); and no event waits that the taking of the request could let in (R149). -/
abbrev State.hostReady (s : State) : Prop :=
  s.resetPin = false ∧ s.ctrl.rx = .hunting ∧ s.ctrl.frames = [] ∧ s.ctrl.answers.length < 2 ∧ s.waiting = []

/-- The output queue has room for a run of `n` cells (R149). -/
abbrev State.roomFor (s : State) (n : Nat) : Prop := s.head.overflow = [] ∧ s.head.output.length + n ≤ 128

/-- A cell that arrives is considered at once: no reset, an empty input buffer, shedding off, HSTALL released (R144 to R146);
and no event waits that the taking of the cell could let in (R149). -/
abbrev State.cellReady (s : State) : Prop :=
  s.resetPin = false ∧ s.head.input = [] ∧ s.head.shedding = false ∧ s.head.hstall = false ∧ s.waiting = []

/-- A cell other than UP and DOWN passes the judgement of R147 for its antenna and identity: RUN, the antenna present and
ONLINE, an identity that names a headset. -/
abbrev State.servesCells (s : State) (b : Byte) (a : AntennaNo) (h : Identity) : Prop :=
  s.mode = .run ∧ b.toNat = a.val ∧ (s.ant a).present = true ∧ (s.ant a).online = true ∧ h ≠ 0x000000 ∧ h ≠ 0xFFFFFF

/-- A slot is the lowest FREE slot of an antenna (R29). -/
abbrev State.lowestFree (s : State) (a : AntennaNo) (i : SlotNo) : Prop :=
  s.slot a i = .free ∧ ∀ j : SlotNo, j < i → s.slot a j ≠ .free

/-- The window of a venue is disabled, or the identity lies in it, both ends included (R39). -/
abbrev Venue.letsIn (v : Venue) (h : Identity) : Prop :=
  v.high.toNat < v.low.toNat ∨ (v.low.toNat ≤ h.toNat ∧ h.toNat ≤ v.high.toNat)

/-- The field checks of an ENROL hold: identity, class, home venue with a present antenna in RUN, mode, talk set, monitor. -/
abbrev enrolFieldsOk (s : State) (f : EnrolFields) : Prop :=
  f.ident ≠ 0x000000 ∧ f.ident ≠ 0xFFFFFF ∧ f.cls.toNat ≤ 3 ∧ f.home.toNat ≤ 15 ∧
    (s.mode = .run → ∃ a : AntennaNo, (s.ant a).present = true ∧ (s.ant a).venue.val = f.home.toNat) ∧
    ((f.mode = 0 ∧ f.talk ≠ 0) ∨ (f.mode = 1 ∧ f.talk = 0)) ∧ f.monitor.toNat ≤ 31 ∧ f.listen.getLsbD f.monitor.toNat = true

/-- One of the fifteen values of a TUNE: its mask bit, its range, the value given, and its offset in the record (R167). -/
structure TuneValue where
  bit : Nat
  low : Nat
  high : Nat
  given : Nat
  offset : Nat
deriving DecidableEq, Repr

/-- The fifteen values of a TUNE in record order (the table of R167). -/
def tuneValues (f : TuneFields) : List TuneValue :=
  [⟨0, 1, 5, f.avgShift.toNat, 4⟩, ⟨1, 0, 30, f.hysteresis.toNat, 5⟩, ⟨2, 2, 15, f.persist.toNat, 6⟩,
    ⟨3, 0, 250, f.floor.toNat, 7⟩, ⟨4, 0, 40, f.homeBonus.toNat, 8⟩, ⟨5, 0, 4, f.loadWeight.toNat, 9⟩,
    ⟨6, 0, 40, f.showMargin.toNat, 10⟩, ⟨7, 1, 15, f.staleLimit.toNat, 11⟩, ⟨8, 0, 15, f.backoff.toNat, 12⟩,
    ⟨9, 20, 500, f.tPrep.toNat, 13⟩, ⟨10, 50, 2000, f.tMove.toNat, 15⟩, ⟨11, 1, 120, f.tHold.toNat, 17⟩,
    ⟨12, 1, 60, f.tWait.toNat, 18⟩, ⟨13, 0, 1, f.preempt.toNat, 19⟩, ⟨14, 0, 1, f.arbitration.toNat, 20⟩]

/-- A value is selected and outside its range (R167). -/
abbrev TuneValue.clamps (mask : BitVec 16) (x : TuneValue) : Prop :=
  mask.getLsbD x.bit = true ∧ (x.given < x.low ∨ x.high < x.given)

/-- A venue accepts a headset of a class: OPEN, SHOW, or CLOSED with the class in its wake mask (R88). -/
abbrev Venue.takesIn (v : Venue) (c : ClassNo) : Prop :=
  v.state = .opened ∨ v.state = .show ∨ v.state = .closed ∧ v.wake.getLsbD c.val = true

/-- An antenna is present and ONLINE (R24, R32). -/
abbrev State.inService (s : State) (a : AntennaNo) : Prop := (s.ant a).present = true ∧ (s.ant a).online = true

/-- An entry of a hearing list is an eligible candidate: not the serving antenna's, measured, its backoff spent, its antenna
present, ONLINE and not barred, its venue open to the class and its window to the identity (R87, R88). -/
abbrev State.mayBeCandidate (s : State) (p : Profile) (serving : AntennaNo) (x : HearEntry) : Prop :=
  x.ant ≠ serving ∧ x.avg ≠ none ∧ x.backoff = 0 ∧ (s.ant x.ant).present = true ∧ (s.ant x.ant).online = true ∧
    (s.ant x.ant).barred = false ∧ (s.ven (s.ant x.ant).venue).takesIn p.cls ∧ (s.ven (s.ant x.ant).venue).letsIn p.ident

/-- The antenna holds a claim: a slot that is not FREE, a listener place, or a wait entry (R31). -/
abbrev State.holdsClaim (s : State) (a : AntennaNo) : Prop :=
  (∃ i : SlotNo, s.slot a i ≠ .free) ∨ (∃ k : CarrierNo, ∃ l ∈ s.carrier a k, 1 ≤ l.served + l.reserved) ∨
    (s.ant a).wait ≠ []

/-- The order in which an offer at an antenna searches the classes (R110, R111). -/
def State.offerOrder (s : State) (a : AntennaNo) : List ClassNo :=
  match s.tuning.arbitration with
  | .fixed => [3, 2, 1, 0]
  | .rotating => [(s.ant a).rotation - 1, (s.ant a).rotation - 2, (s.ant a).rotation - 3, (s.ant a).rotation]

/-- An offer passes an entry over: a WAIT_PROMOTE entry whose headset is in TRANSFER (R109). -/
abbrev State.passesOver (s : State) (x : WaitEntry) : Prop :=
  x.kind = .promote ∧ ∃ q p svc c tr, s.rec? x.headset = some ⟨q, p, .transfer svc c tr⟩

/-- An offer at an antenna chooses an entry that stands between two parts of the wait list: the oldest of its class that is not
passed over, where no class before its own in the order of the offer has an entry that is not passed over (R109 to R111). -/
abbrev State.offerChooses (s : State) (a : AntennaNo) (before : List WaitEntry) (w : WaitEntry) (behind : List WaitEntry) : Prop :=
  (s.ant a).wait = before ++ w :: behind ∧ ¬ s.passesOver w ∧
    (∀ x ∈ before, x.headset ≠ w.headset ∧ (x.cls = w.cls → s.passesOver x)) ∧
    ∃ l r, s.offerOrder a = l ++ w.cls :: r ∧ ∀ x ∈ (s.ant a).wait, x.cls ∈ l → s.passesOver x

/-- The part with the rotation pointer of an antenna at a class, under ROTATING alone (R110, R111). -/
def State.rotatedTo (s : State) (a : AntennaNo) (c : ClassNo) : State :=
  match s.tuning.arbitration with
  | .fixed => s
  | .rotating => s.setAnt a { s.ant a with rotation := c }

/-! ## Changes that statements name -/

/-- The part with one more reply frame of one record waiting (R160). -/
def State.replied (s : State) (code tag : Byte) (status : Status) (offset : Nat) (result : List Byte) : State :=
  s.setCtrl { s.ctrl with answers := s.ctrl.answers ++ [.reply false [⟨code, tag, status, offset, result⟩]] }

/-- The part with a run of cells at the end of its output queue (R148). -/
def State.sends (s : State) (cells : List OutCell) : State :=
  s.setHead { s.head with output := s.head.output ++ cells }

/-- The part with the claim count of a venue one higher (R40). -/
def State.claimed (s : State) (v : VenueNo) : State := s.setVen v { s.ven v with claims := (s.ven v).claims + 1 }

/-- The part with the claim count of a venue one lower (R40). -/
def State.unclaimed (s : State) (v : VenueNo) : State := s.setVen v { s.ven v with claims := (s.ven v).claims - 1 }

/-- The part with a record in the place of the one of its identity (R3). -/
def State.setRec (s : State) (r : HeadsetRecord) : State := s.updRec r.profile.ident (fun _ => r)

/-- The part with the ROUTE notice of a profile queued (R8). -/
def State.routed (s : State) (p : Profile) (a : AntennaNo) (place : Option Place) : State :=
  s.notify (.route p.ident a place p.talk p.listen)

/-- The cells that an event sends on its way from a state to `t` have room in the output queue (R149). -/
abbrev State.roomTo (s t : State) : Prop := s.head.overflow = [] ∧ t.head.output.length ≤ 128

/-- One step after another for the elements of a list, from one end to the other. -/
inductive Through {α β : Type} (step : α → β → β → Prop) : List α → β → β → Prop
  | done (s : β) : Through step [] s s
  | next (x : α) (l : List α) (s u t : β) : step x s u → Through step l u t → Through step (x :: l) s t

/-! ## Releases -/

/-- The present, ONLINE antennas of a venue in ascending number (R36). -/
def State.unitsOf (s : State) (v : VenueNo) : List AntennaNo :=
  (List.finRange 48).filter (fun a => (s.ant a).present && (s.ant a).online && (s.ant a).venue == v)

/-- The part after the end of a claim in a venue: the count falls, and a DRAINING venue brought to 0 closes at that moment, with
MODE BEACON to its antennas and VENUE_STATE (R40, R44). -/
def State.claimEnded (s : State) (v : VenueNo) : State :=
  if (s.ven v).state = .draining ∧ (s.ven v).claims ≤ 1 then
    ((s.setVen v { s.ven v with state := .closed, claims := 0 }).sends ((s.unitsOf v).map (fun a => .mode a false))).notify
      (.venueState v .closed .drained)
  else s.unclaimed v

/-- The part after the removal of a headset's entry from the wait list of an antenna (R107). -/
def State.entryEnded (s : State) (a : AntennaNo) (h : Identity) : State :=
  (s.setWait a ((s.ant a).wait.eraseP (fun w => w.headset == h))).claimEnded (s.ant a).venue

/-- The part after a slot has become FREE, before its offer (R30). -/
def State.slotEnded (s : State) (a : AntennaNo) (i : SlotNo) : State := (s.setSlot a i .free).claimEnded (s.ant a).venue

/-- The part after an offered slot has become HELD by the headset of the entry chosen, with its SEAT cell (R112, R113 steps 1
to 3). -/
def State.slotPassed (s : State) (a : AntennaNo) (i : SlotNo) (g : Identity) : State :=
  (((s.entryEnded a g).setSlot a i (.held g)).claimed (s.ant a).venue).sends [.seat a g (.slot i)]

/-- The part after the release of a listener place of a line on a carrier: its count falls; a line whose counts are both 0 leaves
the set, with the MIX cell to an ONLINE antenna and the MIX notice (R56, R57). -/
inductive State.EndsPlace (s : State) (a : AntennaNo) (k : CarrierNo) (m : LineNo) (reserved : Bool) : State → Prop
  | stays (before behind : Carrier) (n r n' r' : Nat) : s.carrier a k = before ++ ⟨m, n, r⟩ :: behind →
      (∀ l ∈ before ++ behind, l.line ≠ m ∧ 1 ≤ l.served + l.reserved) →
      (reserved = false ∧ n' = n - 1 ∧ r' = r ∨ reserved = true ∧ n' = n ∧ r' = r - 1) → 1 ≤ n' + r' →
      EndsPlace s a k m reserved ((s.setCarrier a k (before ++ ⟨m, n', r'⟩ :: behind)).claimEnded (s.ant a).venue)
  | leaves (before behind : Carrier) (n r : Nat) : s.carrier a k = before ++ ⟨m, n, r⟩ :: behind →
      (∀ l ∈ before ++ behind, l.line ≠ m ∧ 1 ≤ l.served + l.reserved) →
      (reserved = false ∧ n ≤ 1 ∧ r = 0 ∨ reserved = true ∧ n = 0 ∧ r ≤ 1) →
      EndsPlace s a k m reserved ((((s.sends (if (s.ant a).online then [.mix a k ((before ++ behind).map (·.line))] else
        [])).setCarrier a k (before ++ behind)).notify (.mix a k ((before ++ behind).map (·.line)))).claimEnded
        (s.ant a).venue)

/-- The part after the offer of a FREE slot to the wait list of its antenna: nothing, where every entry is passed over; else the
slot passes to the headset of the entry chosen, which is SERVED there or promoted, and under ROTATING the pointer takes its class
(R109 to R113). That the grant takes the slot offered, also where a lower slot is FREE, is the model's choice (log 14). -/
inductive State.Offers (s : State) (a : AntennaNo) (i : SlotNo) : State → Prop
  | unchosen : (∀ x ∈ (s.ant a).wait, s.passesOver x) → Offers s a i s
  | grant (before behind : List WaitEntry) (g : Identity) (mark : Bool) (c : ClassNo) (q : Position) (pg : Profile)
      (att : Attachment) (svc : Service) :
      s.offerChooses a before ⟨g, .join mark, c⟩ behind → s.rec? g = some ⟨q, pg, att⟩ →
      (pg.mode = .duplex ∧ svc = .talk ∨ pg.mode = .listen ∧ svc = .listenSlot) →
      Offers s a i (State.rotatedTo (State.routed (State.notify ((s.slotPassed a i g).setAtt g
        (.served svc ⟨a, .slot i⟩ ⟨none, 0, [⟨a, none, 0, 0, false, .serving⟩]⟩))
        (if mark then .recovered g a (.slot i) svc else .attached g a (.slot i) svc)) pg a (some (.slot i))) a c)
  | promote (before behind : List WaitEntry) (g : Identity) (c : ClassNo) (q : Position) (pg : Profile) (svc : Service)
      (b : AntennaNo) (k : CarrierNo) (tg : Track) (u : State) :
      s.offerChooses a before ⟨g, .promote, c⟩ behind → s.rec? g = some ⟨q, pg, .served svc ⟨b, .carrier k⟩ tg⟩ →
      (s.slotPassed a i g).EndsPlace b k pg.monitor false u →
      Offers s a i (State.rotatedTo (State.routed ((u.setAtt g (.served .talk ⟨a, .slot i⟩ tg)).notify (.promoted g a i))
        pg a (some (.slot i))) a c)

/-- The part after the release of a talk slot: FREE, one claim fewer, and offered where its antenna is ONLINE (R30). -/
def State.ReleasesSlot (s : State) (a : AntennaNo) (i : SlotNo) (u : State) : Prop :=
  if (s.ant a).online then (s.slotEnded a i).Offers a i u else u = s.slotEnded a i

/-- The part after the release of a headset's held resource: a slot; a carrier place, and with it the WAIT_PROMOTE entry of a
DEMOTED headset (R30, R56, R114). That the place goes before the entry is the model's choice (log 15). -/
def State.Releases (s : State) (p : Profile) (svc : Service) (a : AntennaNo) (place : Place) (u : State) : Prop :=
  match place with
  | .slot i => s.ReleasesSlot a i u
  | .carrier k =>
    if svc = .demoted then ∃ u₁, s.EndsPlace a k p.monitor false u₁ ∧ u = u₁.entryEnded a p.ident
    else s.EndsPlace a k p.monitor false u

/-- The part after the release of the reservation of a transfer at its target (R30, R56). -/
def State.ReleasesReserved (s : State) (p : Profile) (a : AntennaNo) (place : Place) (u : State) : Prop :=
  match place with
  | .slot i => s.ReleasesSlot a i u
  | .carrier k => s.EndsPlace a k p.monitor true u

/-! ## Placements and searches -/

/-- A line has no carrier at an antenna, and the carrier is the lowest FREE one there (R52 step 2). -/
abbrev State.newCarrier (s : State) (a : AntennaNo) (m : LineNo) (k : CarrierNo) : Prop :=
  (∀ j : CarrierNo, ∀ l ∈ s.carrier a j, l.line ≠ m) ∧ s.carrier a k = [] ∧ ∀ j : CarrierNo, j < k → s.carrier a j ≠ []

/-- A carrier takes no further OPEN line: it has three lines, or it is SOLE (R50). -/
abbrev State.closedCarrier (s : State) (x : Carrier) : Prop :=
  3 ≤ x.length ∨ ∃ l, x.head? = some l ∧ s.lineKind l.line = .cue

/-- No carrier of an antenna can take a line (R52 step 4). -/
abbrev State.noPlace (s : State) (a : AntennaNo) (m : LineNo) : Prop :=
  (∀ j : CarrierNo, (∀ l ∈ s.carrier a j, l.line ≠ m) ∧ s.carrier a j ≠ []) ∧
    (s.lineKind m = .cue ∨ ∀ j : CarrierNo, s.closedCarrier (s.carrier a j))

/-- A line with one listener place, served or reserved (R51). -/
def CarrierLine.one (m : LineNo) (reserved : Bool) : CarrierLine := if reserved then ⟨m, 0, 1⟩ else ⟨m, 1, 0⟩

/-- The part after the placement of a line as a served or a reserved place, by the first of the three steps that applies: on the
carrier that carries it; on the lowest FREE carrier; on the lowest MIXED carrier with fewer than three lines. The last two change
the set, with the MIX cell and the MIX notice (R52, R53, R58, R59). -/
inductive State.Places (s : State) (a : AntennaNo) (m : LineNo) (reserved : Bool) : CarrierNo → State → Prop
  | carried (k : CarrierNo) (before behind : Carrier) (n r n' r' : Nat) : s.carrier a k = before ++ ⟨m, n, r⟩ :: behind →
      (∀ l ∈ before ++ behind, l.line ≠ m) → (∀ j : CarrierNo, j < k → ∀ l ∈ s.carrier a j, l.line ≠ m) →
      (reserved = false ∧ n' = n + 1 ∧ r' = r ∨ reserved = true ∧ n' = n ∧ r' = r + 1) →
      Places s a m reserved k ((s.setCarrier a k (before ++ ⟨m, n', r'⟩ :: behind)).claimed (s.ant a).venue)
  | fresh (k : CarrierNo) : s.newCarrier a m k → Places s a m reserved k
      ((((s.sends [.mix a k [m]]).setCarrier a k [.one m reserved]).notify (.mix a k [m])).claimed (s.ant a).venue)
  | mixed (k : CarrierNo) (before behind : Carrier) :
      (∀ j : CarrierNo, (∀ l ∈ s.carrier a j, l.line ≠ m) ∧ s.carrier a j ≠ []) → s.lineKind m = .opened →
      s.carrier a k = before ++ behind → (∀ l ∈ before, l.line < m) → (∀ l ∈ behind, m < l.line) →
      ¬ s.closedCarrier (s.carrier a k) → (∀ j : CarrierNo, j < k → s.closedCarrier (s.carrier a j)) →
      Places s a m reserved k ((((s.sends [.mix a k (before.map (·.line) ++ m :: behind.map (·.line))]).setCarrier a k
        (before ++ .one m reserved :: behind)).notify (.mix a k (before.map (·.line) ++ m :: behind.map (·.line)))).claimed
        (s.ant a).venue)

/-- The slots of an antenna that are RESERVED for or HELD by other headsets (R28). -/
def State.takenByOthers (s : State) (a : AntennaNo) (h : Identity) : Nat :=
  ((List.finRange 10).filter (fun i : SlotNo => match s.slot a i with
    | .free => false
    | .reserved g _ => decide (g ≠ h)
    | .held g => decide (g ≠ h))).length

/-- The score of an average at an antenna: with 16 times the home bonus where the antenna is of the home venue, less 16 times the
load weight for each slot that others have there (R28, R70). -/
def State.scoreOf (s : State) (p : Profile) (a : AntennaNo) (v : Nat) : Int :=
  (v : Int) + (if (s.ant a).venue = p.home then 16 * (s.tuning.homeBonus : Int) else 0) -
    16 * (s.tuning.loadWeight : Int) * (s.takenByOthers a p.ident : Int)

/-- Of the entries of a list that pass, one with average `v` is the best: every other has a lower score, or an equal one and no
lower antenna number (R89). -/
abbrev State.bestEntry (s : State) (p : Profile) (passes : HearEntry → Prop) (l : List HearEntry) (x : HearEntry)
    (v : Nat) : Prop :=
  x ∈ l ∧ passes x ∧ x.avg = some v ∧ ∀ y ∈ l, ∀ w : Nat, passes y → y.avg = some w →
    s.scoreOf p y.ant w < s.scoreOf p x.ant v ∨ (s.scoreOf p y.ant w = s.scoreOf p x.ant v ∧ x.ant ≤ y.ant)

/-- No line of the talk set of a profile is a CUE line (R104). -/
abbrev State.noCueTalk (s : State) (p : Profile) : Prop :=
  ∀ m : LineNo, p.talk.getLsbD m.val = true → s.lineKind m = .opened

/-- A headset SERVED with a service holds a slot, and its monitor line can be placed at the antenna (R103, R104). -/
abbrev State.canMove (s : State) (a : AntennaNo) (i : SlotNo) (svc : Service) (p : Profile) : Prop :=
  ∃ g q held tr, s.slot a i = .held g ∧ s.rec? g = some ⟨q, p, .served svc held tr⟩ ∧ ¬ s.noPlace a p.monitor

/-- No slot of an antenna is FREE, and none is held by a LISTEN_SLOT headset that can be re-seated (R102, R103). -/
abbrev State.slotsTaken (s : State) (a : AntennaNo) : Prop :=
  (∀ i : SlotNo, s.slot a i ≠ .free) ∧ ∀ (i : SlotNo) (p : Profile), ¬ s.canMove a i .listenSlot p

/-- A headset is a victim on a slot for a mover of a class: TALK, of a lower class, with no CUE line in its talk set (R104). -/
abbrev State.victim (s : State) (a : AntennaNo) (c : ClassNo) (i : SlotNo) (p : Profile) : Prop :=
  s.canMove a i .talk p ∧ p.cls < c ∧ s.noCueTalk p

/-- A talk slot as a headset takes it: HELD, or RESERVED for its transfer context (R29, R101). -/
def takenFor (h : Identity) : Option ContextNo → SlotState
  | none => .held h
  | some c => .reserved h c

/-- The part after the taking of a talk slot for a mover: a FREE slot, the lowest; the slot of a LISTEN_SLOT holder, the highest
that can be re-seated; or, where the search may pre-empt and the wait list has room, the slot of the victim of the lowest class, and
of these the highest slot (R29, R102 to R105). -/
inductive State.TakesSlot (s : State) (a : AntennaNo) (mover : Profile) (c : Option ContextNo) (preempt : Bool) :
    SlotNo → State → Prop
  | free (i : SlotNo) : s.lowestFree a i →
      TakesSlot s a mover c preempt i ((s.setSlot a i (takenFor mover.ident c)).claimed (s.ant a).venue)
  | reseat (i : SlotNo) (k : CarrierNo) (g : Identity) (q : Position) (pg : Profile) (held : Resource) (tg : Track) (u : State) :
      (∀ j : SlotNo, s.slot a j ≠ .free) → (∀ (j : SlotNo) (p : Profile), i < j → ¬ s.canMove a j .listenSlot p) →
      s.slot a i = .held g → s.rec? g = some ⟨q, pg, .served .listenSlot held tg⟩ → s.Places a pg.monitor false k u →
      TakesSlot s a mover c preempt i (State.setSlot (State.routed ((u.setAtt g (.served .listen ⟨a, .carrier k⟩ tg)).sends
        [.seat a g (.carrier k)]) pg a (some (.carrier k))) a i (takenFor mover.ident c))
  | demote (i : SlotNo) (k : CarrierNo) (g : Identity) (q : Position) (pg : Profile) (held : Resource) (tg : Track) (u : State) :
      s.slotsTaken a → preempt = true → (s.ant a).wait.length < 8 →
      (∀ (j : SlotNo) (p : Profile), s.victim a mover.cls j p → pg.cls < p.cls ∨ pg.cls = p.cls ∧ j ≤ i) →
      pg.cls < mover.cls → s.noCueTalk pg → s.slot a i = .held g → s.rec? g = some ⟨q, pg, .served .talk held tg⟩ →
      s.Places a pg.monitor false k u →
      TakesSlot s a mover c preempt i (State.setSlot (State.routed ((State.sends (State.claimed (State.setWait
        (u.setAtt g (.served .demoted ⟨a, .carrier k⟩ tg)) a ((s.ant a).wait ++ [⟨g, .promote, pg.cls⟩])) (s.ant a).venue)
        [.seat a g (.carrier k)]).notify (.demoted g a mover.ident)) pg a (some (.carrier k))) a i (takenFor mover.ident c))

/-- The part after the taking of what a headset needs, as held or as reserved for a context: in LISTEN a carrier place, and where
none can be had, as in DUPLEX, a talk slot (R101). -/
inductive State.TakesNeed (s : State) (a : AntennaNo) (p : Profile) (c : Option ContextNo) (preempt : Bool) :
    Service → Place → State → Prop
  | talk (i : SlotNo) (u : State) : p.mode = .duplex → s.TakesSlot a p c preempt i u →
      TakesNeed s a p c preempt .talk (.slot i) u
  | listen (k : CarrierNo) (u : State) : p.mode = .listen → s.Places a p.monitor c.isSome k u →
      TakesNeed s a p c preempt .listen (.carrier k) u
  | listenSlot (i : SlotNo) (u : State) : p.mode = .listen → s.noPlace a p.monitor → s.TakesSlot a p c preempt i u →
      TakesNeed s a p c preempt .listenSlot (.slot i) u

/-- What a headset needs cannot be had at an antenna, by a search that may pre-empt or not (R101 to R104). -/
abbrev State.needUnmet (s : State) (a : AntennaNo) (p : Profile) (preempt : Bool) : Prop :=
  (p.mode = .listen → s.noPlace a p.monitor) ∧ s.slotsTaken a ∧
    (preempt = false ∨ 8 ≤ (s.ant a).wait.length ∨ ∀ (i : SlotNo) (q : Profile), ¬ s.victim a p.cls i q)

/-- The part after the reservation of the target of a transfer: what the profile needs, and for a DEMOTED headset the lowest FREE
slot alone (R96, R121 step 3, R143). -/
def State.TakesTarget (s : State) (a : AntennaNo) (p : Profile) (svc : Service) (c : ContextNo) (preempt : Bool) (place : Place)
    (u : State) : Prop :=
  if svc = .demoted then
    ∃ i : SlotNo, s.lowestFree a i ∧ place = .slot i ∧
      u = (s.setSlot a i (.reserved p.ident c)).claimed (s.ant a).venue
  else ∃ svc' : Service, s.TakesNeed a p (some c) preempt svc' place u

/-- No target can be reserved (R96, R143). -/
def State.targetUnmet (s : State) (a : AntennaNo) (p : Profile) (svc : Service) (preempt : Bool) : Prop :=
  if svc = .demoted then ∀ i : SlotNo, s.slot a i ≠ .free else s.needUnmet a p preempt

/-! ## Reports -/

/-- What a report gives: the level less three times the errors, at least 0; it clips at the codes 251 and 255, above 64 errors, and
where the errors outweigh the level (R63 to R66). -/
def reportGives (level errors : Byte) (q : Nat) (clip : Bool) : Prop :=
  ∃ l e : Nat, (level.toNat ≤ 250 ∧ l = level.toNat ∨ level.toNat = 251 ∧ l = 0 ∨ level.toNat = 255 ∧ l = 250) ∧
    e = min 64 errors.toNat ∧ q = l - 3 * e ∧ clip = decide (250 < level.toNat ∨ 64 < errors.toNat ∨ l < 3 * e)

/-- A new entry enters a hearing list at its head; in a full list it replaces the entry without a pin that is nearest the tail
(R74, R75). -/
inductive EntersList (x : HearEntry) : List HearEntry → List HearEntry → Prop
  | room (l : List HearEntry) : l.length < 6 → EntersList x l (x :: l)
  | replaces (before behind : List HearEntry) (y : HearEntry) : 6 ≤ (before ++ y :: behind).length → y.pin = .unpinned →
      (∀ z ∈ behind, z.pin ≠ .unpinned) → EntersList x (before ++ y :: behind) (x :: (before ++ behind))

/-- A report of a quality reaches a hearing list: the average after it and the list. An unmeasured entry is seeded with 16q, a
measured one steps toward 16q by the difference over 2^k, truncated toward zero, and a missing one enters with 16q; it stands at the
head with age 0 and the clip flag of the report (R66 to R68, R73 to R75). -/
inductive HearsInto (k : Nat) (a : AntennaNo) (q : Nat) (clip : Bool) : List HearEntry → Nat → List HearEntry → Prop
  | seeds (before behind : List HearEntry) (x : HearEntry) : x.ant = a → (∀ y ∈ before, y.ant ≠ a) → x.avg = none →
      HearsInto k a q clip (before ++ x :: behind) (16 * q)
        ({ x with avg := some (16 * q), age := 0, clip := clip } :: (before ++ behind))
  | steps (before behind : List HearEntry) (x : HearEntry) (old v : Nat) : x.ant = a → (∀ y ∈ before, y.ant ≠ a) →
      x.avg = some old → v = ((old : Int) + (16 * (q : Int) - old).tdiv (2 ^ k)).toNat →
      HearsInto k a q clip (before ++ x :: behind) v ({ x with avg := some v, age := 0, clip := clip } :: (before ++ behind))
  | enters (l l' : List HearEntry) : (∀ y ∈ l, y.ant ≠ a) → EntersList ⟨a, some (16 * q), 0, 0, clip, .unpinned⟩ l l' →
      HearsInto k a q clip l (16 * q) l'

/-- A hearing list after the ageing of a round and its count-down: entries without a pin age by 1, an entry older than the limit
leaves, every backoff falls by 1 (R78, R79). -/
def agedList (limit : Nat) (l : List HearEntry) : List HearEntry :=
  ((l.map (fun x => if x.pin = .unpinned then { x with age := x.age + 1 } else x)).filter
    (fun x => decide (x.age ≤ limit))).map (fun x => { x with backoff := x.backoff - 1 })

/-- A tap runs, is of the record's kind, and its selector is 0 or names the record's antenna (R179). -/
def Tap.takes (t : Tap) : TapRecord → Prop
  | .measure a _ _ _ _ => t.running = true ∧ t.kind = .measure ∧ (t.selector = 0 ∨ t.selector = a.val + 1)
  | .round a _ _ _ _ _ _ => t.running = true ∧ t.kind = .round ∧ (t.selector = 0 ∨ t.selector = a.val + 1)

/-- The part after a record has been offered to a tap: left as it was; captured, with one fewer left to capture; captured as the
last one, and the tap reloads and counts a block with TAP_BLOCK when it is circular, and else stops with TAP_DONE; or skipped with
the gap flag, where the buffer is full (R179). -/
inductive State.TapTakes (s : State) (r : TapRecord) (n : TapNo) : State → Prop
  | passes : ¬ (s.tap n).takes r → TapTakes s r n s
  | adds : (s.tap n).takes r → (s.tap n).buffer.length < 16 → 2 ≤ (s.tap n).remaining →
      TapTakes s r n (s.setTap n { s.tap n with buffer := (s.tap n).buffer ++ [r], remaining := (s.tap n).remaining - 1 })
  | block : (s.tap n).takes r → (s.tap n).buffer.length < 16 → (s.tap n).remaining = 1 → (s.tap n).circular = true →
      TapTakes s r n ((s.setTap n { s.tap n with
        buffer := (s.tap n).buffer ++ [r], remaining := (s.tap n).count, block := (s.tap n).block + 1 }).notify
        (.tapBlock n ((s.tap n).block + 1)))
  | last : (s.tap n).takes r → (s.tap n).buffer.length < 16 → (s.tap n).remaining = 1 → (s.tap n).circular = false →
      TapTakes s r n ((s.setTap n { s.tap n with
        buffer := (s.tap n).buffer ++ [r], remaining := 0, running := false }).notify (.tapDone n))
  | gap : (s.tap n).takes r → 16 ≤ (s.tap n).buffer.length → TapTakes s r n (s.setTap n { s.tap n with gap := true })

/-- The part after a record has been offered to the taps (R179). That they take it in ascending number is the model's choice
(log 25). -/
def State.Captures (s : State) (r : TapRecord) (t : State) : Prop :=
  Through (fun n s u => s.TapTakes r n u) [0, 1, 2, 3] s t

/-! ## Transfers that start -/

/-- A hearing list at the start of a transfer: the target's entry is pinned TARGET; where there is none, an unmeasured one enters
(R76). -/
inductive PinsTarget (a : AntennaNo) : List HearEntry → List HearEntry → Prop
  | found (l : List HearEntry) : (∃ x ∈ l, x.ant = a) →
      PinsTarget a l (l.map (fun y => if y.ant = a then { y with pin := .target } else y))
  | created (l l' : List HearEntry) : (∀ x ∈ l, x.ant ≠ a) → EntersList ⟨a, none, 0, 0, false, .target⟩ l l' →
      PinsTarget a l l'

/-- The venue check of a JOIN or of a transfer start is passed: OPEN or SHOW; or CLOSED with the class in the wake mask, and then
the venue becomes OPEN, with MODE SERVE to its antennas and VENUE_STATE (R45, R88, R116, R121 step 2). -/
def State.Enters (s : State) (v : VenueNo) (c : ClassNo) (w : State) : Prop :=
  ((s.ven v).state = .opened ∨ (s.ven v).state = .show) ∧ w = s ∨
    (s.ven v).state = .closed ∧ (s.ven v).wake.getLsbD c.val = true ∧
      w = ((s.setVen v { s.ven v with state := .opened }).sends ((s.unitsOf v).map (fun a => .mode a true))).notify
        (.venueState v .opened .wake)

/-- The part after the start of a transfer with a free context: the wake of the target's venue; the reservation; the context in
PREPARE with t_prep; the record in TRANSFER with the target's entry pinned; and BOOK to the target's unit (R121). -/
def State.Starts (s : State) (p : Profile) (svc : Service) (held : Resource) (tr : Track) (a : AntennaNo) (c : ContextNo)
    (cause : Cause) (options : Options) (preempt : Bool) (t : State) : Prop :=
  ∃ (w u : State) (place : Place) (l : List HearEntry), s.Enters (s.ant a).venue p.cls w ∧
    w.TakesTarget a p svc c preempt place u ∧ PinsTarget a tr.hearing l ∧
    t = State.sends (State.setAtt (u.setCtx c (some
      { headset := p.ident, sourceAnt := held.ant, source := some held.place, targetAnt := a, target := place, cause := cause,
        options := options, phase := .prepare, timer := s.tuning.tPrep })) p.ident
      (.transfer svc c { tr with hearing := l })) [.book a p.ident place]

/-- A STEER to a named antenna is refused by the first of its tests that fails: the serving antenna, out of service, barred, its
venue, its window, not heard. The bar, the window and the hearing are not tested under NO_CHECKS (R141). -/
inductive State.SteerRefused (s : State) (p : Profile) (serving : AntennaNo) (l : List HearEntry) (a : AntennaNo)
    (o : Options) : Status → Prop
  | same : a = serving → SteerRefused s p serving l a o .sameAntenna
  | offline : a ≠ serving → ¬ s.inService a → SteerRefused s p serving l a o .offline
  | barred : a ≠ serving → s.inService a → o.noChecks = false → (s.ant a).barred = true →
      SteerRefused s p serving l a o .barred
  | closed : a ≠ serving → s.inService a → (o.noChecks = true ∨ (s.ant a).barred = false) →
      ¬ (s.ven (s.ant a).venue).takesIn p.cls → SteerRefused s p serving l a o .closed
  | window : a ≠ serving → s.inService a → o.noChecks = false → (s.ant a).barred = false →
      (s.ven (s.ant a).venue).takesIn p.cls → ¬ (s.ven (s.ant a).venue).letsIn p.ident →
      SteerRefused s p serving l a o .window
  | unheard : a ≠ serving → s.inService a → o.noChecks = false → (s.ant a).barred = false →
      (s.ven (s.ant a).venue).takesIn p.cls → (s.ven (s.ant a).venue).letsIn p.ident →
      (∀ y ∈ l, y.ant = a → y.avg = none ∨ y.backoff ≠ 0) → SteerRefused s p serving l a o .noCandidate

/-- A STEER may choose an entry: an eligible candidate; under NO_CHECKS any measured entry but the serving one whose antenna is in
service and whose venue accepts the headset (R142). -/
abbrev State.maySteer (s : State) (p : Profile) (serving : AntennaNo) (o : Options) (x : HearEntry) : Prop :=
  o.noChecks = false ∧ s.mayBeCandidate p serving x ∨
    o.noChecks = true ∧ x.ant ≠ serving ∧ x.avg ≠ none ∧ s.inService x.ant ∧ (s.ven (s.ant x.ant).venue).takesIn p.cls

/-- The target of a STEER that passes the tests of its target: the antenna named, in service, in a venue that accepts the headset,
and without NO_CHECKS not barred, within the window and heard with its backoff spent; or, for 0xFF, the antenna of the best entry
that may be chosen (R141, R142). -/
def State.SteersTo (s : State) (p : Profile) (serving : AntennaNo) (l : List HearEntry) (target : Byte) (o : Options)
    (a : AntennaNo) : Prop :=
  target.toNat = a.val ∧ a ≠ serving ∧ s.inService a ∧ (s.ven (s.ant a).venue).takesIn p.cls ∧
      (o.noChecks = true ∨ (s.ant a).barred = false ∧ (s.ven (s.ant a).venue).letsIn p.ident ∧
        ∃ y ∈ l, y.ant = a ∧ y.avg ≠ none ∧ y.backoff = 0) ∨
    target = 0xFF ∧ ∃ (x : HearEntry) (v : Nat), s.bestEntry p (s.maySteer p serving o) l x v ∧ x.ant = a

/-! ## Transfers that end, and JOINs -/

/-- The part after the end of a transfer by QUIT, EVICT or a JOIN from elsewhere: FREE to the target unit and the release of the
reservation; FREE to the source unit, but not to the unit that the event comes from, and the release of the source resource, while
present; and the context freed (R14, R17, R20). -/
def State.Aborts (s : State) (p : Profile) (svc : Service) (c : ContextNo) (x : Context) (from? : Option AntennaNo)
    (u : State) : Prop :=
  ∃ u₁, (s.sends [.free x.targetAnt p.ident]).ReleasesReserved p x.targetAnt x.target u₁ ∧
    match x.source with
    | none => u = u₁.setCtx c none
    | some place => ∃ u₂, (u₁.sends (if from? = some x.sourceAnt then [] else [.free x.sourceAnt p.ident])).Releases p svc
        x.sourceAnt place u₂ ∧ u = u₂.setCtx c none

/-- The part after steps 1 to 5 of a return: the reservation released, the target entry without its pin and with the backoff in
force, the headset SERVED on its source, the context freed, TRANSFER_FAILED (R124). -/
def State.GivesBack (s : State) (p : Profile) (svc : Service) (c : ContextNo) (x : Context) (tr : Track) (place : Place)
    (reason : FailReason) (r : State) : Prop :=
  ∃ u, s.ReleasesReserved p x.targetAnt x.target u ∧
    r = State.notify (State.setCtx (u.setAtt p.ident (.served svc ⟨x.sourceAnt, place⟩ ⟨none, 0, tr.hearing.map (fun y =>
      if y.ant = x.targetAnt then { y with pin := .unpinned, backoff := s.tuning.backoff }
      else if y.pin = .target then { y with pin := .unpinned } else y)⟩)) c none)
      (.transferFailed p.ident x.sourceAnt x.targetAnt x.cause reason)

/-- The part after the offer of the lowest FREE slot of an antenna, if it has one (R109, R124 step 6). -/
def State.OffersLowest (s : State) (a : AntennaNo) (t : State) : Prop :=
  (∀ i : SlotNo, s.slot a i ≠ .free) ∧ t = s ∨ ∃ i : SlotNo, s.lowestFree a i ∧ s.Offers a i t

/-- The part after a return, and for a DEMOTED headset the offer of the lowest FREE slot at its antenna, at the end of the event
(R109, R124). -/
def State.Returns (s : State) (p : Profile) (svc : Service) (c : ContextNo) (x : Context) (tr : Track) (place : Place)
    (reason : FailReason) (t : State) : Prop :=
  ∃ r, s.GivesBack p svc c x tr place reason r ∧
    (svc ≠ .demoted ∧ t = r ∨ svc = .demoted ∧ r.OffersLowest x.sourceAnt t)

/-- The part after a failure with orphaning: the reservation and a source resource still present released, the context freed,
TRANSFER_FAILED, ORPHANED with cause TRANSFER, and ROUTE with resource NONE where a source resource was released (R125). -/
def State.FailsOrphan (s : State) (p : Profile) (svc : Service) (c : ContextNo) (x : Context) (reason : FailReason)
    (t : State) : Prop :=
  ∃ u₁ u₂ r, s.ReleasesReserved p x.targetAnt x.target u₁ ∧
    (match x.source with
      | none => u₂ = u₁
      | some place => u₁.Releases p svc x.sourceAnt place u₂) ∧
    r = State.notify (State.setAtt ((u₂.setCtx c none).notify
      (.transferFailed p.ident x.sourceAnt x.targetAnt x.cause reason)) p.ident (.orphan (1000 * s.tuning.tHold)))
      (.orphaned p.ident x.sourceAnt .transfer) ∧
    t = if x.source = none then r else r.routed p x.sourceAnt none

/-- The source resource of a transfer that goes on is released: absent in the context, a DEMOTED headset becomes TALK, and ROUTE
with resource NONE (R128, R134). -/
def State.DropsSource (s : State) (p : Profile) (svc : Service) (c : ContextNo) (x : Context) (tr : Track) (place : Place)
    (t : State) : Prop :=
  ∃ u, s.Releases p svc x.sourceAnt place u ∧
    t = State.routed (if svc = .demoted then (u.setCtx c (some { x with source := none })).setAtt p.ident (.transfer .talk c tr)
      else u.setCtx c (some { x with source := none })) p x.sourceAnt none

/-- A JOIN of a headset with a record is handed to admission: the part after what its state asks for first, whether the JOIN is a
recovery, and the antenna of the resource that was released (R11 to R15). -/
inductive State.Joins (s : State) (a : AntennaNo) (h : Identity) : Profile → State → Bool → Option AntennaNo → Prop
  | idle (p : Position) (pr : Profile) : s.rec? h = some ⟨p, pr, .idle⟩ → Joins s a h pr s false none
  | waiting (p : Position) (pr : Profile) (w : AntennaNo) (n : Nat) : s.rec? h = some ⟨p, pr, .waiting w n⟩ → w ≠ a →
      Joins s a h pr ((s.entryEnded w h).setAtt h .idle) false none
  | served (p : Position) (pr : Profile) (svc : Service) (held : Resource) (tr : Track) (u : State) :
      s.rec? h = some ⟨p, pr, .served svc held tr⟩ →
      (s.sends (if held.ant = a then [] else [.free held.ant h])).Releases pr svc held.ant held.place u →
      Joins s a h pr (u.setAtt h .idle) false (some held.ant)
  | moving (p : Position) (pr : Profile) (svc : Service) (c : ContextNo) (tr : Track) (x : Context) (u : State) :
      s.rec? h = some ⟨p, pr, .transfer svc c tr⟩ → s.ctx c = some x → x.targetAnt ≠ a → s.Aborts pr svc c x (some a) u →
      Joins s a h pr ((u.notify (.transferFailed h x.sourceAnt x.targetAnt x.cause .rejoin)).setAtt h .idle) false
        (x.source.map (fun _ => x.sourceAnt))
  | orphan (p : Position) (pr : Profile) (n : Nat) : s.rec? h = some ⟨p, pr, .orphan n⟩ →
      Joins s a h pr (s.setAtt h .idle) true none

/-- The ROUTE notice with resource NONE of a JOIN that ends without a grant, where a resource was released (R8, R13). -/
def State.lostAt (s : State) (p : Profile) : Option AntennaNo → State
  | none => s
  | some a => s.routed p a none

/-- The part after the refusal of a headset's WAIT_JOIN entry: the entry removed, the REFUSE cell, IDLE, DENIED (R35). That the
entry's claim ends before the cell is the model's choice (log 16). -/
def State.entryRefused (a : AntennaNo) (cell : RefuseReason) (reason : DeniedReason) (s : State) (h : Identity) : State :=
  (((s.entryEnded a h).sends [.refuse a h cell]).setAtt h .idle).notify (.denied h a reason)

/-- What a DOWN of an antenna does to a context, with the antennas whose lowest FREE slot is to be offered at the end of the event:
nothing to a free one, and to one that has nothing at the antenna; SOURCE_LOST in PREPARE and the loss of the source in ORDERED;
from the target a return, or orphaning where the source is absent, with OFFLINE (R33 step 3, R124, R131, R132, R134). That the offer
of a return comes at the end of the whole event is the model's choice (log 17). -/
inductive DownsContext (a : AntennaNo) (c : ContextNo) : State × List AntennaNo → State × List AntennaNo → Prop
  | free (s : State) (late : List AntennaNo) : s.ctx c = none → DownsContext a c (s, late) (s, late)
  | elsewhere (s : State) (late : List AntennaNo) (q : Position) (p : Profile) (svc : Service) (tr : Track) (x : Context) :
      s.ctx c = some x → s.rec? x.headset = some ⟨q, p, .transfer svc c tr⟩ → x.targetAnt ≠ a →
      (x.sourceAnt ≠ a ∨ x.source = none) → DownsContext a c (s, late) (s, late)
  | sourceLost (s t : State) (late : List AntennaNo) (q : Position) (p : Profile) (svc : Service) (tr : Track) (x : Context) :
      s.ctx c = some x → s.rec? x.headset = some ⟨q, p, .transfer svc c tr⟩ → x.sourceAnt = a → x.source ≠ none →
      x.phase = .prepare → (s.sends [.free x.targetAnt p.ident]).FailsOrphan p svc c x .sourceLost t →
      DownsContext a c (s, late) (t, late)
  | sourceLeft (s t : State) (late : List AntennaNo) (q : Position) (p : Profile) (svc : Service) (tr : Track) (x : Context)
      (place : Place) :
      s.ctx c = some x → s.rec? x.headset = some ⟨q, p, .transfer svc c tr⟩ → x.sourceAnt = a → x.source = some place →
      x.phase = .ordered → s.DropsSource p svc c x tr place t → DownsContext a c (s, late) (t, late)
  | returned (s t : State) (late : List AntennaNo) (q : Position) (p : Profile) (svc : Service) (tr : Track) (x : Context)
      (place : Place) :
      s.ctx c = some x → s.rec? x.headset = some ⟨q, p, .transfer svc c tr⟩ → x.targetAnt = a → x.sourceAnt ≠ a →
      x.source = some place → s.GivesBack p svc c x tr place .offline t →
      DownsContext a c (s, late) (t, late ++ if svc = .demoted then [x.sourceAnt] else [])
  | orphaned (s t : State) (late : List AntennaNo) (q : Position) (p : Profile) (svc : Service) (tr : Track) (x : Context) :
      s.ctx c = some x → s.rec? x.headset = some ⟨q, p, .transfer svc c tr⟩ → x.targetAnt = a → x.sourceAnt ≠ a →
      x.source = none → s.FailsOrphan p svc c x .offline t → DownsContext a c (s, late) (t, late)

/-- What a DOWN of an antenna does to a headset: one that is SERVED there loses its resource without a cell and enters ORPHAN with
UNIT_DOWN, and ROUTE with resource NONE follows (R9, R33 step 4). -/
inductive State.DownsHolder (s : State) (a : AntennaNo) (h : Identity) : State → Prop
  | lost (q : Position) (p : Profile) (svc : Service) (place : Place) (tr : Track) (u : State) :
      s.rec? h = some ⟨q, p, .served svc ⟨a, place⟩ tr⟩ → s.Releases p svc a place u →
      DownsHolder s a h (State.routed ((u.setAtt h (.orphan (1000 * s.tuning.tHold))).notify (.orphaned h a .unitDown)) p a none)
  | kept : (∀ r, s.rec? h = some r → ∀ svc held tr, r.att = .served svc held tr → held.ant ≠ a) → DownsHolder s a h s

/-- The part after a DOWN has taken the entry of a headset off the wait list: the claim ended, IDLE, DENIED with OFFLINE, and no
cell (R33 step 5). -/
def State.entryDowned (a : AntennaNo) (s : State) (h : Identity) : State :=
  ((s.entryEnded a h).setAtt h .idle).notify (.denied h a .offline)

/-- A unit has nothing of a headset: the headset is not SERVED at the antenna, and no transfer of it has its target or its present
source resource there (R137, R138, R147 item 8). -/
abbrev State.strange (s : State) (a : AntennaNo) (h : Identity) : Prop :=
  ∀ r, s.rec? h = some r → (∀ svc held tr, r.att = .served svc held tr → held.ant ≠ a) ∧
    (∀ svc c tr, r.att = .transfer svc c tr → ∀ x, s.ctx c = some x → x.targetAnt ≠ a ∧ (x.source ≠ none → x.sourceAnt ≠ a))

/-! ## Layouts that statements name -/

/-- A resource byte: slots 0 to 9, carriers from 0x10 (R183). -/
def placeByte : Place → Byte
  | .slot i => BitVec.ofNat 8 i.val
  | .carrier k => BitVec.ofNat 8 (16 + k.val)

/-- The service byte (R184). -/
def serviceByte : Service → Byte
  | .talk => 0
  | .listen => 1
  | .listenSlot => 2
  | .demoted => 3

/-- The six bytes of a hearing list entry: antenna, average or 0xFFFF, age, backoff, and the pin with the clip flag in bit 7
(R184). -/
def hearBytes (x : HearEntry) : List Byte :=
  [BitVec.ofNat 8 x.ant.val] ++ be16 (match x.avg with | some v => BitVec.ofNat 16 v | none => 0xFFFF) ++
    [BitVec.ofNat 8 x.age, BitVec.ofNat 8 x.backoff,
      (match x.pin with | .unpinned => 0 | .serving => 1 | .target => 2) + (if x.clip then 0x80 else 0)]

/-- The source resource of a context in use, while present (R119). -/
def State.sourceOf (s : State) (c : ContextNo) : Option Resource :=
  match s.ctx c with
  | some { sourceAnt := a, source := some q, .. } => some ⟨a, q⟩
  | _ => none

/-- The bytes of a record from its state byte on: state, presence mask, the fields that the mask names in ascending bit order,
the number of hearing list entries and the entries (R184). -/
def State.attachmentBytes (s : State) (x : Attachment) : List Byte :=
  let cand (t : Track) : List Byte := match t.candidate with | some a => [BitVec.ofNat 8 a.val] | none => []
  let bit (t : Track) : Byte := if t.candidate = none then 0 else 0x08
  let list (t : Track) : List Byte := [BitVec.ofNat 8 t.hearing.length] ++ (t.hearing.map hearBytes).flatten
  match x with
  | .idle => [0, 0x00, 0]
  | .waiting a n => [1, 0x60, BitVec.ofNat 8 a.val] ++ be24 (BitVec.ofNat 24 n) ++ [0]
  | .served svc held t =>
    [2, 0x13 + bit t, serviceByte svc, BitVec.ofNat 8 held.ant.val, placeByte held.place] ++ cand t ++
      [BitVec.ofNat 8 t.count] ++ list t
  | .transfer svc c t =>
    match s.sourceOf c with
    | some held =>
      [3, 0x17 + bit t, serviceByte svc, BitVec.ofNat 8 held.ant.val, placeByte held.place, BitVec.ofNat 8 c.val] ++ cand t ++
        [BitVec.ofNat 8 t.count] ++ list t
    | none => [3, 0x15 + bit t, serviceByte svc, BitVec.ofNat 8 c.val] ++ cand t ++ [BitVec.ofNat 8 t.count] ++ list t
  | .orphan n => [4, 0x40] ++ be24 (BitVec.ofNat 24 n) ++ [0]

/-- The bytes of a slot entry (R186). -/
def slotBytes : SlotState → List Byte
  | .free => [0, 0, 0, 0, 0]
  | .reserved h c => [1] ++ be24 h ++ [BitVec.ofNat 8 c.val]
  | .held h => [2] ++ be24 h ++ [0]

/-- The bytes of a carrier entry: FREE, SOLE with a CUE line or MIXED, the number of its lines, and each with its counts
(R186). -/
def State.carrierEntry (s : State) (x : Carrier) : List Byte :=
  [(match x with | [] => 0 | l :: _ => match s.lineKind l.line with | .cue => 1 | .opened => 2), BitVec.ofNat 8 x.length] ++
    (x.map (fun l => [BitVec.ofNat 8 l.line.val] ++ be16 (BitVec.ofNat 16 l.served) ++
      be16 (BitVec.ofNat 16 l.reserved))).flatten

/-- The bytes of a wait list entry (R186); the mark byte 0 of a WAIT_PROMOTE entry is the model's choice (log 27). -/
def waitBytes (w : WaitEntry) : List Byte :=
  be24 w.headset ++
    (match w.kind with
      | .join mark => [0, BitVec.ofNat 8 w.cls.val, if mark then 1 else 0]
      | .promote => [1, BitVec.ofNat 8 w.cls.val, 0])

/-- The command that carries a request with a tag. -/
def requestCommand (tag : Byte) : Request → Instr
  | .ident => .ident tag
  | .tune f => .tune tag f
  | .floor v => .floor tag v
  | .go => .go tag
  | .warm => .warm tag
  | .enrol f => .enrol tag f
  | .unenrol h => .unenrol tag h
  | .site a p v => .site tag a p v
  | .venue v lo hi w => .venue tag v lo hi w
  | .line n k => .line tag n k
  | .setVenue v st => .setVenue tag v st
  | .bar a => .bar tag a
  | .unbar a => .unbar tag a
  | .steer h t o => .steer tag h t o
  | .evict h => .evict tag h
  | .unstick h => .unstick tag h
  | .tap n k sel c circ => .tap tag n k sel c circ
  | .untap n => .untap tag n
  | .peekHeadset h => .peekHeadset tag h
  | .peekAntenna a => .peekAntenna tag a
  | .peekVenue v => .peekVenue tag v
  | .peekContext c => .peekContext tag c
  | .list st c f => .list tag st c f

/-- The bytes of a chain of requests with their tags, the continuation flag set on every record but the last (R158, R182). -/
def chainBytes : List (Byte × Request) → List Byte
  | [] => []
  | [x] => recordBytes false x.1 x.2
  | x :: rest => recordBytes true x.1 x.2 ++ chainBytes rest

/-- The cell that a command of a unit's cell stands for, with zeros in the bytes that its kind does not use (R183). -/
def cellOf : Instr → Option RawCell
  | .hear b h level errors => some ⟨0x01, b, h, level, errors, 0⟩
  | .join b h => some ⟨0x02, b, h, 0, 0, 0⟩
  | .ready b h => some ⟨0x03, b, h, 0, 0, 0⟩
  | .noroom b h => some ⟨0x04, b, h, 0, 0, 0⟩
  | .landed b h => some ⟨0x05, b, h, 0, 0, 0⟩
  | .gone b h => some ⟨0x06, b, h, 0, 0, 0⟩
  | .quit b h => some ⟨0x07, b, h, 0, 0, 0⟩
  | .up b => some ⟨0x08, b, 0, 0, 0, 0⟩
  | .down b => some ⟨0x09, b, 0, 0, 0, 0⟩
  | .nonUnitKindCell c => if c.kind.toNat = 0 ∨ 9 < c.kind.toNat then some c else none
  | _ => none

/-- The events that no host request and no reset pin is part of: cells of the units but UP and DOWN, the sending of cells, and
the expiries. -/
def isLive : Instr → Bool
  | .cellArrival _ => true
  | .hear _ _ _ _ => true
  | .join _ _ => true
  | .ready _ _ => true
  | .noroom _ _ => true
  | .landed _ _ => true
  | .gone _ _ => true
  | .quit _ _ => true
  | .nonUnitKindCell _ => true
  | .cellSent => true
  | .tPrepExpiry _ => true
  | .tMoveExpiry _ => true
  | .waitExpiry _ => true
  | .holdExpiry _ => true
  | _ => false

/-- The configuration of an antenna: presence, venue, link state, barred flag (R172). -/
def Antenna.config (x : Antenna) : Bool × VenueNo × Bool × Bool := (x.present, x.venue, x.online, x.barred)

/-- The configuration of a venue: its window and its wake mask (R172). -/
def Venue.config (x : Venue) : Identity × Identity × BitVec 4 := (x.low, x.high, x.wake)

/-- The configuration of a record: its position and what ENROL gave it (R172). -/
def HeadsetRecord.config (r : HeadsetRecord) : Position × Profile := (r.position, { r.profile with sticky := false })

/-! ## The laws of the device -/

/-- The control port stays within its capacities: two input buffers (R156), the bodies in them request bodies of at most 256
bytes (R154, R155), at most four answer frames (R155, R157), a notice queue of at most 64 in order of priority (R163), a floor
of at most 3 (R169). -/
def ControlPort.lawful (c : ControlPort) : Prop :=
  c.buffersUsed ≤ 2 ∧ (∀ b ∈ c.frames, b.length ≤ 256 ∧ b.head? = some 0x01) ∧ c.answers.length ≤ 4 ∧
    c.notices.length ≤ 64 ∧ c.notices.Pairwise (fun m n => n.priority ≤ m.priority) ∧ c.floor ≤ 3

/-- The head port stays within its capacities: 128 cells in the input buffer (R144), HSTALL asserted at 128 and released at
112 or below (R146), shedding off below 64 (R145), 128 cells in the output queue and no room in it while cells of an oversize
event follow (R148, R150), and a cell that has begun to be sent is in it (R153). -/
def HeadPort.lawful (p : HeadPort) : Prop :=
  p.input.length ≤ 128 ∧ (p.input.length = 128 → p.hstall = true) ∧ (p.hstall = true → 112 < p.input.length) ∧
    (p.shedding = true → 64 ≤ p.input.length) ∧ p.output.length ≤ 128 ∧ (p.overflow ≠ [] → p.output.length = 128) ∧
    (p.begun = true → p.output ≠ [])

/-- A tap holds at most 16 records, and a RUNNING tap has between one record and its whole count left to capture
(R178, R179). -/
def Tap.lawful (t : Tap) : Prop :=
  t.buffer.length ≤ 16 ∧ (t.running = true → 1 ≤ t.remaining ∧ t.remaining ≤ t.count)

/-- A hearing list has at most 6 entries, on distinct antennas, with averages of at most 4000, and with at most one SERVING
and at most one TARGET pin (R68, R72, R76). -/
def hearingLawful (l : List HearEntry) : Prop :=
  l.length ≤ 6 ∧ (l.map (·.ant)).Nodup ∧ (∀ x ∈ l, ∀ a, x.avg = some a → a ≤ 4000) ∧
    l.countP (fun x => x.pin == .serving) ≤ 1 ∧ l.countP (fun x => x.pin == .target) ≤ 1

/-- A record's track keeps the capacity and the ranges of the hearing list (R72); its trigger count is at most P, and 0 without a
candidate (R84); and a SERVED headset has no TARGET pin (R76). -/
def Attachment.lawful (persist : Nat) (x : Attachment) : Prop :=
  match x with
  | .served _ _ t => hearingLawful t.hearing ∧ t.count ≤ persist ∧ (t.candidate = none → t.count = 0) ∧
      t.hearing.countP (fun y => y.pin == .target) = 0
  | .transfer _ _ t => hearingLawful t.hearing ∧ t.count ≤ persist ∧ (t.candidate = none → t.count = 0)
  | .idle => True
  | .waiting _ _ => True
  | .orphan _ => True

/-- The registry is in position order, with distinct positions and distinct identities that name headsets (R1, R3). -/
def registryLawful (l : List HeadsetRecord) : Prop :=
  l.Pairwise (fun r x => r.position < x.position) ∧ (l.map (·.profile.ident)).Nodup ∧
    ∀ r ∈ l, r.profile.ident ≠ 0x000000 ∧ r.profile.ident ≠ 0xFFFFFF

/-- Every tuning value is in its range (R167). -/
def Tuning.lawful (t : Tuning) : Prop :=
  (1 ≤ t.avgShift ∧ t.avgShift ≤ 5) ∧ t.hysteresis ≤ 30 ∧ (2 ≤ t.persist ∧ t.persist ≤ 15) ∧ t.floor ≤ 250 ∧
    t.homeBonus ≤ 40 ∧ t.loadWeight ≤ 4 ∧ t.showMargin ≤ 40 ∧ (1 ≤ t.staleLimit ∧ t.staleLimit ≤ 15) ∧ t.backoff ≤ 15 ∧
    (20 ≤ t.tPrep ∧ t.tPrep ≤ 500) ∧ (50 ≤ t.tMove ∧ t.tMove ≤ 2000) ∧ (1 ≤ t.tHold ∧ t.tHold ≤ 120) ∧
    (1 ≤ t.tWait ∧ t.tWait ≤ 60)

/-- Every wait list has at most 8 entries (R107). -/
def State.waitsLawful (s : State) : Prop := ∀ a : AntennaNo, (s.ant a).wait.length ≤ 8

/-- The carriers of an antenna: each has at most 3 lines, in ascending number, each with a listener; a CUE line stands alone; and no
line is on two of them (R50, R51, R58). -/
def State.carriersLawful (s : State) : Prop :=
  ∀ (a : AntennaNo) (k : CarrierNo), (s.carrier a k).length ≤ 3 ∧
    (s.carrier a k).Pairwise (fun l l' => l.line < l'.line) ∧
    ∀ l ∈ s.carrier a k, 1 ≤ l.served + l.reserved ∧ (s.lineKind l.line = .cue → s.carrier a k = [l]) ∧
      ∀ j : CarrierNo, j ≠ k → ∀ l' ∈ s.carrier a j, l'.line ≠ l.line

/-- The tracks of all records keep their laws. -/
def State.tracksLawful (s : State) : Prop := ∀ r ∈ s.registry, r.att.lawful s.tuning.persist

/-- Every tap keeps its law. -/
def State.tapsLawful (s : State) : Prop := ∀ n : TapNo, (s.tap n).lawful

end Sys2Proof.Machine
end

