-- ==== Sys2Proof/Certificates/Slice0/Obligations.lean ====
section
/-! DEFINITION. The statements about the part. Each says what a command does to every state that meets its hypotheses; the
hypotheses speak of the state and the operands alone. Where a next state is written out, every field that the text does not
name is unchanged. -/

open Sys2Proof Sys2Proof.Machine

/-! ## The step -/

/-- A step runs the command at the front of the queue on the state with the queue's rest. -/
def Obligations.StepRunsFrontCommand : Prop :=
  ∀ (c : Instr) (rest : List Instr) (s : State), s.pending = c :: rest → step s = exec c { s with pending := rest }

/-- The model's choice (log 5): a step on an empty queue is one millisecond, in which every wait, hold, t_prep and t_move timer
and the receiver's quiet time fall by 1 and stop at 0, and nothing else changes. -/
def Obligations.IdleStepIsOneMillisecond : Prop :=
  ∀ s : State, s.pending = [] → s.resetPin = false → ∃ t : State, step s = .next t ∧
    t.registry = s.registry.map (fun r => { r with att := match r.att with
      | .waiting a n => .waiting a (n - 1)
      | .orphan n => .orphan (n - 1)
      | x => x }) ∧
    (∀ c : ContextNo, t.ctx c = (s.ctx c).map (fun x => { x with timer := x.timer - 1 })) ∧
    t.ctrl = { s.ctrl with rx := match s.ctrl.rx with
      | .inFrame b n => .inFrame b (n - 1)
      | .hunting => .hunting } ∧
    { t with registry := s.registry, contexts := s.contexts, ctrl := s.ctrl } = s

/-! ## Reset -/

/-- Every piece of state that the chapters give a pin reset value has that value; the mark of a cell that WARM kept, the model's own
(log 7), is clear. -/
def Obligations.ResetState : Prop :=
  State.reset.mode = .setup ∧ State.reset.registry = [] ∧
  State.reset.tuning = ⟨3, 8, 3, 40, 10, 2, 12, 4, 5, 100, 400, 30, 10, true, .fixed⟩ ∧
  (∀ a : AntennaNo, State.reset.ant a = ⟨false, 0, false, false, Vector.replicate 10 .free, 0, Vector.replicate 4 [], []⟩) ∧
  (∀ v : VenueNo, State.reset.ven v = ⟨.closed, 0xFFFFFF, 0x000000, 0xF, 0⟩) ∧
  (∀ m : LineNo, State.reset.lineKind m = .opened) ∧ (∀ c : ContextNo, State.reset.ctx c = none) ∧
  State.reset.head = ⟨[], false, false, [], [], false⟩ ∧ State.reset.ctrl = ⟨.hunting, [], [], none, [], false, 0⟩ ∧
  State.reset.crdy = true ∧ State.reset.tapTurn = 0 ∧
  (∀ n : TapNo, (State.reset.tap n).running = false ∧ (State.reset.tap n).buffer = [] ∧ (State.reset.tap n).gap = false ∧
    (State.reset.tap n).block = 0 ∧ (State.reset.tap n).kind = .measure ∧ (State.reset.tap n).selector = 0 ∧
    (State.reset.tap n).count = 0 ∧ (State.reset.tap n).remaining = 0)

/-- The laws of the device hold at reset. -/
def Obligations.LawsHoldAtReset : Prop :=
  State.reset.ctrl.lawful ∧ State.reset.head.lawful ∧ State.reset.tapsLawful ∧ State.reset.tracksLawful ∧
    registryLawful State.reset.registry ∧ State.reset.waitsLawful ∧ State.reset.carriersLawful ∧ State.reset.tuning.lawful

/-- RESET_ASSERT puts the part into its reset state with CRDY deasserted and HSTALL released; while the pin is asserted, a byte
of a frame and a cell change nothing; RESET_RELEASE leaves the reset state with CRDY asserted. The queue of commands and the
number of free values drawn are the model's own and stay (logs 7 and 11). -/
def Obligations.ResetPin : Prop :=
  (∀ s : State, exec .resetAssert s =
    .next { State.reset with resetPin := true, freeIndex := s.freeIndex, pending := s.pending }) ∧
  (∀ s : State, s.resetPin = true → exec .resetRelease s =
    .next { State.reset with freeIndex := s.freeIndex, pending := s.pending }) ∧
  (∀ (s : State) (c : RawCell), s.resetPin = true →
    s.crdy = false ∧ exec .frameBegin s = .next s ∧ exec (.cellArrival c) s = .next s)

/-! ## The laws of the device, kept by every step -/

/-- Every step keeps the control port within its capacities and the notice queue in order. -/
def Obligations.ControlPortLawKept : Prop :=
  ∀ s t : State, s.ctrl.lawful → step s = .next t → t.ctrl.lawful

/-- Every step keeps the head port within its capacities, with HSTALL and shedding at the levels their rules give. -/
def Obligations.HeadPortLawKept : Prop :=
  ∀ s t : State, s.head.lawful → step s = .next t → t.head.lawful

/-- Every step keeps every tap within its buffer and its count. -/
def Obligations.TapLawKept : Prop :=
  ∀ s t : State, s.tapsLawful → step s = .next t → t.tapsLawful

/-- In a lawful registry every step keeps every hearing list at 6 entries or fewer on distinct antennas, with averages of at most
4000 and at most one pin of each kind, every trigger count at most P, and 0 where the candidate is absent, and a SERVED headset
without a TARGET pin. -/
def Obligations.TrackLawsKept : Prop :=
  ∀ s t : State, registryLawful s.registry → s.tracksLawful → step s = .next t → t.tracksLawful

/-- Every step keeps the registry in position order with distinct positions and identities. -/
def Obligations.RegistryLawKept : Prop :=
  ∀ s t : State, registryLawful s.registry → step s = .next t → registryLawful t.registry

/-- Every step keeps every wait list at 8 entries or fewer; every carrier at 3 lines or fewer, in ascending number, each with a
listener, a CUE line alone on its carrier, and no line on two carriers of one antenna; and every tuning value in its range. -/
def Obligations.WaitListLawKept : Prop :=
  ∀ s t : State, step s = .next t → (s.waitsLawful → t.waitsLawful) ∧ (s.carriersLawful → t.carriersLawful) ∧
    (s.tuning.lawful → t.tuning.lawful)

/-- No cell of a unit but UP and DOWN, no sending of a cell and no expiry changes the configuration, the mode, the tuning set,
the crew lines, the receiver, the answer frames, the frame being sent or the notice floor, where no cell and no request frame
waits that the event could let in (expiries may wait). -/
def Obligations.LiveEventsKeepConfiguration : Prop :=
  ∀ (c : Instr) (s t : State), isLive c = true → (∀ w ∈ s.waiting, w ≠ .cell ∧ w ≠ .frame) → exec c s = .next t →
    t.resetPin = s.resetPin ∧ t.mode = s.mode ∧ t.tuning = s.tuning ∧ t.lines = s.lines ∧ t.tapTurn = s.tapTurn ∧
    (s.waiting = [] → t.freeIndex = s.freeIndex) ∧ t.pending = s.pending ∧
    t.ctrl.rx = s.ctrl.rx ∧ t.ctrl.frames = s.ctrl.frames ∧ t.ctrl.answers = s.ctrl.answers ∧ t.ctrl.ctxd = s.ctrl.ctxd ∧
    t.ctrl.floor = s.ctrl.floor ∧ (∀ a : AntennaNo, (t.ant a).config = (s.ant a).config) ∧
    (∀ v : VenueNo, (t.ven v).config = (s.ven v).config) ∧
    t.registry.map HeadsetRecord.config = s.registry.map HeadsetRecord.config

/-! ## Request frames -/

/-- The model's choice (log 1) is the frame itself: a request as a command is the SYNC byte, the complete frame that holds the
request as its one record, with the right check, and the taking of that frame, one after another. -/
def Obligations.HostRequestIsItsFrame : Prop :=
  ∀ (tag : Byte) (r : Request) (s s1 s2 : State), s.ctrl.rx = .hunting → s.ctrl.frames = [] →
    exec .frameBegin s = .next s1 →
    exec (.frameComplete (oneRecordBody tag r) (frameCheck (oneRecordBody tag r))) s1 = .next s2 →
    exec (requestCommand tag r) s = exec .requestFrameTaken s2

/-- A chain of one to eight requests, encoded as the layouts give, is delimited into those records, in order, with no EXTRA
flag. -/
def Obligations.ChainIsDelimited : Prop :=
  ∀ l : List (Byte × Request), l ≠ [] → l.length ≤ 8 →
    delimitChain (chainBytes l) = (l.map (fun x => ChainItem.record x.1 x.2), false)

/-- REQUEST_FRAME_TAKEN takes the oldest complete frame, frees its buffer and answers it with one reply frame: for a frame type
alone with no reply record, and for a chain of one IDENT record with its reply record. Behind two waiting answers the frame
waits, and it is taken as soon as one of them begins to be sent. -/
def Obligations.RequestFrameIsTaken : Prop :=
  (∀ (s : State) (a b : Answer), s.resetPin = false → s.waiting = [] → s.ctrl.frames = [[0x01]] → s.ctrl.answers = [a, b] →
    s.ctrl.ctxd = none →
    exec .requestFrameTaken s = .next { s with waiting := [.frame] } ∧
    exec .sendAnswerFrame { s with waiting := [.frame] } = .next { s with ctrl := { s.ctrl with
      frames := [], answers := [b, .reply false []], ctxd := some (.answer a) } }) ∧
  (∀ (s : State) (rest : List (List Byte)), s.resetPin = false → s.waiting = [] → s.ctrl.frames = [0x01] :: rest →
    s.ctrl.answers.length < 2 →
    exec .requestFrameTaken s =
      .next { s with ctrl := { s.ctrl with frames := rest, answers := s.ctrl.answers ++ [.reply false []] } }) ∧
  (∀ (s : State) (rest : List (List Byte)) (tag : Byte), s.resetPin = false → s.waiting = [] →
    s.ctrl.frames = [0x01, 0x01, tag] :: rest → s.ctrl.answers.length < 2 →
    exec .requestFrameTaken s = .next { s with ctrl := { s.ctrl with
      frames := rest, answers := s.ctrl.answers ++ [.reply false [⟨0x01, tag, .ok, 0, identResult s.mode⟩]] } })

/-- A request whose kind the mode does not accept is answered WRONG_MODE at offset 0, with the result fields of its kind all 0,
and changes nothing else. -/
def Obligations.WrongModeIsAnswered : Prop :=
  (∀ (s : State) (tag : Byte), s.hostReady → s.mode = .run →
    exec (.go tag) s = .next (s.replied 0x04 tag .wrongMode 0 [0, 0, 0, 0, 0])) ∧
  (∀ (s : State) (tag a b c d : Byte) (h : Identity) (n : BitVec 16), s.hostReady → s.mode = .setup →
    exec (.setVenue tag a b) s = .next (s.replied 0x15 tag .wrongMode 0 [0]) ∧
    exec (.bar tag a) s = .next (s.replied 0x16 tag .wrongMode 0 [0]) ∧
    exec (.unbar tag a) s = .next (s.replied 0x17 tag .wrongMode 0 [0]) ∧
    exec (.steer tag h a b) s = .next (s.replied 0x20 tag .wrongMode 0 [0, 0]) ∧
    exec (.evict tag h) s = .next (s.replied 0x21 tag .wrongMode 0 [0]) ∧
    exec (.unstick tag h) s = .next (s.replied 0x22 tag .wrongMode 0 [0, 0]) ∧
    exec (.tap tag a b c n d) s = .next (s.replied 0x30 tag .wrongMode 0 [0]) ∧
    exec (.untap tag a) s = .next (s.replied 0x31 tag .wrongMode 0 [0, 0]))

/-! ## Mode control -/

/-- IDENT, a 2-byte record, reports the 27 bytes of the part's capacities and mode, in either mode, and changes nothing. -/
def Obligations.IdentReports : Prop :=
  recordLength 0x01 = some 2 ∧
  ∀ (s : State) (tag : Byte), s.hostReady →
    exec (.ident tag) s = .next (s.replied 0x01 tag .ok 0
      [0x43, 0x57, 0x0C, 0x40, 1, (match s.mode with | .setup => 0 | .run => 1), 2, 0, 48, 16, 32, 10, 4, 3, 6, 24, 8, 64,
        128, 128, 4, 16, 1, 0, 8, 8, 0])

/-- TUNE replaces each selected value, clamped into its range, keeps the others, lowers every trigger count to the new P, and
reports the fifteen values in force; a selected value outside its range gives CLAMPED with the offset of the first such value;
a mask with its highest bit set is refused. -/
def Obligations.TuneReplaces : Prop :=
  (∀ (s : State) (tag : Byte) (f : TuneFields), s.hostReady → f.mask.getLsbD 15 = true →
    exec (.tune tag f) s = .next (s.replied 0x02 tag .badValue 2 (List.replicate 17 0))) ∧
  (∀ (s : State) (tag : Byte) (f : TuneFields) (status : Status) (offset : Nat) (u : Tuning), s.hostReady →
    f.mask.getLsbD 15 = false →
    u = { avgShift := if f.mask.getLsbD 0 then max 1 (min 5 f.avgShift.toNat) else s.tuning.avgShift
          hysteresis := if f.mask.getLsbD 1 then min 30 f.hysteresis.toNat else s.tuning.hysteresis
          persist := if f.mask.getLsbD 2 then max 2 (min 15 f.persist.toNat) else s.tuning.persist
          floor := if f.mask.getLsbD 3 then min 250 f.floor.toNat else s.tuning.floor
          homeBonus := if f.mask.getLsbD 4 then min 40 f.homeBonus.toNat else s.tuning.homeBonus
          loadWeight := if f.mask.getLsbD 5 then min 4 f.loadWeight.toNat else s.tuning.loadWeight
          showMargin := if f.mask.getLsbD 6 then min 40 f.showMargin.toNat else s.tuning.showMargin
          staleLimit := if f.mask.getLsbD 7 then max 1 (min 15 f.staleLimit.toNat) else s.tuning.staleLimit
          backoff := if f.mask.getLsbD 8 then min 15 f.backoff.toNat else s.tuning.backoff
          tPrep := if f.mask.getLsbD 9 then max 20 (min 500 f.tPrep.toNat) else s.tuning.tPrep
          tMove := if f.mask.getLsbD 10 then max 50 (min 2000 f.tMove.toNat) else s.tuning.tMove
          tHold := if f.mask.getLsbD 11 then max 1 (min 120 f.tHold.toNat) else s.tuning.tHold
          tWait := if f.mask.getLsbD 12 then max 1 (min 60 f.tWait.toNat) else s.tuning.tWait
          preempt := if f.mask.getLsbD 13 then decide (f.preempt ≠ 0) else s.tuning.preempt
          arbitration := if f.mask.getLsbD 14 then (if f.arbitration = 0 then .fixed else .rotating)
            else s.tuning.arbitration } →
    ((∀ x ∈ tuneValues f, ¬ x.clamps f.mask) ∧ status = .ok ∧ offset = 0 ∨
      (∃ l x r, tuneValues f = l ++ x :: r ∧ (∀ y ∈ l, ¬ y.clamps f.mask) ∧ x.clamps f.mask ∧ status = .clamped ∧
        offset = x.offset)) →
    exec (.tune tag f) s = .next (State.replied
      { s with
        tuning := u
        registry := s.registry.map (fun r => { r with att := match r.att with
          | .served svc held t => .served svc held { t with count := min t.count u.persist }
          | .transfer svc c t => .transfer svc c { t with count := min t.count u.persist }
          | x => x }) } 0x02 tag status offset
      ([BitVec.ofNat 8 u.avgShift, BitVec.ofNat 8 u.hysteresis, BitVec.ofNat 8 u.persist, BitVec.ofNat 8 u.floor,
        BitVec.ofNat 8 u.homeBonus, BitVec.ofNat 8 u.loadWeight, BitVec.ofNat 8 u.showMargin, BitVec.ofNat 8 u.staleLimit,
        BitVec.ofNat 8 u.backoff] ++ be16 (BitVec.ofNat 16 u.tPrep) ++ be16 (BitVec.ofNat 16 u.tMove) ++
        [BitVec.ofNat 8 u.tHold, BitVec.ofNat 8 u.tWait, (if u.preempt then 1 else 0),
          (match u.arbitration with | .fixed => 0 | .rotating => 1)])))

/-- FLOOR sets the notice floor and reports the former one; a value above 3 is refused and nothing changes. -/
def Obligations.FloorIsSet : Prop :=
  ∀ (s : State) (tag value : Byte), s.hostReady →
    (value.toNat ≤ 3 → exec (.floor tag value) s = .next (State.replied
      { s with ctrl := { s.ctrl with floor := value.toNat } } 0x03 tag .ok 0 [BitVec.ofNat 8 s.ctrl.floor])) ∧
    (3 < value.toNat → exec (.floor tag value) s = .next (s.replied 0x03 tag .badValue 2 [0]))

/-- GO with a present antenna, and one in the home venue of every record, enters RUN and sends MODE BEACON to every present,
ONLINE antenna in ascending number. With no present antenna it is refused with table ANTENNA, index 0xFFFF and venue 0xFF; else with
table REGISTRY, the position and the home venue of the first record, in position order, whose home venue has no present antenna. A
refused GO changes nothing. -/
def Obligations.GoEntersRun : Prop :=
  ∀ (s : State) (tag : Byte), s.hostReady → s.mode = .setup →
    (∀ units : List AntennaNo, (∃ a : AntennaNo, (s.ant a).present = true) →
      (∀ r ∈ s.registry, ∃ a : AntennaNo, (s.ant a).present = true ∧ (s.ant a).venue = r.profile.home) →
      units = (List.finRange 48).filter (fun a => (s.ant a).present && (s.ant a).online) → s.roomFor units.length →
      exec (.go tag) s = .next (State.replied (State.sends { s with mode := .run } (units.map (fun a => .mode a false)))
        0x04 tag .ok 0 [0, 0, 0, 0, BitVec.ofNat 8 units.length])) ∧
    ((∀ a : AntennaNo, (s.ant a).present = false) →
      exec (.go tag) s = .next (s.replied 0x04 tag .notFound 0 [1, 0xFF, 0xFF, 0xFF, 0])) ∧
    (∀ r ∈ s.registry, registryLawful s.registry → (∃ a : AntennaNo, (s.ant a).present = true) →
      (∀ a : AntennaNo, (s.ant a).present = true → (s.ant a).venue ≠ r.profile.home) →
      (∀ q ∈ s.registry, q.position < r.position →
        ∃ a : AntennaNo, (s.ant a).present = true ∧ (s.ant a).venue = q.profile.home) →
      exec (.go tag) s = .next (s.replied 0x04 tag .notFound 0
        ([2] ++ be16 (BitVec.ofNat 16 r.position.val) ++ [BitVec.ofNat 8 r.profile.home.val, 0])))

/-- WARM returns the part to SETUP in either mode, whatever room there is: every record is IDLE with its sticky clip flag clear,
every slot, carrier, wait list and context is empty, every tap is OFF with its fields 0 (its circular flag is the model's choice,
log 13, and not stated), every venue CLOSED without claims, the queues emptied, a CLEAR cell sent to every present, ONLINE antenna;
the configuration, the tuning set, the crew lines and the floor stay. Whether the oldest queued cell had begun to be sent, and so
stays, is open (log 7), but a cell that an earlier WARM has kept stays until it is sent. That the cells of an oversize event that
still wait are discarded too, so that the CLEAR cells enter at once, is the model's choice (log 20). -/
def Obligations.WarmClearsLiveState : Prop :=
  ∀ (s : State) (tag : Byte), s.hostReady → ∃ (t : State) (begun : Bool), exec (.warm tag) s = .next t ∧
    (s.head.begun = true → begun = true) ∧ (s.head.begun = false → s.head.output = [] → begun = false) ∧
    t.mode = .setup ∧ t.tuning = s.tuning ∧ t.lines = s.lines ∧
    t.registry = s.registry.map (fun r => { r with profile := { r.profile with sticky := false }, att := .idle }) ∧
    (∀ a : AntennaNo, t.ant a = { s.ant a with
      slots := Vector.replicate 10 .free, rotation := 0, carriers := Vector.replicate 4 [], wait := [] }) ∧
    (∀ v : VenueNo, t.ven v = { s.ven v with state := .closed, claims := 0 }) ∧ (∀ c : ContextNo, t.ctx c = none) ∧
    t.head = ⟨[], false, false, (if begun then s.head.output.take 1 else []) ++ ((List.finRange 48).filter (fun a =>
      (s.ant a).present && (s.ant a).online)).map OutCell.clear, [], begun⟩ ∧
    t.ctrl = { s.ctrl with notices := [], lost := false, answers := s.ctrl.answers ++
      [.reply false [⟨0x05, tag, .ok, 0, [match s.mode with | .setup => 0 | .run => 1]⟩]] } ∧
    (∀ n : TapNo, t.tap n = ⟨false, .measure, 0, 0, 0, (t.tap n).circular, 0, [], false⟩) ∧
    t.tapTurn = 0 ∧ t.resetPin = false ∧ t.pending = s.pending

/-! ## The registry -/

/-- ENROL of a new identity creates an IDLE record at the lowest free position, with the sticky clip flag clear; of an IDLE
record's identity it replaces the profile and keeps position and sticky clip flag; of an attached one it is refused. -/
def Obligations.EnrolCreatesOrReplaces : Prop :=
  ∀ (s : State) (tag : Byte) (f : EnrolFields), s.hostReady → enrolFieldsOk s f →
    (∀ p : Position, s.rec? f.ident = none → (∀ r ∈ s.registry, r.position ≠ p) →
      (∀ q : Position, q < p → ∃ r ∈ s.registry, r.position = q) →
      ∃ t : State, exec (.enrol tag f) s = .next (t.replied 0x10 tag .ok 0 (be16 (BitVec.ofNat 16 p.val) ++ [0])) ∧
        t.rec? f.ident = some ⟨p, enrolProfile f false, .idle⟩ ∧ (∀ h, h ≠ f.ident → t.rec? h = s.rec? h) ∧
        { t with registry := s.registry } = s) ∧
    (∀ r : HeadsetRecord, s.rec? f.ident = some r → r.att = .idle →
      ∃ t : State, exec (.enrol tag f) s =
          .next (t.replied 0x10 tag .ok 0 (be16 (BitVec.ofNat 16 r.position.val) ++ [1])) ∧
        t.rec? f.ident = some { r with profile := enrolProfile f r.profile.sticky } ∧
        (∀ h, h ≠ f.ident → t.rec? h = s.rec? h) ∧ { t with registry := s.registry } = s) ∧
    (∀ r : HeadsetRecord, s.rec? f.ident = some r → r.att ≠ .idle →
      exec (.enrol tag f) s = .next (s.replied 0x10 tag .attached 2 (be16 (BitVec.ofNat 16 r.position.val) ++ [0])))

/-- UNENROL removes an IDLE record and reports its position; an attached record is kept, and an identity without a record is
not found. -/
def Obligations.UnenrolRemoves : Prop :=
  ∀ (s : State) (tag : Byte) (h : Identity), s.hostReady → h ≠ 0x000000 → h ≠ 0xFFFFFF →
    (∀ r : HeadsetRecord, s.rec? h = some r → r.att = .idle →
      ∃ t : State, exec (.unenrol tag h) s = .next (t.replied 0x11 tag .ok 0 (be16 (BitVec.ofNat 16 r.position.val))) ∧
        t.rec? h = none ∧ (∀ g, g ≠ h → t.rec? g = s.rec? g) ∧ { t with registry := s.registry } = s) ∧
    (∀ r : HeadsetRecord, s.rec? h = some r → r.att ≠ .idle →
      exec (.unenrol tag h) s = .next (s.replied 0x11 tag .attached 2 [0, 0])) ∧
    (s.rec? h = none → exec (.unenrol tag h) s = .next (s.replied 0x11 tag .notFound 2 [0, 0]))

/-- EVICT releases what a headset has and makes it IDLE, with DETACHED, then ROUTE with resource NONE where a resource was
released, and reports the state it was in. SERVED: FREE to its unit, then the release with its offer. TRANSFER: FREE to the target
and the release of the reservation, FREE to the source and the release of the source resource while present, and the context freed.
WAITING: the entry removed and REFUSE EVICTED to its unit. ORPHAN: the hold ends. That an offer gives the slot released, also where
a lower slot is FREE, is the model's choice (log 14), as are the order of a DEMOTED headset's two claims (log 15), of an entry's end
and its REFUSE cell (log 16), and of FREE before the MODE cells of a venue that closes (log 28). -/
def Obligations.EvictDetaches : Prop :=
  ∀ (s : State) (tag : Byte) (h : Identity) (p : Position) (pr : Profile), s.hostReady → s.mode = .run → h ≠ 0x000000 →
    h ≠ 0xFFFFFF →
    (∀ (svc : Service) (a : AntennaNo) (place : Place) (tr : Track) (u t : State),
      s.rec? h = some ⟨p, pr, .served svc ⟨a, place⟩ tr⟩ → (s.sends [.free a h]).Releases pr svc a place u →
      t = State.routed ((u.setAtt h .idle).notify (.detached h .evict)) pr a none → s.roomTo t →
      exec (.evict tag h) s = .next (t.replied 0x21 tag .ok 0 [2])) ∧
    (∀ (svc : Service) (c : ContextNo) (tr : Track) (x : Context) (u t : State),
      s.rec? h = some ⟨p, pr, .transfer svc c tr⟩ → s.ctx c = some x → s.Aborts pr svc c x none u →
      t = State.lostAt ((u.setAtt h .idle).notify (.detached h .evict)) pr (x.source.map (fun _ => x.sourceAnt)) →
      s.roomTo t → exec (.evict tag h) s = .next (t.replied 0x21 tag .ok 0 [3])) ∧
    (∀ (a : AntennaNo) (n : Nat) (t : State), s.rec? h = some ⟨p, pr, .waiting a n⟩ →
      t = State.notify (((s.entryEnded a h).sends [.refuse a h .evicted]).setAtt h .idle) (.detached h .evict) → s.roomTo t →
      exec (.evict tag h) s = .next (t.replied 0x21 tag .ok 0 [1])) ∧
    (∀ n : Nat, s.rec? h = some ⟨p, pr, .orphan n⟩ →
      exec (.evict tag h) s = .next (State.replied ((s.setAtt h .idle).notify (.detached h .evict)) 0x21 tag .ok 0 [4]))

/-- UNSTICK clears the sticky clip flag of one record, in any state, and reports its former value; for 0xFFFFFF it clears every
flag and reports how many were set. -/
def Obligations.UnstickClears : Prop :=
  (∀ (s : State) (tag : Byte) (h : Identity) (r : HeadsetRecord), s.hostReady → s.mode = .run → h ≠ 0x000000 →
    h ≠ 0xFFFFFF → s.rec? h = some r →
    ∃ t : State, exec (.unstick tag h) s = .next (t.replied 0x22 tag .ok 0 [0, if r.profile.sticky then 1 else 0]) ∧
      t.rec? h = some { r with profile := { r.profile with sticky := false } } ∧
      (∀ g, g ≠ h → t.rec? g = s.rec? g) ∧ { t with registry := s.registry } = s) ∧
  (∀ (s : State) (tag : Byte), s.hostReady → s.mode = .run →
    exec (.unstick tag 0xFFFFFF) s = .next (State.replied
      { s with registry := s.registry.map (fun r => { r with profile := { r.profile with sticky := false } }) }
      0x22 tag .ok 0 (be16 (BitVec.ofNat 16 ((s.registry.filter (fun r => r.profile.sticky)).length)))))

/-! ## Antennas, venues and crew lines -/

/-- SITE in SETUP makes an absent antenna present and OFFLINE in its venue, moves a present one, and removes a present one with
a CLEAR cell when it is ONLINE. In RUN an antenna with a claim, or the last present antenna of a record's home venue, is
neither removed nor moved: IN_USE; else an ONLINE antenna that changes its venue is sent the MODE cell of the new one. -/
def Obligations.SiteSetsPresence : Prop :=
  (∀ (s : State) (tag ab vb : Byte) (a : AntennaNo) (v : VenueNo), s.hostReady → s.mode = .setup → ab.toNat = a.val →
    vb.toNat = v.val →
    ((s.ant a).present = false → exec (.site tag ab 1 vb) s = .next (State.replied
      (s.setAnt a { s.ant a with present := true, venue := v, online := false }) 0x12 tag .ok 0 [1, vb, 0])) ∧
    ((s.ant a).present = true → exec (.site tag ab 1 vb) s = .next (State.replied
      (s.setAnt a { s.ant a with venue := v }) 0x12 tag .ok 0 [1, vb, if (s.ant a).online then 1 else 0])) ∧
    ((s.ant a).present = true → s.roomFor 1 → exec (.site tag ab 0 vb) s = .next (State.replied
      ((s.sends (if (s.ant a).online then [.clear a] else [])).setAnt a { s.ant a with present := false, online := false })
      0x12 tag .ok 0 [0, BitVec.ofNat 8 (s.ant a).venue.val, 0]))) ∧
  (∀ (s : State) (tag ab pb vb : Byte) (a : AntennaNo) (v : VenueNo), s.hostReady → s.mode = .run → ab.toNat = a.val →
    vb.toNat = v.val → (s.ant a).present = true → (pb = 0 ∨ pb = 1 ∧ v ≠ (s.ant a).venue) →
    (s.holdsClaim a → exec (.site tag ab pb vb) s = .next (s.replied 0x12 tag .inUse 2 [0, 0, 0])) ∧
    (¬ s.holdsClaim a → (∀ b : AntennaNo, b ≠ a → (s.ant b).present = true → (s.ant b).venue ≠ (s.ant a).venue) →
      (∃ r ∈ s.registry, r.profile.home = (s.ant a).venue) →
      exec (.site tag ab pb vb) s = .next (s.replied 0x12 tag .inUse (if pb = 0 then 3 else 4) [0, 0, 0])) ∧
    (¬ s.holdsClaim a → ((∃ b : AntennaNo, b ≠ a ∧ (s.ant b).present = true ∧ (s.ant b).venue = (s.ant a).venue) ∨
        ∀ r ∈ s.registry, r.profile.home ≠ (s.ant a).venue) → (s.ant a).online = true → s.roomFor 1 →
      (pb = 1 → exec (.site tag ab pb vb) s = .next (State.replied
        ((s.sends [.mode a (decide ((s.ven v).state ≠ .closed))]).setAnt a { s.ant a with venue := v })
        0x12 tag .ok 0 [1, vb, 1])) ∧
      (pb = 0 → exec (.site tag ab pb vb) s = .next (State.replied
        ((s.sends [.clear a]).setAnt a { s.ant a with present := false, online := false })
        0x12 tag .ok 0 [0, BitVec.ofNat 8 (s.ant a).venue.val, 0]))))

/-- VENUE sets the window and the wake mask of a venue; its record has no result fields. -/
def Obligations.VenueSetsWindow : Prop :=
  ∀ (s : State) (tag vb wake : Byte) (low high : Identity) (v : VenueNo), s.hostReady → vb.toNat = v.val →
    (wake.toNat ≤ 15 → exec (.venue tag vb low high wake) s = .next (State.replied
      (s.setVen v { s.ven v with low := low, high := high, wake := BitVec.ofNat 4 wake.toNat }) 0x13 tag .ok 0 [])) ∧
    (15 < wake.toNat → exec (.venue tag vb low high wake) s = .next (s.replied 0x13 tag .badValue 9 []))

/-- LINE sets the kind of a crew line that no antenna carries; of a carried line a change of kind is refused with the lowest
antenna that carries it. -/
def Obligations.LineSetsKind : Prop :=
  ∀ (s : State) (tag mb kb : Byte) (m : LineNo) (k : LineKind), s.hostReady → mb.toNat = m.val →
    (kb = 0 ∧ k = .opened ∨ kb = 1 ∧ k = .cue) →
    ((∀ a : AntennaNo, ∀ j : CarrierNo, ∀ l ∈ s.carrier a j, l.line ≠ m) →
      exec (.line tag mb kb) s = .next (State.replied { s with lines := s.lines.set m.val k } 0x14 tag .ok 0 [kb, 0xFF])) ∧
    (∀ a : AntennaNo, s.lineKind m ≠ k → (∃ j : CarrierNo, ∃ l ∈ s.carrier a j, l.line = m) →
      (∀ b : AntennaNo, b < a → ∀ j : CarrierNo, ∀ l ∈ s.carrier b j, l.line ≠ m) →
      exec (.line tag mb kb) s =
        .next (s.replied 0x14 tag .bound 2 [1 - kb, BitVec.ofNat 8 a.val]))

/-- SETVENUE opens a CLOSED venue as OPEN or SHOW with MODE SERVE to its present, ONLINE antennas, changes between OPEN and SHOW
and ends a drain without a cell, and closes a venue without claims with MODE BEACON; with claims the venue becomes DRAINING, and
a WAIT_JOIN entry there is refused CLOSED. Each queues VENUE_STATE. The release of the last claim of a DRAINING venue, here by a
QUIT, closes it with MODE BEACON and VENUE_STATE DRAINED before DETACHED. -/
def Obligations.SetVenueOpensAndCloses : Prop :=
  (∀ (s : State) (tag vb : Byte) (v : VenueNo) (units : List AntennaNo), s.hostReady → s.mode = .run → vb.toNat = v.val →
    units = (List.finRange 48).filter (fun a => (s.ant a).present && (s.ant a).online && (s.ant a).venue == v) →
    s.roomFor units.length →
    (∀ (x : VenueState) (xb : Byte), (x = .opened ∧ xb = 1 ∨ x = .show ∧ xb = 2) →
      ((s.ven v).state = .closed → exec (.setVenue tag vb xb) s = .next (State.replied (State.notify (State.sends
        (s.setVen v { s.ven v with state := x }) (units.map (fun a => .mode a true))) (.venueState v x .request))
        0x15 tag .ok 0 [xb])) ∧
      ((s.ven v).state ≠ .closed → (s.ven v).state ≠ x → exec (.setVenue tag vb xb) s = .next (State.replied (State.notify
        (s.setVen v { s.ven v with state := x }) (.venueState v x .request)) 0x15 tag .ok 0 [xb])) ∧
      ((s.ven v).state = x → exec (.setVenue tag vb xb) s = .next (s.replied 0x15 tag .ok 0 [xb]))) ∧
    ((s.ven v).state = .opened ∨ (s.ven v).state = .show →
      ((s.ven v).claims = 0 → exec (.setVenue tag vb 0) s = .next (State.replied (State.notify
        (State.sends (s.setVen v { s.ven v with state := .closed }) (units.map (fun a => .mode a false)))
        (.venueState v .closed .request)) 0x15 tag .ok 0 [0])) ∧
      ((s.ven v).claims ≠ 0 → (∀ a : AntennaNo, (s.ant a).present = true → (s.ant a).venue = v →
          ∀ w ∈ (s.ant a).wait, w.kind = .promote) →
        exec (.setVenue tag vb 0) s = .next (State.replied (State.notify (s.setVen v { s.ven v with state := .draining })
          (.venueState v .draining .request)) 0x15 tag .ok 0 [3])) ∧
      (∀ (a : AntennaNo) (g : Identity) (mark : Bool) (c : ClassNo), 2 ≤ (s.ven v).claims → (s.ant a).present = true →
        (s.ant a).venue = v → (s.ant a).wait = [⟨g, .join mark, c⟩] → s.roomFor 1 →
        (∀ b : AntennaNo, b ≠ a → (s.ant b).present = true → (s.ant b).venue = v → ∀ w ∈ (s.ant b).wait, w.kind = .promote) →
        exec (.setVenue tag vb 0) s = .next (State.replied (State.notify (State.setAtt (State.unclaimed ((State.notify
          ((s.sends [.refuse a g .closed]).setVen v { s.ven v with state := .draining })
          (.venueState v .draining .request)).setWait a []) v) g .idle) (.denied g a .closed)) 0x15 tag .ok 0 [3])))) ∧
  (∀ (s : State) (b : Byte) (h : Identity) (a : AntennaNo) (p : Position) (pr : Profile) (svc : Service) (i : SlotNo)
      (tr : Track) (v : VenueNo) (units : List AntennaNo), s.cellReady → s.servesCells b a h →
    s.rec? h = some ⟨p, pr, .served svc ⟨a, .slot i⟩ tr⟩ → (s.ant a).wait = [] → (s.ant a).venue = v →
    (s.ven v).state = .draining → (s.ven v).claims = 1 →
    units = (List.finRange 48).filter (fun a => (s.ant a).present && (s.ant a).online && (s.ant a).venue == v) →
    s.roomFor units.length →
    exec (.quit b h) s = .next (State.routed (State.notify (State.setAtt (State.notify (State.sends
      ((s.setSlot a i .free).setVen v { s.ven v with state := .closed, claims := 0 }) (units.map (fun a => .mode a false)))
      (.venueState v .closed .drained)) h .idle) (.detached h .quit)) pr a none))

/-- BAR sets the barred flag of a present antenna, and where it was clear refuses the WAIT_JOIN entries there in list order, each
with REFUSE BARRED, IDLE and DENIED, and keeps the WAIT_PROMOTE entries; where it was set, nothing changes. UNBAR clears it. Both
report its former value. That an entry's claim ends before its REFUSE cell is the model's choice (log 16). -/
def Obligations.BarAndUnbar : Prop :=
  ∀ (s : State) (tag ab : Byte) (a : AntennaNo), s.hostReady → s.mode = .run → ab.toNat = a.val →
    (s.ant a).present = true →
    (∀ (joins : List Identity) (t : State), (s.ant a).barred = false →
      joins = ((s.ant a).wait.filter (fun w => decide (w.kind ≠ .promote))).map (·.headset) →
      t = joins.foldl (State.entryRefused a .barred .barred) (s.setAnt a { s.ant a with barred := true }) → s.roomTo t →
      exec (.bar tag ab) s = .next (t.replied 0x16 tag .ok 0 [0])) ∧
    ((s.ant a).barred = true → exec (.bar tag ab) s = .next (s.replied 0x16 tag .ok 0 [1])) ∧
    exec (.unbar tag ab) s = .next (State.replied (s.setAnt a { s.ant a with barred := false })
      0x17 tag .ok 0 [if (s.ant a).barred then 1 else 0])

/-! ## STEER -/

/-- STEER is tested in order, and the first test that fails refuses it: its fields (BAD_VALUE), no record (NOT_FOUND), TRANSFER
(BUSY), not SERVED (NOT_SERVED); for a named antenna SAME_ANTENNA, OFFLINE, BARRED, CLOSED, WINDOW and NO_CANDIDATE, of which
NO_CHECKS passes the bar, the window and the hearing; for 0xFF NO_CANDIDATE where no entry may be chosen, and else the antenna of
the best one is the target; then NO_CONTEXT and NO_RESOURCE. A refused STEER changes nothing. One that passes starts a transfer with
cause STEER in the lowest free context: the wake of a CLOSED venue; the reservation of what the headset needs (a carrier place; a
slot FREE, by re-seat or by pre-emption, which PREEMPT allows too; for a DEMOTED headset a FREE slot); the target entry pinned
TARGET, created where it is missing; and BOOK. The reply gives the context and the target. -/
def Obligations.SteerStartsTransfer : Prop :=
  ∀ (s : State) (tag ab ob : Byte) (h : Identity) (refused : Status → Nat → State) (o : Options), s.hostReady →
    s.mode = .run → refused = (fun status offset => s.replied 0x20 tag status offset [0, 0]) →
    ((h = 0x000000 ∨ h = 0xFFFFFF) → exec (.steer tag h ab ob) s = .next (refused .badValue 2)) ∧
    (h ≠ 0x000000 → h ≠ 0xFFFFFF →
      (48 ≤ ab.toNat → ab.toNat ≤ 254 → exec (.steer tag h ab ob) s = .next (refused .badValue 5)) ∧
      ((ab.toNat ≤ 47 ∨ ab = 0xFF) →
        (7 < ob.toNat → exec (.steer tag h ab ob) s = .next (refused .badValue 6)) ∧
        (ob.toNat ≤ 7 → o = ⟨ob.getLsbD 0, ob.getLsbD 1, ob.getLsbD 2⟩ →
          (s.rec? h = none → exec (.steer tag h ab ob) s = .next (refused .notFound 2)) ∧
          (∀ (p : Position) (pr : Profile) (svc : Service) (c : ContextNo) (tr : Track),
            s.rec? h = some ⟨p, pr, .transfer svc c tr⟩ → exec (.steer tag h ab ob) s = .next (refused .busy 2)) ∧
          (∀ r : HeadsetRecord, s.rec? h = some r →
            (r.att = .idle ∨ (∃ a n, r.att = .waiting a n) ∨ ∃ n, r.att = .orphan n) →
            exec (.steer tag h ab ob) s = .next (refused .notServed 2)) ∧
          (∀ (p : Position) (pr : Profile) (svc : Service) (held : Resource) (tr : Track),
            s.rec? h = some ⟨p, pr, .served svc held tr⟩ →
            (∀ (a : AntennaNo) (status : Status), ab.toNat = a.val → s.SteerRefused pr held.ant tr.hearing a o status →
              exec (.steer tag h ab ob) s = .next (refused status 5)) ∧
            (ab = 0xFF → (∀ x ∈ tr.hearing, ¬ s.maySteer pr held.ant o x) →
              exec (.steer tag h ab ob) s = .next (refused .noCandidate 5)) ∧
            (∀ a : AntennaNo, s.SteersTo pr held.ant tr.hearing ab o a →
              ((∀ c : ContextNo, s.ctx c ≠ none) → exec (.steer tag h ab ob) s = .next (refused .noContext 0)) ∧
              ((∃ c : ContextNo, s.ctx c = none) → s.targetUnmet a pr svc (s.tuning.preempt || o.preempt) →
                exec (.steer tag h ab ob) s = .next (refused .noResource 5)) ∧
              (∀ (c : ContextNo) (t : State), registryLawful s.registry → s.ctx c = none →
                (∀ d : ContextNo, d < c → s.ctx d ≠ none) →
                s.Starts pr svc held tr a c .steer o (s.tuning.preempt || o.preempt) t → s.roomTo t →
                exec (.steer tag h ab ob) s =
                  .next (t.replied 0x20 tag .ok 0 [BitVec.ofNat 8 c.val, BitVec.ofNat 8 a.val])))))))

/-! ## Queries and taps -/

/-- PEEK_HEADSET of a record with at most six hearing list entries reports its profile, and then, by its state, the mask and the
fields that the mask names, and the hearing list; it changes nothing. -/
def Obligations.PeekHeadsetReports : Prop :=
  ∀ (s : State) (tag : Byte) (h : Identity) (r : HeadsetRecord), s.hostReady → h ≠ 0x000000 → h ≠ 0xFFFFFF →
    s.rec? h = some r → r.att.hearing.length ≤ 6 →
    exec (.peekHeadset tag h) s = .next (s.replied 0x40 tag .ok 0
      (be16 (BitVec.ofNat 16 r.position.val) ++ be24 r.profile.ident ++
        [BitVec.ofNat 8 r.profile.cls.val, BitVec.ofNat 8 r.profile.home.val,
          (match r.profile.mode with | .duplex => 0 | .listen => 1)] ++ be32 r.profile.talk ++ be32 r.profile.listen ++
        [BitVec.ofNat 8 r.profile.monitor.val, (if r.profile.sticky then 1 else 0)] ++ s.attachmentBytes r.att))

/-- PEEK_ANTENNA of an antenna within its capacities reports its five fields, ten slots, four carriers and its wait list, and
changes nothing. That the mark byte of a WAIT_PROMOTE entry is 0 is the model's choice (log 27). -/
def Obligations.PeekAntennaReports : Prop :=
  ∀ (s : State) (tag ab : Byte) (a : AntennaNo), s.hostReady → ab.toNat = a.val → (s.ant a).wait.length ≤ 8 →
    (∀ k : CarrierNo, (s.carrier a k).length ≤ 3) →
    exec (.peekAntenna tag ab) s = .next (s.replied 0x41 tag .ok 0
      ([(if (s.ant a).present then 1 else 0), BitVec.ofNat 8 (s.ant a).venue.val, (if (s.ant a).online then 1 else 0),
          (if (s.ant a).barred then 1 else 0), BitVec.ofNat 8 (s.ant a).rotation.val] ++
        ((List.finRange 10).map (fun i : SlotNo => slotBytes (s.slot a i))).flatten ++
        ((List.finRange 4).map (fun k : CarrierNo => s.carrierEntry (s.carrier a k))).flatten ++
        [BitVec.ofNat 8 (s.ant a).wait.length] ++ ((s.ant a).wait.map waitBytes).flatten))

/-- PEEK_VENUE reports a venue with its claims and its present antennas, PEEK_CONTEXT a context, free or in use; numbers out of
range are refused; neither changes anything. That the byte of an absent source resource is 0 is the model's choice (log 26). -/
def Obligations.PeekVenueAndContextReport : Prop :=
  (∀ (s : State) (tag vb : Byte), s.hostReady → 15 < vb.toNat →
    exec (.peekVenue tag vb) s = .next (s.replied 0x42 tag .badValue 2 [])) ∧
  (∀ (s : State) (tag vb : Byte) (v : VenueNo), s.hostReady → vb.toNat = v.val →
    exec (.peekVenue tag vb) s = .next (s.replied 0x42 tag .ok 0
      ([(match (s.ven v).state with | .closed => (0 : Byte) | .opened => 1 | .show => 2 | .draining => 3)] ++ be24 (s.ven v).low ++
        be24 (s.ven v).high ++ [BitVec.ofNat 8 (s.ven v).wake.toNat] ++ be16 (BitVec.ofNat 16 (s.ven v).claims) ++
        [BitVec.ofNat 8 ((List.finRange 48).filter (fun a => (s.ant a).present && (s.ant a).venue == v)).length]))) ∧
  (∀ (s : State) (tag cb : Byte), s.hostReady → 23 < cb.toNat →
    exec (.peekContext tag cb) s = .next (s.replied 0x43 tag .badValue 2 [])) ∧
  (∀ (s : State) (tag cb : Byte) (c : ContextNo), s.hostReady → cb.toNat = c.val → s.ctx c = none →
    exec (.peekContext tag cb) s = .next (s.replied 0x43 tag .ok 0 (List.replicate 15 0))) ∧
  (∀ (s : State) (tag cb : Byte) (c : ContextNo) (x : Context), s.hostReady → cb.toNat = c.val → s.ctx c = some x →
    exec (.peekContext tag cb) s = .next (s.replied 0x43 tag .ok 0
      ([1, cb] ++ be24 x.headset ++ [BitVec.ofNat 8 x.sourceAnt.val] ++
        (match x.source with | some q => [1, q.code] | none => [0, 0]) ++
        [BitVec.ofNat 8 x.targetAnt.val, x.target.code,
          (match x.cause with | .auto => 0 | .rescue => 1 | .drain => 2 | .steer => 3),
          (if x.options.breakFirst then 1 else 0) + (if x.options.noChecks then 2 else 0) +
            (if x.options.preempt then 4 else 0),
          (match x.phase with | .prepare => 0 | .ordered => 1)] ++ be16 (BitVec.ofNat 16 x.timer))))

/-- LIST gathers, from the start position upward, at most the count of records whose state the filter admits, and gives the
position after the last one gathered when it stopped on the count, else 512. -/
def Obligations.ListWalks : Prop :=
  ∀ (s : State) (tag count filter : Byte) (start : BitVec 16) (rs : List HeadsetRecord), s.hostReady →
    start.toNat ≤ 512 → 1 ≤ count.toNat → count.toNat ≤ 16 → filter.toNat ≤ 31 →
    rs = (s.registry.filter (fun r => decide (start.toNat ≤ r.position.val) && (filter == 0 ||
      filter.getLsbD (match r.att with
        | .idle => 0 | .waiting _ _ => 1 | .served _ _ _ => 2 | .transfer _ _ _ => 3 | .orphan _ => 4)))).take count.toNat →
    exec (.list tag start count filter) s = .next (s.replied 0x44 tag .ok 0
      (be16 (BitVec.ofNat 16 (match rs.getLast? with
        | some r => if rs.length = count.toNat then r.position.val + 1 else 512
        | none => 512)) ++ [BitVec.ofNat 8 rs.length] ++
        (rs.map (fun r => be16 (BitVec.ofNat 16 r.position.val) ++ be24 r.profile.ident ++ [r.att.code])).flatten))

/-- TAP starts a tap that is OFF with an empty buffer; a RUNNING tap, or one with records left, is BUSY; UNTAP makes a tap OFF in
any state, discards its records and reports what it was. -/
def Obligations.TapAndUntap : Prop :=
  (∀ (s : State) (tag nb kb sel circ : Byte) (count : BitVec 16) (n : TapNo), s.hostReady → s.mode = .run →
    nb.toNat = n.val → kb.toNat ≤ 1 → sel.toNat ≤ 48 → count ≠ 0 → circ.toNat ≤ 1 →
    ((s.tap n).running = false → (s.tap n).buffer = [] →
      exec (.tap tag nb kb sel count circ) s = .next (State.replied (s.setTap n
        { running := true, kind := if kb = 0 then .measure else .round, selector := sel.toNat, count := count.toNat,
          remaining := count.toNat, circular := decide (circ = 1), block := 0, buffer := [], gap := false })
        0x30 tag .ok 0 [nb])) ∧
    (((s.tap n).running = true ∨ (s.tap n).buffer ≠ []) →
      exec (.tap tag nb kb sel count circ) s = .next (s.replied 0x30 tag .busy 2 [0]))) ∧
  (∀ (s : State) (tag nb : Byte) (n : TapNo), s.hostReady → s.mode = .run → nb.toNat = n.val →
    exec (.untap tag nb) s = .next (State.replied
      (s.setTap n { s.tap n with running := false, buffer := [], gap := false, block := 0 }) 0x31 tag .ok 0
      [if (s.tap n).running then 1 else 0, BitVec.ofNat 8 (s.tap n).buffer.length]))

/-! ## Irregular records -/

/-- A record of an unknown kind is answered BAD_KIND with its kind echo and tag; with its continuation flag set the bytes after
its tag are answered together by one SKIPPED record that counts them. -/
def Obligations.UnknownKindAndRemainder : Prop :=
  ∀ (s : State) (kind tag : Byte) (rest : List Byte), s.hostReady → kind.toNat < 128 → recordLength kind = none →
    rest.length ≤ 253 →
    exec (.unknownKindRecord (kind :: tag :: rest)) s = .next (s.setCtrl { s.ctrl with
      answers := s.ctrl.answers ++ [.reply false [⟨kind, tag, .badKind, 0, []⟩]] }) ∧
    (rest ≠ [] → exec (.skippedRecord ((0x80 ||| kind) :: tag :: rest)) s = .next (s.setCtrl { s.ctrl with
      answers := s.ctrl.answers ++ [.reply false [⟨kind, tag, .badKind, 0, []⟩,
        ⟨0, 0, .skipped, 0, [2] ++ be16 (BitVec.ofNat 16 rest.length)⟩]] }))

/-- A record of a request kind that runs past the end of the body is answered BAD_LENGTH with its kind echo and tag, and is not
carried out. Its error offset 0 is the model's choice (log 19). -/
def Obligations.ShortRecordIsAnswered : Prop :=
  ∀ (s : State) (kind tag : Byte) (len : Nat) (rest : List Byte), s.hostReady → recordLength kind = some len →
    rest.length + 2 < len →
    exec (.shortRecord (kind :: tag :: rest)) s = .next (s.setCtrl { s.ctrl with
      answers := s.ctrl.answers ++ [.reply false [⟨kind, tag, .badLength, 0, []⟩]] })

/-- Of nine IDENT records in one frame the first eight are carried out and the ninth is answered SKIPPED with reason TOO_MANY
and its own kind echo and tag. -/
def Obligations.NinthRecordIsSkipped : Prop :=
  ∀ (s : State) (a b c d e f g h tag : Byte), s.hostReady →
    exec (.skippedRecord [0x81, a, 0x81, b, 0x81, c, 0x81, d, 0x81, e, 0x81, f, 0x81, g, 0x81, h, 0x01, tag]) s =
      .next (s.setCtrl { s.ctrl with answers := s.ctrl.answers ++
        [.reply false ([a, b, c, d, e, f, g, h].map (fun x => ⟨0x01, x, .ok, 0, identResult s.mode⟩) ++
          [⟨0x01, tag, .skipped, 0, [1, 0, 0]⟩])] })

/-! ## The control port -/

/-- A SYNC byte begins a frame while the receiver hunts, in a buffer when one of the two is free; a length above 256 discards the
frame with REJECT LENGTH unless four answers wait; 20 ms without a byte abandon it without an answer. -/
def Obligations.ReceiverFollowsItsFrame : Prop :=
  (∀ s : State, s.resetPin = false → s.ctrl.rx = .hunting → exec .frameBegin s =
    .next (s.setCtrl { s.ctrl with rx := .inFrame (decide (s.ctrl.frames.length < 2)) 20 })) ∧
  (∀ (s : State) (b : Bool) (q : Nat) (length : BitVec 16), s.resetPin = false → s.ctrl.rx = .inFrame b q →
    256 < length.toNat → exec (.frameLengthTooLong length) s = .next (s.setCtrl { s.ctrl with
      rx := .hunting
      answers := s.ctrl.answers ++ (if s.ctrl.answers.length < 4 then [.reject .length] else []) })) ∧
  (∀ (s : State) (b : Bool), s.resetPin = false → s.ctrl.rx = .inFrame b 0 →
    exec .frameTimeout s = .next (s.setCtrl { s.ctrl with rx := .hunting }))

/-- A complete frame is judged by four tests in order: a buffer (OVERRUN), the check (CHECK), a length of at least 1 (LENGTH),
the frame type REQUEST (TYPE). The first that fails gives the REJECT, unless four answers wait; a frame that passes waits behind
the older ones. -/
def Obligations.CompleteFrameIsJudged : Prop :=
  ∀ (s : State) (b : Bool) (q : Nat) (body : List Byte) (check : BitVec 16), s.resetPin = false →
    s.ctrl.rx = .inFrame b q → body.length ≤ 256 →
    ((b = true ∧ check = crc16 (be16 (BitVec.ofNat 16 body.length) ++ body) ∧ body.head? = some 0x01 →
      exec (.frameComplete body check) s =
        .next (s.setCtrl { s.ctrl with rx := .hunting, frames := s.ctrl.frames ++ [body] })) ∧
    (∀ reason : RejectReason,
      (b = false ∧ reason = .overrun ∨
        b = true ∧ check ≠ crc16 (be16 (BitVec.ofNat 16 body.length) ++ body) ∧ reason = .check ∨
        b = true ∧ check = crc16 (be16 (BitVec.ofNat 16 body.length) ++ body) ∧ body = [] ∧ reason = .length ∨
        b = true ∧ check = crc16 (be16 (BitVec.ofNat 16 body.length) ++ body) ∧ body ≠ [] ∧ body.head? ≠ some 0x01 ∧
          reason = .type) →
      exec (.frameComplete body check) s = .next (s.setCtrl { s.ctrl with
        rx := .hunting
        answers := s.ctrl.answers ++ (if s.ctrl.answers.length < 4 then [.reject reason] else []) })))

/-- When the line is free the oldest answer frame is sent first; with no answer waiting, the notice at the head of the queue,
whose frame carries the lost flag and clears it; the last byte of a frame frees the line. -/
def Obligations.SenderChoosesFrame : Prop :=
  (∀ (s : State) (a : Answer) (rest : List Answer), s.resetPin = false → s.waiting = [] → s.ctrl.ctxd = none →
    s.ctrl.answers = a :: rest →
    exec .sendAnswerFrame s = .next (s.setCtrl { s.ctrl with ctxd := some (.answer a), answers := rest }) ∧
    exec .sendNoticeFrame s = .next s ∧ exec .sendTapFrame s = .next s) ∧
  (∀ (s : State) (n : Notice) (rest : List Notice), s.resetPin = false → s.ctrl.ctxd = none → s.ctrl.answers = [] →
    s.ctrl.notices = n :: rest →
    exec .sendNoticeFrame s = .next (s.setCtrl { s.ctrl with
      ctxd := some (.notice s.ctrl.lost n), notices := rest, lost := false }) ∧ exec .sendTapFrame s = .next s) ∧
  (∀ s : State, s.resetPin = false → exec .frameSendDone s = .next (s.setCtrl { s.ctrl with ctxd := none }))

/-- With the line free and neither answer nor notice waiting, a tap frame takes up to eight of the oldest records of the first
tap, from the turn upward, that holds any, carries its gap flag and clears it, and passes the turn to the tap after it. That the
search then begins at the tap after the one served last, which comes last itself, is the model's choice (log 12). -/
def Obligations.TapFrameIsSent : Prop :=
  ∀ (s : State) (j : Fin 4), s.resetPin = false → s.ctrl.ctxd = none → s.ctrl.answers = [] → s.ctrl.notices = [] →
    (s.tap (s.tapTurn + j)).buffer ≠ [] → (∀ i : Fin 4, i < j → (s.tap (s.tapTurn + i)).buffer = []) →
    exec .sendTapFrame s = .next (State.setTap
      { s with
        ctrl := { s.ctrl with ctxd := some (.tap (s.tapTurn + j) (s.tap (s.tapTurn + j)).gap
          ((s.tap (s.tapTurn + j)).buffer.take 8)) }
        tapTurn := s.tapTurn + j + 1 } (s.tapTurn + j)
      { s.tap (s.tapTurn + j) with buffer := (s.tap (s.tapTurn + j)).buffer.drop 8, gap := false })

/-! ## The head port -/

/-- A cell that arrives joins the tail below 128 cells, and HSTALL is asserted at 128; a HEAR at 96 or more is shed, with a
SHEDDING notice when shedding was off; any other cell at 128 is lost. A cell at the head of the buffer, when it is taken, does what
it does at an empty one, and leaves the cells behind it in their order: first, where it leaves fewer than 64 while shedding is on,
shedding becomes off with its SHEDDING notice; and HSTALL is released where it leaves 112 or fewer. -/
def Obligations.ArrivalFollowsOccupancy : Prop :=
  (∀ (s : State) (c : RawCell), s.resetPin = false →
    ((s.head.input.length < 96 ∨ s.head.input.length < 128 ∧ c.kind ≠ 0x01) → exec (.cellArrival c) s =
      .next (s.setHead { s.head with
        input := s.head.input ++ [c], hstall := s.head.hstall || decide (s.head.input.length = 127) })) ∧
    (96 ≤ s.head.input.length → c.kind = 0x01 → s.head.shedding = true → exec (.cellArrival c) s = .next s) ∧
    (96 ≤ s.head.input.length → c.kind = 0x01 → s.head.shedding = false → exec (.cellArrival c) s =
      .next ((s.setHead { s.head with shedding := true }).notify (.shedding true))) ∧
    (128 ≤ s.head.input.length → c.kind ≠ 0x01 → exec (.cellArrival c) s = .next s)) ∧
  (∀ (i : Instr) (c : RawCell) (behind : List RawCell) (s alone t : State), cellOf i = some c → s.resetPin = false →
    s.waiting = [] → s.head.input = c :: behind →
    alone = State.setHead (if s.head.shedding = true ∧ behind.length < 64 then s.notify (.shedding false) else s)
      { s.head with input := [], shedding := false, hstall := false } →
    exec i alone = .next t → t.waiting = [] →
    exec i s = .next (t.setHead { t.head with
      input := behind, shedding := s.head.shedding && decide (64 ≤ behind.length),
      hstall := s.head.hstall && decide (112 < behind.length) }))

/-- A cell that fails the judgement at its taking leaves the buffer and changes nothing: no unit kind; an absent antenna, or one
out of range; for the kinds but UP and DOWN an OFFLINE antenna, an identity that names no headset, or SETUP; a HEAR of level code
252 to 254, or for a headset neither SERVED nor in TRANSFER; a GONE from an antenna that holds nothing for the headset. -/
def Obligations.FailingCellsAreDiscarded : Prop :=
  (∀ (s : State) (c : RawCell), s.cellReady → (c.kind.toNat = 0 ∨ 9 < c.kind.toNat) →
    exec (.nonUnitKindCell c) s = .next s) ∧
  (∀ (s : State) (b : Byte), s.cellReady →
    (47 < b.toNat ∨ (∃ a : AntennaNo, b.toNat = a.val ∧ (s.ant a).present = false)) →
    exec (.up b) s = .next s ∧ exec (.down b) s = .next s) ∧
  (∀ (s : State) (b level errors : Byte) (h : Identity), s.cellReady →
    (47 < b.toNat ∨ (∃ a : AntennaNo, b.toNat = a.val ∧ ((s.ant a).present = false ∨ (s.ant a).online = false)) ∨
      h = 0x000000 ∨ h = 0xFFFFFF ∨ s.mode = .setup) →
    exec (.hear b h level errors) s = .next s ∧ exec (.join b h) s = .next s ∧ exec (.ready b h) s = .next s ∧
    exec (.noroom b h) s = .next s ∧ exec (.landed b h) s = .next s ∧ exec (.gone b h) s = .next s ∧
    exec (.quit b h) s = .next s) ∧
  (∀ (s : State) (b level errors : Byte) (h : Identity), s.cellReady →
    (252 ≤ level.toNat ∧ level.toNat ≤ 254 ∨
      ∀ r, s.rec? h = some r → r.att = .idle ∨ (∃ a n, r.att = .waiting a n) ∨ ∃ n, r.att = .orphan n) →
    exec (.hear b h level errors) s = .next s) ∧
  (∀ (s : State) (b : Byte) (h : Identity) (a : AntennaNo), s.cellReady → b.toNat = a.val →
    (∀ r, s.rec? h = some r → (∀ svc held tr, r.att = .served svc held tr → held.ant ≠ a) ∧
      (∀ svc c tr, r.att = .transfer svc c tr → ∀ x, s.ctx c = some x →
        x.targetAnt ≠ a ∧ (x.source ≠ none → x.sourceAnt ≠ a))) →
    exec (.gone b h) s = .next s)

/-- The last byte of a cell sent takes the oldest cell from the output queue, and lets one cell of an oversize event follow. Room
has grown then, so the waiting events are considered again: afterwards none is left that would be taken. So a wait expiry that
finds no room waits and is taken when a cell is sent; and a JOIN without a record, waiting at the head of the input buffer, is
answered then. -/
def Obligations.CellSentLeavesQueue : Prop :=
  (∀ (s : State) (c : OutCell) (rest : List OutCell), s.resetPin = false → s.waiting = [] → s.head.output = c :: rest →
    (s.head.overflow = [] → exec .cellSent s = .next (s.setHead { s.head with output := rest, begun := false })) ∧
    (∀ (d : OutCell) (more : List OutCell), s.head.overflow = d :: more →
      exec .cellSent s = .next (s.setHead { s.head with output := rest ++ [d], overflow := more, begun := false }))) ∧
  (∀ s t : State, s.resetPin = false → s.head.output ≠ [] → exec .cellSent s = .next t →
    (.cell ∈ t.waiting → t.consider .cell = t) ∧ (.frame ∈ t.waiting → exec .requestFrameTaken t = .next t) ∧
    (∀ c : ContextNo, (.tPrep c ∈ t.waiting → exec (.tPrepExpiry c) t = .next t) ∧
      (.tMove c ∈ t.waiting → exec (.tMoveExpiry c) t = .next t)) ∧
    (∀ h : Identity, (.wait h ∈ t.waiting → exec (.waitExpiry h) t = .next t) ∧
      (.hold h ∈ t.waiting → exec (.holdExpiry h) t = .next t))) ∧
  (∀ (s : State) (c : OutCell) (rest : List OutCell) (h : Identity) (p : Position) (pr : Profile) (a : AntennaNo),
    s.resetPin = false → s.waiting = [] → s.head.output = c :: rest → s.head.output.length = 128 → s.head.overflow = [] →
    s.rec? h = some ⟨p, pr, .waiting a 0⟩ → (s.ven (s.ant a).venue).state ≠ .draining →
    exec (.waitExpiry h) s = .next { s with waiting := [.wait h] } ∧
    exec .cellSent { s with waiting := [.wait h] } = .next (State.notify (State.setAtt (State.sends (State.unclaimed
      ((s.setHead { s.head with output := rest, begun := false }).setWait a ((s.ant a).wait.eraseP (fun w => w.headset == h)))
      (s.ant a).venue) [.refuse a h .full]) h .idle) (.denied h a .full))) ∧
  (∀ (s : State) (c : OutCell) (rest : List OutCell) (h : Identity) (b : Byte) (a : AntennaNo), s.cellReady →
    s.servesCells b a h → s.rec? h = none → s.head.output = c :: rest → s.head.output.length = 128 → s.head.overflow = [] →
    exec (.join b h) s = .next { s.setHead { s.head with input := [⟨0x02, b, h, 0, 0, 0⟩] } with waiting := [.cell] } ∧
    exec .cellSent { s.setHead { s.head with input := [⟨0x02, b, h, 0, 0, 0⟩] } with waiting := [.cell] } =
      .next (s.setHead { s.head with output := rest ++ [.refuse a h .unknown], begun := false }))

/-! ## Cells of the units -/

/-- A HEAR that makes no round, for a SERVED headset from another antenna or for a headset in TRANSFER from any: q is L' less three
times E', at least 0; an entry that is measured steps toward 16q by the difference over 2^k, truncated toward zero, one that is
unmeasured is seeded with 16q, and a missing one enters, in place of the unpinned entry nearest the tail where the list is full; the
entry stands at the head with age 0 and its clip flag, and a clip sets the record's sticky flag. The taps whose kind and selector
take the MEASURE record capture it, in the order of the model's choice (log 25). Nothing else changes: no entry ages. -/
def Obligations.HearStepsAverage : Prop :=
  ∀ (s t : State) (b level errors : Byte) (h : Identity) (a : AntennaNo) (p : Position) (pr pr' : Profile) (svc : Service)
    (tr : Track) (q v : Nat) (clip : Bool) (l : List HearEntry), s.cellReady → s.servesCells b a h →
    registryLawful s.registry → reportGives level errors q clip → HearsInto s.tuning.avgShift a q clip tr.hearing v l →
    pr' = { pr with sticky := pr.sticky || clip } →
    (∀ held : Resource, s.rec? h = some ⟨p, pr, .served svc held tr⟩ → held.ant ≠ a →
      (s.setRec ⟨p, pr', .served svc held { tr with hearing := l }⟩).Captures (.measure a h q v clip) t →
      exec (.hear b h level errors) s = .next t) ∧
    (∀ c : ContextNo, s.rec? h = some ⟨p, pr, .transfer svc c tr⟩ →
      (s.setRec ⟨p, pr', .transfer svc c { tr with hearing := l }⟩).Captures (.measure a h q v clip) t →
      exec (.hear b h level errors) s = .next t)

/-- A HEAR of a SERVED headset from the antenna of its resource is a round: after the update and the MEASURE record, entries without
a pin age and those beyond the stale limit leave, and the backoffs count down. Without an eligible entry the candidate becomes absent
and the count 0, and the ROUND record says NO_CANDIDATE. Else the best one is the candidate, and the count rises to at most P where
its score reaches the serving score with the hysteresis and the show margin in force, and else becomes 0. Where no test calls for a
start, the record says STAY. Where the rescue test, the drain test or the count calls for one, by the first that is met, it is
blocked for NO_CONTEXT or NO_RESOURCE and the headset stays SERVED, or the transfer starts with that cause in the lowest free context,
with no options: the wake, the reservation, the target entry pinned TARGET, and BOOK. The ROUND record is offered to the taps last.
The order of the taps is the model's choice (log 25). -/
def Obligations.RoundCountsTrigger : Prop :=
  ∀ (s m t : State) (b level errors : Byte) (h : Identity) (a : AntennaNo) (p : Position) (pr pr' : Profile) (svc : Service)
    (place : Place) (tr : Track) (q v : Nat) (clip : Bool) (l list : List HearEntry) (scoreS : Int), s.cellReady →
    s.servesCells b a h → registryLawful s.registry → s.tuning.lawful →
    s.rec? h = some ⟨p, pr, .served svc ⟨a, place⟩ tr⟩ → reportGives level errors q clip →
    HearsInto s.tuning.avgShift a q clip tr.hearing v l → pr' = { pr with sticky := pr.sticky || clip } →
    (s.setRec ⟨p, pr', .served svc ⟨a, place⟩ { tr with hearing := l }⟩).Captures (.measure a h q v clip) m →
    list = agedList s.tuning.staleLimit l → scoreS = s.scoreOf pr a v →
    ((∀ x ∈ list, ¬ s.mayBeCandidate pr a x) →
      (m.setRec ⟨p, pr', .served svc ⟨a, place⟩ ⟨none, 0, list⟩⟩).Captures (.round a h scoreS none 0 0 .noCandidate) t →
      exec (.hear b h level errors) s = .next t) ∧
    (∀ (x : HearEntry) (vc n : Nat) (scoreC margin : Int) (rescue drain : Prop) (k : State),
      s.bestEntry pr (s.mayBeCandidate pr a) list x vc → scoreC = s.scoreOf pr x.ant vc →
      margin = (if (s.ven (s.ant a).venue).state = .show ∧ (s.ant x.ant).venue ≠ (s.ant a).venue ∧
        pr.home = (s.ant a).venue then (s.tuning.showMargin : Int) else 0) →
      n = (if scoreS + 16 * ((s.tuning.hysteresis : Int) + margin) ≤ scoreC then
        min s.tuning.persist ((if tr.candidate = some x.ant then tr.count else 0) + 1) else 0) →
      (rescue ↔ v < 16 * s.tuning.floor ∧ 16 * s.tuning.floor ≤ vc) →
      (drain ↔ (s.ven (s.ant a).venue).state = .draining ∧ 16 * s.tuning.floor ≤ vc) →
      k = m.setRec ⟨p, pr', .served svc ⟨a, place⟩ ⟨some x.ant, n, list⟩⟩ →
      (¬ rescue → ¬ drain → n ≠ s.tuning.persist →
        k.Captures (.round a h scoreS (some x.ant) scoreC n .stay) t → exec (.hear b h level errors) s = .next t) ∧
      (∀ (cause : Cause) (starts : RoundOutcome), (rescue ∧ cause = .rescue ∧ starts = .rescue ∨
          ¬ rescue ∧ drain ∧ cause = .drain ∧ starts = .drain ∨
          ¬ rescue ∧ ¬ drain ∧ n = s.tuning.persist ∧ cause = .auto ∧ starts = .auto) →
        ((∀ d : ContextNo, s.ctx d ≠ none) → k.Captures (.round a h scoreS (some x.ant) scoreC n .noContext) t →
          exec (.hear b h level errors) s = .next t) ∧
        ((∃ d : ContextNo, s.ctx d = none) → k.targetUnmet x.ant pr svc s.tuning.preempt →
          k.Captures (.round a h scoreS (some x.ant) scoreC n .noResource) t →
          exec (.hear b h level errors) s = .next t) ∧
        (∀ (d : ContextNo) (u : State), s.ctx d = none → (∀ e : ContextNo, e < d → s.ctx e ≠ none) →
          k.Starts pr svc ⟨a, place⟩ ⟨some x.ant, n, list⟩ x.ant d cause ⟨false, false, false⟩ s.tuning.preempt u →
          u.Captures (.round a h scoreS (some x.ant) scoreC n starts) t → s.roomTo t →
          exec (.hear b h level errors) s = .next t)))

/-- The candidate of a round, read from the hearing list after its ageing and count-down: none where no entry is eligible; else
the eligible entry of the highest score, and of equal scores the one of the lower antenna number. The score is the average, with 16
times the home bonus where the antenna is of the home venue, less 16 times the load weight for each slot that others have there. -/
def Obligations.CandidateIsBest : Prop :=
  ∀ (s : State) (p : Profile) (serving : AntennaNo) (l : List HearEntry) (score : AntennaNo → Nat → Int),
    (∀ a v, score a v = (v : Int) + (if (s.ant a).venue = p.home then 16 * (s.tuning.homeBonus : Int) else 0) -
      16 * (s.tuning.loadWeight : Int) * (s.takenByOthers a p.ident : Int)) →
    ((∀ x ∈ l, ¬ s.mayBeCandidate p serving x) → s.roundCandidate p serving l = none) ∧
    ((∃ x ∈ l, s.mayBeCandidate p serving x) → ∃ x ∈ l, ∃ v : Nat, s.mayBeCandidate p serving x ∧ x.avg = some v ∧
      s.roundCandidate p serving l = some ⟨x.ant, v, score x.ant v⟩ ∧
      ∀ y ∈ l, ∀ w : Nat, s.mayBeCandidate p serving y → y.avg = some w →
        score y.ant w < score x.ant v ∨ (score y.ant w = score x.ant v ∧ x.ant ≤ y.ant))

/-- In a lawful registry a JOIN of a headset is granted at an antenna that is not barred, in an OPEN or SHOW venue or a CLOSED one
that its class wakes, whose window is disabled or admits it, where what it needs can be had. First what its state asks for: nothing
from IDLE; from WAITING at another antenna the entry is removed; from SERVED the held resource is released, with FREE to another
unit; from TRANSFER toward another antenna the transfer is aborted with TRANSFER_FAILED REJOIN; from ORPHAN the hold ends. Then the
wake; the resource: of mode LISTEN a carrier place (carried, FREE or MIXED), else a talk slot as LISTEN_SLOT, of mode DUPLEX a talk
slot (FREE, by re-seat or by pre-emption); SERVED with a fresh track; SEAT; ATTACHED, or RECOVERED from ORPHAN; and ROUTE. A late
LANDED of an ORPHAN headset is such a JOIN. In a release, that an offer gives the slot released, also where a lower slot is FREE,
the order of a DEMOTED headset's two claims, and FREE before the MODE cells of a venue that closes are the model's choices
(logs 14, 15, 28). -/
def Obligations.JoinIsGranted : Prop :=
  ∀ (s u w x t : State) (b : Byte) (h : Identity) (a : AntennaNo) (pr : Profile) (mark : Bool) (lost : Option AntennaNo)
    (svc : Service) (place : Place), s.cellReady → s.servesCells b a h → registryLawful s.registry →
    s.Joins a h pr u mark lost → (s.ant a).barred = false → u.Enters (s.ant a).venue pr.cls w →
    (w.ven (s.ant a).venue).letsIn h → w.TakesNeed a pr none w.tuning.preempt svc place x →
    t = State.routed (State.notify ((x.setAtt h (.served svc ⟨a, place⟩
      ⟨none, 0, [⟨a, none, 0, 0, false, .serving⟩]⟩)).sends [.seat a h place])
      (if mark then .recovered h a place svc else .attached h a place svc)) pr a (some place) → s.roomTo t →
    exec (.join b h) s = .next t ∧ (mark = true → exec (.landed b h) s = .next t)

/-- A JOIN for an identity without a record is answered with REFUSE UNKNOWN and no notice; one of a WAITING headset from its wait
antenna is discarded. The JOIN of a headset, after what its state asks for first, is answered with REFUSE and DENIED of the first
check that fails: BARRED at a barred antenna, CLOSED in a DRAINING venue or a CLOSED one that its class does not wake, WINDOW
outside the window. Where what it needs cannot be had it waits: a WAIT_JOIN entry at the tail, marked for a recovery, one claim
more, WAITING with the wait timer at t_wait, and no cell; where the wait list holds 8 entries it is refused FULL. A late LANDED of
an ORPHAN headset is such a JOIN. That a re-attach then queues ROUTE with resource NONE last is the model's choice (log 18), as are,
in a release, that an offer gives the slot released, also where a lower slot is FREE, the order of a DEMOTED headset's two claims,
and FREE before the MODE cells of a venue that closes (logs 14, 15, 28). -/
def Obligations.JoinIsRefused : Prop :=
  ∀ (s : State) (b : Byte) (h : Identity) (a : AntennaNo), s.cellReady → s.servesCells b a h →
    (s.roomFor 1 → s.rec? h = none → exec (.join b h) s = .next (s.sends [.refuse a h .unknown])) ∧
    (∀ (p : Position) (pr : Profile) (n : Nat), s.rec? h = some ⟨p, pr, .waiting a n⟩ → exec (.join b h) s = .next s) ∧
    (∀ (u w t : State) (pr : Profile) (mark : Bool) (lost : Option AntennaNo) (v : VenueNo), s.Joins a h pr u mark lost →
      v = (s.ant a).venue →
      ((∃ (cell : RefuseReason) (reason : DeniedReason),
          ((s.ant a).barred = true ∧ w = u ∧ cell = .barred ∧ reason = .barred ∨
            (s.ant a).barred = false ∧ ((u.ven v).state = .draining ∨ (u.ven v).state = .closed ∧
              (u.ven v).wake.getLsbD pr.cls.val = false) ∧ w = u ∧ cell = .closed ∧ reason = .closed ∨
            (s.ant a).barred = false ∧ u.Enters v pr.cls w ∧ ¬ (w.ven v).letsIn h ∧ cell = .window ∧ reason = .window ∨
            (s.ant a).barred = false ∧ u.Enters v pr.cls w ∧ (w.ven v).letsIn h ∧ w.needUnmet a pr w.tuning.preempt ∧
              8 ≤ (w.ant a).wait.length ∧ cell = .full ∧ reason = .full) ∧
          t = State.lostAt ((w.sends [.refuse a h cell]).notify (.denied h a reason)) pr lost) ∨
        (s.ant a).barred = false ∧ u.Enters v pr.cls w ∧ (w.ven v).letsIn h ∧ w.needUnmet a pr w.tuning.preempt ∧
          (w.ant a).wait.length < 8 ∧
          t = State.lostAt (State.setAtt (State.claimed (w.setWait a ((w.ant a).wait ++ [⟨h, .join mark, pr.cls⟩])) v) h
            (.waiting a (1000 * s.tuning.tWait))) pr lost) →
      s.roomTo t → exec (.join b h) s = .next t ∧ (mark = true → exec (.landed b h) s = .next t))

/-- A READY from the target of a context in PREPARE sends GOTO to the source unit, makes the phase ORDERED and starts t_move.
Under BREAK_FIRST it then sends FREE to the source unit and releases the source resource: the source becomes absent in the context,
a DEMOTED headset becomes TALK, and ROUTE with resource NONE names the source antenna. A READY that matches no such context is
discarded where its unit holds the headset's resource; from a unit that has nothing of the headset it is answered with FREE. In the
release, that an offer gives the slot released, also where a lower slot is FREE, is the model's choice (log 14), as is the order of
a DEMOTED headset's two claims (log 15). -/
def Obligations.ReadyOrdersMove : Prop :=
  ∀ (s : State) (b : Byte) (h : Identity) (a : AntennaNo), s.cellReady → s.servesCells b a h →
    (∀ (p : Position) (pr : Profile) (svc : Service) (c : ContextNo) (tr : Track) (x y : Context),
      s.rec? h = some ⟨p, pr, .transfer svc c tr⟩ → s.ctx c = some x → x.targetAnt = a → x.phase = .prepare →
      y = { x with phase := .ordered, timer := s.tuning.tMove } →
      (x.options.breakFirst = false → s.roomFor 1 →
        exec (.ready b h) s = .next (State.setCtx (s.sends [.goto x.sourceAnt h a x.target]) c (some y))) ∧
      (∀ (place : Place) (t : State), x.options.breakFirst = true → x.source = some place →
        ((s.sends [.goto x.sourceAnt h a x.target, .free x.sourceAnt h]).setCtx c (some y)).DropsSource pr svc c y tr place t →
        s.roomTo t → exec (.ready b h) s = .next t)) ∧
    (∀ (p : Position) (pr : Profile) (svc : Service) (held : Resource) (tr : Track),
      s.rec? h = some ⟨p, pr, .served svc held tr⟩ → held.ant = a → exec (.ready b h) s = .next s) ∧
    (∀ (p : Position) (pr : Profile) (svc : Service) (c : ContextNo) (tr : Track) (x : Context),
      s.rec? h = some ⟨p, pr, .transfer svc c tr⟩ → s.ctx c = some x → x.targetAnt ≠ a → x.sourceAnt = a → x.source ≠ none →
      exec (.ready b h) s = .next s) ∧
    (s.strange a h → s.roomFor 1 → exec (.ready b h) s = .next (s.sends [.free a h]))

/-- A READY from the target of a context in ORDERED is a duplicate, and it and a NOROOM from it are discarded: no second GOTO, and
the context with its timer is as it was. -/
def Obligations.DuplicateReadyIsDiscarded : Prop :=
  ∀ (s : State) (b : Byte) (h : Identity) (a : AntennaNo) (p : Position) (pr : Profile) (svc : Service) (c : ContextNo)
    (tr : Track) (x : Context), s.cellReady → s.servesCells b a h → s.rec? h = some ⟨p, pr, .transfer svc c tr⟩ →
    s.ctx c = some x → x.targetAnt = a → x.phase = .ordered →
    exec (.ready b h) s = .next s ∧ exec (.noroom b h) s = .next s

/-- A NOROOM from the target of a context in PREPARE returns the headset to its source: the reservation, a slot or a carrier place,
is released; the target entry loses its pin and takes the backoff in force; the context is freed and TRANSFER_FAILED gives REFUSED;
a DEMOTED headset's return offers the lowest FREE slot at its antenna; no cell goes to the target. For a headset with no context in
PREPARE toward the antenna it is discarded. That an offer gives the slot released, also where a lower slot is FREE, is the model's
choice (log 14). -/
def Obligations.NoroomReturns : Prop :=
  ∀ (s : State) (b : Byte) (h : Identity) (a : AntennaNo), s.cellReady → s.servesCells b a h →
    (∀ (p : Position) (pr : Profile) (svc : Service) (c : ContextNo) (tr : Track) (x : Context) (place : Place) (t : State),
      s.rec? h = some ⟨p, pr, .transfer svc c tr⟩ → s.ctx c = some x → x.targetAnt = a → x.phase = .prepare →
      x.source = some place → s.Returns pr svc c x tr place .refused t → s.roomTo t → exec (.noroom b h) s = .next t) ∧
    ((∀ r, s.rec? h = some r → ∀ svc c tr, r.att = .transfer svc c tr → ∀ x, s.ctx c = some x →
        x.targetAnt ≠ a ∨ x.phase = .ordered) → exec (.noroom b h) s = .next s)

/-- A LANDED from the target, or a JOIN from its antenna, completes a transfer in either phase: the reserved slot is HELD, or the
reserved place on the carrier a served place; FREE goes to the source unit and the source resource is released, while it is present;
the SERVING pin comes to the target entry, the context is freed, and TRANSFER_DONE and ROUTE are queued. A LANDED that matches no
context is discarded where its unit holds the headset's resource; from a unit that has nothing of the headset it is answered with
FREE, but for an ORPHAN headset (whose LANDED is a JOIN). In the release, that an offer gives the slot released, also where a lower
slot is FREE, is the model's choice (log 14), as is the order of a DEMOTED headset's two claims (log 15). -/
def Obligations.LandedCompletes : Prop :=
  ∀ (s : State) (b : Byte) (h : Identity) (a : AntennaNo), s.cellReady → s.servesCells b a h →
    (∀ (p : Position) (pr : Profile) (svc svc' : Service) (c : ContextNo) (tr : Track) (x : Context) (s₁ u t : State),
      s.rec? h = some ⟨p, pr, .transfer svc c tr⟩ → s.ctx c = some x → x.targetAnt = a →
      ((∃ i : SlotNo, x.target = .slot i ∧ s₁ = s.setSlot a i (.held h) ∧
          (pr.mode = .duplex ∧ svc' = .talk ∨ pr.mode = .listen ∧ svc' = .listenSlot)) ∨
        (∃ (k : CarrierNo) (before behind : Carrier) (n r : Nat), x.target = .carrier k ∧ pr.mode = .listen ∧ svc' = .listen ∧
          s.carrier a k = before ++ ⟨pr.monitor, n, r + 1⟩ :: behind ∧ (∀ l ∈ before ++ behind, l.line ≠ pr.monitor) ∧
          s₁ = s.setCarrier a k (before ++ ⟨pr.monitor, n + 1, r⟩ :: behind))) →
      (x.source = none ∧ u = s₁ ∨ ∃ place : Place, x.source = some place ∧
        (s₁.sends [.free x.sourceAnt h]).Releases pr svc x.sourceAnt place u) →
      t = State.routed (State.notify (State.setCtx (u.setAtt h (.served svc' ⟨a, x.target⟩ ⟨none, 0, tr.hearing.map (fun y =>
        if y.ant = a then { y with pin := .serving, age := 0 } else { y with pin := .unpinned })⟩)) c none)
        (.transferDone h x.sourceAnt a x.cause c)) pr a (some x.target) → s.roomTo t →
      exec (.landed b h) s = .next t ∧ exec (.join b h) s = .next t) ∧
    (∀ (p : Position) (pr : Profile) (svc : Service) (held : Resource) (tr : Track),
      s.rec? h = some ⟨p, pr, .served svc held tr⟩ → held.ant = a → exec (.landed b h) s = .next s) ∧
    (∀ (p : Position) (pr : Profile) (svc : Service) (c : ContextNo) (tr : Track) (x : Context),
      s.rec? h = some ⟨p, pr, .transfer svc c tr⟩ → s.ctx c = some x → x.targetAnt ≠ a → x.sourceAnt = a → x.source ≠ none →
      exec (.landed b h) s = .next s) ∧
    (s.strange a h → (∀ r, s.rec? h = some r → ∀ n, r.att ≠ .orphan n) → s.roomFor 1 →
      exec (.landed b h) s = .next (s.sends [.free a h]))

/-- A GONE of a SERVED headset from the antenna of its resource releases the resource without a cell for it and starts the hold,
with ORPHANED and then ROUTE with resource NONE. A QUIT releases what the headset has and detaches it, with DETACHED, and ROUTE
where a resource was released: SERVED, with FREE to its unit when the QUIT comes from another; WAITING, without a cell; ORPHAN;
TRANSFER, with FREE to the target and to a source that the QUIT does not come from; without a record or IDLE it is discarded. A GONE
in TRANSFER from the source while it is present fails with SOURCE_LOST in PREPARE, with FREE to the target, and in ORDERED drops
the source and goes on; from the target it returns to the source with TARGET_LOST, or orphans where the source is absent. That an
offer gives the slot released, also where a lower slot is FREE, is the model's choice (log 14), as are the order of a DEMOTED
headset's two claims (log 15), and FREE before the MODE cells of a venue that a QUIT closes (log 28). -/
def Obligations.GoneOrphansAndQuitDetaches : Prop :=
  ∀ (s : State) (b : Byte) (h : Identity) (a : AntennaNo) (p : Position) (pr : Profile), s.cellReady → s.servesCells b a h →
    (∀ (svc : Service) (place : Place) (tr : Track) (u t : State),
      s.rec? h = some ⟨p, pr, .served svc ⟨a, place⟩ tr⟩ → s.Releases pr svc a place u →
      t = State.routed ((u.setAtt h (.orphan (1000 * s.tuning.tHold))).notify (.orphaned h a .gone)) pr a none → s.roomTo t →
      exec (.gone b h) s = .next t) ∧
    (∀ (svc : Service) (held : Resource) (tr : Track) (u t : State),
      s.rec? h = some ⟨p, pr, .served svc held tr⟩ →
      (s.sends (if held.ant = a then [] else [.free held.ant h])).Releases pr svc held.ant held.place u →
      t = State.routed ((u.setAtt h .idle).notify (.detached h .quit)) pr held.ant none → s.roomTo t →
      exec (.quit b h) s = .next t) ∧
    (∀ (w : AntennaNo) (n : Nat) (t : State), s.rec? h = some ⟨p, pr, .waiting w n⟩ →
      t = State.notify ((s.entryEnded w h).setAtt h .idle) (.detached h .quit) → s.roomTo t →
      exec (.quit b h) s = .next t) ∧
    (∀ n : Nat, s.rec? h = some ⟨p, pr, .orphan n⟩ →
      exec (.quit b h) s = .next ((s.setAtt h .idle).notify (.detached h .quit))) ∧
    ((s.rec? h = none ∨ s.rec? h = some ⟨p, pr, .idle⟩) → exec (.quit b h) s = .next s) ∧
    (∀ (svc : Service) (c : ContextNo) (tr : Track) (x : Context), s.rec? h = some ⟨p, pr, .transfer svc c tr⟩ →
      s.ctx c = some x →
      (∀ u t : State, s.Aborts pr svc c x (some a) u →
        t = State.lostAt ((u.setAtt h .idle).notify (.detached h .quit)) pr (x.source.map (fun _ => x.sourceAnt)) →
        s.roomTo t → exec (.quit b h) s = .next t) ∧
      (∀ t : State, x.sourceAnt = a → x.source ≠ none → x.phase = .prepare →
        (s.sends [.free x.targetAnt h]).FailsOrphan pr svc c x .sourceLost t → s.roomTo t →
        exec (.gone b h) s = .next t) ∧
      (∀ (place : Place) (t : State), x.sourceAnt = a → x.source = some place → x.phase = .ordered →
        s.DropsSource pr svc c x tr place t → s.roomTo t → exec (.gone b h) s = .next t) ∧
      (∀ t : State, x.targetAnt = a → (x.sourceAnt ≠ a ∨ x.source = none) →
        (x.source = none ∧ s.FailsOrphan pr svc c x .targetLost t ∨
          ∃ place : Place, x.source = some place ∧ s.Returns pr svc c x tr place .targetLost t) → s.roomTo t →
        exec (.gone b h) s = .next t))

/-- An UP of a present antenna makes it ONLINE, with a UNIT_STATE notice when it was OFFLINE, and in RUN answers with the MODE
cell of its venue, BEACON in CLOSED and SERVE otherwise, again where it was ONLINE already. -/
def Obligations.UpMakesOnline : Prop :=
  ∀ (s : State) (b : Byte) (a : AntennaNo), s.cellReady → b.toNat = a.val → (s.ant a).present = true →
    ((s.ant a).online = false → s.mode = .setup → exec (.up b) s =
      .next ((s.setAnt a { s.ant a with online := true }).notify (.unitState a true))) ∧
    ((s.ant a).online = true → s.mode = .setup → exec (.up b) s = .next s) ∧
    (s.roomFor 1 → (s.ant a).online = false → s.mode = .run → exec (.up b) s =
      .next (((s.setAnt a { s.ant a with online := true }).notify (.unitState a true)).sends
        [.mode a (decide ((s.ven (s.ant a).venue).state ≠ .closed))])) ∧
    (s.roomFor 1 → (s.ant a).online = true → s.mode = .run → exec (.up b) s =
      .next (s.sends [.mode a (decide ((s.ven (s.ant a).venue).state ≠ .closed))]))

/-- A DOWN of an ONLINE antenna makes it OFFLINE with a UNIT_STATE notice, and in SETUP that is all. In RUN it then ends every claim
there: the contexts, in ascending number, by the rules for a lost source and a lost target; the headsets SERVED there, in registry
order, on a slot or a carrier place, each ORPHAN with UNIT_DOWN, a DEMOTED one's WAIT_PROMOTE entry with its place; the entries left
in the wait list, in order, each IDLE with DENIED OFFLINE; and last the offers of returns. The releases make no offer and send no MIX
cell at the antenna, and one that brings a DRAINING venue's count to 0 closes it. A DOWN of an OFFLINE antenna has no effect. The
model's choices are: that an offer gives the slot released (log 14), the order of a DEMOTED headset's two claims (log 15), and that
the offers of returns come at the end of the whole event (log 17). -/
def Obligations.DownMakesOffline : Prop :=
  ∀ (s d : State) (b : Byte) (a : AntennaNo), s.cellReady → b.toNat = a.val → (s.ant a).present = true →
    d = (s.setAnt a { s.ant a with online := false }).notify (.unitState a false) →
    ((s.ant a).online = false → exec (.down b) s = .next s) ∧
    ((s.ant a).online = true → s.mode = .setup → exec (.down b) s = .next d) ∧
    (∀ (u w t : State) (late : List AntennaNo), (s.ant a).online = true → s.mode = .run →
      Through (DownsContext a) (List.finRange 24) (d, []) (u, late) →
      Through (fun h s t => s.DownsHolder a h t) (s.registry.map (·.profile.ident)) u w →
      Through (fun b s t => s.OffersLowest b t) late (((w.ant a).wait.map (·.headset)).foldl (State.entryDowned a) w) t →
      s.roomTo t → exec (.down b) s = .next t)

/-! ## Expiries -/

/-- The t_prep expiry of a context in PREPARE, and the t_move expiry of one in ORDERED whose source is present, send FREE to the
target unit and then return the headset to its source, with NO_ANSWER or NO_LANDING: the reservation, a slot or a carrier place, is
released, and a DEMOTED headset's return offers the lowest FREE slot at its antenna. The t_move expiry of a context whose source is
absent sends FREE to the target unit, releases the reservation and orphans the headset, with NO_LANDING. That an offer gives the slot
released, also where a lower slot is FREE, is the model's choice (log 14). -/
def Obligations.TransferTimersExpire : Prop :=
  ∀ (s r t : State) (h : Identity) (p : Position) (pr : Profile) (svc : Service) (c : ContextNo) (tr : Track) (x : Context),
    s.resetPin = false → s.waiting = [] → s.ctx c = some x → x.headset = h → s.rec? h = some ⟨p, pr, .transfer svc c tr⟩ →
    x.timer = 0 → r = s.sends [.free x.targetAnt h] → s.roomTo t →
    (∀ place : Place, x.source = some place →
      (x.phase = .prepare → r.Returns pr svc c x tr place .noAnswer t → exec (.tPrepExpiry c) s = .next t) ∧
      (x.phase = .ordered → r.Returns pr svc c x tr place .noLanding t → exec (.tMoveExpiry c) s = .next t)) ∧
    (x.source = none → x.phase = .ordered → r.FailsOrphan pr svc c x .noLanding t → exec (.tMoveExpiry c) s = .next t)

/-- The wait expiry of a WAITING headset removes its entry, sends REFUSE FULL, makes it IDLE and queues DENIED; the hold expiry
of an ORPHAN headset makes it IDLE and queues DROPPED; neither is taken while its timer runs. -/
def Obligations.WaitAndHoldExpire : Prop :=
  (∀ (s : State) (h : Identity) (p : Position) (pr : Profile) (a : AntennaNo), s.resetPin = false → s.waiting = [] →
    s.rec? h = some ⟨p, pr, .waiting a 0⟩ → (s.ven (s.ant a).venue).state ≠ .draining → s.roomFor 1 →
    exec (.waitExpiry h) s = .next (State.notify (State.setAtt (State.sends (State.unclaimed
      (s.setWait a ((s.ant a).wait.eraseP (fun w => w.headset == h))) (s.ant a).venue) [.refuse a h .full]) h .idle)
      (.denied h a .full))) ∧
  (∀ (s : State) (h : Identity) (p : Position) (pr : Profile), s.resetPin = false → s.waiting = [] →
    s.rec? h = some ⟨p, pr, .orphan 0⟩ →
    exec (.holdExpiry h) s = .next ((s.setAtt h .idle).notify (.dropped h))) ∧
  (∀ (s : State) (h : Identity) (p : Position) (pr : Profile) (a : AntennaNo) (n : Nat),
    (s.rec? h = some ⟨p, pr, .waiting a (n + 1)⟩ → exec (.waitExpiry h) s = .next s) ∧
    (s.rec? h = some ⟨p, pr, .orphan (n + 1)⟩ → exec (.holdExpiry h) s = .next s))
end

