-- ==== Sys2Proof/Laws/State.lean ====
section
/-! SUPPORT. What each update of the state leaves and what it writes: one lemma for each field and update, by rfl, and the
lemmas of reading back what was written. -/

namespace Sys2Proof.Machine

variable (s : State)

/-! ### setAnt -/

@[simp] theorem State.resetPin_setAnt (a : AntennaNo) (x : Antenna) : (s.setAnt a x).resetPin = s.resetPin := rfl
@[simp] theorem State.mode_setAnt (a : AntennaNo) (x : Antenna) : (s.setAnt a x).mode = s.mode := rfl
@[simp] theorem State.tuning_setAnt (a : AntennaNo) (x : Antenna) : (s.setAnt a x).tuning = s.tuning := rfl
@[simp] theorem State.registry_setAnt (a : AntennaNo) (x : Antenna) : (s.setAnt a x).registry = s.registry := rfl
@[simp] theorem State.venues_setAnt (a : AntennaNo) (x : Antenna) : (s.setAnt a x).venues = s.venues := rfl
@[simp] theorem State.lines_setAnt (a : AntennaNo) (x : Antenna) : (s.setAnt a x).lines = s.lines := rfl
@[simp] theorem State.contexts_setAnt (a : AntennaNo) (x : Antenna) : (s.setAnt a x).contexts = s.contexts := rfl
@[simp] theorem State.head_setAnt (a : AntennaNo) (x : Antenna) : (s.setAnt a x).head = s.head := rfl
@[simp] theorem State.ctrl_setAnt (a : AntennaNo) (x : Antenna) : (s.setAnt a x).ctrl = s.ctrl := rfl
@[simp] theorem State.taps_setAnt (a : AntennaNo) (x : Antenna) : (s.setAnt a x).taps = s.taps := rfl
@[simp] theorem State.tapTurn_setAnt (a : AntennaNo) (x : Antenna) : (s.setAnt a x).tapTurn = s.tapTurn := rfl
@[simp] theorem State.waiting_setAnt (a : AntennaNo) (x : Antenna) : (s.setAnt a x).waiting = s.waiting := rfl
@[simp] theorem State.freeIndex_setAnt (a : AntennaNo) (x : Antenna) : (s.setAnt a x).freeIndex = s.freeIndex := rfl
@[simp] theorem State.pending_setAnt (a : AntennaNo) (x : Antenna) : (s.setAnt a x).pending = s.pending := rfl
@[simp] theorem State.ven_setAnt (a : AntennaNo) (x : Antenna) (w : VenueNo) : (s.setAnt a x).ven w = s.ven w := rfl
@[simp] theorem State.ctx_setAnt (a : AntennaNo) (x : Antenna) (d : ContextNo) : (s.setAnt a x).ctx d = s.ctx d := rfl
@[simp] theorem State.tap_setAnt (a : AntennaNo) (x : Antenna) (m : TapNo) : (s.setAnt a x).tap m = s.tap m := rfl
@[simp] theorem State.rec_setAnt (a : AntennaNo) (x : Antenna) (g : Identity) : (s.setAnt a x).rec? g = s.rec? g := rfl
@[simp] theorem State.lineKind_setAnt (a : AntennaNo) (x : Antenna) (l : LineNo) : (s.setAnt a x).lineKind l = s.lineKind l := rfl

/-! ### setVen -/

@[simp] theorem State.resetPin_setVen (v : VenueNo) (x : Venue) : (s.setVen v x).resetPin = s.resetPin := rfl
@[simp] theorem State.mode_setVen (v : VenueNo) (x : Venue) : (s.setVen v x).mode = s.mode := rfl
@[simp] theorem State.tuning_setVen (v : VenueNo) (x : Venue) : (s.setVen v x).tuning = s.tuning := rfl
@[simp] theorem State.registry_setVen (v : VenueNo) (x : Venue) : (s.setVen v x).registry = s.registry := rfl
@[simp] theorem State.antennas_setVen (v : VenueNo) (x : Venue) : (s.setVen v x).antennas = s.antennas := rfl
@[simp] theorem State.lines_setVen (v : VenueNo) (x : Venue) : (s.setVen v x).lines = s.lines := rfl
@[simp] theorem State.contexts_setVen (v : VenueNo) (x : Venue) : (s.setVen v x).contexts = s.contexts := rfl
@[simp] theorem State.head_setVen (v : VenueNo) (x : Venue) : (s.setVen v x).head = s.head := rfl
@[simp] theorem State.ctrl_setVen (v : VenueNo) (x : Venue) : (s.setVen v x).ctrl = s.ctrl := rfl
@[simp] theorem State.taps_setVen (v : VenueNo) (x : Venue) : (s.setVen v x).taps = s.taps := rfl
@[simp] theorem State.tapTurn_setVen (v : VenueNo) (x : Venue) : (s.setVen v x).tapTurn = s.tapTurn := rfl
@[simp] theorem State.waiting_setVen (v : VenueNo) (x : Venue) : (s.setVen v x).waiting = s.waiting := rfl
@[simp] theorem State.freeIndex_setVen (v : VenueNo) (x : Venue) : (s.setVen v x).freeIndex = s.freeIndex := rfl
@[simp] theorem State.pending_setVen (v : VenueNo) (x : Venue) : (s.setVen v x).pending = s.pending := rfl
@[simp] theorem State.ant_setVen (v : VenueNo) (x : Venue) (b : AntennaNo) : (s.setVen v x).ant b = s.ant b := rfl
@[simp] theorem State.ctx_setVen (v : VenueNo) (x : Venue) (d : ContextNo) : (s.setVen v x).ctx d = s.ctx d := rfl
@[simp] theorem State.tap_setVen (v : VenueNo) (x : Venue) (m : TapNo) : (s.setVen v x).tap m = s.tap m := rfl
@[simp] theorem State.rec_setVen (v : VenueNo) (x : Venue) (g : Identity) : (s.setVen v x).rec? g = s.rec? g := rfl
@[simp] theorem State.lineKind_setVen (v : VenueNo) (x : Venue) (l : LineNo) : (s.setVen v x).lineKind l = s.lineKind l := rfl
@[simp] theorem State.slot_setVen (v : VenueNo) (x : Venue) (b : AntennaNo) (j : SlotNo) : (s.setVen v x).slot b j = s.slot b j := rfl
@[simp] theorem State.carrier_setVen (v : VenueNo) (x : Venue) (b : AntennaNo) (j : CarrierNo) : (s.setVen v x).carrier b j = s.carrier b j := rfl

/-! ### setCtx -/

@[simp] theorem State.resetPin_setCtx (c : ContextNo) (x : Option Context) : (s.setCtx c x).resetPin = s.resetPin := rfl
@[simp] theorem State.mode_setCtx (c : ContextNo) (x : Option Context) : (s.setCtx c x).mode = s.mode := rfl
@[simp] theorem State.tuning_setCtx (c : ContextNo) (x : Option Context) : (s.setCtx c x).tuning = s.tuning := rfl
@[simp] theorem State.registry_setCtx (c : ContextNo) (x : Option Context) : (s.setCtx c x).registry = s.registry := rfl
@[simp] theorem State.antennas_setCtx (c : ContextNo) (x : Option Context) : (s.setCtx c x).antennas = s.antennas := rfl
@[simp] theorem State.venues_setCtx (c : ContextNo) (x : Option Context) : (s.setCtx c x).venues = s.venues := rfl
@[simp] theorem State.lines_setCtx (c : ContextNo) (x : Option Context) : (s.setCtx c x).lines = s.lines := rfl
@[simp] theorem State.head_setCtx (c : ContextNo) (x : Option Context) : (s.setCtx c x).head = s.head := rfl
@[simp] theorem State.ctrl_setCtx (c : ContextNo) (x : Option Context) : (s.setCtx c x).ctrl = s.ctrl := rfl
@[simp] theorem State.taps_setCtx (c : ContextNo) (x : Option Context) : (s.setCtx c x).taps = s.taps := rfl
@[simp] theorem State.tapTurn_setCtx (c : ContextNo) (x : Option Context) : (s.setCtx c x).tapTurn = s.tapTurn := rfl
@[simp] theorem State.waiting_setCtx (c : ContextNo) (x : Option Context) : (s.setCtx c x).waiting = s.waiting := rfl
@[simp] theorem State.freeIndex_setCtx (c : ContextNo) (x : Option Context) : (s.setCtx c x).freeIndex = s.freeIndex := rfl
@[simp] theorem State.pending_setCtx (c : ContextNo) (x : Option Context) : (s.setCtx c x).pending = s.pending := rfl
@[simp] theorem State.ant_setCtx (c : ContextNo) (x : Option Context) (b : AntennaNo) : (s.setCtx c x).ant b = s.ant b := rfl
@[simp] theorem State.ven_setCtx (c : ContextNo) (x : Option Context) (w : VenueNo) : (s.setCtx c x).ven w = s.ven w := rfl
@[simp] theorem State.tap_setCtx (c : ContextNo) (x : Option Context) (m : TapNo) : (s.setCtx c x).tap m = s.tap m := rfl
@[simp] theorem State.rec_setCtx (c : ContextNo) (x : Option Context) (g : Identity) : (s.setCtx c x).rec? g = s.rec? g := rfl
@[simp] theorem State.lineKind_setCtx (c : ContextNo) (x : Option Context) (l : LineNo) : (s.setCtx c x).lineKind l = s.lineKind l := rfl
@[simp] theorem State.slot_setCtx (c : ContextNo) (x : Option Context) (b : AntennaNo) (j : SlotNo) : (s.setCtx c x).slot b j = s.slot b j := rfl
@[simp] theorem State.carrier_setCtx (c : ContextNo) (x : Option Context) (b : AntennaNo) (j : CarrierNo) : (s.setCtx c x).carrier b j = s.carrier b j := rfl

/-! ### setTap -/

@[simp] theorem State.resetPin_setTap (n : TapNo) (x : Tap) : (s.setTap n x).resetPin = s.resetPin := rfl
@[simp] theorem State.mode_setTap (n : TapNo) (x : Tap) : (s.setTap n x).mode = s.mode := rfl
@[simp] theorem State.tuning_setTap (n : TapNo) (x : Tap) : (s.setTap n x).tuning = s.tuning := rfl
@[simp] theorem State.registry_setTap (n : TapNo) (x : Tap) : (s.setTap n x).registry = s.registry := rfl
@[simp] theorem State.antennas_setTap (n : TapNo) (x : Tap) : (s.setTap n x).antennas = s.antennas := rfl
@[simp] theorem State.venues_setTap (n : TapNo) (x : Tap) : (s.setTap n x).venues = s.venues := rfl
@[simp] theorem State.lines_setTap (n : TapNo) (x : Tap) : (s.setTap n x).lines = s.lines := rfl
@[simp] theorem State.contexts_setTap (n : TapNo) (x : Tap) : (s.setTap n x).contexts = s.contexts := rfl
@[simp] theorem State.head_setTap (n : TapNo) (x : Tap) : (s.setTap n x).head = s.head := rfl
@[simp] theorem State.ctrl_setTap (n : TapNo) (x : Tap) : (s.setTap n x).ctrl = s.ctrl := rfl
@[simp] theorem State.tapTurn_setTap (n : TapNo) (x : Tap) : (s.setTap n x).tapTurn = s.tapTurn := rfl
@[simp] theorem State.waiting_setTap (n : TapNo) (x : Tap) : (s.setTap n x).waiting = s.waiting := rfl
@[simp] theorem State.freeIndex_setTap (n : TapNo) (x : Tap) : (s.setTap n x).freeIndex = s.freeIndex := rfl
@[simp] theorem State.pending_setTap (n : TapNo) (x : Tap) : (s.setTap n x).pending = s.pending := rfl
@[simp] theorem State.ant_setTap (n : TapNo) (x : Tap) (b : AntennaNo) : (s.setTap n x).ant b = s.ant b := rfl
@[simp] theorem State.ven_setTap (n : TapNo) (x : Tap) (w : VenueNo) : (s.setTap n x).ven w = s.ven w := rfl
@[simp] theorem State.ctx_setTap (n : TapNo) (x : Tap) (d : ContextNo) : (s.setTap n x).ctx d = s.ctx d := rfl
@[simp] theorem State.rec_setTap (n : TapNo) (x : Tap) (g : Identity) : (s.setTap n x).rec? g = s.rec? g := rfl
@[simp] theorem State.lineKind_setTap (n : TapNo) (x : Tap) (l : LineNo) : (s.setTap n x).lineKind l = s.lineKind l := rfl
@[simp] theorem State.slot_setTap (n : TapNo) (x : Tap) (b : AntennaNo) (j : SlotNo) : (s.setTap n x).slot b j = s.slot b j := rfl
@[simp] theorem State.carrier_setTap (n : TapNo) (x : Tap) (b : AntennaNo) (j : CarrierNo) : (s.setTap n x).carrier b j = s.carrier b j := rfl

/-! ### setHead -/

@[simp] theorem State.resetPin_setHead (x : HeadPort) : (s.setHead x).resetPin = s.resetPin := rfl
@[simp] theorem State.mode_setHead (x : HeadPort) : (s.setHead x).mode = s.mode := rfl
@[simp] theorem State.tuning_setHead (x : HeadPort) : (s.setHead x).tuning = s.tuning := rfl
@[simp] theorem State.registry_setHead (x : HeadPort) : (s.setHead x).registry = s.registry := rfl
@[simp] theorem State.antennas_setHead (x : HeadPort) : (s.setHead x).antennas = s.antennas := rfl
@[simp] theorem State.venues_setHead (x : HeadPort) : (s.setHead x).venues = s.venues := rfl
@[simp] theorem State.lines_setHead (x : HeadPort) : (s.setHead x).lines = s.lines := rfl
@[simp] theorem State.contexts_setHead (x : HeadPort) : (s.setHead x).contexts = s.contexts := rfl
@[simp] theorem State.ctrl_setHead (x : HeadPort) : (s.setHead x).ctrl = s.ctrl := rfl
@[simp] theorem State.taps_setHead (x : HeadPort) : (s.setHead x).taps = s.taps := rfl
@[simp] theorem State.tapTurn_setHead (x : HeadPort) : (s.setHead x).tapTurn = s.tapTurn := rfl
@[simp] theorem State.waiting_setHead (x : HeadPort) : (s.setHead x).waiting = s.waiting := rfl
@[simp] theorem State.freeIndex_setHead (x : HeadPort) : (s.setHead x).freeIndex = s.freeIndex := rfl
@[simp] theorem State.pending_setHead (x : HeadPort) : (s.setHead x).pending = s.pending := rfl
@[simp] theorem State.ant_setHead (x : HeadPort) (b : AntennaNo) : (s.setHead x).ant b = s.ant b := rfl
@[simp] theorem State.ven_setHead (x : HeadPort) (w : VenueNo) : (s.setHead x).ven w = s.ven w := rfl
@[simp] theorem State.ctx_setHead (x : HeadPort) (d : ContextNo) : (s.setHead x).ctx d = s.ctx d := rfl
@[simp] theorem State.tap_setHead (x : HeadPort) (m : TapNo) : (s.setHead x).tap m = s.tap m := rfl
@[simp] theorem State.rec_setHead (x : HeadPort) (g : Identity) : (s.setHead x).rec? g = s.rec? g := rfl
@[simp] theorem State.lineKind_setHead (x : HeadPort) (l : LineNo) : (s.setHead x).lineKind l = s.lineKind l := rfl
@[simp] theorem State.slot_setHead (x : HeadPort) (b : AntennaNo) (j : SlotNo) : (s.setHead x).slot b j = s.slot b j := rfl
@[simp] theorem State.carrier_setHead (x : HeadPort) (b : AntennaNo) (j : CarrierNo) : (s.setHead x).carrier b j = s.carrier b j := rfl
@[simp] theorem State.head_setHead (x : HeadPort) : (s.setHead x).head = x := rfl

/-! ### setCtrl -/

@[simp] theorem State.resetPin_setCtrl (x : ControlPort) : (s.setCtrl x).resetPin = s.resetPin := rfl
@[simp] theorem State.mode_setCtrl (x : ControlPort) : (s.setCtrl x).mode = s.mode := rfl
@[simp] theorem State.tuning_setCtrl (x : ControlPort) : (s.setCtrl x).tuning = s.tuning := rfl
@[simp] theorem State.registry_setCtrl (x : ControlPort) : (s.setCtrl x).registry = s.registry := rfl
@[simp] theorem State.antennas_setCtrl (x : ControlPort) : (s.setCtrl x).antennas = s.antennas := rfl
@[simp] theorem State.venues_setCtrl (x : ControlPort) : (s.setCtrl x).venues = s.venues := rfl
@[simp] theorem State.lines_setCtrl (x : ControlPort) : (s.setCtrl x).lines = s.lines := rfl
@[simp] theorem State.contexts_setCtrl (x : ControlPort) : (s.setCtrl x).contexts = s.contexts := rfl
@[simp] theorem State.head_setCtrl (x : ControlPort) : (s.setCtrl x).head = s.head := rfl
@[simp] theorem State.taps_setCtrl (x : ControlPort) : (s.setCtrl x).taps = s.taps := rfl
@[simp] theorem State.tapTurn_setCtrl (x : ControlPort) : (s.setCtrl x).tapTurn = s.tapTurn := rfl
@[simp] theorem State.waiting_setCtrl (x : ControlPort) : (s.setCtrl x).waiting = s.waiting := rfl
@[simp] theorem State.freeIndex_setCtrl (x : ControlPort) : (s.setCtrl x).freeIndex = s.freeIndex := rfl
@[simp] theorem State.pending_setCtrl (x : ControlPort) : (s.setCtrl x).pending = s.pending := rfl
@[simp] theorem State.ant_setCtrl (x : ControlPort) (b : AntennaNo) : (s.setCtrl x).ant b = s.ant b := rfl
@[simp] theorem State.ven_setCtrl (x : ControlPort) (w : VenueNo) : (s.setCtrl x).ven w = s.ven w := rfl
@[simp] theorem State.ctx_setCtrl (x : ControlPort) (d : ContextNo) : (s.setCtrl x).ctx d = s.ctx d := rfl
@[simp] theorem State.tap_setCtrl (x : ControlPort) (m : TapNo) : (s.setCtrl x).tap m = s.tap m := rfl
@[simp] theorem State.rec_setCtrl (x : ControlPort) (g : Identity) : (s.setCtrl x).rec? g = s.rec? g := rfl
@[simp] theorem State.lineKind_setCtrl (x : ControlPort) (l : LineNo) : (s.setCtrl x).lineKind l = s.lineKind l := rfl
@[simp] theorem State.slot_setCtrl (x : ControlPort) (b : AntennaNo) (j : SlotNo) : (s.setCtrl x).slot b j = s.slot b j := rfl
@[simp] theorem State.carrier_setCtrl (x : ControlPort) (b : AntennaNo) (j : CarrierNo) : (s.setCtrl x).carrier b j = s.carrier b j := rfl
@[simp] theorem State.ctrl_setCtrl (x : ControlPort) : (s.setCtrl x).ctrl = x := rfl

/-! ### setWaiting -/

@[simp] theorem State.resetPin_setWaiting (x : List WaitingEvent) : (s.setWaiting x).resetPin = s.resetPin := rfl
@[simp] theorem State.mode_setWaiting (x : List WaitingEvent) : (s.setWaiting x).mode = s.mode := rfl
@[simp] theorem State.tuning_setWaiting (x : List WaitingEvent) : (s.setWaiting x).tuning = s.tuning := rfl
@[simp] theorem State.registry_setWaiting (x : List WaitingEvent) : (s.setWaiting x).registry = s.registry := rfl
@[simp] theorem State.antennas_setWaiting (x : List WaitingEvent) : (s.setWaiting x).antennas = s.antennas := rfl
@[simp] theorem State.venues_setWaiting (x : List WaitingEvent) : (s.setWaiting x).venues = s.venues := rfl
@[simp] theorem State.lines_setWaiting (x : List WaitingEvent) : (s.setWaiting x).lines = s.lines := rfl
@[simp] theorem State.contexts_setWaiting (x : List WaitingEvent) : (s.setWaiting x).contexts = s.contexts := rfl
@[simp] theorem State.head_setWaiting (x : List WaitingEvent) : (s.setWaiting x).head = s.head := rfl
@[simp] theorem State.ctrl_setWaiting (x : List WaitingEvent) : (s.setWaiting x).ctrl = s.ctrl := rfl
@[simp] theorem State.taps_setWaiting (x : List WaitingEvent) : (s.setWaiting x).taps = s.taps := rfl
@[simp] theorem State.tapTurn_setWaiting (x : List WaitingEvent) : (s.setWaiting x).tapTurn = s.tapTurn := rfl
@[simp] theorem State.freeIndex_setWaiting (x : List WaitingEvent) : (s.setWaiting x).freeIndex = s.freeIndex := rfl
@[simp] theorem State.pending_setWaiting (x : List WaitingEvent) : (s.setWaiting x).pending = s.pending := rfl
@[simp] theorem State.ant_setWaiting (x : List WaitingEvent) (b : AntennaNo) : (s.setWaiting x).ant b = s.ant b := rfl
@[simp] theorem State.ven_setWaiting (x : List WaitingEvent) (w : VenueNo) : (s.setWaiting x).ven w = s.ven w := rfl
@[simp] theorem State.ctx_setWaiting (x : List WaitingEvent) (d : ContextNo) : (s.setWaiting x).ctx d = s.ctx d := rfl
@[simp] theorem State.tap_setWaiting (x : List WaitingEvent) (m : TapNo) : (s.setWaiting x).tap m = s.tap m := rfl
@[simp] theorem State.rec_setWaiting (x : List WaitingEvent) (g : Identity) : (s.setWaiting x).rec? g = s.rec? g := rfl
@[simp] theorem State.lineKind_setWaiting (x : List WaitingEvent) (l : LineNo) : (s.setWaiting x).lineKind l = s.lineKind l := rfl
@[simp] theorem State.slot_setWaiting (x : List WaitingEvent) (b : AntennaNo) (j : SlotNo) : (s.setWaiting x).slot b j = s.slot b j := rfl
@[simp] theorem State.carrier_setWaiting (x : List WaitingEvent) (b : AntennaNo) (j : CarrierNo) : (s.setWaiting x).carrier b j = s.carrier b j := rfl
@[simp] theorem State.waiting_setWaiting (x : List WaitingEvent) : (s.setWaiting x).waiting = x := rfl

/-! ### setRegistry -/

@[simp] theorem State.resetPin_setRegistry (x : List HeadsetRecord) : (s.setRegistry x).resetPin = s.resetPin := rfl
@[simp] theorem State.mode_setRegistry (x : List HeadsetRecord) : (s.setRegistry x).mode = s.mode := rfl
@[simp] theorem State.tuning_setRegistry (x : List HeadsetRecord) : (s.setRegistry x).tuning = s.tuning := rfl
@[simp] theorem State.antennas_setRegistry (x : List HeadsetRecord) : (s.setRegistry x).antennas = s.antennas := rfl
@[simp] theorem State.venues_setRegistry (x : List HeadsetRecord) : (s.setRegistry x).venues = s.venues := rfl
@[simp] theorem State.lines_setRegistry (x : List HeadsetRecord) : (s.setRegistry x).lines = s.lines := rfl
@[simp] theorem State.contexts_setRegistry (x : List HeadsetRecord) : (s.setRegistry x).contexts = s.contexts := rfl
@[simp] theorem State.head_setRegistry (x : List HeadsetRecord) : (s.setRegistry x).head = s.head := rfl
@[simp] theorem State.ctrl_setRegistry (x : List HeadsetRecord) : (s.setRegistry x).ctrl = s.ctrl := rfl
@[simp] theorem State.taps_setRegistry (x : List HeadsetRecord) : (s.setRegistry x).taps = s.taps := rfl
@[simp] theorem State.tapTurn_setRegistry (x : List HeadsetRecord) : (s.setRegistry x).tapTurn = s.tapTurn := rfl
@[simp] theorem State.waiting_setRegistry (x : List HeadsetRecord) : (s.setRegistry x).waiting = s.waiting := rfl
@[simp] theorem State.freeIndex_setRegistry (x : List HeadsetRecord) : (s.setRegistry x).freeIndex = s.freeIndex := rfl
@[simp] theorem State.pending_setRegistry (x : List HeadsetRecord) : (s.setRegistry x).pending = s.pending := rfl
@[simp] theorem State.ant_setRegistry (x : List HeadsetRecord) (b : AntennaNo) : (s.setRegistry x).ant b = s.ant b := rfl
@[simp] theorem State.ven_setRegistry (x : List HeadsetRecord) (w : VenueNo) : (s.setRegistry x).ven w = s.ven w := rfl
@[simp] theorem State.ctx_setRegistry (x : List HeadsetRecord) (d : ContextNo) : (s.setRegistry x).ctx d = s.ctx d := rfl
@[simp] theorem State.tap_setRegistry (x : List HeadsetRecord) (m : TapNo) : (s.setRegistry x).tap m = s.tap m := rfl
@[simp] theorem State.lineKind_setRegistry (x : List HeadsetRecord) (l : LineNo) : (s.setRegistry x).lineKind l = s.lineKind l := rfl
@[simp] theorem State.slot_setRegistry (x : List HeadsetRecord) (b : AntennaNo) (j : SlotNo) : (s.setRegistry x).slot b j = s.slot b j := rfl
@[simp] theorem State.carrier_setRegistry (x : List HeadsetRecord) (b : AntennaNo) (j : CarrierNo) : (s.setRegistry x).carrier b j = s.carrier b j := rfl
@[simp] theorem State.registry_setRegistry (x : List HeadsetRecord) : (s.setRegistry x).registry = x := rfl

/-! ### setPending -/

@[simp] theorem State.resetPin_setPending (x : List Instr) : (s.setPending x).resetPin = s.resetPin := rfl
@[simp] theorem State.mode_setPending (x : List Instr) : (s.setPending x).mode = s.mode := rfl
@[simp] theorem State.tuning_setPending (x : List Instr) : (s.setPending x).tuning = s.tuning := rfl
@[simp] theorem State.registry_setPending (x : List Instr) : (s.setPending x).registry = s.registry := rfl
@[simp] theorem State.antennas_setPending (x : List Instr) : (s.setPending x).antennas = s.antennas := rfl
@[simp] theorem State.venues_setPending (x : List Instr) : (s.setPending x).venues = s.venues := rfl
@[simp] theorem State.lines_setPending (x : List Instr) : (s.setPending x).lines = s.lines := rfl
@[simp] theorem State.contexts_setPending (x : List Instr) : (s.setPending x).contexts = s.contexts := rfl
@[simp] theorem State.head_setPending (x : List Instr) : (s.setPending x).head = s.head := rfl
@[simp] theorem State.ctrl_setPending (x : List Instr) : (s.setPending x).ctrl = s.ctrl := rfl
@[simp] theorem State.taps_setPending (x : List Instr) : (s.setPending x).taps = s.taps := rfl
@[simp] theorem State.tapTurn_setPending (x : List Instr) : (s.setPending x).tapTurn = s.tapTurn := rfl
@[simp] theorem State.waiting_setPending (x : List Instr) : (s.setPending x).waiting = s.waiting := rfl
@[simp] theorem State.freeIndex_setPending (x : List Instr) : (s.setPending x).freeIndex = s.freeIndex := rfl
@[simp] theorem State.ant_setPending (x : List Instr) (b : AntennaNo) : (s.setPending x).ant b = s.ant b := rfl
@[simp] theorem State.ven_setPending (x : List Instr) (w : VenueNo) : (s.setPending x).ven w = s.ven w := rfl
@[simp] theorem State.ctx_setPending (x : List Instr) (d : ContextNo) : (s.setPending x).ctx d = s.ctx d := rfl
@[simp] theorem State.tap_setPending (x : List Instr) (m : TapNo) : (s.setPending x).tap m = s.tap m := rfl
@[simp] theorem State.rec_setPending (x : List Instr) (g : Identity) : (s.setPending x).rec? g = s.rec? g := rfl
@[simp] theorem State.lineKind_setPending (x : List Instr) (l : LineNo) : (s.setPending x).lineKind l = s.lineKind l := rfl
@[simp] theorem State.slot_setPending (x : List Instr) (b : AntennaNo) (j : SlotNo) : (s.setPending x).slot b j = s.slot b j := rfl
@[simp] theorem State.carrier_setPending (x : List Instr) (b : AntennaNo) (j : CarrierNo) : (s.setPending x).carrier b j = s.carrier b j := rfl
@[simp] theorem State.pending_setPending (x : List Instr) : (s.setPending x).pending = x := rfl

/-! ### setSlot -/

@[simp] theorem State.resetPin_setSlot (a : AntennaNo) (i : SlotNo) (x : SlotState) : (s.setSlot a i x).resetPin = s.resetPin := rfl
@[simp] theorem State.mode_setSlot (a : AntennaNo) (i : SlotNo) (x : SlotState) : (s.setSlot a i x).mode = s.mode := rfl
@[simp] theorem State.tuning_setSlot (a : AntennaNo) (i : SlotNo) (x : SlotState) : (s.setSlot a i x).tuning = s.tuning := rfl
@[simp] theorem State.registry_setSlot (a : AntennaNo) (i : SlotNo) (x : SlotState) : (s.setSlot a i x).registry = s.registry := rfl
@[simp] theorem State.venues_setSlot (a : AntennaNo) (i : SlotNo) (x : SlotState) : (s.setSlot a i x).venues = s.venues := rfl
@[simp] theorem State.lines_setSlot (a : AntennaNo) (i : SlotNo) (x : SlotState) : (s.setSlot a i x).lines = s.lines := rfl
@[simp] theorem State.contexts_setSlot (a : AntennaNo) (i : SlotNo) (x : SlotState) : (s.setSlot a i x).contexts = s.contexts := rfl
@[simp] theorem State.head_setSlot (a : AntennaNo) (i : SlotNo) (x : SlotState) : (s.setSlot a i x).head = s.head := rfl
@[simp] theorem State.ctrl_setSlot (a : AntennaNo) (i : SlotNo) (x : SlotState) : (s.setSlot a i x).ctrl = s.ctrl := rfl
@[simp] theorem State.taps_setSlot (a : AntennaNo) (i : SlotNo) (x : SlotState) : (s.setSlot a i x).taps = s.taps := rfl
@[simp] theorem State.tapTurn_setSlot (a : AntennaNo) (i : SlotNo) (x : SlotState) : (s.setSlot a i x).tapTurn = s.tapTurn := rfl
@[simp] theorem State.waiting_setSlot (a : AntennaNo) (i : SlotNo) (x : SlotState) : (s.setSlot a i x).waiting = s.waiting := rfl
@[simp] theorem State.freeIndex_setSlot (a : AntennaNo) (i : SlotNo) (x : SlotState) : (s.setSlot a i x).freeIndex = s.freeIndex := rfl
@[simp] theorem State.pending_setSlot (a : AntennaNo) (i : SlotNo) (x : SlotState) : (s.setSlot a i x).pending = s.pending := rfl
@[simp] theorem State.ven_setSlot (a : AntennaNo) (i : SlotNo) (x : SlotState) (w : VenueNo) : (s.setSlot a i x).ven w = s.ven w := rfl
@[simp] theorem State.ctx_setSlot (a : AntennaNo) (i : SlotNo) (x : SlotState) (d : ContextNo) : (s.setSlot a i x).ctx d = s.ctx d := rfl
@[simp] theorem State.tap_setSlot (a : AntennaNo) (i : SlotNo) (x : SlotState) (m : TapNo) : (s.setSlot a i x).tap m = s.tap m := rfl
@[simp] theorem State.rec_setSlot (a : AntennaNo) (i : SlotNo) (x : SlotState) (g : Identity) : (s.setSlot a i x).rec? g = s.rec? g := rfl
@[simp] theorem State.lineKind_setSlot (a : AntennaNo) (i : SlotNo) (x : SlotState) (l : LineNo) : (s.setSlot a i x).lineKind l = s.lineKind l := rfl

/-! ### setCarrier -/

@[simp] theorem State.resetPin_setCarrier (a : AntennaNo) (k : CarrierNo) (x : Carrier) : (s.setCarrier a k x).resetPin = s.resetPin := rfl
@[simp] theorem State.mode_setCarrier (a : AntennaNo) (k : CarrierNo) (x : Carrier) : (s.setCarrier a k x).mode = s.mode := rfl
@[simp] theorem State.tuning_setCarrier (a : AntennaNo) (k : CarrierNo) (x : Carrier) : (s.setCarrier a k x).tuning = s.tuning := rfl
@[simp] theorem State.registry_setCarrier (a : AntennaNo) (k : CarrierNo) (x : Carrier) : (s.setCarrier a k x).registry = s.registry := rfl
@[simp] theorem State.venues_setCarrier (a : AntennaNo) (k : CarrierNo) (x : Carrier) : (s.setCarrier a k x).venues = s.venues := rfl
@[simp] theorem State.lines_setCarrier (a : AntennaNo) (k : CarrierNo) (x : Carrier) : (s.setCarrier a k x).lines = s.lines := rfl
@[simp] theorem State.contexts_setCarrier (a : AntennaNo) (k : CarrierNo) (x : Carrier) : (s.setCarrier a k x).contexts = s.contexts := rfl
@[simp] theorem State.head_setCarrier (a : AntennaNo) (k : CarrierNo) (x : Carrier) : (s.setCarrier a k x).head = s.head := rfl
@[simp] theorem State.ctrl_setCarrier (a : AntennaNo) (k : CarrierNo) (x : Carrier) : (s.setCarrier a k x).ctrl = s.ctrl := rfl
@[simp] theorem State.taps_setCarrier (a : AntennaNo) (k : CarrierNo) (x : Carrier) : (s.setCarrier a k x).taps = s.taps := rfl
@[simp] theorem State.tapTurn_setCarrier (a : AntennaNo) (k : CarrierNo) (x : Carrier) : (s.setCarrier a k x).tapTurn = s.tapTurn := rfl
@[simp] theorem State.waiting_setCarrier (a : AntennaNo) (k : CarrierNo) (x : Carrier) : (s.setCarrier a k x).waiting = s.waiting := rfl
@[simp] theorem State.freeIndex_setCarrier (a : AntennaNo) (k : CarrierNo) (x : Carrier) : (s.setCarrier a k x).freeIndex = s.freeIndex := rfl
@[simp] theorem State.pending_setCarrier (a : AntennaNo) (k : CarrierNo) (x : Carrier) : (s.setCarrier a k x).pending = s.pending := rfl
@[simp] theorem State.ven_setCarrier (a : AntennaNo) (k : CarrierNo) (x : Carrier) (w : VenueNo) : (s.setCarrier a k x).ven w = s.ven w := rfl
@[simp] theorem State.ctx_setCarrier (a : AntennaNo) (k : CarrierNo) (x : Carrier) (d : ContextNo) : (s.setCarrier a k x).ctx d = s.ctx d := rfl
@[simp] theorem State.tap_setCarrier (a : AntennaNo) (k : CarrierNo) (x : Carrier) (m : TapNo) : (s.setCarrier a k x).tap m = s.tap m := rfl
@[simp] theorem State.rec_setCarrier (a : AntennaNo) (k : CarrierNo) (x : Carrier) (g : Identity) : (s.setCarrier a k x).rec? g = s.rec? g := rfl
@[simp] theorem State.lineKind_setCarrier (a : AntennaNo) (k : CarrierNo) (x : Carrier) (l : LineNo) : (s.setCarrier a k x).lineKind l = s.lineKind l := rfl

/-! ### setWait -/

@[simp] theorem State.resetPin_setWait (a : AntennaNo) (x : List WaitEntry) : (s.setWait a x).resetPin = s.resetPin := rfl
@[simp] theorem State.mode_setWait (a : AntennaNo) (x : List WaitEntry) : (s.setWait a x).mode = s.mode := rfl
@[simp] theorem State.tuning_setWait (a : AntennaNo) (x : List WaitEntry) : (s.setWait a x).tuning = s.tuning := rfl
@[simp] theorem State.registry_setWait (a : AntennaNo) (x : List WaitEntry) : (s.setWait a x).registry = s.registry := rfl
@[simp] theorem State.venues_setWait (a : AntennaNo) (x : List WaitEntry) : (s.setWait a x).venues = s.venues := rfl
@[simp] theorem State.lines_setWait (a : AntennaNo) (x : List WaitEntry) : (s.setWait a x).lines = s.lines := rfl
@[simp] theorem State.contexts_setWait (a : AntennaNo) (x : List WaitEntry) : (s.setWait a x).contexts = s.contexts := rfl
@[simp] theorem State.head_setWait (a : AntennaNo) (x : List WaitEntry) : (s.setWait a x).head = s.head := rfl
@[simp] theorem State.ctrl_setWait (a : AntennaNo) (x : List WaitEntry) : (s.setWait a x).ctrl = s.ctrl := rfl
@[simp] theorem State.taps_setWait (a : AntennaNo) (x : List WaitEntry) : (s.setWait a x).taps = s.taps := rfl
@[simp] theorem State.tapTurn_setWait (a : AntennaNo) (x : List WaitEntry) : (s.setWait a x).tapTurn = s.tapTurn := rfl
@[simp] theorem State.waiting_setWait (a : AntennaNo) (x : List WaitEntry) : (s.setWait a x).waiting = s.waiting := rfl
@[simp] theorem State.freeIndex_setWait (a : AntennaNo) (x : List WaitEntry) : (s.setWait a x).freeIndex = s.freeIndex := rfl
@[simp] theorem State.pending_setWait (a : AntennaNo) (x : List WaitEntry) : (s.setWait a x).pending = s.pending := rfl
@[simp] theorem State.ven_setWait (a : AntennaNo) (x : List WaitEntry) (w : VenueNo) : (s.setWait a x).ven w = s.ven w := rfl
@[simp] theorem State.ctx_setWait (a : AntennaNo) (x : List WaitEntry) (d : ContextNo) : (s.setWait a x).ctx d = s.ctx d := rfl
@[simp] theorem State.tap_setWait (a : AntennaNo) (x : List WaitEntry) (m : TapNo) : (s.setWait a x).tap m = s.tap m := rfl
@[simp] theorem State.rec_setWait (a : AntennaNo) (x : List WaitEntry) (g : Identity) : (s.setWait a x).rec? g = s.rec? g := rfl
@[simp] theorem State.lineKind_setWait (a : AntennaNo) (x : List WaitEntry) (l : LineNo) : (s.setWait a x).lineKind l = s.lineKind l := rfl

/-! ### setOnline -/

@[simp] theorem State.resetPin_setOnline (a : AntennaNo) (x : Bool) : (s.setOnline a x).resetPin = s.resetPin := rfl
@[simp] theorem State.mode_setOnline (a : AntennaNo) (x : Bool) : (s.setOnline a x).mode = s.mode := rfl
@[simp] theorem State.tuning_setOnline (a : AntennaNo) (x : Bool) : (s.setOnline a x).tuning = s.tuning := rfl
@[simp] theorem State.registry_setOnline (a : AntennaNo) (x : Bool) : (s.setOnline a x).registry = s.registry := rfl
@[simp] theorem State.venues_setOnline (a : AntennaNo) (x : Bool) : (s.setOnline a x).venues = s.venues := rfl
@[simp] theorem State.lines_setOnline (a : AntennaNo) (x : Bool) : (s.setOnline a x).lines = s.lines := rfl
@[simp] theorem State.contexts_setOnline (a : AntennaNo) (x : Bool) : (s.setOnline a x).contexts = s.contexts := rfl
@[simp] theorem State.head_setOnline (a : AntennaNo) (x : Bool) : (s.setOnline a x).head = s.head := rfl
@[simp] theorem State.ctrl_setOnline (a : AntennaNo) (x : Bool) : (s.setOnline a x).ctrl = s.ctrl := rfl
@[simp] theorem State.taps_setOnline (a : AntennaNo) (x : Bool) : (s.setOnline a x).taps = s.taps := rfl
@[simp] theorem State.tapTurn_setOnline (a : AntennaNo) (x : Bool) : (s.setOnline a x).tapTurn = s.tapTurn := rfl
@[simp] theorem State.waiting_setOnline (a : AntennaNo) (x : Bool) : (s.setOnline a x).waiting = s.waiting := rfl
@[simp] theorem State.freeIndex_setOnline (a : AntennaNo) (x : Bool) : (s.setOnline a x).freeIndex = s.freeIndex := rfl
@[simp] theorem State.pending_setOnline (a : AntennaNo) (x : Bool) : (s.setOnline a x).pending = s.pending := rfl
@[simp] theorem State.ven_setOnline (a : AntennaNo) (x : Bool) (w : VenueNo) : (s.setOnline a x).ven w = s.ven w := rfl
@[simp] theorem State.ctx_setOnline (a : AntennaNo) (x : Bool) (d : ContextNo) : (s.setOnline a x).ctx d = s.ctx d := rfl
@[simp] theorem State.tap_setOnline (a : AntennaNo) (x : Bool) (m : TapNo) : (s.setOnline a x).tap m = s.tap m := rfl
@[simp] theorem State.rec_setOnline (a : AntennaNo) (x : Bool) (g : Identity) : (s.setOnline a x).rec? g = s.rec? g := rfl
@[simp] theorem State.lineKind_setOnline (a : AntennaNo) (x : Bool) (l : LineNo) : (s.setOnline a x).lineKind l = s.lineKind l := rfl

/-! ### setBarred -/

@[simp] theorem State.resetPin_setBarred (a : AntennaNo) (x : Bool) : (s.setBarred a x).resetPin = s.resetPin := rfl
@[simp] theorem State.mode_setBarred (a : AntennaNo) (x : Bool) : (s.setBarred a x).mode = s.mode := rfl
@[simp] theorem State.tuning_setBarred (a : AntennaNo) (x : Bool) : (s.setBarred a x).tuning = s.tuning := rfl
@[simp] theorem State.registry_setBarred (a : AntennaNo) (x : Bool) : (s.setBarred a x).registry = s.registry := rfl
@[simp] theorem State.venues_setBarred (a : AntennaNo) (x : Bool) : (s.setBarred a x).venues = s.venues := rfl
@[simp] theorem State.lines_setBarred (a : AntennaNo) (x : Bool) : (s.setBarred a x).lines = s.lines := rfl
@[simp] theorem State.contexts_setBarred (a : AntennaNo) (x : Bool) : (s.setBarred a x).contexts = s.contexts := rfl
@[simp] theorem State.head_setBarred (a : AntennaNo) (x : Bool) : (s.setBarred a x).head = s.head := rfl
@[simp] theorem State.ctrl_setBarred (a : AntennaNo) (x : Bool) : (s.setBarred a x).ctrl = s.ctrl := rfl
@[simp] theorem State.taps_setBarred (a : AntennaNo) (x : Bool) : (s.setBarred a x).taps = s.taps := rfl
@[simp] theorem State.tapTurn_setBarred (a : AntennaNo) (x : Bool) : (s.setBarred a x).tapTurn = s.tapTurn := rfl
@[simp] theorem State.waiting_setBarred (a : AntennaNo) (x : Bool) : (s.setBarred a x).waiting = s.waiting := rfl
@[simp] theorem State.freeIndex_setBarred (a : AntennaNo) (x : Bool) : (s.setBarred a x).freeIndex = s.freeIndex := rfl
@[simp] theorem State.pending_setBarred (a : AntennaNo) (x : Bool) : (s.setBarred a x).pending = s.pending := rfl
@[simp] theorem State.ven_setBarred (a : AntennaNo) (x : Bool) (w : VenueNo) : (s.setBarred a x).ven w = s.ven w := rfl
@[simp] theorem State.ctx_setBarred (a : AntennaNo) (x : Bool) (d : ContextNo) : (s.setBarred a x).ctx d = s.ctx d := rfl
@[simp] theorem State.tap_setBarred (a : AntennaNo) (x : Bool) (m : TapNo) : (s.setBarred a x).tap m = s.tap m := rfl
@[simp] theorem State.rec_setBarred (a : AntennaNo) (x : Bool) (g : Identity) : (s.setBarred a x).rec? g = s.rec? g := rfl
@[simp] theorem State.lineKind_setBarred (a : AntennaNo) (x : Bool) (l : LineNo) : (s.setBarred a x).lineKind l = s.lineKind l := rfl

/-! ### setVenueState -/

@[simp] theorem State.resetPin_setVenueState (v : VenueNo) (x : VenueState) : (s.setVenueState v x).resetPin = s.resetPin := rfl
@[simp] theorem State.mode_setVenueState (v : VenueNo) (x : VenueState) : (s.setVenueState v x).mode = s.mode := rfl
@[simp] theorem State.tuning_setVenueState (v : VenueNo) (x : VenueState) : (s.setVenueState v x).tuning = s.tuning := rfl
@[simp] theorem State.registry_setVenueState (v : VenueNo) (x : VenueState) : (s.setVenueState v x).registry = s.registry := rfl
@[simp] theorem State.antennas_setVenueState (v : VenueNo) (x : VenueState) : (s.setVenueState v x).antennas = s.antennas := rfl
@[simp] theorem State.lines_setVenueState (v : VenueNo) (x : VenueState) : (s.setVenueState v x).lines = s.lines := rfl
@[simp] theorem State.contexts_setVenueState (v : VenueNo) (x : VenueState) : (s.setVenueState v x).contexts = s.contexts := rfl
@[simp] theorem State.head_setVenueState (v : VenueNo) (x : VenueState) : (s.setVenueState v x).head = s.head := rfl
@[simp] theorem State.ctrl_setVenueState (v : VenueNo) (x : VenueState) : (s.setVenueState v x).ctrl = s.ctrl := rfl
@[simp] theorem State.taps_setVenueState (v : VenueNo) (x : VenueState) : (s.setVenueState v x).taps = s.taps := rfl
@[simp] theorem State.tapTurn_setVenueState (v : VenueNo) (x : VenueState) : (s.setVenueState v x).tapTurn = s.tapTurn := rfl
@[simp] theorem State.waiting_setVenueState (v : VenueNo) (x : VenueState) : (s.setVenueState v x).waiting = s.waiting := rfl
@[simp] theorem State.freeIndex_setVenueState (v : VenueNo) (x : VenueState) : (s.setVenueState v x).freeIndex = s.freeIndex := rfl
@[simp] theorem State.pending_setVenueState (v : VenueNo) (x : VenueState) : (s.setVenueState v x).pending = s.pending := rfl
@[simp] theorem State.ant_setVenueState (v : VenueNo) (x : VenueState) (b : AntennaNo) : (s.setVenueState v x).ant b = s.ant b := rfl
@[simp] theorem State.ctx_setVenueState (v : VenueNo) (x : VenueState) (d : ContextNo) : (s.setVenueState v x).ctx d = s.ctx d := rfl
@[simp] theorem State.tap_setVenueState (v : VenueNo) (x : VenueState) (m : TapNo) : (s.setVenueState v x).tap m = s.tap m := rfl
@[simp] theorem State.rec_setVenueState (v : VenueNo) (x : VenueState) (g : Identity) : (s.setVenueState v x).rec? g = s.rec? g := rfl
@[simp] theorem State.lineKind_setVenueState (v : VenueNo) (x : VenueState) (l : LineNo) : (s.setVenueState v x).lineKind l = s.lineKind l := rfl
@[simp] theorem State.slot_setVenueState (v : VenueNo) (x : VenueState) (b : AntennaNo) (j : SlotNo) : (s.setVenueState v x).slot b j = s.slot b j := rfl
@[simp] theorem State.carrier_setVenueState (v : VenueNo) (x : VenueState) (b : AntennaNo) (j : CarrierNo) : (s.setVenueState v x).carrier b j = s.carrier b j := rfl

/-! ### updRec -/

@[simp] theorem State.resetPin_updRec (h : Identity) (f : HeadsetRecord → HeadsetRecord) : (s.updRec h f).resetPin = s.resetPin := rfl
@[simp] theorem State.mode_updRec (h : Identity) (f : HeadsetRecord → HeadsetRecord) : (s.updRec h f).mode = s.mode := rfl
@[simp] theorem State.tuning_updRec (h : Identity) (f : HeadsetRecord → HeadsetRecord) : (s.updRec h f).tuning = s.tuning := rfl
@[simp] theorem State.antennas_updRec (h : Identity) (f : HeadsetRecord → HeadsetRecord) : (s.updRec h f).antennas = s.antennas := rfl
@[simp] theorem State.venues_updRec (h : Identity) (f : HeadsetRecord → HeadsetRecord) : (s.updRec h f).venues = s.venues := rfl
@[simp] theorem State.lines_updRec (h : Identity) (f : HeadsetRecord → HeadsetRecord) : (s.updRec h f).lines = s.lines := rfl
@[simp] theorem State.contexts_updRec (h : Identity) (f : HeadsetRecord → HeadsetRecord) : (s.updRec h f).contexts = s.contexts := rfl
@[simp] theorem State.head_updRec (h : Identity) (f : HeadsetRecord → HeadsetRecord) : (s.updRec h f).head = s.head := rfl
@[simp] theorem State.ctrl_updRec (h : Identity) (f : HeadsetRecord → HeadsetRecord) : (s.updRec h f).ctrl = s.ctrl := rfl
@[simp] theorem State.taps_updRec (h : Identity) (f : HeadsetRecord → HeadsetRecord) : (s.updRec h f).taps = s.taps := rfl
@[simp] theorem State.tapTurn_updRec (h : Identity) (f : HeadsetRecord → HeadsetRecord) : (s.updRec h f).tapTurn = s.tapTurn := rfl
@[simp] theorem State.waiting_updRec (h : Identity) (f : HeadsetRecord → HeadsetRecord) : (s.updRec h f).waiting = s.waiting := rfl
@[simp] theorem State.freeIndex_updRec (h : Identity) (f : HeadsetRecord → HeadsetRecord) : (s.updRec h f).freeIndex = s.freeIndex := rfl
@[simp] theorem State.pending_updRec (h : Identity) (f : HeadsetRecord → HeadsetRecord) : (s.updRec h f).pending = s.pending := rfl
@[simp] theorem State.ant_updRec (h : Identity) (f : HeadsetRecord → HeadsetRecord) (b : AntennaNo) : (s.updRec h f).ant b = s.ant b := rfl
@[simp] theorem State.ven_updRec (h : Identity) (f : HeadsetRecord → HeadsetRecord) (w : VenueNo) : (s.updRec h f).ven w = s.ven w := rfl
@[simp] theorem State.ctx_updRec (h : Identity) (f : HeadsetRecord → HeadsetRecord) (d : ContextNo) : (s.updRec h f).ctx d = s.ctx d := rfl
@[simp] theorem State.tap_updRec (h : Identity) (f : HeadsetRecord → HeadsetRecord) (m : TapNo) : (s.updRec h f).tap m = s.tap m := rfl
@[simp] theorem State.lineKind_updRec (h : Identity) (f : HeadsetRecord → HeadsetRecord) (l : LineNo) : (s.updRec h f).lineKind l = s.lineKind l := rfl
@[simp] theorem State.slot_updRec (h : Identity) (f : HeadsetRecord → HeadsetRecord) (b : AntennaNo) (j : SlotNo) : (s.updRec h f).slot b j = s.slot b j := rfl
@[simp] theorem State.carrier_updRec (h : Identity) (f : HeadsetRecord → HeadsetRecord) (b : AntennaNo) (j : CarrierNo) : (s.updRec h f).carrier b j = s.carrier b j := rfl

/-! ### setAtt -/

@[simp] theorem State.resetPin_setAtt (h : Identity) (x : Attachment) : (s.setAtt h x).resetPin = s.resetPin := rfl
@[simp] theorem State.mode_setAtt (h : Identity) (x : Attachment) : (s.setAtt h x).mode = s.mode := rfl
@[simp] theorem State.tuning_setAtt (h : Identity) (x : Attachment) : (s.setAtt h x).tuning = s.tuning := rfl
@[simp] theorem State.antennas_setAtt (h : Identity) (x : Attachment) : (s.setAtt h x).antennas = s.antennas := rfl
@[simp] theorem State.venues_setAtt (h : Identity) (x : Attachment) : (s.setAtt h x).venues = s.venues := rfl
@[simp] theorem State.lines_setAtt (h : Identity) (x : Attachment) : (s.setAtt h x).lines = s.lines := rfl
@[simp] theorem State.contexts_setAtt (h : Identity) (x : Attachment) : (s.setAtt h x).contexts = s.contexts := rfl
@[simp] theorem State.head_setAtt (h : Identity) (x : Attachment) : (s.setAtt h x).head = s.head := rfl
@[simp] theorem State.ctrl_setAtt (h : Identity) (x : Attachment) : (s.setAtt h x).ctrl = s.ctrl := rfl
@[simp] theorem State.taps_setAtt (h : Identity) (x : Attachment) : (s.setAtt h x).taps = s.taps := rfl
@[simp] theorem State.tapTurn_setAtt (h : Identity) (x : Attachment) : (s.setAtt h x).tapTurn = s.tapTurn := rfl
@[simp] theorem State.waiting_setAtt (h : Identity) (x : Attachment) : (s.setAtt h x).waiting = s.waiting := rfl
@[simp] theorem State.freeIndex_setAtt (h : Identity) (x : Attachment) : (s.setAtt h x).freeIndex = s.freeIndex := rfl
@[simp] theorem State.pending_setAtt (h : Identity) (x : Attachment) : (s.setAtt h x).pending = s.pending := rfl
@[simp] theorem State.ant_setAtt (h : Identity) (x : Attachment) (b : AntennaNo) : (s.setAtt h x).ant b = s.ant b := rfl
@[simp] theorem State.ven_setAtt (h : Identity) (x : Attachment) (w : VenueNo) : (s.setAtt h x).ven w = s.ven w := rfl
@[simp] theorem State.ctx_setAtt (h : Identity) (x : Attachment) (d : ContextNo) : (s.setAtt h x).ctx d = s.ctx d := rfl
@[simp] theorem State.tap_setAtt (h : Identity) (x : Attachment) (m : TapNo) : (s.setAtt h x).tap m = s.tap m := rfl
@[simp] theorem State.lineKind_setAtt (h : Identity) (x : Attachment) (l : LineNo) : (s.setAtt h x).lineKind l = s.lineKind l := rfl
@[simp] theorem State.slot_setAtt (h : Identity) (x : Attachment) (b : AntennaNo) (j : SlotNo) : (s.setAtt h x).slot b j = s.slot b j := rfl
@[simp] theorem State.carrier_setAtt (h : Identity) (x : Attachment) (b : AntennaNo) (j : CarrierNo) : (s.setAtt h x).carrier b j = s.carrier b j := rfl

/-! ### notify -/

@[simp] theorem State.resetPin_notify (n : Notice) : (s.notify n).resetPin = s.resetPin := rfl
@[simp] theorem State.mode_notify (n : Notice) : (s.notify n).mode = s.mode := rfl
@[simp] theorem State.tuning_notify (n : Notice) : (s.notify n).tuning = s.tuning := rfl
@[simp] theorem State.registry_notify (n : Notice) : (s.notify n).registry = s.registry := rfl
@[simp] theorem State.antennas_notify (n : Notice) : (s.notify n).antennas = s.antennas := rfl
@[simp] theorem State.venues_notify (n : Notice) : (s.notify n).venues = s.venues := rfl
@[simp] theorem State.lines_notify (n : Notice) : (s.notify n).lines = s.lines := rfl
@[simp] theorem State.contexts_notify (n : Notice) : (s.notify n).contexts = s.contexts := rfl
@[simp] theorem State.head_notify (n : Notice) : (s.notify n).head = s.head := rfl
@[simp] theorem State.taps_notify (n : Notice) : (s.notify n).taps = s.taps := rfl
@[simp] theorem State.tapTurn_notify (n : Notice) : (s.notify n).tapTurn = s.tapTurn := rfl
@[simp] theorem State.waiting_notify (n : Notice) : (s.notify n).waiting = s.waiting := rfl
@[simp] theorem State.freeIndex_notify (n : Notice) : (s.notify n).freeIndex = s.freeIndex := rfl
@[simp] theorem State.pending_notify (n : Notice) : (s.notify n).pending = s.pending := rfl
@[simp] theorem State.ant_notify (n : Notice) (b : AntennaNo) : (s.notify n).ant b = s.ant b := rfl
@[simp] theorem State.ven_notify (n : Notice) (w : VenueNo) : (s.notify n).ven w = s.ven w := rfl
@[simp] theorem State.ctx_notify (n : Notice) (d : ContextNo) : (s.notify n).ctx d = s.ctx d := rfl
@[simp] theorem State.tap_notify (n : Notice) (m : TapNo) : (s.notify n).tap m = s.tap m := rfl
@[simp] theorem State.rec_notify (n : Notice) (g : Identity) : (s.notify n).rec? g = s.rec? g := rfl
@[simp] theorem State.lineKind_notify (n : Notice) (l : LineNo) : (s.notify n).lineKind l = s.lineKind l := rfl
@[simp] theorem State.slot_notify (n : Notice) (b : AntennaNo) (j : SlotNo) : (s.notify n).slot b j = s.slot b j := rfl
@[simp] theorem State.carrier_notify (n : Notice) (b : AntennaNo) (j : CarrierNo) : (s.notify n).carrier b j = s.carrier b j := rfl
@[simp] theorem State.ctrl_notify (n : Notice) : (s.notify n).ctrl = s.ctrl.queueNotice n := rfl

/-! ### Reading back -/

@[simp] theorem State.ant_setAnt_self (a : AntennaNo) (x : Antenna) : (s.setAnt a x).ant a = x := by
  simp [State.ant, State.setAnt]

theorem State.ant_setAnt (a b : AntennaNo) (x : Antenna) : (s.setAnt a x).ant b = if b = a then x else s.ant b := by
  by_cases h : b = a
  · subst h; simp
  · have : a.val ≠ b.val := fun e => h (Fin.ext e.symm)
    simp [State.ant, State.setAnt, h, Vector.getElem_set_ne, this]

@[simp] theorem State.ant_setAnt_of_ne {a b : AntennaNo} (x : Antenna) (h : b ≠ a) : (s.setAnt a x).ant b = s.ant b := by
  rw [State.ant_setAnt, if_neg h]

@[simp] theorem State.ven_setVen_self (v : VenueNo) (x : Venue) : (s.setVen v x).ven v = x := by
  simp [State.ven, State.setVen]

theorem State.ven_setVen (v w : VenueNo) (x : Venue) : (s.setVen v x).ven w = if w = v then x else s.ven w := by
  by_cases h : w = v
  · subst h; simp
  · have : v.val ≠ w.val := fun e => h (Fin.ext e.symm)
    simp [State.ven, State.setVen, h, Vector.getElem_set_ne, this]

@[simp] theorem State.ven_setVen_of_ne {v w : VenueNo} (x : Venue) (h : w ≠ v) : (s.setVen v x).ven w = s.ven w := by
  rw [State.ven_setVen, if_neg h]

@[simp] theorem State.ctx_setCtx_self (c : ContextNo) (x : Option Context) : (s.setCtx c x).ctx c = x := by
  simp [State.ctx, State.setCtx]

theorem State.ctx_setCtx (c d : ContextNo) (x : Option Context) :
    (s.setCtx c x).ctx d = if d = c then x else s.ctx d := by
  by_cases h : d = c
  · subst h; simp
  · have : c.val ≠ d.val := fun e => h (Fin.ext e.symm)
    simp [State.ctx, State.setCtx, h, Vector.getElem_set_ne, this]

@[simp] theorem State.tap_setTap_self (n : TapNo) (x : Tap) : (s.setTap n x).tap n = x := by
  simp [State.tap, State.setTap]

theorem State.tap_setTap (n m : TapNo) (x : Tap) : (s.setTap n x).tap m = if m = n then x else s.tap m := by
  by_cases h : m = n
  · subst h; simp
  · have : n.val ≠ m.val := fun e => h (Fin.ext e.symm)
    simp [State.tap, State.setTap, h, Vector.getElem_set_ne, this]

@[simp] theorem State.slot_setSlot_self (a : AntennaNo) (i : SlotNo) (x : SlotState) :
    (s.setSlot a i x).slot a i = x := by
  simp [State.slot, State.setSlot]

@[simp] theorem State.carrier_setCarrier_self (a : AntennaNo) (k : CarrierNo) (x : Carrier) :
    (s.setCarrier a k x).carrier a k = x := by
  simp [State.carrier, State.setCarrier]

/-! ### The other fields of an antenna and of a venue -/

@[simp] theorem State.ant_setSlot_present (a : AntennaNo) (i : SlotNo) (x : SlotState) (b : AntennaNo) :
    ((s.setSlot a i x).ant b).present = (s.ant b).present := by
  unfold State.setSlot; rw [State.ant_setAnt]; split <;> simp_all
@[simp] theorem State.ant_setSlot_venue (a : AntennaNo) (i : SlotNo) (x : SlotState) (b : AntennaNo) :
    ((s.setSlot a i x).ant b).venue = (s.ant b).venue := by
  unfold State.setSlot; rw [State.ant_setAnt]; split <;> simp_all
@[simp] theorem State.ant_setSlot_online (a : AntennaNo) (i : SlotNo) (x : SlotState) (b : AntennaNo) :
    ((s.setSlot a i x).ant b).online = (s.ant b).online := by
  unfold State.setSlot; rw [State.ant_setAnt]; split <;> simp_all
@[simp] theorem State.ant_setSlot_barred (a : AntennaNo) (i : SlotNo) (x : SlotState) (b : AntennaNo) :
    ((s.setSlot a i x).ant b).barred = (s.ant b).barred := by
  unfold State.setSlot; rw [State.ant_setAnt]; split <;> simp_all
@[simp] theorem State.ant_setSlot_rotation (a : AntennaNo) (i : SlotNo) (x : SlotState) (b : AntennaNo) :
    ((s.setSlot a i x).ant b).rotation = (s.ant b).rotation := by
  unfold State.setSlot; rw [State.ant_setAnt]; split <;> simp_all
@[simp] theorem State.ant_setSlot_carriers (a : AntennaNo) (i : SlotNo) (x : SlotState) (b : AntennaNo) :
    ((s.setSlot a i x).ant b).carriers = (s.ant b).carriers := by
  unfold State.setSlot; rw [State.ant_setAnt]; split <;> simp_all
@[simp] theorem State.ant_setSlot_wait (a : AntennaNo) (i : SlotNo) (x : SlotState) (b : AntennaNo) :
    ((s.setSlot a i x).ant b).wait = (s.ant b).wait := by
  unfold State.setSlot; rw [State.ant_setAnt]; split <;> simp_all

@[simp] theorem State.ant_setCarrier_present (a : AntennaNo) (k : CarrierNo) (x : Carrier) (b : AntennaNo) :
    ((s.setCarrier a k x).ant b).present = (s.ant b).present := by
  unfold State.setCarrier; rw [State.ant_setAnt]; split <;> simp_all
@[simp] theorem State.ant_setCarrier_venue (a : AntennaNo) (k : CarrierNo) (x : Carrier) (b : AntennaNo) :
    ((s.setCarrier a k x).ant b).venue = (s.ant b).venue := by
  unfold State.setCarrier; rw [State.ant_setAnt]; split <;> simp_all
@[simp] theorem State.ant_setCarrier_online (a : AntennaNo) (k : CarrierNo) (x : Carrier) (b : AntennaNo) :
    ((s.setCarrier a k x).ant b).online = (s.ant b).online := by
  unfold State.setCarrier; rw [State.ant_setAnt]; split <;> simp_all
@[simp] theorem State.ant_setCarrier_barred (a : AntennaNo) (k : CarrierNo) (x : Carrier) (b : AntennaNo) :
    ((s.setCarrier a k x).ant b).barred = (s.ant b).barred := by
  unfold State.setCarrier; rw [State.ant_setAnt]; split <;> simp_all
@[simp] theorem State.ant_setCarrier_slots (a : AntennaNo) (k : CarrierNo) (x : Carrier) (b : AntennaNo) :
    ((s.setCarrier a k x).ant b).slots = (s.ant b).slots := by
  unfold State.setCarrier; rw [State.ant_setAnt]; split <;> simp_all
@[simp] theorem State.ant_setCarrier_rotation (a : AntennaNo) (k : CarrierNo) (x : Carrier) (b : AntennaNo) :
    ((s.setCarrier a k x).ant b).rotation = (s.ant b).rotation := by
  unfold State.setCarrier; rw [State.ant_setAnt]; split <;> simp_all
@[simp] theorem State.ant_setCarrier_wait (a : AntennaNo) (k : CarrierNo) (x : Carrier) (b : AntennaNo) :
    ((s.setCarrier a k x).ant b).wait = (s.ant b).wait := by
  unfold State.setCarrier; rw [State.ant_setAnt]; split <;> simp_all

@[simp] theorem State.ant_setWait_present (a : AntennaNo) (x : List WaitEntry) (b : AntennaNo) :
    ((s.setWait a x).ant b).present = (s.ant b).present := by
  unfold State.setWait; rw [State.ant_setAnt]; split <;> simp_all
@[simp] theorem State.ant_setWait_venue (a : AntennaNo) (x : List WaitEntry) (b : AntennaNo) :
    ((s.setWait a x).ant b).venue = (s.ant b).venue := by
  unfold State.setWait; rw [State.ant_setAnt]; split <;> simp_all
@[simp] theorem State.ant_setWait_online (a : AntennaNo) (x : List WaitEntry) (b : AntennaNo) :
    ((s.setWait a x).ant b).online = (s.ant b).online := by
  unfold State.setWait; rw [State.ant_setAnt]; split <;> simp_all
@[simp] theorem State.ant_setWait_barred (a : AntennaNo) (x : List WaitEntry) (b : AntennaNo) :
    ((s.setWait a x).ant b).barred = (s.ant b).barred := by
  unfold State.setWait; rw [State.ant_setAnt]; split <;> simp_all
@[simp] theorem State.ant_setWait_slots (a : AntennaNo) (x : List WaitEntry) (b : AntennaNo) :
    ((s.setWait a x).ant b).slots = (s.ant b).slots := by
  unfold State.setWait; rw [State.ant_setAnt]; split <;> simp_all
@[simp] theorem State.ant_setWait_rotation (a : AntennaNo) (x : List WaitEntry) (b : AntennaNo) :
    ((s.setWait a x).ant b).rotation = (s.ant b).rotation := by
  unfold State.setWait; rw [State.ant_setAnt]; split <;> simp_all
@[simp] theorem State.ant_setWait_carriers (a : AntennaNo) (x : List WaitEntry) (b : AntennaNo) :
    ((s.setWait a x).ant b).carriers = (s.ant b).carriers := by
  unfold State.setWait; rw [State.ant_setAnt]; split <;> simp_all

@[simp] theorem State.ant_setOnline_present (a : AntennaNo) (x : Bool) (b : AntennaNo) :
    ((s.setOnline a x).ant b).present = (s.ant b).present := by
  unfold State.setOnline; rw [State.ant_setAnt]; split <;> simp_all
@[simp] theorem State.ant_setOnline_venue (a : AntennaNo) (x : Bool) (b : AntennaNo) :
    ((s.setOnline a x).ant b).venue = (s.ant b).venue := by
  unfold State.setOnline; rw [State.ant_setAnt]; split <;> simp_all
@[simp] theorem State.ant_setOnline_barred (a : AntennaNo) (x : Bool) (b : AntennaNo) :
    ((s.setOnline a x).ant b).barred = (s.ant b).barred := by
  unfold State.setOnline; rw [State.ant_setAnt]; split <;> simp_all
@[simp] theorem State.ant_setOnline_slots (a : AntennaNo) (x : Bool) (b : AntennaNo) :
    ((s.setOnline a x).ant b).slots = (s.ant b).slots := by
  unfold State.setOnline; rw [State.ant_setAnt]; split <;> simp_all
@[simp] theorem State.ant_setOnline_rotation (a : AntennaNo) (x : Bool) (b : AntennaNo) :
    ((s.setOnline a x).ant b).rotation = (s.ant b).rotation := by
  unfold State.setOnline; rw [State.ant_setAnt]; split <;> simp_all
@[simp] theorem State.ant_setOnline_carriers (a : AntennaNo) (x : Bool) (b : AntennaNo) :
    ((s.setOnline a x).ant b).carriers = (s.ant b).carriers := by
  unfold State.setOnline; rw [State.ant_setAnt]; split <;> simp_all
@[simp] theorem State.ant_setOnline_wait (a : AntennaNo) (x : Bool) (b : AntennaNo) :
    ((s.setOnline a x).ant b).wait = (s.ant b).wait := by
  unfold State.setOnline; rw [State.ant_setAnt]; split <;> simp_all

@[simp] theorem State.ant_setBarred_present (a : AntennaNo) (x : Bool) (b : AntennaNo) :
    ((s.setBarred a x).ant b).present = (s.ant b).present := by
  unfold State.setBarred; rw [State.ant_setAnt]; split <;> simp_all
@[simp] theorem State.ant_setBarred_venue (a : AntennaNo) (x : Bool) (b : AntennaNo) :
    ((s.setBarred a x).ant b).venue = (s.ant b).venue := by
  unfold State.setBarred; rw [State.ant_setAnt]; split <;> simp_all
@[simp] theorem State.ant_setBarred_online (a : AntennaNo) (x : Bool) (b : AntennaNo) :
    ((s.setBarred a x).ant b).online = (s.ant b).online := by
  unfold State.setBarred; rw [State.ant_setAnt]; split <;> simp_all
@[simp] theorem State.ant_setBarred_slots (a : AntennaNo) (x : Bool) (b : AntennaNo) :
    ((s.setBarred a x).ant b).slots = (s.ant b).slots := by
  unfold State.setBarred; rw [State.ant_setAnt]; split <;> simp_all
@[simp] theorem State.ant_setBarred_rotation (a : AntennaNo) (x : Bool) (b : AntennaNo) :
    ((s.setBarred a x).ant b).rotation = (s.ant b).rotation := by
  unfold State.setBarred; rw [State.ant_setAnt]; split <;> simp_all
@[simp] theorem State.ant_setBarred_carriers (a : AntennaNo) (x : Bool) (b : AntennaNo) :
    ((s.setBarred a x).ant b).carriers = (s.ant b).carriers := by
  unfold State.setBarred; rw [State.ant_setAnt]; split <;> simp_all
@[simp] theorem State.ant_setBarred_wait (a : AntennaNo) (x : Bool) (b : AntennaNo) :
    ((s.setBarred a x).ant b).wait = (s.ant b).wait := by
  unfold State.setBarred; rw [State.ant_setAnt]; split <;> simp_all

@[simp] theorem State.ven_setVenueState_low (v : VenueNo) (x : VenueState) (w : VenueNo) :
    ((s.setVenueState v x).ven w).low = (s.ven w).low := by
  unfold State.setVenueState; rw [State.ven_setVen]; split <;> simp_all
@[simp] theorem State.ven_setVenueState_high (v : VenueNo) (x : VenueState) (w : VenueNo) :
    ((s.setVenueState v x).ven w).high = (s.ven w).high := by
  unfold State.setVenueState; rw [State.ven_setVen]; split <;> simp_all
@[simp] theorem State.ven_setVenueState_wake (v : VenueNo) (x : VenueState) (w : VenueNo) :
    ((s.setVenueState v x).ven w).wake = (s.ven w).wake := by
  unfold State.setVenueState; rw [State.ven_setVen]; split <;> simp_all
@[simp] theorem State.ven_setVenueState_claims (v : VenueNo) (x : VenueState) (w : VenueNo) :
    ((s.setVenueState v x).ven w).claims = (s.ven w).claims := by
  unfold State.setVenueState; rw [State.ven_setVen]; split <;> simp_all

/-! ### Writing what was there -/

@[simp] theorem State.setHead_head : s.setHead s.head = s := rfl

@[simp] theorem State.setCtrl_ctrl : s.setCtrl s.ctrl = s := rfl

@[simp] theorem State.setWaiting_waiting : s.setWaiting s.waiting = s := rfl

@[simp] theorem State.setRegistry_registry : s.setRegistry s.registry = s := rfl

@[simp] theorem State.setAnt_ant (a : AntennaNo) : s.setAnt a (s.ant a) = s := by
  simp [State.setAnt, State.ant]

/-! ### Events in progress -/

variable (e : Ev)

@[simp] theorem Ev.start_st : (Ev.start s).st = s := rfl
@[simp] theorem Ev.start_cells : (Ev.start s).cells = [] := rfl
@[simp] theorem Ev.start_beforeWarm : (Ev.start s).beforeWarm = none := rfl
@[simp] theorem Ev.start_late : (Ev.start s).late = [] := rfl
@[simp] theorem Ev.upd_st (f : State → State) : (e.upd f).st = f e.st := rfl
@[simp] theorem Ev.upd_cells (f : State → State) : (e.upd f).cells = e.cells := rfl
@[simp] theorem Ev.upd_beforeWarm (f : State → State) : (e.upd f).beforeWarm = e.beforeWarm := rfl
@[simp] theorem Ev.upd_late (f : State → State) : (e.upd f).late = e.late := rfl
@[simp] theorem Ev.emit_st (c : OutCell) : (e.emit c).st = e.st := rfl
@[simp] theorem Ev.emit_cells (c : OutCell) : (e.emit c).cells = e.cells ++ [c] := rfl
@[simp] theorem Ev.emit_beforeWarm (c : OutCell) : (e.emit c).beforeWarm = e.beforeWarm := rfl
@[simp] theorem Ev.emit_late (c : OutCell) : (e.emit c).late = e.late := rfl
@[simp] theorem Ev.emitIf_st (b : Bool) (c : OutCell) : (e.emitIf b c).st = e.st := by cases b <;> rfl
@[simp] theorem Ev.emitIf_cells (b : Bool) (c : OutCell) :
    (e.emitIf b c).cells = e.cells ++ if b then [c] else [] := by cases b <;> simp [Ev.emitIf]
@[simp] theorem Ev.emitIf_beforeWarm (b : Bool) (c : OutCell) : (e.emitIf b c).beforeWarm = e.beforeWarm := by
  cases b <;> rfl
@[simp] theorem Ev.emitIf_late (b : Bool) (c : OutCell) : (e.emitIf b c).late = e.late := by cases b <;> rfl
@[simp] theorem Ev.notify_st (n : Notice) : (e.notify n).st = e.st.notify n := rfl
@[simp] theorem Ev.notify_cells (n : Notice) : (e.notify n).cells = e.cells := rfl
@[simp] theorem Ev.notify_beforeWarm (n : Notice) : (e.notify n).beforeWarm = e.beforeWarm := rfl
@[simp] theorem Ev.notify_late (n : Notice) : (e.notify n).late = e.late := rfl
@[simp] theorem Ev.modeCells_st (l : List AntennaNo) (b : Bool) : (e.modeCells l b).st = e.st := rfl
@[simp] theorem Ev.modeCells_cells (l : List AntennaNo) (b : Bool) :
    (e.modeCells l b).cells = e.cells ++ l.map (fun a => OutCell.mode a b) := rfl
@[simp] theorem Ev.modeCells_beforeWarm (l : List AntennaNo) (b : Bool) :
    (e.modeCells l b).beforeWarm = e.beforeWarm := rfl
@[simp] theorem Ev.modeCells_late (l : List AntennaNo) (b : Bool) : (e.modeCells l b).late = e.late := rfl

/-! ### The notice queue -/

variable (c : ControlPort)

@[simp] theorem ControlPort.queueNotice_rx (n : Notice) : (c.queueNotice n).rx = c.rx := by
  unfold ControlPort.queueNotice; split <;> [rfl; (split <;> rfl)]
@[simp] theorem ControlPort.queueNotice_frames (n : Notice) : (c.queueNotice n).frames = c.frames := by
  unfold ControlPort.queueNotice; split <;> [rfl; (split <;> rfl)]
@[simp] theorem ControlPort.queueNotice_answers (n : Notice) : (c.queueNotice n).answers = c.answers := by
  unfold ControlPort.queueNotice; split <;> [rfl; (split <;> rfl)]
@[simp] theorem ControlPort.queueNotice_ctxd (n : Notice) : (c.queueNotice n).ctxd = c.ctxd := by
  unfold ControlPort.queueNotice; split <;> [rfl; (split <;> rfl)]
@[simp] theorem ControlPort.queueNotice_floor (n : Notice) : (c.queueNotice n).floor = c.floor := by
  unfold ControlPort.queueNotice; split <;> [rfl; (split <;> rfl)]

end Sys2Proof.Machine
end

