-- ==== Sys2Proof/Laws/Taking.lean ====
section
/-! SUPPORT. What considering the waiting events does, said once: nothing where none waits; whatever every taking keeps, it keeps;
and no event that fits is left waiting. -/

namespace Sys2Proof.Machine

/-! ## Where no event waits -/

theorem State.withdraw_of_waiting_nil (s : State) (h : s.waiting = []) : s.withdraw = s := by
  cases s; subst h; rfl

/-- Where no event waits, there is nothing to consider again (R149). -/
theorem State.reconsider_of_waiting_nil (s : State) (h : s.waiting = []) : s.reconsider = s := by
  unfold State.reconsider State.reconsiderFrom
  rw [State.withdraw_of_waiting_nil s h]
  simp [State.firstTaken, State.takeable, h]

/-- An event that waits already is not entered a second time. -/
theorem State.addWaiting_of_mem (s : State) (w : WaitingEvent) (h : w ∈ s.waiting) : s.addWaiting w = s := by
  simp [State.addWaiting, h]

/-! ## What reconsidering keeps -/

theorem State.mem_takeable {s t : State} (h : t ∈ s.takeable) :
    ∃ w ∈ s.waiting, ∃ u, s.attempt w = .taken u ∧ t = u.unwait w := by
  unfold State.takeable at h
  rw [List.mem_filterMap] at h
  obtain ⟨w, hw, hu⟩ := h
  cases ha : s.attempt w with
  | absent => simp [ha, Attempt.state?] at hu
  | waits => simp [ha, Attempt.state?] at hu
  | taken u => exact ⟨w, hw, u, ha, by simpa [ha, Attempt.state?] using hu.symm⟩

/-- The state taken first is one of those that fit, but for the number of free values drawn. -/
theorem State.firstTaken_cases {s t : State} (h : s.firstTaken = some t) :
    ∃ u ∈ s.takeable, t = u ∨ t = { u with freeIndex := u.freeIndex + 1 } := by
  unfold State.firstTaken at h
  split at h
  · cases h
  · rename_i u hu
    exact ⟨u, by simp [hu], .inl (Option.some.inj h).symm⟩
  · rename_i u v rest hu
    refine ⟨_, ?_, .inr (Option.some.inj h).symm⟩
    rw [hu, List.getD_eq_getElem?_getD]
    cases hg : (u :: v :: rest)[Config.waitingTaken s.freeIndex % (rest.length + 2)]? with
    | none => simp
    | some x => exact List.mem_of_getElem? hg

/-- Whatever the taking of a waiting event, a change of the waiting events and a free value drawn keep, reconsidering keeps. -/
theorem State.reconsider_keeps (P : State → Prop) (hw : ∀ (s : State) l, P s → P (s.setWaiting l))
    (hf : ∀ (s : State) n, P s → P { s with freeIndex := n })
    (ht : ∀ (s t : State) w, P s → w ∈ s.waiting → s.attempt w = .taken t → P t) (s : State) (h : P s) :
    P s.reconsider := by
  have key : ∀ fuel (s : State), P s → P (State.reconsiderFrom fuel s) := by
    intro fuel
    induction fuel with
    | zero => exact fun s h => h
    | succ n ih =>
      intro s h
      unfold State.reconsiderFrom
      have h1 : P s.withdraw := hw s _ h
      split
      · exact h1
      · rename_i t hq
        apply ih
        obtain ⟨u, hu, hcase⟩ := State.firstTaken_cases hq
        obtain ⟨w, hmem, v, hv, rfl⟩ := State.mem_takeable hu
        have h2 : P v := ht _ _ w h1 hmem hv
        have h3 : P (v.unwait w) := by
          unfold State.unwait
          split <;> first | exact h2 | exact hw _ _ h2
        rcases hcase with rfl | rfl
        · exact h3
        · exact hf _ _ h3
  exact key _ s h

/-- Considering an event leaves the state as it is, makes the event wait, or takes it and reconsiders the others. -/
theorem State.consider_keeps (P : State → Prop) (hw : ∀ (s : State) l, P s → P (s.setWaiting l))
    (hf : ∀ (s : State) n, P s → P { s with freeIndex := n })
    (ht : ∀ (s t : State) w, P s → s.attempt w = .taken t → P t) (s : State) (w : WaitingEvent) (h : P s) :
    P (s.consider w) := by
  unfold State.consider
  split
  · exact h
  · unfold State.addWaiting
    split
    · exact h
    · exact hw _ _ h
  · rename_i t ha
    exact State.reconsider_keeps P hw hf (fun s t w hs _ => ht s t w hs) _ (ht s t w h ha)

end Sys2Proof.Machine
end

