-- ==== Sys2Proof/Laws/Ports.lean ====
section
/-! SUPPORT. What a command does at an idle port, said once: a request whose record ends with a given reply, and a cell whose
event ends with a given run of cells. -/

namespace Sys2Proof.Machine

/-! ## Room and the end of an event -/

@[simp] theorem State.sends_nil (s : State) : s.sends [] = s := by simp [State.sends, State.setHead]

/-- A run that fits enters the output queue whole. -/
theorem HeadPort.enqueue_of_le (p : HeadPort) (cells : List OutCell) (h : p.output.length + cells.length ≤ 128) :
    p.enqueue cells = { p with output := p.output ++ cells } := by
  have hr : cells.length ≤ p.room := by unfold HeadPort.room Config.outputCells; omega
  simp [HeadPort.enqueue, List.take_of_length_le hr, List.drop_of_length_le hr]

theorem HeadPort.enqueue_nil (p : HeadPort) : p.enqueue [] = p := by simp [HeadPort.enqueue]

theorem Ev.finish_of_late_nil (e : Ev) (h : e.late = []) : e.finish = e := by
  cases e; subst h; rfl

/-- An event without late offers and without WARM, whose cells have room, ends with them at the end of the output queue. -/
theorem Ev.settle_eq (e : Ev) (s : State) (hl : e.late = []) (hw : e.beforeWarm = none) (hh : e.st.head = s.head)
    (hr : e.cells = [] ∨ s.roomFor e.cells.length) : e.settle s.head = some (e.st.sends e.cells) := by
  unfold Ev.settle
  rw [Ev.finish_of_late_nil e hl]
  rcases hr with hc | ⟨ho, hn⟩
  · simp [HeadPort.fits, Ev.counted, hw, hc, HeadPort.enqueue_nil]
  · have hf : s.head.fits e.counted = true := by
      have : e.cells.length ≤ s.head.room := by unfold HeadPort.room Config.outputCells; omega
      simp [HeadPort.fits, Ev.counted, hw, ho, this]
    simp only [hf, if_true, Option.some.injEq]
    rw [hh, HeadPort.enqueue_of_le _ _ hn, State.sends, hh]

/-- An event so ended, considered while no event waits, is taken (R149). -/
theorem State.consider_eq (s : State) (w : WaitingEvent) (e : Ev) (he : s.attempt w = e.attempt s.head)
    (hl : e.late = []) (hb : e.beforeWarm = none) (hh : e.st.head = s.head) (hv : e.st.waiting = [])
    (hr : e.cells = [] ∨ s.roomFor e.cells.length) : s.consider w = e.st.sends e.cells := by
  unfold State.consider
  rw [he, Ev.attempt, Ev.settle_eq e s hl hb hh hr]
  exact State.reconsider_of_waiting_nil _ hv

/-! ## Requests -/

/-- The frame of one request record, carried out with a reply that fits. -/
theorem Ev.frame_one (e : Ev) (tag : Byte) (r : Request) (hq : isQuery r = true → (e.carryOut r).2.result.length ≤ 2042) :
    e.frame ([.record tag r], false) = (e.carryOut r).1.upd (fun s => s.replied (requestCode r) tag (e.carryOut r).2.status
      (e.carryOut r).2.offset (e.carryOut r).2.result) := by
  have h : ¬ (isQuery r = true ∧ Config.replyBody < 2 + (([] : List ChainItem).map ChainItem.shortest).sum + 4 +
      (e.carryOut r).2.result.length) := by
    rintro ⟨h1, h2⟩
    have := hq h1
    simp [Config.replyBody] at h2
    omega
  simp only [Ev.frame, Ev.runChain, Ev.runItem, Ev.runRecord, if_neg h]
  rfl

/-- A request at an idle control port, whose record changes the state to `t`, produces `cells` and ends with a given reply. -/
theorem State.presentRequest_eq (s t : State) (tag : Byte) (r : Request) (cells : List OutCell) (d : Done) (hs : s.hostReady)
    (hd : (Ev.start s).carryOut r = (⟨t, cells, none, []⟩, d)) (hq : isQuery r = true → d.result.length ≤ 2042)
    (hh : t.head = s.head) (hv : t.waiting = []) (hr : cells = [] ∨ s.roomFor cells.length) :
    s.presentRequest tag r = (t.sends cells).replied (requestCode r) tag d.status d.offset d.result := by
  obtain ⟨h1, h2, h3, h4, _⟩ := hs
  have hf := Ev.frame_one (Ev.start s) tag r (by rw [hd]; exact hq)
  rw [hd] at hf
  have hb : s.ctrl.buffersUsed < Config.frameBuffers := by simp [ControlPort.buffersUsed, h2, h3]
  have hm : (s.ctrl.frames.isEmpty && s.ctrl.mayTake) = true := by simp [h3, ControlPort.mayTake, h4]
  unfold State.presentRequest State.presentFrame
  simp only [h1, h2, hb, if_true, Bool.false_eq_true, if_false, State.takeOrStore, hm, hf]
  rw [Ev.settle_eq _ s rfl rfl (by simpa [Ev.upd, State.replied] using hh) hr]
  exact State.reconsider_of_waiting_nil _ hv

/-! ## Cells -/

theorem sameCell_self (c : RawCell) : sameCell c c = true := by
  unfold sameCell
  split <;> simp

theorem State.leaveBuffer_joinTail (s : State) (c : RawCell) (hs : s.cellReady) :
    (s.setHead (s.head.joinTail c)).leaveBuffer = s := by
  obtain ⟨_, h2, h3, h4, _⟩ := hs
  have e : s.head = ⟨[], false, false, s.head.output, s.head.overflow, s.head.begun⟩ := by
    cases hd : s.head; simp_all
  unfold State.leaveBuffer HeadPort.joinTail
  rw [e]
  simp [stallAfterArrival, stallAfterTaking]
  rw [← e]
  rfl

theorem State.judge_setHead (s : State) (p : HeadPort) (c : RawCell) : (s.setHead p).judge c = s.judge c := rfl

/-- A cell at an idle head port is considered for taking on the state as it is. -/
theorem State.presentCell_ready (s : State) (c : RawCell) (hs : s.cellReady) :
    s.presentCell c = match s.judge c with
      | none => s
      | some (k, a) =>
        match (Ev.cellEvent c k a (Ev.start s)).settle s.head with
        | some t => t.reconsider
        | none => (s.setHead (s.head.joinTail c)).setWaiting [.cell] := by
  have hl := State.leaveBuffer_joinTail s c hs
  obtain ⟨h1, h2, h3, h4, h5⟩ := hs
  have hnot : s.headIs c = false := by simp [State.headIs, h2]
  have harr : s.arrive c = s.setHead (s.head.joinTail c) := by
    simp [State.arrive, h1, HeadPort.occupancy, h2]
  have hin : (s.setHead (s.head.joinTail c)).head.input = [c] := by simp [HeadPort.joinTail, h2]
  have his : (s.setHead (s.head.joinTail c)).headIs c = true := by
    unfold State.headIs
    rw [hin]
    exact sameCell_self c
  have hset : ∀ e : Ev, e.settle (s.setHead (s.head.joinTail c)).head = e.settle s.head := fun _ => rfl
  have hadd : (s.setHead (s.head.joinTail c)).addWaiting .cell = (s.setHead (s.head.joinTail c)).setWaiting [.cell] := by
    simp [State.addWaiting, h5]
  unfold State.presentCell
  simp only [h1, hnot, harr, his, Bool.false_eq_true, if_false, if_true]
  unfold State.consider State.attempt State.attemptCell
  simp only [hin, State.judge_setHead, hl]
  cases s.judge c with
  | none => exact State.reconsider_of_waiting_nil s h5
  | some ka =>
    obtain ⟨k, a⟩ := ka
    simp only [Ev.attempt, hset]
    cases (Ev.cellEvent c k a (Ev.start s)).settle s.head with
    | none => exact hadd
    | some t => rfl

/-- A cell at an idle head port that passes the judgement, and whose event has room, is taken. -/
theorem State.presentCell_eq (s : State) (c : RawCell) (k : UnitKind) (a : AntennaNo) (hs : s.cellReady)
    (hj : s.judge c = some (k, a)) (hl : (Ev.cellEvent c k a (Ev.start s)).late = [])
    (hw : (Ev.cellEvent c k a (Ev.start s)).beforeWarm = none)
    (hh : (Ev.cellEvent c k a (Ev.start s)).st.head = s.head)
    (hv : (Ev.cellEvent c k a (Ev.start s)).st.waiting = [])
    (hr : (Ev.cellEvent c k a (Ev.start s)).cells = [] ∨ s.roomFor (Ev.cellEvent c k a (Ev.start s)).cells.length) :
    s.presentCell c = (Ev.cellEvent c k a (Ev.start s)).st.sends (Ev.cellEvent c k a (Ev.start s)).cells := by
  rw [State.presentCell_ready s c hs, hj]
  simp only [Ev.settle_eq _ s hl hw hh hr]
  exact State.reconsider_of_waiting_nil _ hv

end Sys2Proof.Machine
end

