-- ==== Sys2Proof/Laws/Ops.lean ====
section
/-! SUPPORT. What the shared operations do, said once: the judging of a cell, offers and releases at an antenna where nothing
waits, wait list entries, placements, and the tables of operands. -/

namespace Sys2Proof.Machine

/-! ## Operands -/

theorem antennaOf_eq {b : Byte} {a : AntennaNo} (h : b.toNat = a.val) : antennaOf b = some a := by
  simp [antennaOf, bounded, h]

theorem venueOf_eq {b : Byte} {v : VenueNo} (h : b.toNat = v.val) : venueOf b = some v := by simp [venueOf, bounded, h]

theorem lineOf_eq {b : Byte} {m : LineNo} (h : b.toNat = m.val) : lineOf b = some m := by simp [lineOf, bounded, h]

theorem contextOf_eq {b : Byte} {c : ContextNo} (h : b.toNat = c.val) : contextOf b = some c := by
  simp [contextOf, bounded, h]

theorem tapOf_eq {b : Byte} {n : TapNo} (h : b.toNat = n.val) : tapOf b = some n := by simp [tapOf, bounded, h]

theorem antennaOf_none {b : Byte} (h : 47 < b.toNat) : antennaOf b = none := by
  have : ¬ b.toNat < 48 := by omega
  simp [antennaOf, bounded, this]

theorem byte_val (b : Byte) (n : Nat) (h : b.toNat = n) : byte n = b := by
  subst h; simp [byte]

theorem identityOk_of_ne {h : Identity} (h0 : h ≠ 0x000000) (h1 : h ≠ 0xFFFFFF) : identityOk h = true := by
  simp only [identityOk, Bool.and_eq_true, bne_iff_ne]
  exact ⟨h0, h1⟩

/-- The lowest FREE slot is the one that no lower FREE slot comes before (R29). -/
theorem State.freeSlot_eq (s : State) (a : AntennaNo) (i : SlotNo) (h : s.lowestFree a i) : s.freeSlot a = some i := by
  obtain ⟨h1, h2⟩ := h
  unfold State.freeSlot allSlots
  rw [List.find?_eq_some_iff_getElem]
  refine ⟨by simp [h1], i.val, by simp, by simp, ?_⟩
  intro j hj
  have := h2 ⟨j, by omega⟩ (by simpa [Fin.lt_def] using hj)
  simp [this]

/-! ## Judging -/

/-- A cell of the kinds that no further test concerns passes from a present, ONLINE antenna in RUN (R147). -/
theorem State.judge_unitCell (s : State) (k : UnitKind) (b : Byte) (a : AntennaNo) (h : Identity)
    (hk : k = .join ∨ k = .ready ∨ k = .noroom ∨ k = .landed ∨ k = .quit) (hv : s.servesCells b a h) :
    s.judge (unitCell k b h) = some (k, a) := by
  obtain ⟨h1, h2, h3, h4, h5, h6⟩ := hv
  have hi := identityOk_of_ne h5 h6
  rcases hk with rfl | rfl | rfl | rfl | rfl <;>
    simp [State.judge, unitCell, UnitKind.code, unitKindOf, antennaOf_eq h2, h3, UnitKind.isLink, hi, h4, h1]

/-- A GONE passes where the antenna holds something for the headset (R147 item 8). -/
theorem State.judge_gone (s : State) (b : Byte) (a : AntennaNo) (h : Identity) (hv : s.servesCells b a h)
    (hh : s.holdsFor a h = true) : s.judge (unitCell .gone b h) = some (.gone, a) := by
  obtain ⟨h1, h2, h3, h4, h5, h6⟩ := hv
  simp [State.judge, unitCell, UnitKind.code, unitKindOf, antennaOf_eq h2, h3, UnitKind.isLink, identityOk_of_ne h5 h6, h4,
    h1, hh]

/-- A HEAR passes with a level code that is not malformed, for a headset in SERVED or TRANSFER (R147 items 4 and 7). -/
theorem State.judge_hear (s : State) (b level errors : Byte) (a : AntennaNo) (h : Identity) (hv : s.servesCells b a h)
    (hl : ¬ (252 ≤ level.toNat ∧ level.toNat ≤ 254)) (hh : s.heardFor h = true) :
    s.judge { unitCell .hear b h with byte5 := level, byte6 := errors } = some (.hear, a) := by
  obtain ⟨h1, h2, h3, h4, h5, h6⟩ := hv
  simp [State.judge, unitCell, UnitKind.code, unitKindOf, antennaOf_eq h2, h3, UnitKind.isLink, identityOk_of_ne h5 h6, h4,
    h1, hh]
  omega

/-- UP and DOWN pass from a present antenna in either mode (R147). -/
theorem State.judge_link (s : State) (k : UnitKind) (b : Byte) (a : AntennaNo) (h : Identity) (hk : k = .up ∨ k = .down)
    (hb : b.toNat = a.val) (hp : (s.ant a).present = true) : s.judge (unitCell k b h) = some (k, a) := by
  rcases hk with rfl | rfl <;>
    simp [State.judge, unitCell, UnitKind.code, unitKindOf, antennaOf_eq hb, hp, UnitKind.isLink]

/-! ## Offers and releases where nothing waits -/

/-- An offer to an empty wait list changes nothing (R109). -/
theorem Ev.offer_of_wait_nil (e : Ev) (a : AntennaNo) (i : SlotNo) (h : (e.st.ant a).wait = []) : e.offer a i = e := by
  have : e.st.offerChoice a = none := by simp [State.offerChoice, h, chooseEntry]
  simp [Ev.offer, this]

/-- A claim ended in a venue that is not DRAINING lowers its count alone (R40, R44). -/
theorem Ev.claimDown_of_not_draining (e : Ev) (v : VenueNo) (h : (e.st.ven v).state ≠ .draining) :
    e.claimDown v = e.upd (·.unclaimed v) := by
  simp [Ev.claimDown, State.unclaimed, h]

/-! ## Records -/

/-- A lookup after a change of one identity's record that keeps identities: the record found before, changed where it is that
identity's (R3). -/
theorem State.rec_updRec (s : State) (h g : Identity) (f : HeadsetRecord → HeadsetRecord)
    (hf : ∀ r, (f r).profile.ident = r.profile.ident) :
    (s.updRec h f).rec? g = (s.rec? g).map (fun r => if r.profile.ident == h then f r else r) := by
  have key : ∀ l : List HeadsetRecord,
      (l.map (fun r => if r.profile.ident == h then f r else r)).find? (fun r => r.profile.ident == g) =
        (l.find? (fun r => r.profile.ident == g)).map (fun r => if r.profile.ident == h then f r else r) := by
    intro l
    induction l with
    | nil => rfl
    | cons x l ih =>
      simp only [List.map_cons, List.find?_cons, ih]
      by_cases hx : x.profile.ident = h
      · have hfx : (f x).profile.ident = h := by rw [hf, hx]
        simp only [hx, beq_self_eq_true, if_true, hfx]
        split <;> simp [hx]
      · simp only [beq_iff_eq, hx, if_false]
        split <;> simp [hx]
  exact key s.registry

/-- The record that a lookup finds has the identity looked up. -/
theorem State.ident_of_rec {s : State} {h : Identity} {r : HeadsetRecord} (hr : s.rec? h = some r) : r.profile.ident = h := by
  simpa using List.find?_some hr

/-- The record of an identity after a change of it. -/
theorem State.rec_updRec_self (s : State) (h : Identity) (f : HeadsetRecord → HeadsetRecord)
    (hf : ∀ r, (f r).profile.ident = r.profile.ident) : (s.updRec h f).rec? h = (s.rec? h).map f := by
  rw [State.rec_updRec s h h f hf]
  cases hr : s.rec? h with
  | none => rfl
  | some r => simp [State.ident_of_rec hr]

/-- The record of another identity is unchanged. -/
theorem State.rec_updRec_of_ne (s : State) {h g : Identity} (hg : g ≠ h) (f : HeadsetRecord → HeadsetRecord)
    (hf : ∀ r, (f r).profile.ident = r.profile.ident) : (s.updRec h f).rec? g = s.rec? g := by
  rw [State.rec_updRec s h g f hf]
  cases hr : s.rec? g with
  | none => rfl
  | some r => simp [State.ident_of_rec hr, hg]

/-! ## Capture and quality -/

/-- A record offered while no tap runs changes nothing (R179). -/
theorem Ev.capture_of_not_running (e : Ev) (r : TapRecord) (h : ∀ n, (e.st.tap n).running = false) : e.capture r = e := by
  have one : ∀ n, e.captureAt r n = e := by
    intro n
    simp only [Ev.captureAt, Tap.admits, h, Bool.false_and, Bool.not_false, if_true]
  have key : ∀ l : List TapNo, l.foldl (fun e n => e.captureAt r n) e = e := by
    intro l
    induction l with
    | nil => rfl
    | cons n l ih => rw [List.foldl_cons, one, ih]
  exact key _

/-- The quality of a report: the effective level less three times the effective error count, at least 0; it clips at the codes
251 and 255, above 64 errors, and where the errors outweigh the level (R63 to R66). -/
theorem quality_eq (level errors : Byte) (l e : Nat)
    (hl : level.toNat ≤ 250 ∧ l = level.toNat ∨ level.toNat = 251 ∧ l = 0 ∨ level.toNat = 255 ∧ l = 250)
    (he : e = min 64 errors.toNat) :
    quality level errors = (l - 3 * e, decide (250 < level.toNat ∨ 64 < errors.toNat ∨ l < 3 * e)) := by
  have h251 : level = 251 ↔ level.toNat = 251 := by rw [← BitVec.toNat_inj]; rfl
  have h255 : level = 255 ↔ level.toNat = 255 := by rw [← BitVec.toNat_inj]; rfl
  have h1 : effectiveLevel level = (l, decide (250 < level.toNat)) := by
    simp only [effectiveLevel, h251, h255]
    rcases hl with ⟨h1, h2⟩ | ⟨h1, h2⟩ | ⟨h1, h2⟩
    · rw [if_neg (by omega), if_neg (by omega), h2]
      simp only [Prod.mk.injEq, true_and]
      exact (decide_eq_false (by omega)).symm
    · rw [if_pos h1, h2]; simp [h1]
    · rw [if_neg (by omega), if_pos h1, h2]; simp [h1]
  have h2 : effectiveErrors errors = (e, decide (64 < errors.toNat)) := by
    simp only [effectiveErrors]
    split <;> simp [he] <;> omega
  simp only [quality, h1, h2, Bool.decide_or, Bool.or_assoc]

/-! ## Notices -/

/-- A notice placed in the queue makes it one longer (R163). -/
theorem insertNotice_length (n : Notice) (l : List Notice) : (insertNotice n l).length = l.length + 1 := by
  induction l with
  | nil => rfl
  | cons m rest ih => unfold insertNotice; split <;> simp [ih]

/-- The queue holds what it held and the notice (R163). -/
theorem mem_insertNotice (n m : Notice) (l : List Notice) : m ∈ insertNotice n l ↔ m = n ∨ m ∈ l := by
  induction l with
  | nil => simp [insertNotice]
  | cons x rest ih => unfold insertNotice; split <;> simp [ih]; tauto

/-- A notice placed in an ordered queue leaves it ordered (R163). -/
theorem insertNotice_pairwise (n : Notice) (l : List Notice)
    (h : l.Pairwise (fun x y => y.priority ≤ x.priority)) :
    (insertNotice n l).Pairwise (fun x y => y.priority ≤ x.priority) := by
  induction l with
  | nil => simp [insertNotice]
  | cons x rest ih =>
    rw [List.pairwise_cons] at h
    unfold insertNotice
    split
    · rename_i hx
      rw [List.pairwise_cons]
      refine ⟨fun y hy => ?_, ih h.2⟩
      rcases (mem_insertNotice n y rest).mp hy with rfl | hy
      · exact hx
      · exact h.1 y hy
    · rename_i hx
      rw [List.pairwise_cons]
      refine ⟨fun y hy => ?_, List.pairwise_cons.mpr h⟩
      rcases List.mem_cons.mp hy with rfl | hy
      · omega
      · have := h.1 y hy; omega

/-- The queuing of a notice keeps the law of the control port (R163). -/
theorem ControlPort.queueNotice_lawful (c : ControlPort) (n : Notice) (h : c.lawful) : (c.queueNotice n).lawful := by
  obtain ⟨h1, h2, h3, h4, h5, h6⟩ := h
  unfold ControlPort.queueNotice
  split
  · exact ⟨h1, h2, h3, h4, h5, h6⟩
  · split
    · rename_i hl
      refine ⟨h1, h2, h3, ?_, insertNotice_pairwise _ _ h5, h6⟩
      simp only [insertNotice_length]
      unfold Config.noticeQueue at hl
      omega
    · exact ⟨h1, h2, h3, h4, h5, h6⟩

end Sys2Proof.Machine
end

