-- ==== Sys2Proof/Laws/Frame.lean ====
section
/-! SUPPORT. What the operations inside an event leave as it was, said once for each: the mode, the tuning set, the crew lines,
the head port, the configuration of antennas, venues and records, and the control port but for its notices. -/

namespace Sys2Proof.Machine

variable {s t u : State} {e₀ e : Ev}

/-! ## States -/

/-- A state that an operation inside an event may leave: the configuration and the ports are as before, but for notices
queued. -/
structure State.Frame (s t : State) : Prop where
  resetPin : t.resetPin = s.resetPin
  mode : t.mode = s.mode
  tuning : t.tuning = s.tuning
  lines : t.lines = s.lines
  head : t.head = s.head
  tapTurn : t.tapTurn = s.tapTurn
  waiting : t.waiting = s.waiting
  freeIndex : t.freeIndex = s.freeIndex
  pending : t.pending = s.pending
  ctrl : ∃ l : List Notice, t.ctrl = l.foldl ControlPort.queueNotice s.ctrl
  ants : ∀ a : AntennaNo, (t.ant a).config = (s.ant a).config
  vens : ∀ v : VenueNo, (t.ven v).config = (s.ven v).config
  records : t.registry.map HeadsetRecord.config = s.registry.map HeadsetRecord.config

theorem State.Frame.refl (s : State) : s.Frame s :=
  ⟨rfl, rfl, rfl, rfl, rfl, rfl, rfl, rfl, rfl, ⟨[], rfl⟩, fun _ => rfl, fun _ => rfl, rfl⟩

theorem State.Frame.trans (h : s.Frame t) (k : t.Frame u) : s.Frame u := by
  obtain ⟨l, hl⟩ := h.ctrl
  obtain ⟨m, hm⟩ := k.ctrl
  refine ⟨k.resetPin.trans h.resetPin, k.mode.trans h.mode, k.tuning.trans h.tuning, k.lines.trans h.lines,
    k.head.trans h.head, k.tapTurn.trans h.tapTurn, k.waiting.trans h.waiting, k.freeIndex.trans h.freeIndex, k.pending.trans h.pending,
    ⟨l ++ m, ?_⟩, fun a => (k.ants a).trans (h.ants a), fun v => (k.vens v).trans (h.vens v), k.records.trans h.records⟩
  rw [List.foldl_append, ← hl, ← hm]

theorem State.Frame.setAnt (s : State) (a : AntennaNo) (x : Antenna) (h : x.config = (s.ant a).config) :
    s.Frame (s.setAnt a x) := by
  refine ⟨rfl, rfl, rfl, rfl, rfl, rfl, rfl, rfl, rfl, ⟨[], rfl⟩, fun b => ?_, fun _ => rfl, rfl⟩
  by_cases hb : a.val = b.val
  · have : a = b := Fin.ext hb
    subst this
    simpa [State.setAnt, State.ant] using h
  · simp [State.setAnt, State.ant, hb]

theorem State.Frame.setVen (s : State) (v : VenueNo) (x : Venue) (h : x.config = (s.ven v).config) :
    s.Frame (s.setVen v x) := by
  refine ⟨rfl, rfl, rfl, rfl, rfl, rfl, rfl, rfl, rfl, ⟨[], rfl⟩, fun _ => rfl, fun w => ?_, rfl⟩
  by_cases hw : v.val = w.val
  · have : v = w := Fin.ext hw
    subst this
    simpa [State.setVen, State.ven] using h
  · simp [State.setVen, State.ven, hw]

theorem State.Frame.updRec (s : State) (h : Identity) (f : HeadsetRecord → HeadsetRecord)
    (hf : ∀ r, (f r).config = r.config) : s.Frame (s.updRec h f) := by
  refine ⟨rfl, rfl, rfl, rfl, rfl, rfl, rfl, rfl, rfl, ⟨[], rfl⟩, fun _ => rfl, fun _ => rfl, ?_⟩
  show (s.registry.map _).map _ = _
  rw [List.map_map]
  apply List.map_congr_left
  intro r _
  show HeadsetRecord.config (if r.profile.ident == h then f r else r) = _
  split
  · exact hf r
  · rfl

theorem State.Frame.setCtx (s : State) (c : ContextNo) (x : Option Context) : s.Frame (s.setCtx c x) :=
  ⟨rfl, rfl, rfl, rfl, rfl, rfl, rfl, rfl, rfl, ⟨[], rfl⟩, fun _ => rfl, fun _ => rfl, rfl⟩

theorem State.Frame.setTap (s : State) (n : TapNo) (x : Tap) : s.Frame (s.setTap n x) :=
  ⟨rfl, rfl, rfl, rfl, rfl, rfl, rfl, rfl, rfl, ⟨[], rfl⟩, fun _ => rfl, fun _ => rfl, rfl⟩

theorem State.Frame.notify (s : State) (n : Notice) : s.Frame (s.notify n) :=
  ⟨rfl, rfl, rfl, rfl, rfl, rfl, rfl, rfl, rfl, ⟨[n], rfl⟩, fun _ => rfl, fun _ => rfl, rfl⟩

theorem State.Frame.setSlot (s : State) (a : AntennaNo) (i : SlotNo) (x : SlotState) : s.Frame (s.setSlot a i x) :=
  State.Frame.setAnt s a _ rfl

theorem State.Frame.setCarrier (s : State) (a : AntennaNo) (k : CarrierNo) (x : Carrier) : s.Frame (s.setCarrier a k x) :=
  State.Frame.setAnt s a _ rfl

theorem State.Frame.setWait (s : State) (a : AntennaNo) (x : List WaitEntry) : s.Frame (s.setWait a x) :=
  State.Frame.setAnt s a _ rfl

theorem State.Frame.setVenueState (s : State) (v : VenueNo) (x : VenueState) : s.Frame (s.setVenueState v x) :=
  State.Frame.setVen s v _ rfl

theorem State.Frame.setAtt (s : State) (h : Identity) (x : Attachment) : s.Frame (s.setAtt h x) :=
  State.Frame.updRec s h _ (fun _ => rfl)

theorem State.Frame.rotate (s : State) (a : AntennaNo) (c : ClassNo) : s.Frame (s.rotate a c) := by
  unfold State.rotate
  split
  · exact State.Frame.refl s
  · exact State.Frame.setAnt s a _ rfl

/-- The laws of the control port outlive any notices. -/
theorem State.Frame.ctrl_lawful (h : s.Frame t) (hs : s.ctrl.lawful) : t.ctrl.lawful := by
  obtain ⟨l, hl⟩ := h.ctrl
  rw [hl]
  clear hl
  generalize s.ctrl = c at hs
  induction l generalizing c with
  | nil => exact hs
  | cons n l ih => exact ih _ (c.queueNotice_lawful n hs)

/-! ## Events -/

/-- An event that an operation may leave: its state in the frame of the state before, and no WARM. -/
def Ev.Frame (e₀ e : Ev) : Prop := e₀.st.Frame e.st ∧ e.beforeWarm = e₀.beforeWarm

theorem Ev.Frame.refl (e : Ev) : e.Frame e := ⟨State.Frame.refl _, rfl⟩

/-- A change of the state within its frame. -/
theorem Ev.Frame.upd (h : e₀.Frame e) {f : State → State} (hf : e.st.Frame (f e.st)) : e₀.Frame (e.upd f) :=
  ⟨h.1.trans hf, h.2⟩

theorem Ev.Frame.emit (h : e₀.Frame e) (c : OutCell) : e₀.Frame (e.emit c) := h

theorem Ev.Frame.emitIf (h : e₀.Frame e) (b : Bool) (c : OutCell) : e₀.Frame (e.emitIf b c) := by
  cases b
  · exact h
  · exact h.emit c

theorem Ev.Frame.notify (h : e₀.Frame e) (n : Notice) : e₀.Frame (e.notify n) := h.upd (State.Frame.notify _ n)

theorem Ev.Frame.route (h : e₀.Frame e) (p : Profile) (a : AntennaNo) (x : Option Place) : e₀.Frame (e.route p a x) :=
  h.notify _

theorem Ev.Frame.offerLate (h : e₀.Frame e) (a : AntennaNo) : e₀.Frame (e.offerLate a) := h

theorem Ev.Frame.modeCells (h : e₀.Frame e) (l : List AntennaNo) (b : Bool) : e₀.Frame (e.modeCells l b) := h

/-- An operation repeated over a list stays in the frame. -/
theorem Ev.Frame.foldl {α : Type} (h : e₀.Frame e) (f : Ev → α → Ev) (hf : ∀ (e : Ev) (x : α), e₀.Frame e → e₀.Frame (f e x))
    (l : List α) : e₀.Frame (l.foldl f e) := by
  induction l generalizing e with
  | nil => exact h
  | cons x l ih => exact ih (hf e x h)

/-! ### Venues and carriers -/

theorem Ev.Frame.closeVenue (h : e₀.Frame e) (v : VenueNo) (c : VenueCause) : e₀.Frame (e.closeVenue v c) :=
  ((h.upd (State.Frame.setVenueState _ v .closed)).modeCells _ _).notify _

theorem Ev.Frame.claimUp (h : e₀.Frame e) (v : VenueNo) : e₀.Frame (e.claimUp v) :=
  h.upd (State.Frame.setVen _ v _ rfl)

theorem Ev.Frame.claimDown (h : e₀.Frame e) (v : VenueNo) : e₀.Frame (e.claimDown v) := by
  have h1 := h.upd (State.Frame.setVen e.st v { e.st.ven v with claims := (e.st.ven v).claims - 1 } rfl)
    (f := fun s => s.setVen v { s.ven v with claims := (s.ven v).claims - 1 })
  unfold Ev.claimDown
  dsimp only
  split
  · exact h1.closeVenue v .drained
  · exact h1

theorem Ev.Frame.wakeVenue (h : e₀.Frame e) (v : VenueNo) : e₀.Frame (e.wakeVenue v) :=
  ((h.upd (State.Frame.setVenueState _ v .opened)).modeCells _ _).notify _

theorem Ev.Frame.wakeIfClosed (h : e₀.Frame e) (v : VenueNo) : e₀.Frame (e.wakeIfClosed v) := by
  unfold Ev.wakeIfClosed
  split
  · exact h.wakeVenue v
  · exact h

theorem Ev.Frame.mixChanged (h : e₀.Frame e) (a : AntennaNo) (k : CarrierNo) : e₀.Frame (e.mixChanged a k) :=
  (h.emitIf _ _).notify _

theorem Ev.Frame.changeCarrier (h : e₀.Frame e) (a : AntennaNo) (k : CarrierNo) (x : Carrier) :
    e₀.Frame (e.changeCarrier a k x) := by
  have h1 := h.upd (State.Frame.setCarrier e.st a k x) (f := (·.setCarrier a k x))
  unfold Ev.changeCarrier
  dsimp only
  split
  · exact h1.mixChanged a k
  · exact h1

theorem Ev.Frame.place (h : e₀.Frame e) (a : AntennaNo) (k : CarrierNo) (m : LineNo) (r : Bool) : e₀.Frame (e.place a k m r) :=
  (h.changeCarrier a k _).claimUp _

theorem Ev.Frame.releasePlace (h : e₀.Frame e) (a : AntennaNo) (k : CarrierNo) (m : LineNo) (r : Bool) :
    e₀.Frame (e.releasePlace a k m r) :=
  (h.changeCarrier a k _).claimDown _

theorem Ev.Frame.convertPlace (h : e₀.Frame e) (a : AntennaNo) (k : CarrierNo) (m : LineNo) : e₀.Frame (e.convertPlace a k m) :=
  h.upd (State.Frame.setCarrier _ a k _)

/-! ### Wait lists, grants and releases -/

theorem Ev.Frame.detach (h : e₀.Frame e) (g : Identity) : e₀.Frame (e.detach g) := h.upd (State.Frame.setAtt _ g .idle)

theorem Ev.Frame.orphan (h : e₀.Frame e) (g : Identity) (a : AntennaNo) (c : OrphanCause) : e₀.Frame (e.orphan g a c) :=
  (h.upd (State.Frame.setAtt _ g _)).notify _

theorem Ev.Frame.grantNotices (h : e₀.Frame e) (p : Profile) (a : AntennaNo) (x : Place) (svc : Service) (r : Bool) :
    e₀.Frame (e.grantNotices p a x svc r) :=
  (h.notify _).route p a _

theorem Ev.Frame.appendWait (h : e₀.Frame e) (a : AntennaNo) (w : WaitEntry) : e₀.Frame (e.appendWait a w) :=
  (h.upd (State.Frame.setWait _ a _)).claimUp _

theorem Ev.Frame.removeWait (h : e₀.Frame e) (a : AntennaNo) (g : Identity) : e₀.Frame (e.removeWait a g) :=
  (h.upd (State.Frame.setWait _ a _)).claimDown _

theorem Ev.Frame.claimSlot (h : e₀.Frame e) (a : AntennaNo) (i : SlotNo) (g : Identity) : e₀.Frame (e.claimSlot a i g) :=
  (h.upd (State.Frame.setSlot _ a i _)).claimUp _

theorem Ev.Frame.grantJoin (h : e₀.Frame e) (a : AntennaNo) (i : SlotNo) (p : Profile) (r : Bool) :
    e₀.Frame (e.grantJoin a i p r) := by
  have h1 := ((h.removeWait a p.ident).claimSlot a i p.ident).upd
    (f := (·.setAtt p.ident (.served (slotService p) ⟨a, .slot i⟩ (Track.granted a)))) (State.Frame.setAtt _ _ _)
  exact (h1.emit _).grantNotices p a _ _ r

theorem Ev.Frame.promote (h : e₀.Frame e) (a : AntennaNo) (i : SlotNo) (p : Profile) (held : Resource) (tr : Track) :
    e₀.Frame (e.promote a i p held tr) := by
  have h1 := ((h.removeWait a p.ident).claimSlot a i p.ident).emit (.seat a p.ident (.slot i))
  unfold Ev.promote
  cases held.place with
  | slot j =>
    have h2 := h1.upd (f := (·.setAtt p.ident (.served .talk ⟨a, .slot i⟩ tr))) (State.Frame.setAtt _ _ _)
    exact (h2.notify (.promoted p.ident a i)).route p a (some (.slot i))
  | carrier k =>
    have h2 := (h1.releasePlace held.ant k p.monitor false).upd (f := (·.setAtt p.ident (.served .talk ⟨a, .slot i⟩ tr)))
      (State.Frame.setAtt _ _ _)
    exact (h2.notify (.promoted p.ident a i)).route p a (some (.slot i))

theorem Ev.Frame.grantEntry (h : e₀.Frame e) (a : AntennaNo) (i : SlotNo) (w : WaitEntry) : e₀.Frame (e.grantEntry a i w) := by
  unfold Ev.grantEntry
  split
  · exact h.grantJoin a i _ _
  · exact h.promote a i _ _ _
  · exact h

theorem Ev.Frame.offer (h : e₀.Frame e) (a : AntennaNo) (i : SlotNo) : e₀.Frame (e.offer a i) := by
  unfold Ev.offer
  split
  · exact h
  · exact (h.grantEntry a i _).upd (State.Frame.rotate _ a _)

theorem Ev.Frame.releaseSlot (h : e₀.Frame e) (a : AntennaNo) (i : SlotNo) : e₀.Frame (e.releaseSlot a i) := by
  have h1 := (h.upd (State.Frame.setSlot e.st a i .free) (f := (·.setSlot a i .free))).claimDown (e.st.venueOfAnt a)
  unfold Ev.releaseSlot
  dsimp only
  split
  · exact h1.offer a i
  · exact h1

theorem Ev.Frame.offerLowest (h : e₀.Frame e) (a : AntennaNo) : e₀.Frame (e.offerLowest a) := by
  unfold Ev.offerLowest
  split
  · exact h
  · exact h.offer a _

theorem Ev.Frame.finish (h : e₀.Frame e) : e₀.Frame e.finish :=
  Ev.Frame.foldl (e := { e with late := [] }) h _ (fun _ a hx => hx.offerLowest a) _

theorem Ev.Frame.releaseHeld (h : e₀.Frame e) (p : Profile) (svc : Service) (held : Resource) :
    e₀.Frame (e.releaseHeld p svc held) := by
  unfold Ev.releaseHeld
  split
  · exact h.releaseSlot _ _
  · dsimp only
    split
    · exact (h.releasePlace _ _ _ _).removeWait _ _
    · exact h.releasePlace _ _ _ _

theorem Ev.Frame.releaseReserved (h : e₀.Frame e) (p : Profile) (a : AntennaNo) (x : Place) :
    e₀.Frame (e.releaseReserved p a x) := by
  unfold Ev.releaseReserved
  split
  · exact h.releaseSlot _ _
  · exact h.releasePlace _ _ _ _

theorem Ev.Frame.freeCtx (h : e₀.Frame e) (c : ContextNo) : e₀.Frame (e.freeCtx c) := h.upd (State.Frame.setCtx _ c none)

/-! ### Admission -/

theorem Ev.Frame.moveToCarrier (h : e₀.Frame e) (g : Identity) (svc : Service) (held : Resource) :
    e₀.Frame (e.moveToCarrier g svc held) := by
  refine h.upd (State.Frame.updRec _ g _ (fun r => ?_))
  split <;> rfl

theorem Ev.Frame.reseat (h : e₀.Frame e) (a : AntennaNo) (p : Profile) (k : CarrierNo) : e₀.Frame (e.reseat a p k) :=
  (((h.place a k _ _).moveToCarrier _ _ _).emit _).route p a _

theorem Ev.Frame.demote (h : e₀.Frame e) (a : AntennaNo) (p : Profile) (k : CarrierNo) (g : Identity) :
    e₀.Frame (e.demote a p k g) :=
  (((((h.place a k _ _).moveToCarrier _ _ _).appendWait a _).emit _).notify _).route p a _

theorem Ev.Frame.takeSlot (h : e₀.Frame e) (a : AntennaNo) (g : Identity) (plan : SlotPlan) (c : Option ContextNo) :
    e₀.Frame (e.takeSlot a g plan c) := by
  unfold Ev.takeSlot
  split
  · exact (h.upd (State.Frame.setSlot _ a _ _)).claimUp _
  · exact (h.reseat a _ _).upd (State.Frame.setSlot _ a _ _)
  · exact (h.demote a _ _ g).upd (State.Frame.setSlot _ a _ _)

theorem Ev.Frame.takeNeed (h : e₀.Frame e) (a : AntennaNo) (p : Profile) (plan : NeedPlan) (c : Option ContextNo) :
    e₀.Frame (e.takeNeed a p plan c) := by
  unfold Ev.takeNeed
  split
  · exact h.place a _ _ _
  · exact h.takeSlot a _ _ c

theorem Ev.Frame.lostRoute (h : e₀.Frame e) (p : Profile) (lost : Option AntennaNo) : e₀.Frame (e.lostRoute p lost) := by
  unfold Ev.lostRoute
  split
  · exact h
  · exact h.route p _ none

theorem Ev.Frame.deny (h : e₀.Frame e) (g : Identity) (a : AntennaNo) (r : DeniedReason) : e₀.Frame (e.deny g a r) := by
  unfold Ev.deny
  split
  · exact (h.emit _).notify _
  · exact h.notify _

theorem Ev.Frame.refuseJoin (h : e₀.Frame e) (p : Profile) (a : AntennaNo) (r : DeniedReason) (lost : Option AntennaNo) :
    e₀.Frame (e.refuseJoin p a r lost) :=
  (h.deny _ a r).lostRoute p lost

theorem Ev.Frame.grantAdmission (h : e₀.Frame e) (p : Profile) (a : AntennaNo) (plan : NeedPlan) (r : Bool) :
    e₀.Frame (e.grantAdmission p a plan r) :=
  (((h.takeNeed a p plan none).upd (State.Frame.setAtt _ _ _)).emit _).grantNotices p a _ _ r

theorem Ev.Frame.waitAdmission (h : e₀.Frame e) (p : Profile) (a : AntennaNo) (r : Bool) (lost : Option AntennaNo) :
    e₀.Frame (e.waitAdmission p a r lost) :=
  ((h.appendWait a _).upd (State.Frame.setAtt _ _ _)).lostRoute p lost

theorem Ev.Frame.admitOpen (h : e₀.Frame e) (p : Profile) (a : AntennaNo) (r : Bool) (lost : Option AntennaNo) :
    e₀.Frame (e.admitOpen p a r lost) := by
  unfold Ev.admitOpen
  split
  · split
    · exact h.grantAdmission p a _ r
    · split
      · exact h.waitAdmission p a r lost
      · exact h.refuseJoin p a _ lost
  · exact h.refuseJoin p a _ lost

theorem Ev.Frame.admitJoin (h : e₀.Frame e) (p : Profile) (a : AntennaNo) (r : Bool) (lost : Option AntennaNo) :
    e₀.Frame (e.admitJoin p a r lost) := by
  unfold Ev.admitJoin
  dsimp only
  split
  · exact h.refuseJoin p a _ lost
  · split
    · exact h.refuseJoin p a _ lost
    · split
      · exact (h.wakeVenue _).admitOpen p a r lost
      · exact h.refuseJoin p a _ lost
    · exact h.admitOpen p a r lost
    · exact h.admitOpen p a r lost

/-! ### Capture and transfers -/

theorem Ev.Frame.captureAt (h : e₀.Frame e) (r : TapRecord) (n : TapNo) : e₀.Frame (e.captureAt r n) := by
  unfold Ev.captureAt
  dsimp only
  split
  · exact h
  · split
    · split
      · split
        · exact (h.upd (State.Frame.setTap _ n _)).notify _
        · exact (h.upd (State.Frame.setTap _ n _)).notify _
      · exact h.upd (State.Frame.setTap _ n _)
    · exact h.upd (State.Frame.setTap _ n _)

theorem Ev.Frame.capture (h : e₀.Frame e) (r : TapRecord) : e₀.Frame (e.capture r) :=
  h.foldl _ (fun _ n hx => hx.captureAt r n) _

theorem Ev.Frame.startTransfer (h : e₀.Frame e) (p : Profile) (svc : Service) (held : Resource) (tr : Track) (c : ContextNo)
    (a : AntennaNo) (plan : NeedPlan) (cause : Cause) (o : Options) :
    e₀.Frame (e.startTransfer p svc held tr c a plan cause o) :=
  ((((h.wakeIfClosed _).takeNeed a p plan _).upd (State.Frame.setCtx _ c _)).upd (State.Frame.setAtt _ _ _)).emit _

theorem Ev.Frame.convertTarget (h : e₀.Frame e) (m : Moving) : e₀.Frame (e.convertTarget m) := by
  unfold Ev.convertTarget
  split
  · exact h.upd (State.Frame.setSlot _ _ _ _)
  · exact h.convertPlace _ _ _

theorem Ev.Frame.freeCell (h : e₀.Frame e) (a : AntennaNo) (g : Identity) : e₀.Frame (e.freeCell a g) := h.emit _

theorem Ev.Frame.releaseSource (h : e₀.Frame e) (m : Moving) : e₀.Frame (e.releaseSource m) := by
  unfold Ev.releaseSource
  split
  · exact h.releaseHeld _ _ _
  · exact h

theorem Ev.Frame.freeSourceCell (h : e₀.Frame e) (m : Moving) : e₀.Frame (e.freeSourceCell m) := h.emitIf _ _

theorem Ev.Frame.complete (h : e₀.Frame e) (m : Moving) : e₀.Frame (e.complete m) :=
  ((((((h.convertTarget m).freeSourceCell m).releaseSource m).upd (State.Frame.setAtt _ _ _)).freeCtx _).notify _).route _ _ _

theorem Ev.Frame.failed (h : e₀.Frame e) (m : Moving) (r : FailReason) : e₀.Frame (e.failed m r) := h.notify _

theorem Ev.Frame.returnTo (h : e₀.Frame e) (m : Moving) (held : Resource) (r : FailReason) : e₀.Frame (e.returnTo m held r) := by
  have h1 := ((((h.releaseReserved m.profile m.context.targetAnt m.context.target).upd
    (f := fun s => s.setAtt m.profile.ident (.served m.service held
      { candidate := none, count := 0, hearing := unpinTarget m.context.targetAnt s.tuning.backoff m.track.hearing }))
    (State.Frame.setAtt _ _ _)).freeCtx m.ctx).failed m r)
  unfold Ev.returnTo
  dsimp only
  split
  · exact h1.offerLate _
  · exact h1

theorem Ev.Frame.failOrphan (h : e₀.Frame e) (m : Moving) (r : FailReason) : e₀.Frame (e.failOrphan m r) := by
  have h1 := (((((h.releaseReserved m.profile m.context.targetAnt m.context.target).releaseSource m).freeCtx m.ctx).failed
    m r).orphan m.profile.ident m.context.sourceAnt .transfer)
  unfold Ev.failOrphan
  dsimp only
  split
  · exact h1.route _ _ _
  · exact h1

theorem Ev.Frame.giveUp (h : e₀.Frame e) (m : Moving) (r : FailReason) : e₀.Frame (e.giveUp m r) := by
  unfold Ev.giveUp
  split
  · exact h.returnTo m _ r
  · exact h.failOrphan m r

theorem Ev.Frame.dropSource (h : e₀.Frame e) (m : Moving) : e₀.Frame (e.dropSource m) := by
  have h1 := (h.releaseSource m).upd (f := (·.setCtx m.ctx (some { m.context with source := none })))
    (State.Frame.setCtx _ _ _)
  unfold Ev.dropSource
  dsimp only
  split
  · exact (h1.upd (State.Frame.setAtt _ _ _)).route _ _ _
  · exact h1.route _ _ _

theorem Ev.Frame.abortTransfer (h : e₀.Frame e) (m : Moving) (silent : Option AntennaNo) :
    e₀.Frame (e.abortTransfer m silent) := by
  have h1 := (h.freeCell m.context.targetAnt m.profile.ident).releaseReserved m.profile m.context.targetAnt m.context.target
  unfold Ev.abortTransfer
  dsimp only
  split
  · exact (h1.releaseSource m).freeCtx _
  · exact ((h1.freeSourceCell m).releaseSource m).freeCtx _

theorem Ev.Frame.orderMove (h : e₀.Frame e) (m : Moving) : e₀.Frame (e.orderMove m) := by
  have h1 := (h.emit (.goto m.context.sourceAnt m.profile.ident m.context.targetAnt m.context.target)).upd
    (f := (·.setCtx m.ctx (some { m.context with phase := .ordered, timer := e.st.tuning.tMove }))) (State.Frame.setCtx _ _ _)
  unfold Ev.orderMove
  dsimp only
  split
  · exact (h1.freeSourceCell m).dropSource _
  · exact h1

theorem Ev.Frame.lateReady (h : e₀.Frame e) (a : AntennaNo) (g : Identity) : e₀.Frame (e.lateReady a g) := by
  unfold Ev.lateReady
  split
  · exact h
  · exact h.freeCell a g

theorem Ev.Frame.sourceLost (h : e₀.Frame e) (m : Moving) : e₀.Frame (e.sourceLost m) := by
  unfold Ev.sourceLost
  split
  · exact (h.freeCell _ _).failOrphan m _
  · exact h.dropSource m

theorem Ev.Frame.goneMoving (h : e₀.Frame e) (m : Moving) (a : AntennaNo) : e₀.Frame (e.goneMoving m a) := by
  unfold Ev.goneMoving
  split
  · exact h.sourceLost m
  · split
    · exact h.giveUp m _
    · exact h

theorem Ev.Frame.expireTransfer (h : e₀.Frame e) (m : Moving) (r : FailReason) : e₀.Frame (e.expireTransfer m r) :=
  (h.freeCell _ _).giveUp m r

/-! ### The cells of the units -/

theorem Ev.Frame.readyTaken (h : e₀.Frame e) (a : AntennaNo) (g : Identity) : e₀.Frame (e.readyTaken a g) := by
  unfold Ev.readyTaken
  split
  · split
    · split
      · exact h.orderMove _
      · exact h
    · exact h.lateReady a g
  · exact h.lateReady a g

theorem Ev.Frame.noroomTaken (h : e₀.Frame e) (a : AntennaNo) (g : Identity) : e₀.Frame (e.noroomTaken a g) := by
  unfold Ev.noroomTaken
  split
  · split
    · exact h.giveUp _ _
    · exact h
  · exact h

theorem Ev.Frame.joinMoving (h : e₀.Frame e) (m : Moving) (a : AntennaNo) : e₀.Frame (e.joinMoving m a) := by
  unfold Ev.joinMoving
  split
  · exact h.complete m
  · exact (((h.abortTransfer m _).failed m _).detach _).admitJoin _ a _ _

theorem Ev.Frame.reattachRelease (h : e₀.Frame e) (p : Profile) (svc : Service) (held : Resource) (a : AntennaNo) :
    e₀.Frame (e.reattachRelease p svc held a) := by
  unfold Ev.reattachRelease
  dsimp only
  split
  · exact (h.releaseHeld p svc held).detach _
  · exact ((h.freeCell _ _).releaseHeld p svc held).detach _

theorem Ev.Frame.joinTaken (h : e₀.Frame e) (a : AntennaNo) (g : Identity) : e₀.Frame (e.joinTaken a g) := by
  unfold Ev.joinTaken
  split
  · exact h.emit _
  · split
    · exact h.admitJoin _ a _ _
    · split
      · exact h
      · exact ((h.removeWait _ g).detach g).admitJoin _ a _ _
    · exact (h.reattachRelease _ _ _ a).admitJoin _ a _ _
    · split
      · exact h.joinMoving _ a
      · exact h
    · exact (h.detach g).admitJoin _ a _ _

theorem Ev.Frame.lateLanded (h : e₀.Frame e) (a : AntennaNo) (g : Identity) : e₀.Frame (e.lateLanded a g) := by
  unfold Ev.lateLanded
  split
  · exact (h.detach g).admitJoin _ a _ _
  · split
    · exact h
    · exact h.freeCell a g

theorem Ev.Frame.landedTaken (h : e₀.Frame e) (a : AntennaNo) (g : Identity) : e₀.Frame (e.landedTaken a g) := by
  unfold Ev.landedTaken
  split
  · split
    · exact h.complete _
    · exact h.lateLanded a g
  · exact h.lateLanded a g

theorem Ev.Frame.detachWith (h : e₀.Frame e) (p : Profile) (c : DetachCause) (lost : Option AntennaNo) :
    e₀.Frame (e.detachWith p c lost) :=
  ((h.detach _).notify _).lostRoute p lost

theorem Ev.Frame.quitTaken (h : e₀.Frame e) (a : AntennaNo) (g : Identity) : e₀.Frame (e.quitTaken a g) := by
  unfold Ev.quitTaken
  split
  · exact h
  · split
    · exact h
    · exact (h.removeWait _ g).detachWith _ _ _
    · dsimp only
      split
      · exact (h.releaseHeld _ _ _).detachWith _ _ _
      · exact ((h.freeCell _ g).releaseHeld _ _ _).detachWith _ _ _
    · split
      · exact (h.abortTransfer _ _).detachWith _ _ _
      · exact h
    · exact h.detachWith _ _ _

theorem Ev.Frame.goneTaken (h : e₀.Frame e) (a : AntennaNo) (g : Identity) : e₀.Frame (e.goneTaken a g) := by
  unfold Ev.goneTaken
  split
  · exact h
  · split
    · split
      · exact ((h.releaseHeld _ _ _).orphan g _ _).route _ _ _
      · exact h
    · split
      · exact h.goneMoving _ a
      · exact h
    · exact h

theorem Ev.Frame.setTrack (h : e₀.Frame e) (g : Identity) (tr : Track) : e₀.Frame (e.setTrack g tr) :=
  h.upd (State.Frame.updRec _ g _ (fun _ => rfl))

theorem Ev.Frame.requestStart (h : e₀.Frame e) (p : Profile) (svc : Service) (held : Resource) (tr : Track) (a : AntennaNo)
    (c : Cause) : e₀.Frame (e.requestStart p svc held tr a c).1 := by
  unfold Ev.requestStart
  split
  · exact h
  · split
    · exact h
    · exact h.startTransfer p svc held tr _ a _ c _

theorem Ev.Frame.round (h : e₀.Frame e) (p : Profile) (svc : Service) (held : Resource) (tr : Track) :
    e₀.Frame (e.round p svc held tr) := by
  unfold Ev.round
  dsimp only
  split
  · exact (h.setTrack _ _).capture _
  · split
    · exact (h.setTrack _ _).capture _
    · exact ((h.setTrack _ _).requestStart p svc held _ _ _).capture _

theorem Ev.Frame.hearTaken (h : e₀.Frame e) (a : AntennaNo) (g : Identity) (level errors : Byte) :
    e₀.Frame (e.hearTaken a g level errors) := by
  unfold Ev.hearTaken
  split
  · exact h
  · split
    · exact h
    · rename_i tr _
      have h1 : ∀ tr' : Track, ∀ b : Bool, ∀ r : TapRecord, e₀.Frame (((e.setTrack g tr').upd (fun s => s.updRec g (fun r =>
          { r with profile := { r.profile with sticky := r.profile.sticky || b } }))).capture r) :=
        fun tr' b r => ((h.setTrack g tr').upd (State.Frame.updRec _ g _ (by intro x; rfl))).capture r
      dsimp only
      split
      · split
        · exact (h1 _ _ _).round _ _ _ _
        · exact h1 _ _ _
      · exact h1 _ _ _

theorem Ev.Frame.denyWait (h : e₀.Frame e) (a : AntennaNo) (r : DeniedReason) (g : Identity) :
    e₀.Frame (Ev.denyWait a r e g) := by
  have h1 := h.removeWait a g
  unfold Ev.denyWait
  dsimp only
  split
  · exact ((h1.emit _).detach g).notify _
  · exact (h1.detach g).notify _

theorem Ev.Frame.waitExpired (h : e₀.Frame e) (g : Identity) (a : AntennaNo) : e₀.Frame (e.waitExpired g a) :=
  h.denyWait a .full g

theorem Ev.Frame.holdExpired (h : e₀.Frame e) (g : Identity) : e₀.Frame (e.holdExpired g) := (h.detach g).notify _

/-- A cell of any kind but UP and DOWN is handed to an owner that stays in the frame. -/
theorem Ev.Frame.cellEvent (h : e₀.Frame e) (c : RawCell) (k : UnitKind) (a : AntennaNo) (hk : k.isLink = false) :
    e₀.Frame (Ev.cellEvent c k a e) := by
  cases k with
  | hear => exact h.hearTaken a _ _ _
  | join => exact h.joinTaken a _
  | ready => exact h.readyTaken a _
  | noroom => exact h.noroomTaken a _
  | landed => exact h.landedTaken a _
  | gone => exact h.goneTaken a _
  | quit => exact h.quitTaken a _
  | up => cases hk
  | down => cases hk

end Sys2Proof.Machine
end

