-- ==== Sys2Proof/Laws/Reach.lean ====
section
/-! SUPPORT. What the shared operations inside an event reach, said once for each: the part as the event leaves it, with the cells
produced so far at the end of its output queue. The relations of Safety (releases, offers, placements, searches) say what is
reached; an event that ends so, and whose cells have room, is taken. -/

namespace Sys2Proof.Machine

variable {s t u : State} {e : Ev} {due : List AntennaNo}

/-! ## Reaching a state -/

/-- An event without WARM has reached a state, the part as it stands with the cells produced so far sent, and the offers at the
end of it are due at these antennas. -/
structure Ev.To (e : Ev) (due : List AntennaNo) (s : State) : Prop where
  whole : e.st.sends e.cells = s
  late : e.late = due
  noWarm : e.beforeWarm = none

theorem Ev.to_start (s : State) : (Ev.start s).To [] s := ⟨State.sends_nil s, rfl, rfl⟩

@[simp] theorem State.sends_sends (s : State) (x y : List OutCell) : (s.sends x).sends y = s.sends (x ++ y) := by
  simp [State.sends, State.setHead, List.append_assoc]

/-- The sending of cells changes the output queue alone. -/
@[simp] theorem State.ant_sends (s : State) (x : List OutCell) (a : AntennaNo) : (s.sends x).ant a = s.ant a := rfl
@[simp] theorem State.ven_sends (s : State) (x : List OutCell) (v : VenueNo) : (s.sends x).ven v = s.ven v := rfl
@[simp] theorem State.ctx_sends (s : State) (x : List OutCell) (c : ContextNo) : (s.sends x).ctx c = s.ctx c := rfl
@[simp] theorem State.rec_sends (s : State) (x : List OutCell) (h : Identity) : (s.sends x).rec? h = s.rec? h := rfl
@[simp] theorem State.slot_sends (s : State) (x : List OutCell) (a : AntennaNo) (i : SlotNo) :
    (s.sends x).slot a i = s.slot a i := rfl
@[simp] theorem State.carrier_sends (s : State) (x : List OutCell) (a : AntennaNo) (k : CarrierNo) :
    (s.sends x).carrier a k = s.carrier a k := rfl
@[simp] theorem State.lineKind_sends (s : State) (x : List OutCell) (m : LineNo) : (s.sends x).lineKind m = s.lineKind m := rfl
@[simp] theorem State.tuning_sends (s : State) (x : List OutCell) : (s.sends x).tuning = s.tuning := rfl
@[simp] theorem State.registry_sends (s : State) (x : List OutCell) : (s.sends x).registry = s.registry := rfl

/-- A change that does not touch the output queue. -/
theorem Ev.To.upd (h : e.To due s) {f : State → State} (hf : ∀ x, f (e.st.sends x) = (f e.st).sends x) : (e.upd f).To due (f s) :=
  ⟨by rw [← h.whole, hf]; rfl, h.late, h.noWarm⟩

theorem Ev.To.emit (h : e.To due s) (c : OutCell) : (e.emit c).To due (s.sends [c]) :=
  ⟨by rw [← h.whole, State.sends_sends]; rfl, h.late, h.noWarm⟩

theorem Ev.To.emitIf (h : e.To due s) (b : Bool) (c : OutCell) : (e.emitIf b c).To due (s.sends (if b then [c] else [])) := by
  cases b
  · simpa [Ev.emitIf] using h
  · exact h.emit c

theorem Ev.To.notify (h : e.To due s) (n : Notice) : (e.notify n).To due (s.notify n) := h.upd (fun _ => rfl)

theorem Ev.To.route (h : e.To due s) (p : Profile) (a : AntennaNo) (place : Option Place) :
    (e.route p a place).To due (s.routed p a place) := h.notify _

theorem Ev.To.setAtt (h : e.To due s) (g : Identity) (x : Attachment) : (e.upd (·.setAtt g x)).To due (s.setAtt g x) :=
  h.upd (fun _ => rfl)

theorem Ev.To.setSlot (h : e.To due s) (a : AntennaNo) (i : SlotNo) (x : SlotState) :
    (e.upd (·.setSlot a i x)).To due (s.setSlot a i x) := h.upd (fun _ => rfl)

theorem Ev.To.setCarrier (h : e.To due s) (a : AntennaNo) (k : CarrierNo) (x : Carrier) :
    (e.upd (·.setCarrier a k x)).To due (s.setCarrier a k x) := h.upd (fun _ => rfl)

theorem Ev.To.setCtx (h : e.To due s) (c : ContextNo) (x : Option Context) : (e.upd (·.setCtx c x)).To due (s.setCtx c x) :=
  h.upd (fun _ => rfl)

theorem Ev.To.detach (h : e.To due s) (g : Identity) : (e.detach g).To due (s.setAtt g .idle) := h.setAtt g .idle

theorem Ev.To.freeCtx (h : e.To due s) (c : ContextNo) : (e.freeCtx c).To due (s.setCtx c none) := h.setCtx c none

theorem Ev.To.lostRoute (h : e.To due s) (p : Profile) (lost : Option AntennaNo) : (e.lostRoute p lost).To due (s.lostAt p lost) := by
  cases lost
  · exact h
  · exact h.route p _ none

/-- A step for each element of a list, made by an operation that follows it. -/
theorem Ev.To.through {α : Type} {step : α → State → State → Prop} {f : Ev → α → Ev} {l : List α}
    (hf : ∀ {e : Ev} {s u : State} {x : α}, e.To due s → step x s u → (f e x).To due u) (h : e.To due s) (hu : Through step l s u) :
    (l.foldl f e).To due u := by
  induction hu generalizing e with
  | done s => exact h
  | next x l s v t h1 _ ih => exact ih (hf h h1)

/-! ### What the part reads while an event runs -/

theorem Ev.To.ant (h : e.To due s) (a : AntennaNo) : e.st.ant a = s.ant a := by rw [← h.whole]; rfl
theorem Ev.To.ven (h : e.To due s) (v : VenueNo) : e.st.ven v = s.ven v := by rw [← h.whole]; rfl
theorem Ev.To.ctx (h : e.To due s) (c : ContextNo) : e.st.ctx c = s.ctx c := by rw [← h.whole]; rfl
theorem Ev.To.recOf (h : e.To due s) (g : Identity) : e.st.rec? g = s.rec? g := by rw [← h.whole]; rfl
theorem Ev.To.slot (h : e.To due s) (a : AntennaNo) (i : SlotNo) : e.st.slot a i = s.slot a i := by rw [← h.whole]; rfl
theorem Ev.To.carrier (h : e.To due s) (a : AntennaNo) (k : CarrierNo) : e.st.carrier a k = s.carrier a k := by
  rw [← h.whole]; rfl
theorem Ev.To.lineKind (h : e.To due s) (m : LineNo) : e.st.lineKind m = s.lineKind m := by rw [← h.whole]; rfl
theorem Ev.To.tuning (h : e.To due s) : e.st.tuning = s.tuning := by rw [← h.whole]; rfl
theorem Ev.To.placementTest (h : e.To due s) (a : AntennaNo) (m : LineNo) : e.st.placementTest a m = s.placementTest a m := by
  rw [← h.whole]; rfl
theorem Ev.To.slotSearch (h : e.To due s) (a : AntennaNo) (c : ClassNo) (b : Bool) :
    e.st.slotSearch a c b = s.slotSearch a c b := by rw [← h.whole]; rfl
theorem Ev.To.findNeed (h : e.To due s) (a : AntennaNo) (p : Profile) (b : Bool) : e.st.findNeed a p b = s.findNeed a p b := by
  rw [← h.whole]; rfl
theorem Ev.To.freeSlot (h : e.To due s) (a : AntennaNo) : e.st.freeSlot a = s.freeSlot a := by rw [← h.whole]; rfl
theorem Ev.To.movingOf (h : e.To due s) (g : Identity) : e.st.movingOf g = s.movingOf g := by rw [← h.whole]; rfl

/-! ## Claims -/

theorem Ev.To.modeCells (h : e.To due s) (units : List AntennaNo) (b : Bool) :
    (e.modeCells units b).To due (s.sends (units.map (fun a => .mode a b))) :=
  ⟨by rw [← h.whole, State.sends_sends]; rfl, h.late, h.noWarm⟩

theorem Ev.To.claimUp (h : e.To due s) (v : VenueNo) : (e.claimUp v).To due (s.claimed v) := h.upd (fun _ => rfl)

theorem State.setVen_setVen (s : State) (v : VenueNo) (x y : Venue) : (s.setVen v x).setVen v y = s.setVen v y := by
  simp [State.setVen]

theorem State.setCtx_setCtx (s : State) (c : ContextNo) (x y : Option Context) : (s.setCtx c x).setCtx c y = s.setCtx c y := by
  simp [State.setCtx]

/-- A change of a venue's state leaves its antennas in place. -/
theorem State.unitsOf_setVen (s : State) (v w : VenueNo) (x : Venue) : (s.setVen v x).unitsOf w = s.unitsOf w := rfl

theorem Ev.To.venueUnits (h : e.To due s) (v : VenueNo) : e.st.venueUnits v = s.unitsOf v := by
  rw [← h.whole]; rfl

/-- A venue becomes CLOSED (R43, R44). -/
theorem Ev.To.closeVenue (h : e.To due s) (v : VenueNo) (c : VenueCause) : (e.closeVenue v c).To due
    (((s.setVen v { s.ven v with state := .closed }).sends ((s.unitsOf v).map (fun a => .mode a false))).notify
      (.venueState v .closed c)) := by
  have h1 : (e.upd (·.setVenueState v .closed)).To due (s.setVen v { s.ven v with state := .closed }) := h.upd (fun _ => rfl)
  have h2 := (h1.modeCells ((e.upd (·.setVenueState v .closed)).st.venueUnits v) false).notify (.venueState v .closed c)
  rw [h1.venueUnits, State.unitsOf_setVen] at h2
  unfold Ev.closeVenue
  simp only [h1.venueUnits, State.unitsOf_setVen]
  exact h2

/-- The wake of a venue (R45). -/
theorem Ev.To.wakeVenue (h : e.To due s) (v : VenueNo) : (e.wakeVenue v).To due
    (((s.setVen v { s.ven v with state := .opened }).sends ((s.unitsOf v).map (fun a => .mode a true))).notify
      (.venueState v .opened .wake)) := by
  have h1 : (e.upd (·.setVenueState v .opened)).To due (s.setVen v { s.ven v with state := .opened }) := h.upd (fun _ => rfl)
  have h2 := (h1.modeCells ((e.upd (·.setVenueState v .opened)).st.venueUnits v) true).notify (.venueState v .opened .wake)
  rw [h1.venueUnits, State.unitsOf_setVen] at h2
  unfold Ev.wakeVenue
  simp only [h1.venueUnits, State.unitsOf_setVen]
  exact h2

/-- The end of a claim (R40, R44). -/
theorem Ev.To.claimDown (h : e.To due s) (v : VenueNo) : (e.claimDown v).To due (s.claimEnded v) := by
  have h1 : (e.upd (fun s => s.setVen v { s.ven v with claims := (s.ven v).claims - 1 })).To due (s.unclaimed v) :=
    h.upd (fun _ => rfl)
  unfold Ev.claimDown State.claimEnded
  simp only [h1.ven]
  by_cases hc : (s.ven v).state = .draining ∧ (s.ven v).claims ≤ 1
  · have hc' : ((s.unclaimed v).ven v).state = .draining ∧ ((s.unclaimed v).ven v).claims = 0 := by
      simpa [State.unclaimed, Nat.sub_eq_zero_iff_le] using hc
    rw [if_pos hc, if_pos hc']
    have h2 := h1.closeVenue v .drained
    have e0 : (s.ven v).claims - 1 = 0 := by omega
    have e1 : (s.unclaimed v).setVen v { (s.unclaimed v).ven v with state := .closed } =
        s.setVen v { s.ven v with state := .closed, claims := 0 } := by
      simp [State.unclaimed, State.setVen_setVen, e0]
    have e2 : (s.unclaimed v).unitsOf v = s.unitsOf v := rfl
    rwa [e1, e2] at h2
  · have hc' : ¬ (((s.unclaimed v).ven v).state = .draining ∧ ((s.unclaimed v).ven v).claims = 0) := by
      simpa [State.unclaimed, Nat.sub_eq_zero_iff_le] using hc
    rw [if_neg hc, if_neg hc']
    exact h1

theorem Ev.To.removeWait (h : e.To due s) (a : AntennaNo) (g : Identity) : (e.removeWait a g).To due (s.entryEnded a g) := by
  have h1 : (e.upd (fun s => s.setWait a ((s.ant a).wait.eraseP (fun w => w.headset == g)))).To due
      (s.setWait a ((s.ant a).wait.eraseP (fun w => w.headset == g))) := h.upd (fun _ => rfl)
  unfold Ev.removeWait State.entryEnded State.venueOfAnt
  rw [h.ant]
  exact h1.claimDown _

theorem Ev.To.appendWait (h : e.To due s) (a : AntennaNo) (w : WaitEntry) :
    (e.appendWait a w).To due ((s.setWait a ((s.ant a).wait ++ [w])).claimed (s.ant a).venue) := by
  have h1 : (e.upd (fun s => s.setWait a ((s.ant a).wait ++ [w]))).To due (s.setWait a ((s.ant a).wait ++ [w])) :=
    h.upd (fun _ => rfl)
  unfold Ev.appendWait State.venueOfAnt
  rw [h.ant]
  exact h1.claimUp _

/-! ### What the end of a claim leaves -/

@[simp] theorem State.ant_claimEnded (s : State) (v : VenueNo) (a : AntennaNo) : (s.claimEnded v).ant a = s.ant a := by
  unfold State.claimEnded; split <;> rfl
@[simp] theorem State.ctx_claimEnded (s : State) (v : VenueNo) (c : ContextNo) : (s.claimEnded v).ctx c = s.ctx c := by
  unfold State.claimEnded; split <;> rfl
@[simp] theorem State.rec_claimEnded (s : State) (v : VenueNo) (g : Identity) : (s.claimEnded v).rec? g = s.rec? g := by
  unfold State.claimEnded; split <;> rfl
@[simp] theorem State.registry_claimEnded (s : State) (v : VenueNo) : (s.claimEnded v).registry = s.registry := by
  unfold State.claimEnded; split <;> rfl
@[simp] theorem State.tuning_claimEnded (s : State) (v : VenueNo) : (s.claimEnded v).tuning = s.tuning := by
  unfold State.claimEnded; split <;> rfl

@[simp] theorem State.wait_slotEnded (s : State) (a : AntennaNo) (i : SlotNo) :
    ((s.slotEnded a i).ant a).wait = (s.ant a).wait := by simp [State.slotEnded, State.setSlot]

/-- A slot released where nothing waits (R30). -/
theorem State.releasesSlot_of_wait_nil {s : State} {a : AntennaNo} (i : SlotNo) (h : (s.ant a).wait = []) :
    s.ReleasesSlot a i (s.slotEnded a i) := by
  unfold State.ReleasesSlot
  split
  · exact .unchosen (by simp [h])
  · rfl

/-- A slot released at an OFFLINE antenna (R30, R33). -/
theorem State.releasesSlot_of_offline {s : State} {a : AntennaNo} (i : SlotNo) (h : (s.ant a).online = false) :
    s.ReleasesSlot a i (s.slotEnded a i) := by
  unfold State.ReleasesSlot
  rw [if_neg (by simp [h])]

/-- A slot released at an ONLINE antenna, with what its offer gives (R30). -/
theorem State.releasesSlot_of_offers {s u : State} {a : AntennaNo} {i : SlotNo} (h : (s.ant a).online = true)
    (hu : (s.slotEnded a i).Offers a i u) : s.ReleasesSlot a i u := by
  unfold State.ReleasesSlot
  rwa [if_pos h]

/-! ## Places -/

theorem Carrier.dropPlace_split {before behind : Carrier} {m : LineNo} {n r : Nat} (reserved : Bool)
    (ho : ∀ l ∈ before ++ behind, l.line ≠ m ∧ 1 ≤ l.served + l.reserved) :
    Carrier.dropPlace (before ++ ⟨m, n, r⟩ :: behind) m reserved =
      before ++ (if 1 ≤ (if reserved then n else n - 1) + (if reserved then r - 1 else r) then
        [⟨m, if reserved then n else n - 1, if reserved then r - 1 else r⟩] else []) ++ behind := by
  have key : ∀ x : Carrier, (∀ l ∈ x, l.line ≠ m ∧ 1 ≤ l.served + l.reserved) → ∀ f : CarrierLine → CarrierLine,
      (x.map (fun l => if l.line = m then f l else l)).filter (fun l => decide (1 ≤ l.served + l.reserved)) = x := by
    intro x hx f
    have e1 : x.map (fun l => if l.line = m then f l else l) = x :=
      (List.map_congr_left (fun l hl => if_neg (hx l hl).1)).trans (List.map_id x)
    rw [e1, List.filter_eq_self]
    intro l hl
    simpa using (hx l hl).2
  have hb := key before (fun l hl => ho l (List.mem_append_left _ hl))
  have hb' := key behind (fun l hl => ho l (List.mem_append_right _ hl))
  unfold Carrier.dropPlace
  rw [List.map_append, List.map_cons, List.filter_append, List.filter_cons, hb, hb']
  cases reserved <;> simp only [if_true, Bool.false_eq_true, if_false] <;> split <;> simp_all

/-- A change of a carrier's content that keeps its line set. -/
theorem Ev.To.changeCarrier_same (h : e.To due s) (a : AntennaNo) (k : CarrierNo) (x : Carrier)
    (hx : (s.carrier a k).map (·.line) = x.map (·.line)) : (e.changeCarrier a k x).To due (s.setCarrier a k x) := by
  have h1 := h.setCarrier a k x
  unfold Ev.changeCarrier Carrier.lines
  rw [h.carrier, hx]
  simpa using h1

/-- A change of a carrier's line set, with the MIX cell to an ONLINE antenna and the MIX notice (R57 to R59). -/
theorem Ev.To.changeCarrier_other (h : e.To due s) (a : AntennaNo) (k : CarrierNo) (x : Carrier)
    (hx : (s.carrier a k).map (·.line) ≠ x.map (·.line)) :
    (e.changeCarrier a k x).To due (((s.sends (if (s.ant a).online then [.mix a k (x.map (·.line))] else [])).setCarrier a k
      x).notify (.mix a k (x.map (·.line)))) := by
  have h1 := h.setCarrier a k x
  have h2 := (h1.emitIf (s.ant a).online (.mix a k (x.map (·.line)))).notify (.mix a k (x.map (·.line)))
  unfold Ev.changeCarrier Carrier.lines
  rw [h.carrier]
  simp only [decide_eq_true hx, if_true]
  unfold Ev.mixChanged Carrier.lines
  rw [h1.carrier, h1.ant]
  have e1 : (s.setCarrier a k x).carrier a k = x := by simp [State.carrier, State.setCarrier]
  have e2 : ((s.setCarrier a k x).ant a).online = (s.ant a).online := by simp [State.setCarrier]
  rw [e1, e2]
  exact h2

/-- The release of a listener place (R56, R57). -/
theorem Ev.To.releasePlace (h : e.To due s) {a : AntennaNo} {k : CarrierNo} {m : LineNo} {reserved : Bool}
    (hu : s.EndsPlace a k m reserved u) : (e.releasePlace a k m reserved).To due u := by
  cases hu with
  | stays before behind n r n' r' hk ho hn h1 =>
    have hd := Carrier.dropPlace_split (n := n) (r := r) reserved ho
    have hd' : Carrier.dropPlace (s.carrier a k) m reserved = before ++ ⟨m, n', r'⟩ :: behind := by
      rw [hk, hd]
      rcases hn with ⟨rfl, rfl, rfl⟩ | ⟨rfl, rfl, rfl⟩ <;> simp only [if_true, Bool.false_eq_true, if_false, h1] <;> simp
    have h2 := h.changeCarrier_same a k (before ++ ⟨m, n', r'⟩ :: behind) (by rw [hk]; simp)
    unfold Ev.releasePlace State.venueOfAnt
    rw [h.carrier, hd', h.ant]
    exact h2.claimDown _
  | leaves before behind n r hk ho hn =>
    have hd := Carrier.dropPlace_split (n := n) (r := r) reserved ho
    have hd' : Carrier.dropPlace (s.carrier a k) m reserved = before ++ behind := by
      rw [hk, hd]
      rcases hn with ⟨rfl, h1, rfl⟩ | ⟨rfl, rfl, h1⟩ <;> simp <;> omega
    have h2 := h.changeCarrier_other a k (before ++ behind) (by
      rw [hk]
      intro hh
      have := congrArg List.length hh
      simp at this)
    unfold Ev.releasePlace State.venueOfAnt
    rw [h.carrier, hd', h.ant]
    exact h2.claimDown _

/-! ## Offers and releases -/

theorem State.not_considers {x : WaitEntry} : s.considers x = false ↔ s.passesOver x := by
  unfold State.considers State.passesOver State.isTransferring
  cases hk : x.kind with
  | join m => simp
  | promote =>
    simp only [true_and]
    cases hr : s.rec? x.headset with
    | none => simp
    | some r =>
      obtain ⟨q, p, att⟩ := r
      cases att <;> simp [Attachment.inTransfer]

theorem State.offerChoice_none {a : AntennaNo} (h : ∀ x ∈ (s.ant a).wait, s.passesOver x) : s.offerChoice a = none := by
  have : (s.ant a).wait.filter s.considers = [] := by
    rw [List.filter_eq_nil_iff]
    intro x hx
    simp [State.not_considers.mpr (h x hx)]
  unfold State.offerChoice
  rw [this]
  simp [chooseEntry]

theorem State.offerChoice_some {a : AntennaNo} {before behind : List WaitEntry} {w : WaitEntry}
    (h : s.offerChooses a before w behind) : s.offerChoice a = some w := by
  obtain ⟨h1, h2, h3, l, r, h4, h5⟩ := h
  have hw : s.considers w = true := by
    cases hc : s.considers w with
    | true => rfl
    | false => exact absurd (State.not_considers.mp hc) h2
  show chooseEntry (s.offerOrder a) _ = some w
  rw [h4]
  unfold chooseEntry
  rw [List.findSome?_append]
  have hl : l.findSome? (fun c => ((s.ant a).wait.filter s.considers).find? (fun w => w.cls == c)) = none := by
    rw [List.findSome?_eq_none_iff]
    intro c hc
    rw [List.find?_eq_none]
    intro x hx
    rw [List.mem_filter] at hx
    simp only [beq_iff_eq]
    rintro rfl
    have := State.not_considers.mpr (h5 x hx.1 hc)
    simp [this] at hx
  rw [hl, Option.none_or, List.findSome?_cons]
  have hf : ((s.ant a).wait.filter s.considers).find? (fun x => x.cls == w.cls) = some w := by
    rw [h1, List.filter_append, List.find?_append]
    have hb : (before.filter s.considers).find? (fun x => x.cls == w.cls) = none := by
      rw [List.find?_eq_none]
      intro x hx
      rw [List.mem_filter] at hx
      simp only [beq_iff_eq]
      intro hc
      have := State.not_considers.mpr ((h3 x hx.1).2 hc)
      simp [this] at hx
    rw [hb, Option.none_or, List.filter_cons, if_pos hw]
    simp
  rw [hf]

theorem Ev.To.offerChoice (h : e.To due s) (a : AntennaNo) : e.st.offerChoice a = s.offerChoice a := by rw [← h.whole]; rfl

theorem Ev.To.rotate (h : e.To due s) (a : AntennaNo) (c : ClassNo) : (e.upd (·.rotate a c)).To due (s.rotatedTo a c) := by
  have e1 : s.rotatedTo a c = s.rotate a c := rfl
  rw [e1]
  refine h.upd (fun x => ?_)
  unfold State.rotate
  simp only [State.tuning_sends]
  cases e.st.tuning.arbitration <;> rfl

theorem Ev.To.slotPassed (h : e.To due s) (a : AntennaNo) (i : SlotNo) (g : Identity) :
    (((e.removeWait a g).claimSlot a i g).emit (.seat a g (.slot i))).To due (s.slotPassed a i g) := by
  have h1 := h.removeWait a g
  have h2 := ((h1.setSlot a i (.held g)).claimUp (s.ant a).venue).emit (.seat a g (.slot i))
  have e1 : (e.removeWait a g).st.venueOfAnt a = (s.ant a).venue := by
    have hf := ((Ev.Frame.refl e).removeWait a g).1.ants a
    have hv : ((e.removeWait a g).st.ant a).venue = (e.st.ant a).venue := congrArg (·.2.1) hf
    rw [State.venueOfAnt, hv, h.ant]
  unfold Ev.claimSlot
  rw [e1]
  exact h2

/-- The offer of a slot (R109 to R113). -/
theorem Ev.To.offer (h : e.To due s) {a : AntennaNo} {i : SlotNo} (hu : s.Offers a i u) : (e.offer a i).To due u := by
  cases hu with
  | unchosen hn =>
    unfold Ev.offer
    rw [h.offerChoice, State.offerChoice_none hn]
    exact h
  | grant before behind g mark c q pg att svc hc hr hm =>
    have hp : pg.ident = g := State.ident_of_rec hr
    have hsv : slotService pg = svc := by
      rcases hm with ⟨h1, rfl⟩ | ⟨h1, rfl⟩ <;> simp [slotService, h1]
    have h1 := h.slotPassed a i g
    have h2 := (((h1.setAtt g (.served svc ⟨a, .slot i⟩ (Track.granted a))).notify
      (if mark then .recovered g a (.slot i) svc else .attached g a (.slot i) svc)).route pg a (some (.slot i))).rotate a c
    unfold Ev.offer
    rw [h.offerChoice, State.offerChoice_some hc]
    simp only [Ev.grantEntry, h.recOf, hr, Ev.grantJoin, hp, hsv, Ev.grantNotices]
    exact h2
  | promote before behind g c q pg svc b k tg u hc hr hk =>
    have hp : pg.ident = g := State.ident_of_rec hr
    have h1 := (h.slotPassed a i g).releasePlace hk
    have h2 := (((h1.setAtt g (.served .talk ⟨a, .slot i⟩ tg)).notify (.promoted g a i)).route pg a (some (.slot i))).rotate
      a c
    unfold Ev.offer
    rw [h.offerChoice, State.offerChoice_some hc]
    simp only [Ev.grantEntry, h.recOf, hr, Ev.promote, hp]
    exact h2

theorem Ev.To.slotEnded (h : e.To due s) (a : AntennaNo) (i : SlotNo) :
    ((e.upd (·.setSlot a i .free)).claimDown (e.st.venueOfAnt a)).To due (s.slotEnded a i) := by
  unfold State.venueOfAnt State.slotEnded
  rw [h.ant]
  exact (h.setSlot a i .free).claimDown _

/-- The release of a slot (R30). -/
theorem Ev.To.releaseSlot (h : e.To due s) {a : AntennaNo} {i : SlotNo} (hu : s.ReleasesSlot a i u) :
    (e.releaseSlot a i).To due u := by
  have h1 := h.slotEnded a i
  have e1 : ((s.slotEnded a i).ant a).online = (s.ant a).online := by
    have hf := (((Ev.Frame.refl e).upd (f := (·.setSlot a i .free)) (State.Frame.setSlot e.st a i .free)).claimDown (e.st.venueOfAnt a)).1.ants a
    have := congrArg (·.2.2.1) hf
    rw [← h1.ant, ← h.ant]
    exact this
  unfold State.ReleasesSlot at hu
  unfold Ev.releaseSlot
  simp only [h1.ant, e1]
  by_cases ho : (s.ant a).online = true
  · rw [if_pos ho] at hu ⊢
    exact h1.offer hu
  · rw [if_neg ho] at hu ⊢
    rw [hu]
    exact h1

/-- The release of a held resource (R30, R56, R114). -/
theorem Ev.To.releaseHeld (h : e.To due s) {p : Profile} {svc : Service} {held : Resource}
    (hu : s.Releases p svc held.ant held.place u) : (e.releaseHeld p svc held).To due u := by
  obtain ⟨a, place⟩ := held
  cases place with
  | slot i => exact h.releaseSlot hu
  | carrier k =>
    unfold State.Releases at hu
    unfold Ev.releaseHeld
    simp only at hu ⊢
    split at hu
    · rename_i hs
      obtain ⟨u₁, h1, rfl⟩ := hu
      rw [if_pos hs]
      exact (h.releasePlace h1).removeWait _ _
    · rename_i hs
      rw [if_neg hs]
      exact h.releasePlace hu

/-- The release of a reservation (R30, R56). -/
theorem Ev.To.releaseReserved (h : e.To due s) {p : Profile} {a : AntennaNo} {place : Place}
    (hu : s.ReleasesReserved p a place u) : (e.releaseReserved p a place).To due u := by
  cases place with
  | slot i => exact h.releaseSlot hu
  | carrier k => exact h.releasePlace hu

end Sys2Proof.Machine
end

