-- ==== Sys2Proof/Laws/Admission.lean ====
section
/-! SUPPORT. What the placements and searches of the admission unit find and take, said once for each, in the terms of Safety. -/

namespace Sys2Proof.Machine

variable {s t u w : State} {e : Ev} {a : AntennaNo} {due : List AntennaNo}

/-! ## Searches in order -/

/-- A search by number finds the lowest that passes. -/
theorem find_finRange {n : Nat} {p : Fin n → Bool} {k : Fin n} (hk : p k = true) (h : ∀ j, j < k → p j = false) :
    (List.finRange n).find? p = some k := by
  rw [List.find?_eq_some_iff_getElem]
  refine ⟨hk, k.val, by simp, by simp, ?_⟩
  intro j hj
  simp [h ⟨j, by omega⟩ (by simpa [Fin.lt_def] using hj)]

theorem find_finRange_none {n : Nat} {p : Fin n → Bool} (h : ∀ j, p j = false) : (List.finRange n).find? p = none := by
  rw [List.find?_eq_none]
  intro j _
  simp [h j]

/-- A search through a sorted list finds what its first element with a result gives. -/
theorem findSome_sorted {α β : Type} {R : α → α → Prop} {l : List α} {f : α → Option β} {k : α} {b : β} (hl : l.Pairwise R)
    (hk : k ∈ l) (hf : f k = some b) (hn : ∀ j, R j k → f j = none) : l.findSome? f = some b := by
  obtain ⟨x, y, rfl⟩ := List.append_of_mem hk
  rw [List.pairwise_append] at hl
  have : x.findSome? f = none := by
    rw [List.findSome?_eq_none_iff]
    exact fun j hj => hn j (hl.2.2 j hj k List.mem_cons_self)
  rw [List.findSome?_append, this, Option.none_or, List.findSome?_cons, hf]

theorem slotsDown_sorted : slotsDown.Pairwise (fun j i => i < j) := by decide

theorem mem_slotsDown (i : SlotNo) : i ∈ slotsDown := by simp [slotsDown, allSlots]

/-! ## Placements -/

theorem Carrier.carries_eq_true {c : Carrier} {m : LineNo} : c.carries m = true ↔ ∃ l ∈ c, l.line = m := by
  simp [Carrier.carries]

theorem Carrier.carries_eq_false {c : Carrier} {m : LineNo} : c.carries m = false ↔ ∀ l ∈ c, l.line ≠ m := by
  simp [Carrier.carries]

/-- A line joins a line set at its place (R58). -/
theorem Carrier.insertLine_split {before behind : Carrier} {x : CarrierLine} (hb : ∀ l ∈ before, l.line < x.line)
    (hh : ∀ l ∈ behind, x.line < l.line) : Carrier.insertLine x (before ++ behind) = before ++ x :: behind := by
  induction before with
  | nil =>
    cases behind with
    | nil => rfl
    | cons l rest => simp [Carrier.insertLine, hh l List.mem_cons_self]
  | cons l before ih =>
    have h1 : ¬ x.line < l.line := lt_asymm (hb l List.mem_cons_self)
    simp only [List.cons_append, Carrier.insertLine, if_neg h1]
    rw [ih (fun l hl => hb l (List.mem_cons_of_mem _ hl))]

/-- A further place of a line that a carrier carries (R53). -/
theorem Carrier.addPlace_split {before behind : Carrier} {m : LineNo} {n r : Nat} (reserved : Bool)
    (ho : ∀ l ∈ before ++ behind, l.line ≠ m) : Carrier.addPlace (before ++ ⟨m, n, r⟩ :: behind) m reserved =
      before ++ ⟨m, if reserved then n else n + 1, if reserved then r + 1 else r⟩ :: behind := by
  have hc : Carrier.carries (before ++ ⟨m, n, r⟩ :: behind) m = true := Carrier.carries_eq_true.mpr ⟨⟨m, n, r⟩, by simp, rfl⟩
  have key : ∀ x : Carrier, (∀ l ∈ x, l.line ≠ m) → ∀ f : CarrierLine → CarrierLine,
      x.map (fun l => if l.line = m then f l else l) = x := fun x hx _ =>
    (List.map_congr_left (fun l hl => if_neg (hx l hl))).trans (List.map_id x)
  unfold Carrier.addPlace
  rw [if_pos hc, List.map_append, List.map_cons, key before (fun l hl => ho l (List.mem_append_left _ hl)),
    key behind (fun l hl => ho l (List.mem_append_right _ hl))]
  cases reserved <;> simp

theorem CarrierLine.line_one (m : LineNo) (reserved : Bool) : (CarrierLine.one m reserved).line = m := by
  cases reserved <;> rfl

/-- The first place of a line on a carrier that does not carry it (R53). -/
theorem Carrier.addPlace_one {before behind : Carrier} {m : LineNo} (reserved : Bool)
    (ho : ∀ l ∈ before ++ behind, l.line ≠ m) (hb : ∀ l ∈ before, l.line < m) (hh : ∀ l ∈ behind, m < l.line) :
    Carrier.addPlace (before ++ behind) m reserved = before ++ CarrierLine.one m reserved :: behind := by
  have hl := CarrierLine.line_one m reserved
  unfold Carrier.addPlace
  rw [Carrier.carries_eq_false.mpr ho]
  exact Carrier.insertLine_split (x := CarrierLine.one m reserved) (by rw [hl]; exact hb) (by rw [hl]; exact hh)

theorem State.mixed_iff {x : Carrier} (hx : x ≠ []) :
    (s.carrierState x == .mixed && decide (x.length < Config.linesPerCarrier)) = true ↔ ¬ s.closedCarrier x := by
  cases x with
  | nil => exact absurd rfl hx
  | cons l rest =>
    unfold State.carrierState State.closedCarrier
    have : (s.lineKind l.line = .cue) ∨ (s.lineKind l.line = .opened) := by cases s.lineKind l.line <;> simp
    rcases this with h | h <;> simp [h, Config.linesPerCarrier]
    omega

/-- The placement test where no placement is possible (R52 step 4, R54). -/
theorem State.placementTest_none {m : LineNo} (h : s.noPlace a m) : s.placementTest a m = none := by
  obtain ⟨h1, h2⟩ := h
  unfold State.placementTest allCarriers
  rw [find_finRange_none (fun j => Carrier.carries_eq_false.mpr (h1 j).1),
    find_finRange_none (fun j => by simpa using (h1 j).2)]
  dsimp only
  split
  · rfl
  · rcases h2 with h2 | h2
    · simp [h2]
    · split
      · refine find_finRange_none (fun j => ?_)
        have := State.mixed_iff (s := s) (h1 j).2
        rw [← Bool.not_eq_true, this]
        exact fun h => h (h2 j)
      · rfl

/-- Where a placement is possible, the test finds a carrier (R54). -/
theorem State.placementTest_isSome {m : LineNo} (hon : (s.ant a).present = true ∧ (s.ant a).online = true)
    (h : ¬ s.noPlace a m) : (s.placementTest a m).isSome = true := by
  unfold State.placementTest allCarriers
  simp only [hon.1, hon.2, Bool.not_true, Bool.or_self, Bool.false_eq_true, if_false]
  cases h1 : (List.finRange 4).find? (fun k => (s.carrier a k).carries m) with
  | some k => rfl
  | none =>
    cases h2 : (List.finRange 4).find? (fun k => (s.carrier a k).isEmpty) with
    | some k => rfl
    | none =>
      rw [List.find?_eq_none] at h1 h2
      have hc : ∀ j : CarrierNo, (∀ l ∈ s.carrier a j, l.line ≠ m) ∧ s.carrier a j ≠ [] := fun j =>
        ⟨Carrier.carries_eq_false.mp (by simpa using h1 j (by simp)), by simpa using h2 j (by simp)⟩
      have hk : s.lineKind m = .opened := by
        cases hk : s.lineKind m with
        | opened => rfl
        | cue => exact absurd ⟨hc, .inl hk⟩ h
      have hx : ∃ j : CarrierNo, ¬ s.closedCarrier (s.carrier a j) := by
        by_contra hx
        exact h ⟨hc, .inr (fun j => by_contra (fun hj => hx ⟨j, hj⟩))⟩
      obtain ⟨j, hj⟩ := hx
      simp only [hk, if_true]
      rw [List.find?_isSome]
      exact ⟨j, by simp, (State.mixed_iff (hc j).2).mpr hj⟩

/-- A placement (R52, R53). -/
theorem Ev.To.place (h : e.To due s) (hon : (s.ant a).present = true ∧ (s.ant a).online = true) {k : CarrierNo} {m : LineNo}
    {reserved : Bool} (hu : s.Places a m reserved k u) : s.placementTest a m = some k ∧ (e.place a k m reserved).To due u := by
  have hp : s.placementTest a m = match (List.finRange 4).find? (fun k => (s.carrier a k).carries m) with
      | some k => some k
      | none =>
        match (List.finRange 4).find? (fun k => (s.carrier a k).isEmpty) with
        | some k => some k
        | none =>
          if s.lineKind m = .opened then
            (List.finRange 4).find? (fun k =>
              s.carrierState (s.carrier a k) == .mixed && decide ((s.carrier a k).length < Config.linesPerCarrier))
          else none := by
    unfold State.placementTest allCarriers
    -- the module sees another name of the same match than the joined text, where the goal is closed already
    simp only [hon.1, hon.2, Bool.not_true, Bool.or_self, Bool.false_eq_true, if_false] <;> rfl
  have hv' : e.st.venueOfAnt a = (s.ant a).venue := by rw [State.venueOfAnt, h.ant]
  unfold Ev.place
  rw [h.carrier, hp, hv']
  cases hu with
  | carried before behind n r n' r' hk ho hl hn =>
    refine ⟨?_, ?_⟩
    · rw [find_finRange (k := k) (Carrier.carries_eq_true.mpr ⟨⟨m, n, r⟩, by simp [hk], rfl⟩)
        (fun j hj => Carrier.carries_eq_false.mpr (hl j hj))]
    · rw [hk, Carrier.addPlace_split reserved ho]
      have := (h.changeCarrier_same a k (before ++ ⟨m, n', r'⟩ :: behind) (by rw [hk]; simp)).claimUp (s.ant a).venue
      rcases hn with ⟨rfl, rfl, rfl⟩ | ⟨rfl, rfl, rfl⟩ <;> exact this
  | fresh hk =>
    obtain ⟨h1, h2, h3⟩ := hk
    refine ⟨?_, ?_⟩
    · rw [find_finRange_none (fun j => Carrier.carries_eq_false.mpr (h1 j)),
        find_finRange (k := k) (by simp [h2]) (fun j hj => by simpa using h3 j hj)]
    · have e1 : Carrier.addPlace (s.carrier a k) m reserved = [CarrierLine.one m reserved] := by
        rw [h2]
        exact Carrier.addPlace_one (before := []) (behind := []) reserved (by simp) (by simp) (by simp)
      have := (h.changeCarrier_other a k [CarrierLine.one m reserved] (by rw [h2]; simp)).claimUp (s.ant a).venue
      rw [e1]
      simpa [hon.2, CarrierLine.line_one] using this
  | mixed before behind h1 hm hk hb hh hc hl =>
    refine ⟨?_, ?_⟩
    · rw [find_finRange_none (fun j => Carrier.carries_eq_false.mpr (h1 j).1),
        find_finRange_none (fun j => by simpa using (h1 j).2)]
      simp only [hm, if_true]
      refine find_finRange ((State.mixed_iff (h1 k).2).mpr hc) (fun j hj => ?_)
      rw [← Bool.not_eq_true, State.mixed_iff (h1 j).2]
      exact fun h => h (hl j hj)
    · have e1 : Carrier.addPlace (s.carrier a k) m reserved = before ++ CarrierLine.one m reserved :: behind := by
        rw [hk]
        exact Carrier.addPlace_one reserved (by rw [← hk]; exact (h1 k).1) hb hh
      have := (h.changeCarrier_other a k (before ++ CarrierLine.one m reserved :: behind) (by
        rw [hk]
        intro hh
        have := congrArg List.length hh
        simp at this)).claimUp (s.ant a).venue
      rw [e1]
      simpa [hon.2, CarrierLine.line_one] using this

/-! ## The talk slot search -/

theorem State.slotHolder_some {i : SlotNo} {svc : Service} {p : Profile} (h : s.slotHolder a i svc = some p) :
    ∃ g q held tr, s.slot a i = .held g ∧ s.rec? g = some ⟨q, p, .served svc held tr⟩ := by
  unfold State.slotHolder at h
  split at h
  · rename_i g hs
    split at h
    · rename_i p' svc' held tr hr
      split at h
      · rename_i hc
        subst hc
        cases h
        exact ⟨g, _, held, tr, hs, hr⟩
      · cases h
    · cases h
  · cases h

theorem State.slotHolder_eq {i : SlotNo} {svc : Service} {p : Profile} {g : Identity} {q : Position} {held : Resource}
    {tr : Track} (h1 : s.slot a i = .held g) (h2 : s.rec? g = some ⟨q, p, .served svc held tr⟩) :
    s.slotHolder a i svc = some p := by
  simp [State.slotHolder, h1, h2]

theorem State.hasCue_eq_false {p : Profile} : s.hasCue p.talk = false ↔ s.noCueTalk p := by
  unfold State.hasCue State.noCueTalk hasLine
  simp only [List.any_eq_false, List.mem_finRange, true_imp_iff, Bool.and_eq_true, beq_iff_eq, not_and]
  refine forall_congr' (fun m => imp_congr_right (fun _ => ?_))
  cases s.lineKind m <;> simp

/-- A slot that cannot be re-seated offers no re-seat (R103). -/
theorem State.reseatAt_none {i : SlotNo} (h : ∀ p, ¬ s.canMove a i .listenSlot p) : s.reseatAt a i = none := by
  unfold State.reseatAt
  split
  · rfl
  · rename_i p hp
    obtain ⟨g, q, held, tr, h1, h2⟩ := State.slotHolder_some hp
    have : s.noPlace a p.monitor := by_contra (fun hc => h p ⟨g, q, held, tr, h1, h2, hc⟩)
    rw [State.placementTest_none this]
    rfl

/-- A slot without a victim of the class offers no demotion (R104). -/
theorem State.demoteAt_none {i : SlotNo} {c mover : ClassNo} (hc : c < mover)
    (h : ∀ p, s.victim a mover i p → p.cls ≠ c) : s.demoteAt a c i = none := by
  unfold State.demoteAt
  split
  · rfl
  · rename_i p hp
    obtain ⟨g, q, held, tr, h1, h2⟩ := State.slotHolder_some hp
    split
    · rename_i hk
      have : s.noPlace a p.monitor := by
        by_contra hx
        exact h p ⟨⟨g, q, held, tr, h1, h2, hx⟩, by rw [hk.1]; exact hc, State.hasCue_eq_false.mp hk.2⟩ hk.1
      rw [State.placementTest_none this]
      rfl
    · rfl

theorem State.freeSlot_none (h : ∀ i : SlotNo, s.slot a i ≠ .free) : s.freeSlot a = none :=
  find_finRange_none (fun j => by simpa using h j)

theorem State.reseats_none (h : s.slotsTaken a) : slotsDown.findSome? (s.reseatAt a) = none := by
  rw [List.findSome?_eq_none_iff]
  exact fun i _ => State.reseatAt_none (h.2 i)

/-- The search that finds no slot (R102). -/
theorem State.slotSearch_none {c : ClassNo} {b : Bool} (h : s.slotsTaken a)
    (hb : b = false ∨ 8 ≤ (s.ant a).wait.length ∨ ∀ (i : SlotNo) (q : Profile), ¬ s.victim a c i q) :
    s.slotSearch a c b = none := by
  unfold State.slotSearch
  split
  · rfl
  · rw [State.freeSlot_none h.1, State.reseats_none h]
    dsimp only
    split
    · rename_i hpre
      unfold State.preemption
      split
      · rename_i hw
        have hw : (s.ant a).wait.length < 8 := by simpa [State.waitRoom, Config.waitEntries] using hw
        rcases hb with hb | hb | hb
        · rw [hb] at hpre; cases hpre
        · omega
        · rw [List.findSome?_eq_none_iff]
          intro d hd
          rw [List.findSome?_eq_none_iff]
          have hd : d < c := by simpa using (List.mem_filter.mp hd).2
          exact fun i _ => State.demoteAt_none hd (fun p hp => absurd hp (hb i p))
      · rfl
    · rfl

/-- What a headset needs cannot be had (R101). -/
theorem State.findNeed_none {p : Profile} {b : Bool} (h : s.needUnmet a p b) : s.findNeed a p b = none := by
  obtain ⟨h1, h2, h3⟩ := h
  have := State.slotSearch_none (c := p.cls) h2 h3
  unfold State.findNeed
  split
  · simp [this]
  · rename_i hm
    rw [State.placementTest_none (h1 hm), this]
    rfl

/-! ## Taking a slot -/

theorem State.updRec_eq_setAtt {g : Identity} {q : Position} {p : Profile} {svc svc' : Service} {held held' : Resource}
    {tr : Track} (hl : registryLawful s.registry) (hr : s.rec? g = some ⟨q, p, .served svc held tr⟩) :
    s.updRec g (fun r => match r.att with
      | .served _ _ t => { r with att := .served svc' held' t }
      | _ => r) = s.setAtt g (.served svc' held' tr) := by
  have hu : ∀ r ∈ s.registry, r.profile.ident = g → r = ⟨q, p, .served svc held tr⟩ := by
    intro r hm hg
    have hx : (⟨q, p, .served svc held tr⟩ : HeadsetRecord) ∈ s.registry := List.mem_of_find?_eq_some hr
    have hi := State.ident_of_rec hr
    have := List.inj_on_of_nodup_map hl.2.1 hm hx (by rw [hg]; exact hi.symm)
    exact this
  unfold State.setAtt State.updRec
  congr 1
  apply List.map_congr_left
  intro r hm
  by_cases hg : r.profile.ident = g
  · rw [hu r hm hg]
  · simp [hg]

theorem State.Frame.registryLawful (h : s.Frame t) (hl : Sys2Proof.Machine.registryLawful s.registry) :
    Sys2Proof.Machine.registryLawful t.registry := by
  have key : ∀ l : List HeadsetRecord, Sys2Proof.Machine.registryLawful l ↔
      (l.map HeadsetRecord.config).Pairwise (fun x y => x.1 < y.1) ∧ ((l.map HeadsetRecord.config).map (·.2.ident)).Nodup ∧
        ∀ x ∈ l.map HeadsetRecord.config, x.2.ident ≠ 0x000000 ∧ x.2.ident ≠ 0xFFFFFF := by
    intro l
    unfold Sys2Proof.Machine.registryLawful
    rw [List.pairwise_map, List.map_map]
    simp [HeadsetRecord.config, Function.comp_def]
  rw [key] at hl ⊢
  rw [h.records]
  exact hl

/-- A carrier place given to a SERVED headset of the antenna (R103, R105). -/
theorem Ev.To.moveToCarrier (h : e.To due s) (hl : registryLawful s.registry) {g : Identity} {q : Position} {p : Profile}
    {svc svc' : Service} {held held' : Resource} {tr : Track} (hr : s.rec? g = some ⟨q, p, .served svc held tr⟩) :
    (e.moveToCarrier g svc' held').To due (s.setAtt g (.served svc' held' tr)) := by
  rw [← State.updRec_eq_setAtt (svc' := svc') (held' := held') hl hr]
  exact h.upd (fun _ => rfl)

/-- A placement changes no record. -/
theorem State.Places.registry_eq {m : LineNo} {b : Bool} {k : CarrierNo} (h : s.Places a m b k u) : u.registry = s.registry := by
  cases h <;> rfl

theorem State.Places.ant_frame {m : LineNo} {b : Bool} {k : CarrierNo} (h : s.Places a m b k u) :
    (u.ant a).venue = (s.ant a).venue ∧ (u.ant a).wait = (s.ant a).wait := by
  cases h <;> simp [State.claimed, State.setCarrier, State.sends]

theorem claimant_eq (g : Identity) (c : Option ContextNo) : claimant g c = takenFor g c := by cases c <;> rfl

/-- The taking of a talk slot, by the search's three ways (R29, R102 to R105). -/
theorem Ev.To.takeSlot (h : e.To due s) (hon : (s.ant a).present = true ∧ (s.ant a).online = true)
    (hl : registryLawful s.registry) {mover : Profile} {c : Option ContextNo} {b : Bool} {i : SlotNo}
    (hu : s.TakesSlot a mover c b i u) :
    ∃ plan, s.slotSearch a mover.cls b = some plan ∧ NeedPlan.place (.slot plan) = .slot i ∧
      (e.takeSlot a mover.ident plan c).To due u := by
  have hv' : e.st.venueOfAnt a = (s.ant a).venue := by rw [State.venueOfAnt, h.ant]
  unfold State.slotSearch
  simp only [hon.1, hon.2, Bool.not_true, Bool.or_self, Bool.false_eq_true, if_false]
  cases hu with
  | free hf =>
    refine ⟨.free i, by rw [State.freeSlot_eq s a i hf], rfl, ?_⟩
    unfold Ev.takeSlot
    rw [hv', claimant_eq]
    exact (h.setSlot a i _).claimUp _
  | reseat k g q pg held tg u hn hj hs hr hp =>
    have hi : pg.ident = g := State.ident_of_rec hr
    obtain ⟨hp1, hp2⟩ := h.place hon hp
    refine ⟨.reseat i pg k, ?_, rfl, ?_⟩
    · rw [State.freeSlot_none hn]
      have : slotsDown.findSome? (s.reseatAt a) = some (.reseat i pg k) := by
        refine findSome_sorted slotsDown_sorted (mem_slotsDown i) ?_ (fun j hji => State.reseatAt_none (fun p => hj j p hji))
        simp [State.reseatAt, State.slotHolder_eq hs hr, hp1]
      rw [this]
    · have h1 := hp2.moveToCarrier (svc' := .listen) (held' := ⟨a, .carrier k⟩) (by rw [hp.registry_eq]; exact hl)
        (show u.rec? g = _ by unfold State.rec?; rw [hp.registry_eq]; exact hr)
      subst hi
      unfold Ev.takeSlot
      rw [claimant_eq]
      exact (((h1.emit (.seat a pg.ident (.carrier k))).route pg a (some (.carrier k))).setSlot a i _)
  | demote k g q pg held tg u ht hpre hw hv hc hcue hs hr hp =>
    have hi : pg.ident = g := State.ident_of_rec hr
    obtain ⟨hp1, hp2⟩ := h.place hon hp
    refine ⟨.demote i pg k, ?_, rfl, ?_⟩
    · have hwr : s.waitRoom a = true := by simpa [State.waitRoom, Config.waitEntries] using hw
      have hsort : (allClasses.filter (· < mover.cls)).Pairwise (fun c d => c < d) :=
        List.Pairwise.filter _ (by decide)
      have : s.preemption a mover.cls = some (.demote i pg k) := by
        unfold State.preemption
        rw [if_pos hwr]
        refine findSome_sorted hsort (k := pg.cls) (by simp [allClasses, hc]) ?_ (fun c hcc => ?_)
        · refine findSome_sorted slotsDown_sorted (mem_slotsDown i) ?_ (fun j hji =>
            State.demoteAt_none hc (fun p hvp hcl => ?_))
          · simp [State.demoteAt, State.slotHolder_eq hs hr, hp1, State.hasCue_eq_false.mpr hcue]
          · rcases hv j p hvp with h1 | ⟨_, h1⟩
            · exact absurd (hcl ▸ h1) (lt_irrefl _)
            · exact absurd hji (not_lt.mpr h1)
        · rw [List.findSome?_eq_none_iff]
          intro j _
          refine State.demoteAt_none (lt_trans hcc hc) (fun p hvp hcl => ?_)
          rcases hv j p hvp with h1 | ⟨h1, _⟩
          · exact absurd (lt_trans hcc h1) (hcl ▸ lt_irrefl _)
          · exact absurd hcc (by rw [h1, hcl]; exact lt_irrefl _)
      rw [State.freeSlot_none ht.1, State.reseats_none ht, hpre]
      exact this
    · have h1 := hp2.moveToCarrier (svc' := .demoted) (held' := ⟨a, .carrier k⟩) (by rw [hp.registry_eq]; exact hl)
        (show u.rec? g = _ by unfold State.rec?; rw [hp.registry_eq]; exact hr)
      have h2 := ((((h1.appendWait a ⟨g, .promote, pg.cls⟩).emit (.seat a g (.carrier k))).notify
        (.demoted g a mover.ident)).route pg a (some (.carrier k))).setSlot a i (takenFor mover.ident c)
      have e1 : ((u.setAtt g (.served .demoted ⟨a, .carrier k⟩ tg)).ant a).wait = (s.ant a).wait := hp.ant_frame.2
      have e2 : ((u.setAtt g (.served .demoted ⟨a, .carrier k⟩ tg)).ant a).venue = (s.ant a).venue := hp.ant_frame.1
      rw [e1, e2] at h2
      subst hi
      unfold Ev.takeSlot
      rw [claimant_eq]
      exact h2

/-- The taking of what a headset needs (R101). -/
theorem Ev.To.takeNeed (h : e.To due s) (hon : (s.ant a).present = true ∧ (s.ant a).online = true)
    (hl : registryLawful s.registry) {p : Profile} {c : Option ContextNo} {b : Bool} {svc : Service} {place : Place}
    (hu : s.TakesNeed a p c b svc place u) :
    ∃ plan : NeedPlan, s.findNeed a p b = some plan ∧ plan.place = place ∧ placeService p place = svc ∧
      (e.takeNeed a p plan c).To due u := by
  cases hu with
  | talk i u hm ht =>
    obtain ⟨plan, h1, h2, h3⟩ := h.takeSlot hon hl ht
    exact ⟨.slot plan, by simp [State.findNeed, hm, h1], h2, by simp [placeService, hm], h3⟩
  | listen k u hm hp =>
    obtain ⟨h1, h2⟩ := h.place hon hp
    exact ⟨.carrier k, by simp [State.findNeed, hm, h1], rfl, by simp [placeService, hm], h2⟩
  | listenSlot i u hm hn ht =>
    obtain ⟨plan, h1, h2, h3⟩ := h.takeSlot hon hl ht
    exact ⟨.slot plan, by simp [State.findNeed, hm, State.placementTest_none hn, h1], h2, by simp [placeService, hm], h3⟩

end Sys2Proof.Machine
end

