-- ==== Sys2Proof/Laws/Settled.lean ====
section
/-! SUPPORT. No event that fits is left waiting (R149): every taking leaves the waiting events as they are, shortens the input
buffer or the frames that wait, and lengthens neither, so reconsidering ends with nothing that fits. -/

namespace Sys2Proof.Machine

variable {s t u : State} {e₀ e : Ev}

/-! ## What an event leaves of what waits -/

/-- The waiting events and the frames that wait are as they were, and the input buffer has not grown. -/
structure State.PortsKept (s t : State) : Prop where
  waiting : t.waiting = s.waiting
  frames : t.ctrl.frames = s.ctrl.frames
  input : t.head.input.length ≤ s.head.input.length

theorem State.PortsKept.refl (s : State) : s.PortsKept s := ⟨rfl, rfl, le_refl _⟩

theorem State.PortsKept.trans (h : s.PortsKept t) (k : t.PortsKept u) : s.PortsKept u :=
  ⟨k.waiting.trans h.waiting, k.frames.trans h.frames, k.input.trans h.input⟩

theorem ControlPort.foldl_queueNotice_frames (c : ControlPort) (l : List Notice) :
    (l.foldl ControlPort.queueNotice c).frames = c.frames := by
  induction l generalizing c with
  | nil => rfl
  | cons n l ih => rw [List.foldl_cons, ih, ControlPort.queueNotice_frames]

theorem State.Frame.portsKept (h : s.Frame t) : s.PortsKept t := by
  refine ⟨h.waiting, ?_, by rw [h.head]⟩
  obtain ⟨l, hl⟩ := h.ctrl
  rw [hl, ControlPort.foldl_queueNotice_frames]

/-- An operation in the frame of an event keeps what waits. -/
theorem Ev.Frame.portsKept (h : e₀.Frame e) : e₀.st.PortsKept e.st := h.1.portsKept

/-! ## The cells of the units -/

theorem Ev.frame_downContext (e : Ev) (a : AntennaNo) (c : ContextNo) : e.Frame (Ev.downContext a e c) := by
  have h := Ev.Frame.refl e
  unfold Ev.downContext
  split
  · split
    · split
      · exact h.sourceLost _
      · exact h
    · split
      · exact h.giveUp _ _
      · exact h
  · exact h

theorem Ev.Frame.trans {e₁ e₂ : Ev} (h : e₀.Frame e₁) (k : e₁.Frame e₂) : e₀.Frame e₂ := ⟨h.1.trans k.1, k.2.trans h.2⟩

theorem Ev.frame_downHolder (e : Ev) (a : AntennaNo) (g : Identity) : e.Frame (Ev.downHolder a e g) := by
  have h := Ev.Frame.refl e
  unfold Ev.downHolder
  split
  · split
    · exact ((h.releaseHeld _ _ _).orphan g a _).route _ a _
    · exact h
  · exact h

theorem Ev.portsKept_upTaken (e : Ev) (a : AntennaNo) : e.st.PortsKept (e.upTaken a).st := by
  have h1 : e.st.PortsKept (e.upd (·.setOnline a true)).st := ⟨rfl, rfl, le_refl _⟩
  have h2 := h1.trans ((Ev.Frame.refl (e.upd (·.setOnline a true))).notify (.unitState a true)).portsKept
  unfold Ev.upTaken
  dsimp only
  split <;> split
  all_goals first | exact State.PortsKept.refl _ | exact h2

theorem Ev.portsKept_downTaken (e : Ev) (a : AntennaNo) : e.st.PortsKept (e.downTaken a).st := by
  have h1 : e.st.PortsKept (e.upd (·.setOnline a false)).st := ⟨rfl, rfl, le_refl _⟩
  have h2 := h1.trans ((Ev.Frame.refl (e.upd (·.setOnline a false))).notify (.unitState a false)).portsKept
  unfold Ev.downTaken
  split
  · dsimp only
    split
    · exact h2
    · refine h2.trans (Ev.Frame.portsKept ?_)
      refine Ev.Frame.foldl ?_ _ (fun e g h => h.denyWait a .offline g) _
      refine Ev.Frame.foldl ?_ _ (fun e g h => h.trans (e.frame_downHolder a g)) _
      exact Ev.Frame.foldl (Ev.Frame.refl _) _ (fun e c h => h.trans (e.frame_downContext a c)) _
  · exact State.PortsKept.refl _

theorem Ev.portsKept_cellEvent (e : Ev) (c : RawCell) (k : UnitKind) (a : AntennaNo) :
    e.st.PortsKept (Ev.cellEvent c k a e).st := by
  by_cases hk : k.isLink = false
  · exact ((Ev.Frame.refl e).cellEvent c k a hk).portsKept
  · cases k with
    | up => exact e.portsKept_upTaken a
    | down => exact e.portsKept_downTaken a
    | _ => exact absurd rfl hk

/-! ## Requests -/

theorem Ev.frame_denyJoins (e : Ev) (r : DeniedReason) (a : AntennaNo) : e.Frame (Ev.denyJoins r e a) :=
  Ev.Frame.foldl (Ev.Frame.refl e) _ (fun _ g h => h.denyWait a r g) _

theorem Ev.frame_setVenue (e : Ev) (v : VenueNo) (x : VenueState) : e.Frame (e.setVenue v x) := by
  have h := Ev.Frame.refl e
  have hopen : ∀ y, e.Frame (e.openVenue v y) := by
    intro y
    have h1 := h.upd (f := (·.setVenueState v y)) (State.Frame.setVenueState _ v y)
    unfold Ev.openVenue
    dsimp only
    split
    · exact (h1.modeCells _ _).notify _
    · exact h1.notify _
  have hshut : e.Frame (e.shutVenue v) := by
    unfold Ev.shutVenue
    split
    · exact h.closeVenue v _
    · exact Ev.Frame.foldl ((h.upd (State.Frame.setVenueState _ v .draining)).notify _) _
        (fun e a hx => hx.trans (e.frame_denyJoins .closed a)) _
  unfold Ev.setVenue
  dsimp only
  split
  · exact h
  · split
    · exact hopen _
    · exact hopen _
    · split
      · exact h
      · exact hshut
    · exact h

theorem Ev.frame_evictActions (e : Ev) (r : HeadsetRecord) : e.Frame (e.evictActions r) := by
  have h := Ev.Frame.refl e
  unfold Ev.evictActions
  dsimp only
  split
  · exact h
  · exact ((h.removeWait _ _).emit _).detachWith _ _ _
  · exact ((h.freeCell _ _).releaseHeld _ _ _).detachWith _ _ _
  · split
    · exact (h.abortTransfer _ _).detachWith _ _ _
    · exact h
  · exact h.detachWith _ _ _

theorem Ev.frame_doSteer (e : Ev) (g : Identity) (target options : Byte) : e.Frame (e.doSteer g target options).1 := by
  have h := Ev.Frame.refl e
  unfold Ev.doSteer
  split
  · exact h
  · split
    · exact h
    · split
      · exact h
      · split
        · exact h
        · split
          · exact h
          · split
            · exact h
            · unfold Ev.steerStart
              split
              · exact h
              · split
                · exact h
                · exact h.startTransfer _ _ _ _ _ _ _ _ _
          · exact h

theorem Ev.portsKept_site (e : Ev) (a : AntennaNo) (p : Bool) (v : VenueNo) : e.st.PortsKept (e.site a p v).st := by
  unfold Ev.site
  dsimp only
  split
  · exact ⟨rfl, rfl, le_refl _⟩
  · split
    · exact ⟨rfl, rfl, le_refl _⟩
    · exact ⟨rfl, rfl, le_refl _⟩
  · rw [Ev.upd_st, Ev.emitIf_st]
    exact ⟨rfl, rfl, le_refl _⟩
  · exact ⟨rfl, rfl, le_refl _⟩

theorem Ev.portsKept_doRequest (e : Ev) (r : Request) : e.st.PortsKept (e.doRequest r).1.st := by
  have same : e.st.PortsKept e.st := State.PortsKept.refl _
  cases r with
  | ident => exact same
  | tune f =>
    show e.st.PortsKept (e.doTune f).1.st
    unfold Ev.doTune
    split
    · exact same
    · dsimp only
      split <;> exact ⟨rfl, rfl, le_refl _⟩
  | floor v =>
    show e.st.PortsKept (e.doFloor v).1.st
    unfold Ev.doFloor
    split <;> exact ⟨rfl, rfl, le_refl _⟩
  | go =>
    show e.st.PortsKept e.doGo.1.st
    unfold Ev.doGo
    split
    · exact same
    · split <;> exact ⟨rfl, rfl, le_refl _⟩
  | warm => exact ⟨rfl, rfl, Nat.zero_le _⟩
  | enrol f =>
    show e.st.PortsKept (e.doEnrol f).1.st
    unfold Ev.doEnrol
    split
    · exact same
    · split
      · split <;> exact ⟨rfl, rfl, le_refl _⟩
      · split <;> exact ⟨rfl, rfl, le_refl _⟩
  | unenrol g =>
    show e.st.PortsKept (e.doUnenrol g).1.st
    unfold Ev.doUnenrol
    split
    · exact same
    · split
      · exact same
      · split <;> exact ⟨rfl, rfl, le_refl _⟩
  | site a p v =>
    show e.st.PortsKept (e.doSite a p v).1.st
    unfold Ev.doSite
    split
    · exact same
    · split
      · exact same
      · split
        · exact same
        · split
          · exact same
          · exact e.portsKept_site _ _ _
  | venue v lo hi w =>
    show e.st.PortsKept (e.doVenue v lo hi w).1.st
    unfold Ev.doVenue
    split
    · exact same
    · split <;> exact ⟨rfl, rfl, le_refl _⟩
  | line n k =>
    show e.st.PortsKept (e.doLine n k).1.st
    unfold Ev.doLine
    split
    · exact same
    · split
      · exact same
      · dsimp only
        repeat' split
        all_goals exact ⟨rfl, rfl, le_refl _⟩
  | setVenue v st =>
    show e.st.PortsKept (e.doSetVenue v st).1.st
    unfold Ev.doSetVenue
    split
    · exact same
    · split
      · exact same
      · exact (e.frame_setVenue _ _).portsKept
  | bar a =>
    show e.st.PortsKept (e.doBar a).1.st
    unfold Ev.doBar
    split
    · exact same
    · split
      · dsimp only
        split
        · exact same
        · rename_i b _ _ _
          have h1 : e.st.PortsKept (e.upd (·.setBarred b true)).st := ⟨rfl, rfl, le_refl _⟩
          exact h1.trans (Ev.frame_denyJoins _ .barred b).portsKept
      · exact same
  | unbar a =>
    show e.st.PortsKept (e.doUnbar a).1.st
    unfold Ev.doUnbar
    split
    · exact same
    · split <;> exact ⟨rfl, rfl, le_refl _⟩
  | steer g t o => exact (e.frame_doSteer g t o).portsKept
  | evict g =>
    show e.st.PortsKept (e.doEvict g).1.st
    unfold Ev.doEvict
    split
    · exact same
    · split
      · exact same
      · split
        · exact same
        · exact (e.frame_evictActions _).portsKept
  | unstick g =>
    show e.st.PortsKept (e.doUnstick g).1.st
    unfold Ev.doUnstick
    split
    · exact same
    · split
      · exact ⟨rfl, rfl, le_refl _⟩
      · split <;> exact ⟨rfl, rfl, le_refl _⟩
  | tap n k sel c circ =>
    show e.st.PortsKept (e.doTap n k sel c circ).1.st
    unfold Ev.doTap
    repeat' split
    all_goals exact ⟨rfl, rfl, le_refl _⟩
  | untap n =>
    show e.st.PortsKept (e.doUntap n).1.st
    unfold Ev.doUntap
    split <;> exact ⟨rfl, rfl, le_refl _⟩
  | peekHeadset g =>
    show e.st.PortsKept (e.doPeekHeadset g).1.st
    unfold Ev.doPeekHeadset
    split
    · exact same
    · split <;> exact same
  | peekAntenna a =>
    show e.st.PortsKept (e.doPeekAntenna a).1.st
    unfold Ev.doPeekAntenna
    split <;> exact same
  | peekVenue v =>
    show e.st.PortsKept (e.doPeekVenue v).1.st
    unfold Ev.doPeekVenue
    split <;> exact same
  | peekContext c =>
    show e.st.PortsKept (e.doPeekContext c).1.st
    unfold Ev.doPeekContext
    split <;> exact same
  | list st c f =>
    show e.st.PortsKept (e.doList st c f).1.st
    unfold Ev.doList
    repeat' split
    all_goals exact same

theorem Ev.portsKept_runItem (e : Ev) (n : Nat) (i : ChainItem) : e.st.PortsKept (e.runItem n i).1.st := by
  have same : e.st.PortsKept e.st := State.PortsKept.refl _
  cases i with
  | record tag r =>
    show e.st.PortsKept (e.runRecord n tag r).1.st
    have h1 : e.st.PortsKept (e.carryOut r).1.st := by
      unfold Ev.carryOut
      split
      · exact e.portsKept_doRequest r
      · exact same
    unfold Ev.runRecord
    dsimp only
    split
    · exact same
    · exact h1
  | _ => exact same

theorem Ev.portsKept_runChain (e : Ev) (n : Nat) (l : List ChainItem) : e.st.PortsKept (e.runChain n l).1.st := by
  induction l generalizing e n with
  | nil => exact State.PortsKept.refl _
  | cons i rest ih => exact (e.portsKept_runItem _ i).trans (ih _ _)

/-- The frame of a request keeps what waits (R157). -/
theorem Ev.portsKept_frame (e : Ev) (chain : List ChainItem × Bool) : e.st.PortsKept (e.frame chain).st :=
  (e.portsKept_runChain 2 chain.1).trans ⟨rfl, rfl, le_refl _⟩

/-! ## Takings -/

/-- An event taken keeps what it kept until its end. -/
theorem Ev.portsKept_attempt {p : HeadPort} (h : s.PortsKept e.st) (ha : e.attempt p = .taken t) : s.PortsKept t := by
  unfold Ev.attempt Ev.settle at ha
  dsimp only at ha
  split at ha
  · rename_i x hx
    cases ha
    split at hx
    · cases hx
      exact (h.trans (Ev.Frame.refl e).finish.portsKept).trans ⟨rfl, rfl, le_refl _⟩
    · cases hx
  · cases ha

theorem State.leaveBuffer_waiting (s : State) : s.leaveBuffer.waiting = s.waiting := by
  unfold State.leaveBuffer
  dsimp only
  split <;> rfl

theorem State.leaveBuffer_frames (s : State) : s.leaveBuffer.ctrl.frames = s.ctrl.frames := by
  unfold State.leaveBuffer
  dsimp only
  split
  · exact ControlPort.queueNotice_frames _ _
  · rfl

theorem State.leaveBuffer_input (s : State) : s.leaveBuffer.head.input = s.head.input.tail := by
  unfold State.leaveBuffer
  dsimp only
  split <;> rfl

/-- A state in which less is left to take than in another: fewer cells, frames and waiting events together. -/
def State.Less (s t : State) : Prop :=
  t.head.input.length + t.ctrl.frames.length + t.waiting.length <
    s.head.input.length + s.ctrl.frames.length + s.waiting.length

/-- A transfer's expiry that is taken keeps what waits. -/
theorem State.portsKept_attemptTransfer {c : ContextNo} {p : Phase} {r : FailReason}
    (ha : s.attemptTransfer c p r = .taken t) : s.PortsKept t := by
  unfold State.attemptTransfer at ha
  split at ha
  · split at ha
    · exact Ev.portsKept_attempt ((Ev.Frame.refl (Ev.start s)).expireTransfer _ r).portsKept ha
    · cases ha
  · cases ha

theorem State.portsKept_attemptWait {g : Identity} (ha : s.attemptWait g = .taken t) : s.PortsKept t := by
  unfold State.attemptWait at ha
  split at ha
  · exact Ev.portsKept_attempt ((Ev.Frame.refl (Ev.start s)).waitExpired g _).portsKept ha
  · cases ha

theorem State.portsKept_attemptHold {g : Identity} (ha : s.attemptHold g = .taken t) : s.PortsKept t := by
  unfold State.attemptHold at ha
  split at ha
  · exact Ev.portsKept_attempt ((Ev.Frame.refl (Ev.start s)).holdExpired g).portsKept ha
  · cases ha

theorem State.less_unwait {w : WaitingEvent} (h : s.PortsKept t) (hw : w ∈ s.waiting)
    (hu : t.unwait w = t.setWaiting (t.waiting.erase w)) : s.Less (t.unwait w) := by
  have h1 := h.input
  have h2 : (t.waiting.erase w).length + 1 = s.waiting.length := by
    rw [h.waiting, List.length_erase_of_mem hw]
    have := List.length_pos_of_mem hw
    omega
  have h3 : t.ctrl.frames.length = s.ctrl.frames.length := by rw [h.frames]
  rw [hu]
  unfold State.Less
  simp only [State.head_setWaiting, State.ctrl_setWaiting, State.waiting_setWaiting]
  omega

/-- A waiting event that is taken leaves less to take. -/
theorem State.less_of_taken {w : WaitingEvent} (hw : w ∈ s.waiting) (ha : s.attempt w = .taken t) : s.Less (t.unwait w) := by
  cases w with
  | cell =>
    have ha : s.attemptCell = .taken t := ha
    unfold State.attemptCell at ha
    split at ha
    · cases ha
    · rename_i c rest hin
      have h0 : s.leaveBuffer.head.input.length + 1 = s.head.input.length := by
        rw [State.leaveBuffer_input, hin]; rfl
      have h1 : s.leaveBuffer.PortsKept t := by
        split at ha
        · cases ha; exact State.PortsKept.refl _
        · exact Ev.portsKept_attempt (Ev.portsKept_cellEvent (Ev.start s.leaveBuffer) c _ _) ha
      have h2 := h1.input
      have h3 : t.ctrl.frames = s.ctrl.frames := h1.frames.trans s.leaveBuffer_frames
      have h4 : t.waiting = s.waiting := h1.waiting.trans s.leaveBuffer_waiting
      unfold State.Less State.unwait
      dsimp only
      rw [h3, h4]
      omega
  | frame =>
    have ha : s.attemptFrame = .taken t := ha
    unfold State.attemptFrame at ha
    split at ha
    · cases ha
    · rename_i body rest hf
      split at ha
      · have h1 := Ev.portsKept_attempt
          (Ev.portsKept_frame ((Ev.start s).upd (fun t => t.setCtrl { t.ctrl with frames := rest })) (bodyChain body)) ha
        have h2 : t.head.input.length ≤ s.head.input.length := h1.input
        have h3 : t.ctrl.frames = rest := h1.frames
        have h4 : t.waiting = s.waiting := h1.waiting
        unfold State.Less State.unwait
        dsimp only
        rw [h3, h4, hf, List.length_cons]
        omega
      · cases ha
  | tPrep c => exact State.less_unwait (State.portsKept_attemptTransfer ha) hw rfl
  | tMove c => exact State.less_unwait (State.portsKept_attemptTransfer ha) hw rfl
  | wait g => exact State.less_unwait (State.portsKept_attemptWait ha) hw rfl
  | hold g => exact State.less_unwait (State.portsKept_attemptHold ha) hw rfl

/-! ## Nothing that fits is left waiting -/

theorem State.takeable_eq_nil {w : WaitingEvent} (h : s.takeable = []) (hw : w ∈ s.waiting) (t : State) :
    s.attempt w ≠ .taken t := by
  intro ha
  have : t.unwait w ∈ s.takeable := by
    unfold State.takeable
    rw [List.mem_filterMap]
    exact ⟨w, hw, by simp [ha, Attempt.state?]⟩
  rw [h] at this
  cases this

/-- No event that fits is left waiting once the waiting events have been considered again (R149). -/
theorem State.reconsider_settled (s : State) (w : WaitingEvent) (hw : w ∈ s.reconsider.waiting) (t : State) :
    s.reconsider.attempt w ≠ .taken t := by
  have key : ∀ (fuel : Nat) (s : State), s.head.input.length + s.ctrl.frames.length + s.waiting.length < fuel →
      ∀ w ∈ (State.reconsiderFrom fuel s).waiting, ∀ t, (State.reconsiderFrom fuel s).attempt w ≠ .taken t := by
    intro fuel
    induction fuel with
    | zero => intro s h; omega
    | succ n ih =>
      intro s h
      have hlen : s.withdraw.waiting.length ≤ s.waiting.length := List.length_filter_le _ _
      unfold State.reconsiderFrom
      split
      · rename_i hn
        intro w hw t
        refine State.takeable_eq_nil ?_ hw t
        unfold State.firstTaken at hn
        split at hn
        · assumption
        · cases hn
        · cases hn
      · rename_i u hq
        apply ih
        obtain ⟨x, hx, hcase⟩ := State.firstTaken_cases hq
        obtain ⟨v, hv, y, hy, rfl⟩ := State.mem_takeable hx
        have hless : s.withdraw.Less (y.unwait v) := State.less_of_taken hv hy
        unfold State.Less at hless
        have e1 : s.withdraw.head = s.head := rfl
        have e2 : s.withdraw.ctrl = s.ctrl := rfl
        rw [e1, e2] at hless
        rcases hcase with rfl | rfl
        · omega
        · dsimp only
          omega
  exact key _ s (Nat.lt_succ_self _) w hw t

/-- So considering a waiting event once more changes nothing. -/
theorem State.consider_reconsider (s : State) (w : WaitingEvent) (hw : w ∈ s.reconsider.waiting) :
    s.reconsider.consider w = s.reconsider := by
  unfold State.consider
  split
  · rfl
  · exact State.addWaiting_of_mem _ _ hw
  · rename_i t ha
    exact absurd ha (s.reconsider_settled w hw t)

end Sys2Proof.Machine
end

