-- ==== Sys2Proof/Laws/Endings.lean ====
section
/-! SUPPORT. What the endings of a transfer and the parts of a JOIN reach, said once for each, in the terms of Safety; and that an
event which ends so, and whose cells have room, is taken. -/

namespace Sys2Proof.Machine

variable {s t u w : State} {e : Ev} {a : AntennaNo} {due : List AntennaNo}

/-! ## The taking of an event that ends -/

theorem Ev.To.finish (h : e.To [] s) : e.finish.To [] s := by
  rw [Ev.finish_of_late_nil e h.late]
  exact h

/-- An event that ends in a state, and has no cells or room for them, is taken on a state at whose head port nothing has changed. -/
theorem Ev.To.settle_of_head (h : e.finish.To [] t) (hf : e.st.head = s.head) (hr : e.finish.cells = [] ∨ s.roomTo t) :
    e.settle s.head = some t := by
  have hh : e.finish.st.head = s.head := (Ev.Frame.refl e).finish.1.head.trans hf
  have hs : e.settle s.head = e.finish.settle s.head := by
    have := Ev.finish_of_late_nil e.finish h.late
    unfold Ev.settle
    rw [this]
  have hn : e.finish.cells = [] ∨ s.roomFor e.finish.cells.length := by
    refine hr.imp_right (fun hr => ?_)
    have := hr.2
    rw [← h.whole] at this
    exact ⟨hr.1, by simpa [State.sends, hh] using this⟩
  rw [hs, Ev.settle_eq _ s h.late h.noWarm hh hn, h.whole]

/-- An event that ends in a state to which its cells have room is taken, on a state at whose ports nothing has changed. -/
theorem Ev.To.settle (h : e.finish.To [] t) (hf : (Ev.start s).Frame e) (hr : s.roomTo t) : e.settle s.head = some t :=
  h.settle_of_head hf.1.head (.inr hr)

/-- A cell at an idle head port, whose event leaves the port alone, and has no cells or room for them, leads to the state in which
the event ends. -/
theorem State.presentCell_of_head (s : State) (c : RawCell) (k : UnitKind) (hs : s.cellReady) (hj : s.judge c = some (k, a))
    (he : Ev.cellEvent c k a (Ev.start s) = e) (hh : e.st.head = s.head) (hw : e.st.waiting = s.waiting)
    (ht : e.finish.To [] t) (hr : e.finish.cells = [] ∨ s.roomTo t) : s.presentCell c = t := by
  rw [State.presentCell_ready s c hs, hj]
  simp only [he, ht.settle_of_head hh hr]
  refine State.reconsider_of_waiting_nil _ ?_
  rw [← ht.whole]
  exact ((Ev.Frame.refl e).finish.1.waiting.trans hw).trans hs.2.2.2.2

/-- A cell at an idle head port, whose event ends in a state to which its cells have room, leads to that state. -/
theorem State.presentCell_to (s : State) (c : RawCell) (k : UnitKind) (hk : k.isLink = false) (hs : s.cellReady)
    (hj : s.judge c = some (k, a)) (ht : (Ev.cellEvent c k a (Ev.start s)).finish.To [] t) (hr : s.roomTo t) :
    s.presentCell c = t :=
  have hf := (Ev.Frame.refl (Ev.start s)).cellEvent c k a hk
  State.presentCell_of_head s c k hs hj rfl hf.1.head hf.1.waiting ht (.inr hr)

/-- A request at an idle control port, whose record ends in a state and has no cells or room for them, leads to that state with the
reply. -/
theorem State.presentRequest_to (s : State) (tag : Byte) (r : Request) (d : Done) (hs : s.hostReady) (hq : isQuery r = false)
    (hd : (Ev.start s).carryOut r = (e, d)) (ht : e.To [] t) (hf : (Ev.start s).Frame e) (hr : e.cells = [] ∨ s.roomTo t) :
    s.presentRequest tag r = t.replied (requestCode r) tag d.status d.offset d.result := by
  obtain ⟨st, cells, b, late⟩ := e
  have h1 : late = [] := ht.late
  have h2 : b = none := ht.noWarm
  subst h1 h2
  have hh : st.head = s.head := hf.1.head
  have hw := ht.whole
  have hn : cells = [] ∨ s.roomFor cells.length := by
    refine hr.imp_right (fun hr => ?_)
    have := hr.2
    rw [← hw] at this
    exact ⟨hr.1, by simpa [State.sends, hh] using this⟩
  rw [State.presentRequest_eq s st tag r cells d hs hd (by rw [hq]; simp) hh (hf.1.waiting.trans hs.2.2.2.2) hn]
  rw [show st.sends cells = t from hw]

/-! ## Endings of a transfer -/

theorem State.movingOf_eq {h : Identity} {p : Position} {pr : Profile} {svc : Service} {c : ContextNo} {tr : Track} {x : Context}
    (hr : s.rec? h = some ⟨p, pr, .transfer svc c tr⟩) (hx : s.ctx c = some x) :
    s.movingOf h = some ⟨pr, svc, c, tr, x⟩ := by
  simp [State.movingOf, hr, hx]

theorem Moving.source_none {m : Moving} (h : m.context.source = none) : m.source = none := by simp [Moving.source, h]

theorem Moving.source_some {m : Moving} {place : Place} (h : m.context.source = some place) :
    m.source = some ⟨m.context.sourceAnt, place⟩ := by simp [Moving.source, h]

theorem Moving.source_ant (m : Moving) : m.source.map (·.ant) = m.context.source.map (fun _ => m.context.sourceAnt) := by
  simp [Moving.source, Function.comp_def]

theorem Ev.To.releaseSource (h : e.To due s) {m : Moving} {place : Place} (hp : m.context.source = some place)
    (hu : s.Releases m.profile m.service m.context.sourceAnt place u) : (e.releaseSource m).To due u := by
  unfold Ev.releaseSource
  rw [Moving.source_some hp]
  exact h.releaseHeld hu

theorem Ev.To.freeSourceCell (h : e.To due s) {m : Moving} {place : Place} (hp : m.context.source = some place) :
    (e.freeSourceCell m).To due (s.sends [.free m.context.sourceAnt m.profile.ident]) := by
  unfold Ev.freeSourceCell
  rw [Moving.source_some hp]
  exact h.emit _

theorem Ev.freeSourceCell_none (e : Ev) {m : Moving} (hp : m.context.source = none) : e.freeSourceCell m = e := by
  unfold Ev.freeSourceCell
  rw [Moving.source_none hp]
  rfl

theorem Ev.releaseSource_none (e : Ev) {m : Moving} (hp : m.context.source = none) : e.releaseSource m = e := by
  unfold Ev.releaseSource
  rw [Moving.source_none hp]

/-- The end of a transfer by QUIT, EVICT or a JOIN from elsewhere (R14, R17, R20). -/
theorem Ev.To.abortTransfer (h : e.To due s) {m : Moving} {from? : Option AntennaNo}
    (hu : s.Aborts m.profile m.service m.ctx m.context from? u) : (e.abortTransfer m from?).To due u := by
  obtain ⟨u₁, h1, h2⟩ := hu
  have hr := (h.emit (.free m.context.targetAnt m.profile.ident)).releaseReserved h1
  unfold Ev.abortTransfer
  dsimp only
  cases hp : m.context.source with
  | none =>
    rw [hp] at h2
    subst h2
    have : (if from? = some m.context.sourceAnt then
        (e.freeCell m.context.targetAnt m.profile.ident).releaseReserved m.profile m.context.targetAnt m.context.target
      else ((e.freeCell m.context.targetAnt m.profile.ident).releaseReserved m.profile m.context.targetAnt
        m.context.target).freeSourceCell m) =
        (e.freeCell m.context.targetAnt m.profile.ident).releaseReserved m.profile m.context.targetAnt m.context.target := by
      rw [Ev.freeSourceCell_none _ hp]
      simp
    rw [this, Ev.releaseSource_none _ hp]
    exact hr.freeCtx _
  | some place =>
    rw [hp] at h2
    obtain ⟨u₂, h3, rfl⟩ := h2
    split
    · rename_i hc
      rw [if_pos hc, State.sends_nil] at h3
      exact (hr.releaseSource hp h3).freeCtx _
    · rename_i hc
      rw [if_neg hc] at h3
      exact ((hr.freeSourceCell hp).releaseSource hp h3).freeCtx _

/-- A reserved place becomes a served place (R55). -/
theorem Carrier.convertPlace_split {before behind : Carrier} {m : LineNo} {n r : Nat}
    (ho : ∀ l ∈ before ++ behind, l.line ≠ m) :
    Carrier.convertPlace (before ++ ⟨m, n, r + 1⟩ :: behind) m = before ++ ⟨m, n + 1, r⟩ :: behind := by
  have key : ∀ x : Carrier, (∀ l ∈ x, l.line ≠ m) →
      x.map (fun l => if l.line = m then { l with reserved := l.reserved - 1, served := l.served + 1 } else l) = x :=
    fun x hx => (List.map_congr_left (fun l hl => if_neg (hx l hl))).trans (List.map_id x)
  unfold Carrier.convertPlace
  rw [List.map_append, List.map_cons, key before (fun l hl => ho l (List.mem_append_left _ hl)),
    key behind (fun l hl => ho l (List.mem_append_right _ hl))]
  simp

/-- A completion, after the conversion of the reservation (R123). -/
theorem Ev.To.complete {m : Moving} {svc : Service} (h : (e.convertTarget m).To due s)
    (hs : placeService m.profile m.context.target = svc)
    (hu : m.context.source = none ∧ u = s ∨ ∃ place : Place, m.context.source = some place ∧
      (s.sends [.free m.context.sourceAnt m.profile.ident]).Releases m.profile m.service m.context.sourceAnt place u) :
    (e.complete m).To due (State.routed (State.notify (State.setCtx (u.setAtt m.profile.ident (.served svc
      ⟨m.context.targetAnt, m.context.target⟩ ⟨none, 0, pinLanded m.context.targetAnt m.track.hearing⟩)) m.ctx none)
      (.transferDone m.profile.ident m.context.sourceAnt m.context.targetAnt m.context.cause m.ctx)) m.profile
      m.context.targetAnt (some m.context.target)) := by
  have key : (((e.convertTarget m).freeSourceCell m).releaseSource m).To due u := by
    rcases hu with ⟨hn, rfl⟩ | ⟨place, hp, hx⟩
    · rw [Ev.freeSourceCell_none _ hn, Ev.releaseSource_none _ hn]
      exact h
    · exact (h.freeSourceCell hp).releaseSource hp hx
  subst hs
  exact (((key.setAtt _ _).freeCtx _).notify _).route _ _ _

/-- The release of the source of a transfer that goes on (R128, R134). -/
theorem Ev.To.dropSource (h : e.To due s) {m : Moving} {place : Place} (hp : m.context.source = some place)
    (hu : s.DropsSource m.profile m.service m.ctx m.context m.track place u) : (e.dropSource m).To due u := by
  obtain ⟨u₁, h1, rfl⟩ := hu
  have h2 := (h.releaseSource hp h1).setCtx m.ctx (some { m.context with source := none })
  unfold Ev.dropSource
  dsimp only
  split
  · rename_i hd
    exact (h2.setAtt _ _).route _ _ _
  · rename_i hd
    exact h2.route _ _ _

theorem Ev.To.orphan (h : e.To due s) (g : Identity) (b : AntennaNo) (c : OrphanCause) :
    (e.orphan g b c).To due ((s.setAtt g (.orphan (1000 * s.tuning.tHold))).notify (.orphaned g b c)) := by
  have : s.setAtt g (.orphan (1000 * s.tuning.tHold)) = s.setAtt g (.orphan (s.tuning.tHold * 1000)) := by
    rw [Nat.mul_comm]
  rw [this]
  exact (h.upd (f := fun s => s.setAtt g (.orphan (s.tuning.tHold * 1000))) (fun _ => rfl)).notify _

theorem Ev.Frame.to_tuning {e₀ : Ev} (hf : e₀.Frame e) (h : e.To due t) : t.tuning = e₀.st.tuning := by
  rw [← h.tuning]
  exact hf.1.tuning

theorem Ev.To.failed (h : e.To due s) (m : Moving) (reason : FailReason) : (e.failed m reason).To due
    (s.notify (.transferFailed m.profile.ident m.context.sourceAnt m.context.targetAnt m.context.cause reason)) := h.notify _

/-- A failure with orphaning (R125). -/
theorem Ev.To.failOrphan (h : e.To due s) {m : Moving} {reason : FailReason}
    (hu : s.FailsOrphan m.profile m.service m.ctx m.context reason u) : (e.failOrphan m reason).To due u := by
  obtain ⟨u₁, u₂, r, h1, h2, rfl, rfl⟩ := hu
  have hr := h.releaseReserved h1
  have hf : e.Frame ((e.releaseReserved m.profile m.context.targetAnt m.context.target).releaseSource m) :=
    ((Ev.Frame.refl e).releaseReserved _ _ _).releaseSource m
  have key : ((e.releaseReserved m.profile m.context.targetAnt m.context.target).releaseSource m).To due u₂ := by
    cases hp : m.context.source with
    | none =>
      rw [hp] at h2
      subst h2
      rw [Ev.releaseSource_none _ hp]
      exact hr
    | some place =>
      rw [hp] at h2
      exact hr.releaseSource hp h2
  have hk : u₂.tuning = s.tuning := (hf.to_tuning key).trans h.tuning
  have h3 := ((key.freeCtx m.ctx).notify (.transferFailed m.profile.ident m.context.sourceAnt m.context.targetAnt m.context.cause
    reason)).orphan m.profile.ident m.context.sourceAnt .transfer
  have e1 : ((u₂.setCtx m.ctx none).notify (.transferFailed m.profile.ident m.context.sourceAnt m.context.targetAnt
      m.context.cause reason)).tuning = s.tuning := hk
  rw [e1] at h3
  unfold Ev.failOrphan
  dsimp only
  cases hp : m.context.source with
  | none =>
    rw [Moving.source_none hp]
    exact h3
  | some place =>
    rw [Moving.source_some hp]
    exact h3.route _ _ _

/-- The offer of the lowest FREE slot (R109, R124 step 6). -/
theorem Ev.To.offerLowest (h : e.To due s) {b : AntennaNo} (hu : s.OffersLowest b u) : (e.offerLowest b).To due u := by
  unfold Ev.offerLowest
  rw [h.freeSlot]
  rcases hu with ⟨hn, rfl⟩ | ⟨i, hi, ho⟩
  · rw [State.freeSlot_none hn]
    exact h
  · rw [State.freeSlot_eq s b i hi]
    exact h.offer ho

/-- The offers due at the end of an event (R124 step 6). -/
theorem Ev.To.finish_due (h : e.To due s) (hu : Through (fun b s t => s.OffersLowest b t) due s t) : e.finish.To [] t := by
  obtain ⟨h1, h2, h3⟩ := h
  unfold Ev.finish
  rw [h2]
  exact Ev.To.through (f := fun e b => e.offerLowest b) (fun h hu => h.offerLowest hu)
    (show ({ e with late := [] } : Ev).To [] s from ⟨h1, rfl, h3⟩) hu

/-- Steps 1 to 5 of a return; the offer of step 6 is then due (R124). -/
theorem Ev.To.givesBack (h : e.To due s) {m : Moving} {place : Place} {reason : FailReason}
    (hu : s.GivesBack m.profile m.service m.ctx m.context m.track place reason u) :
    (e.returnTo m ⟨m.context.sourceAnt, place⟩ reason).To
      (due ++ if m.service = .demoted then [m.context.sourceAnt] else []) u := by
  obtain ⟨u₁, h1, rfl⟩ := hu
  have hr := h.releaseReserved h1
  have hf : e.Frame (e.releaseReserved m.profile m.context.targetAnt m.context.target) :=
    (Ev.Frame.refl e).releaseReserved _ _ _
  have hk : u₁.tuning = s.tuning := (hf.to_tuning hr).trans h.tuning
  have h3 := ((hr.upd (f := fun s => s.setAtt m.profile.ident (.served m.service ⟨m.context.sourceAnt, place⟩
    { candidate := none, count := 0, hearing := unpinTarget m.context.targetAnt s.tuning.backoff m.track.hearing }))
    (fun _ => rfl)).freeCtx m.ctx).failed m reason
  simp only [hk] at h3
  unfold Ev.returnTo
  dsimp only
  split
  · exact ⟨h3.whole, congrArg (· ++ [m.context.sourceAnt]) h3.late, h3.noWarm⟩
  · rw [List.append_nil]
    exact h3

/-- A return to the source (R124), with the late offer of a DEMOTED headset's return at the end of the event. -/
theorem Ev.To.returnTo (h : e.To [] s) {m : Moving} {place : Place} {reason : FailReason}
    (hu : s.Returns m.profile m.service m.ctx m.context m.track place reason u) :
    (e.returnTo m ⟨m.context.sourceAnt, place⟩ reason).finish.To [] u := by
  obtain ⟨r, h1, h2⟩ := hu
  refine (h.givesBack h1).finish_due ?_
  rcases h2 with ⟨hn, rfl⟩ | ⟨hd, ho⟩
  · rw [if_neg hn]
    exact .done _
  · rw [if_pos hd]
    exact .next _ _ _ _ _ ho (.done _)

/-! ## JOIN -/

/-- What the state of a headset asks for before its admission (R11 to R15). -/
theorem Ev.to_joins {h : Identity} {p : Profile} {mark : Bool} {lost : Option AntennaNo} (hu : s.Joins a h p u mark lost) :
    p.ident = h ∧ ∃ e, (Ev.start s).joinTaken a h = e.admitJoin p a mark lost ∧ e.To [] u ∧ (Ev.start s).Frame e := by
  have h0 := Ev.to_start s
  have hf := Ev.Frame.refl (Ev.start s)
  cases hu with
  | idle q _ hr =>
    exact ⟨State.ident_of_rec hr, _, by simp [Ev.joinTaken, Ev.start, hr], h0, hf⟩
  | waiting q _ b n hr hn =>
    refine ⟨State.ident_of_rec hr, ((Ev.start s).removeWait b h).detach h, ?_, (h0.removeWait b h).detach h,
      (hf.removeWait b h).detach h⟩
    unfold Ev.joinTaken
    rw [h0.recOf, hr]
    simp only [if_neg hn]
  | served q _ svc held tr u hr hx =>
    have hi : p.ident = h := State.ident_of_rec hr
    refine ⟨hi, (Ev.start s).reattachRelease p svc held a, ?_, ?_, hf.reattachRelease _ _ _ _⟩
    · unfold Ev.joinTaken
      rw [h0.recOf, hr]
    · unfold Ev.reattachRelease
      subst hi
      dsimp only
      split
      · rename_i ha
        rw [if_pos ha, State.sends_nil] at hx
        exact (h0.releaseHeld hx).detach _
      · rename_i ha
        rw [if_neg ha] at hx
        exact ((h0.emit _).releaseHeld hx).detach _
  | moving q _ svc c tr x u hr hc ha hx =>
    have hi : p.ident = h := State.ident_of_rec hr
    have hm := State.movingOf_eq hr hc
    subst hi
    refine ⟨rfl, (((Ev.start s).abortTransfer ⟨p, svc, c, tr, x⟩ (some a)).failed ⟨p, svc, c, tr, x⟩ .rejoin).detach p.ident, ?_,
      ?_, ((hf.abortTransfer _ _).failed _ _).detach _⟩
    · unfold Ev.joinTaken
      rw [h0.recOf, hr]
      simp only [h0.movingOf, hm, Ev.joinMoving, if_neg ha, Moving.source_ant]
    · exact ((h0.abortTransfer (m := ⟨p, svc, c, tr, x⟩) hx).notify _).detach _
  | orphan q _ n hr =>
    exact ⟨State.ident_of_rec hr, _, by simp [Ev.joinTaken, Ev.start, hr], h0.detach h, hf.detach h⟩

theorem State.Frame.antBack (h : s.Frame t) (a : AntennaNo) :
    (t.ant a).present = (s.ant a).present ∧ (t.ant a).venue = (s.ant a).venue ∧ (t.ant a).online = (s.ant a).online ∧
      (t.ant a).barred = (s.ant a).barred := by
  have := h.ants a
  simpa [Antenna.config] using this

theorem State.Frame.sends (h : s.Frame t) (x : List OutCell) (a : AntennaNo) : ((t.sends x).ant a).config = (s.ant a).config :=
  h.ants a

theorem Venue.admits_iff {v : Venue} {h : Identity} : v.admits h = true ↔ v.letsIn h := by
  simp [Venue.admits, Venue.letsIn]

/-- The venue check of a JOIN at an antenna that is not barred (R45, R116). -/
theorem Ev.To.admitJoin (h : e.To due s) {p : Profile} {mark : Bool} {lost : Option AntennaNo} (hb : (s.ant a).barred = false)
    (hw : s.Enters (s.ant a).venue p.cls w) :
    ∃ e', e.admitJoin p a mark lost = e'.admitOpen p a mark lost ∧ e'.To due w ∧ e.Frame e' := by
  have hv : e.st.venueOfAnt a = (s.ant a).venue := by rw [State.venueOfAnt, h.ant]
  unfold Ev.admitJoin
  simp only [hv, h.ant, hb, h.ven, Bool.false_eq_true, if_false]
  rcases hw with ⟨ho, rfl⟩ | ⟨hc, hk, rfl⟩
  · exact ⟨e, by rcases ho with ho | ho <;> simp [ho], h, Ev.Frame.refl e⟩
  · exact ⟨e.wakeVenue (s.ant a).venue, by simp [hc, wakes, hk], h.wakeVenue _, (Ev.Frame.refl e).wakeVenue _⟩

/-- The refusal of a JOIN for a reason with a cell (R117). -/
theorem Ev.To.refuseJoin (h : e.To due s) (p : Profile) (b : AntennaNo) {cell : RefuseReason} {reason : DeniedReason}
    (hc : reason.refuse = some cell) (lost : Option AntennaNo) : (e.refuseJoin p b reason lost).To due
    (((s.sends [.refuse b p.ident cell]).notify (.denied p.ident b reason)).lostAt p lost) := by
  unfold Ev.refuseJoin Ev.deny
  rw [hc]
  exact ((h.emit _).notify _).lostRoute p lost

/-- The refusal of a JOIN at a barred antenna, or by the venue check (R116). -/
theorem Ev.To.refuseEarly (h : e.To due s) {p : Profile} {mark : Bool} {lost : Option AntennaNo} {cell : RefuseReason}
    {reason : DeniedReason} (hc : (s.ant a).barred = true ∧ cell = .barred ∧ reason = .barred ∨
      (s.ant a).barred = false ∧ ((s.ven (s.ant a).venue).state = .draining ∨ (s.ven (s.ant a).venue).state = .closed ∧
        (s.ven (s.ant a).venue).wake.getLsbD p.cls.val = false) ∧ cell = .closed ∧ reason = .closed) :
    (e.admitJoin p a mark lost).To due (((s.sends [.refuse a p.ident cell]).notify (.denied p.ident a reason)).lostAt p lost) := by
  have hv : e.st.venueOfAnt a = (s.ant a).venue := by rw [State.venueOfAnt, h.ant]
  unfold Ev.admitJoin
  simp only [hv, h.ant, h.ven]
  rcases hc with ⟨hb, rfl, rfl⟩ | ⟨hb, hst, rfl, rfl⟩
  · simp only [hb, if_true]
    exact h.refuseJoin p a rfl lost
  · rcases hst with hst | ⟨hst, hk⟩
    · simp only [hb, hst, Bool.false_eq_true, if_false]
      exact h.refuseJoin p a rfl lost
    · simp only [hb, hst, wakes, hk, Bool.false_eq_true, if_false]
      exact h.refuseJoin p a rfl lost

/-- The grant of a JOIN (R116). -/
theorem Ev.To.grantAdmission (h : e.To due s) (hon : (s.ant a).present = true ∧ (s.ant a).online = true)
    (hl : registryLawful s.registry) {p : Profile} {mark : Bool} {lost : Option AntennaNo} {svc : Service} {place : Place}
    (hi : (s.ven (s.ant a).venue).letsIn p.ident) (hx : s.TakesNeed a p none s.tuning.preempt svc place u) :
    (e.admitOpen p a mark lost).To due (State.routed (State.notify ((u.setAtt p.ident (.served svc ⟨a, place⟩
      ⟨none, 0, [⟨a, none, 0, 0, false, .serving⟩]⟩)).sends [.seat a p.ident place])
      (if mark then .recovered p.ident a place svc else .attached p.ident a place svc)) p a (some place)) := by
  have hv : e.st.venueOfAnt a = (s.ant a).venue := by rw [State.venueOfAnt, h.ant]
  obtain ⟨plan, h1, h2, h3, h4⟩ := h.takeNeed hon hl hx
  have h5 := (((h4.setAtt p.ident (.served svc ⟨a, place⟩ (Track.granted a))).emit (.seat a p.ident place)).notify
    (if mark then .recovered p.ident a place svc else .attached p.ident a place svc)).route p a (some place)
  unfold Ev.admitOpen
  simp only [hv, h.ven, Venue.admits_iff.mpr hi, if_true, h.findNeed, h.tuning, h1, Ev.grantAdmission, h2, h3, Ev.grantNotices]
  exact h5

/-- The wait of a JOIN (R108). -/
theorem Ev.To.waitAdmission (h : e.To due s) {p : Profile} {mark : Bool} {lost : Option AntennaNo}
    (hi : (s.ven (s.ant a).venue).letsIn p.ident) (hn : s.needUnmet a p s.tuning.preempt) (hw : (s.ant a).wait.length < 8) :
    (e.admitOpen p a mark lost).To due (State.lostAt (State.setAtt (State.claimed (s.setWait a ((s.ant a).wait ++
      [⟨p.ident, .join mark, p.cls⟩])) (s.ant a).venue) p.ident (.waiting a (1000 * s.tuning.tWait))) p lost) := by
  have hv : e.st.venueOfAnt a = (s.ant a).venue := by rw [State.venueOfAnt, h.ant]
  have hr : e.st.waitRoom a = true := by simpa [State.waitRoom, Config.waitEntries, h.ant] using hw
  have h1 := ((h.appendWait a ⟨p.ident, .join mark, p.cls⟩).upd (f := fun s => s.setAtt p.ident (.waiting a (s.tuning.tWait * 1000)))
    (fun _ => rfl)).lostRoute p lost
  unfold Ev.admitOpen
  simp only [hv, h.ven, Venue.admits_iff.mpr hi, if_true, h.findNeed, h.tuning, State.findNeed_none hn, hr, Ev.waitAdmission]
  rw [Nat.mul_comm 1000]
  exact h1

/-- The refusal of a JOIN after the venue check: outside the window, or with no room to wait (R116). -/
theorem Ev.To.refuseOpen (h : e.To due s) {p : Profile} {mark : Bool} {lost : Option AntennaNo} {cell : RefuseReason}
    {reason : DeniedReason} (hc : ¬ (s.ven (s.ant a).venue).letsIn p.ident ∧ cell = .window ∧ reason = .window ∨
      (s.ven (s.ant a).venue).letsIn p.ident ∧ s.needUnmet a p s.tuning.preempt ∧ 8 ≤ (s.ant a).wait.length ∧
      cell = .full ∧ reason = .full) :
    (e.admitOpen p a mark lost).To due (((s.sends [.refuse a p.ident cell]).notify (.denied p.ident a reason)).lostAt p lost) := by
  have hv : e.st.venueOfAnt a = (s.ant a).venue := by rw [State.venueOfAnt, h.ant]
  unfold Ev.admitOpen
  simp only [hv, h.ven]
  rcases hc with ⟨hi, rfl, rfl⟩ | ⟨hi, hn, hw, rfl, rfl⟩
  · rw [if_neg (fun h => hi (Venue.admits_iff.mp h))]
    exact h.refuseJoin p a rfl lost
  · have hr : e.st.waitRoom a = false := by simpa [State.waitRoom, Config.waitEntries, h.ant] using hw
    simp only [Venue.admits_iff.mpr hi, if_true, h.findNeed, h.tuning, State.findNeed_none hn, hr, Bool.false_eq_true, if_false]
    exact h.refuseJoin p a rfl lost

end Sys2Proof.Machine
end

