-- ==== Sys2Proof/Laws/Starting.lean ====
section
/-! SUPPORT. What a report, the capture of a record, a round and the start of a transfer reach, said once for each, in the terms of
Safety. -/

namespace Sys2Proof.Machine

variable {s t u w : State} {e : Ev} {a : AntennaNo} {due : List AntennaNo}

/-! ## Records -/

/-- The change of a headset's record in a lawful registry: the record found before is replaced (R3). -/
theorem State.updRec_eq_setRec {h : Identity} {r : HeadsetRecord} (hl : registryLawful s.registry) (hr : s.rec? h = some r)
    (f : HeadsetRecord → HeadsetRecord) (hf : (f r).profile.ident = h) : s.updRec h f = s.setRec (f r) := by
  have hu : ∀ x ∈ s.registry, x.profile.ident = h → x = r := by
    intro x hm hg
    have hx : r ∈ s.registry := List.mem_of_find?_eq_some hr
    exact List.inj_on_of_nodup_map hl.2.1 hm hx (by rw [hg, State.ident_of_rec hr])
  unfold State.setRec State.updRec
  rw [hf]
  congr 1
  apply List.map_congr_left
  intro x hm
  by_cases hg : x.profile.ident = h
  · rw [hu x hm hg]
  · simp [hg]

theorem State.rec_setRec (s : State) {r x : HeadsetRecord} (hx : s.rec? r.profile.ident = some x) :
    (s.setRec r).rec? r.profile.ident = some r := by
  have key : ∀ l : List HeadsetRecord, l.find? (fun y => y.profile.ident == r.profile.ident) = some x →
      (l.map (fun y => if y.profile.ident == r.profile.ident then r else y)).find?
        (fun y => y.profile.ident == r.profile.ident) = some r := by
    intro l
    induction l with
    | nil => intro h; cases h
    | cons y l ih =>
      intro h
      by_cases hy : y.profile.ident = r.profile.ident
      · simp [hy]
      · rw [List.find?_cons_of_neg (by simpa using hy)] at h
        rw [List.map_cons, if_neg (by simpa using hy), List.find?_cons_of_neg (by simpa using hy)]
        exact ih h
  exact key s.registry hx

/-- A second record takes the place of the first. -/
theorem State.setRec_setRec (s : State) {r r' : HeadsetRecord} (h : r.profile.ident = r'.profile.ident) :
    (s.setRec r).setRec r' = s.setRec r' := by
  show ({ s with registry := _ } : State) = { s with registry := _ }
  congr 1
  show (s.registry.map _).map _ = s.registry.map _
  rw [List.map_map]
  apply List.map_congr_left
  intro x _
  simp only [Function.comp_apply, h]
  by_cases hx : x.profile.ident = r'.profile.ident <;> simp [hx, h]

/-- The registry stays lawful where a record takes the place of one of its position and identity (R1, R3). -/
theorem State.setRec_lawful {r x : HeadsetRecord} (hl : registryLawful s.registry) (hx : s.rec? r.profile.ident = some x)
    (hp : x.position = r.position) : registryLawful (s.setRec r).registry := by
  have hu : ∀ y ∈ s.registry, y.profile.ident = r.profile.ident → y = x := by
    intro y hm hg
    exact List.inj_on_of_nodup_map hl.2.1 hm (List.mem_of_find?_eq_some hx) (by rw [hg, State.ident_of_rec hx])
  have hpos : s.registry.map (fun y => (if y.profile.ident == r.profile.ident then r else y).position) =
      s.registry.map (·.position) := by
    apply List.map_congr_left
    intro y hm
    by_cases hg : y.profile.ident = r.profile.ident
    · simp [hu y hm hg, hp, State.ident_of_rec hx]
    · simp [hg]
  have hid : s.registry.map (fun y => (if y.profile.ident == r.profile.ident then r else y).profile.ident) =
      s.registry.map (·.profile.ident) := by
    apply List.map_congr_left
    intro y _
    by_cases hg : y.profile.ident = r.profile.ident <;> simp [hg]
  have hreg : (s.setRec r).registry = s.registry.map (fun y => if y.profile.ident == r.profile.ident then r else y) := rfl
  obtain ⟨h1, h2, h3⟩ := hl
  refine ⟨?_, ?_, ?_⟩
  · rw [hreg, ← List.pairwise_map (f := HeadsetRecord.position) (R := (· < ·)), List.map_map]
    rw [← List.pairwise_map (f := HeadsetRecord.position) (R := (· < ·))] at h1
    exact hpos ▸ h1
  · rw [hreg, List.map_map]
    exact hid ▸ h2
  · intro y hy
    rw [hreg, List.mem_map] at hy
    obtain ⟨z, hz, rfl⟩ := hy
    by_cases hg : z.profile.ident = r.profile.ident
    · simpa [hg] using h3 z hz
    · simpa [hg] using h3 z hz

/-! ## Hearing lists -/

/-- A new entry at the head (R74, R75). -/
theorem EntersList.addEntry {x : HearEntry} {l l' : List HearEntry} (h : EntersList x l l') : addEntry x l = l' := by
  unfold Machine.addEntry
  cases h with
  | room _ h6 => simp [Config.hearingEntries, h6]
  | replaces before behind y h6 hy hb =>
    rw [if_neg (by unfold Config.hearingEntries; omega)]
    unfold dropReplaced
    have hb' : ∀ z ∈ behind.reverse, ¬ ((z.pin == .unpinned) = true) := fun z hz => by
      simpa using hb z (List.mem_reverse.mp hz)
    rw [List.reverse_append, List.reverse_cons, List.append_assoc, List.eraseP_append_right _ hb']
    simp [hy]

theorem entryOf_none {l : List HearEntry} (h : ∀ y ∈ l, y.ant ≠ a) : entryOf l a = none := by
  unfold entryOf
  rw [List.find?_eq_none]
  intro y hy
  simpa using h y hy

theorem entryOf_split {before behind : List HearEntry} {x : HearEntry} (hx : x.ant = a) (hb : ∀ y ∈ before, y.ant ≠ a) :
    entryOf (before ++ x :: behind) a = some x := by
  unfold entryOf
  rw [List.find?_append, show before.find? (fun x => x.ant == a) = none from entryOf_none hb, Option.none_or]
  simp [hx]

/-- The list after a report, and the entry at its head (R62, R66 to R68, R73 to R75). -/
theorem HearsInto.hearUpdate {k q v : Nat} {clip : Bool} {l l' : List HearEntry} (h : HearsInto k a q clip l v l') :
    hearUpdate k a q clip l = l' ∧ ∃ x rest, l' = x :: rest ∧ x.ant = a ∧ x.avg = some v ∧ x.age = 0 := by
  unfold Machine.hearUpdate
  cases h with
  | seeds before behind x hx hb hn =>
    rw [entryOf_split hx hb]
    refine ⟨?_, _, _, rfl, hx, rfl, rfl⟩
    rw [List.eraseP_append_right _ (fun y hy => by simpa using hb y hy)]
    simp [hx, hn, averageAfter]
  | steps before behind x old v hx hb hn hv =>
    rw [entryOf_split hx hb]
    refine ⟨?_, _, _, rfl, hx, rfl, rfl⟩
    rw [List.eraseP_append_right _ (fun y hy => by simpa using hb y hy)]
    simp [hx, hn, averageAfter, hv]
  | enters l l' hn he =>
    rw [entryOf_none hn]
    refine ⟨he.addEntry, ?_⟩
    cases he with
    | room => exact ⟨_, _, rfl, rfl, rfl, rfl⟩
    | replaces before behind y h6 hy hb => exact ⟨_, _, rfl, rfl, rfl, rfl⟩

theorem servingAverage_head {x : HearEntry} {rest : List HearEntry} (hx : x.ant = a) {v : Nat} (hv : x.avg = some v) :
    servingAverage (x :: rest) a = v := by
  simp [servingAverage, entryOf, hx, hv]

/-- A round reads the list after its ageing and its count-down (R78, R79). -/
theorem State.roundList_eq (s : State) (l : List HearEntry) : s.roundList l = agedList s.tuning.staleLimit l := rfl

/-- Every round sees the serving entry measured (R85). -/
theorem servingAverage_aged {x : HearEntry} {rest : List HearEntry} {v n : Nat} (hn : 1 ≤ n) (hx : x.ant = a)
    (hv : x.avg = some v) (h0 : x.age = 0) : servingAverage (agedList n (x :: rest)) a = v := by
  have key : ∀ y : HearEntry, y.ant = a → y.avg = some v → y.age ≤ n → ∀ l : List HearEntry,
      servingAverage (((y :: l).filter (fun x => decide (x.age ≤ n))).map (fun x => { x with backoff := x.backoff - 1 })) a
        = v := by
    intro y h1 h2 h3 l
    rw [List.filter_cons_of_pos (by simpa using h3), List.map_cons]
    exact servingAverage_head (x := { y with backoff := y.backoff - 1 }) h1 h2
  unfold agedList
  rw [List.map_cons]
  refine key _ ?_ ?_ ?_ _
  · split <;> exact hx
  · split <;> exact hv
  · split
    · show x.age + 1 ≤ n
      omega
    · omega

/-- The list at the start of a transfer (R76). -/
theorem PinsTarget.pinTarget {l l' : List HearEntry} (h : PinsTarget a l l') : pinTarget a l = l' := by
  unfold Machine.pinTarget
  cases h with
  | found h =>
    obtain ⟨x, hx, ha⟩ := h
    have : (entryOf l a).isSome = true := by
      unfold entryOf
      rw [List.find?_isSome]
      exact ⟨x, hx, by simpa using ha⟩
    cases hc : entryOf l a with
    | none => rw [hc] at this; cases this
    | some _ => rfl
  | created l' hn he =>
    rw [entryOf_none hn]
    exact he.addEntry

/-! ## Reports and captures -/

/-- The quality of a report (R63 to R66). -/
theorem reportGives.quality {level errors : Byte} {q : Nat} {clip : Bool} (h : reportGives level errors q clip) :
    quality level errors = (q, clip) ∧ ¬ (252 ≤ level.toNat ∧ level.toNat ≤ 254) := by
  obtain ⟨l, e, h1, h2, rfl, rfl⟩ := h
  exact ⟨quality_eq level errors l e h1 h2, by omega⟩

theorem Ev.To.tap (h : e.To due s) (n : TapNo) : e.st.tap n = s.tap n := by rw [← h.whole]; rfl

theorem Ev.To.setTap (h : e.To due s) (n : TapNo) (x : Tap) : (e.upd (·.setTap n x)).To due (s.setTap n x) := h.upd (fun _ => rfl)

/-- A record offered to one tap (R179). -/
theorem Ev.To.captureAt (h : e.To due s) {r : TapRecord} {n : TapNo} (hu : s.TapTakes r n u) : (e.captureAt r n).To due u := by
  have ha : (s.tap n).admits r = true ↔ (s.tap n).takes r := by
    cases r <;> simp [Tap.admits, Tap.takes, TapRecord.kind, TapRecord.antenna, and_assoc]
  unfold Ev.captureAt
  rw [h.tap]
  cases hu with
  | passes hn =>
    rw [← ha, Bool.not_eq_true] at hn
    simp only [hn, Bool.not_false, if_true]
    exact h
  | adds hx h16 h2 =>
    simp only [ha.mpr hx, Bool.not_true, Bool.false_eq_true, if_false, Config.tapBuffer, h16, if_true]
    rw [if_neg (by omega)]
    exact h.setTap _ _
  | block hx h16 h1 hc =>
    simp only [ha.mpr hx, Bool.not_true, Bool.false_eq_true, if_false, Config.tapBuffer, h16, if_true, h1, hc]
    exact (h.setTap _ _).notify _
  | last hx h16 h1 hc =>
    simp only [ha.mpr hx, Bool.not_true, Bool.false_eq_true, if_false, Config.tapBuffer, h16, if_true, h1, hc]
    exact (h.setTap _ _).notify _
  | gap hx h16 =>
    simp only [ha.mpr hx, Bool.not_true, Bool.false_eq_true, if_false, Config.tapBuffer, if_neg (not_lt.mpr h16)]
    exact h.setTap _ _

/-- A record offered to the taps (R179). -/
theorem Ev.To.capture (h : e.To due s) {r : TapRecord} (hu : s.Captures r u) : (e.capture r).To due u :=
  h.through (fun h1 h2 => h1.captureAt h2) hu

/-- The capture of a record changes the taps and the notices alone. -/
theorem State.Captures.same {r : TapRecord} (h : s.Captures r u) :
    u.registry = s.registry ∧ u.tuning = s.tuning ∧ u.antennas = s.antennas ∧ u.venues = s.venues ∧
      u.contexts = s.contexts ∧ u.lines = s.lines ∧ u.head = s.head := by
  have key : ∀ {l : List TapNo} {s u : State}, Through (fun n s u => s.TapTakes r n u) l s u →
      u.registry = s.registry ∧ u.tuning = s.tuning ∧ u.antennas = s.antennas ∧ u.venues = s.venues ∧
        u.contexts = s.contexts ∧ u.lines = s.lines ∧ u.head = s.head := by
    intro l s u h
    induction h with
    | done s => simp
    | next x l s v t h1 _ ih =>
      have : v.registry = s.registry ∧ v.tuning = s.tuning ∧ v.antennas = s.antennas ∧ v.venues = s.venues ∧
          v.contexts = s.contexts ∧ v.lines = s.lines ∧ v.head = s.head := by
        cases h1 <;> exact ⟨rfl, rfl, rfl, rfl, rfl, rfl, rfl⟩
      obtain ⟨h1, h2, h3, h4, h5, h6, h7⟩ := this
      rw [← h1, ← h2, ← h3, ← h4, ← h5, ← h6, ← h7]
      exact ih
  exact key h

/-! ## The start of a transfer -/

/-- A wake changes nothing that a search reads. -/
theorem State.Enters.same {v : VenueNo} {c : ClassNo} (h : s.Enters v c w) :
    w.antennas = s.antennas ∧ w.registry = s.registry ∧ w.tuning = s.tuning ∧ w.lines = s.lines := by
  rcases h with ⟨_, rfl⟩ | ⟨_, _, rfl⟩ <;> exact ⟨rfl, rfl, rfl, rfl⟩

theorem Ev.To.wakeIfClosed (h : e.To due s) {v : VenueNo} {c : ClassNo} (hw : s.Enters v c w) : (e.wakeIfClosed v).To due w := by
  unfold Ev.wakeIfClosed
  rw [h.ven]
  rcases hw with ⟨ho, rfl⟩ | ⟨hc, _, rfl⟩
  · rw [if_neg (by rcases ho with ho | ho <;> simp [ho])]
    exact h
  · rw [if_pos hc]
    exact h.wakeVenue v

/-- The reservation of the target, as the search before it found (R96, R101). -/
theorem Ev.To.takeTarget (h : e.To due s) (hon : s.inService a) (hl : registryLawful s.registry) {p : Profile} {svc : Service}
    {c : ContextNo} {b : Bool} {place : Place} (hu : s.TakesTarget a p svc c b place u) :
    ∃ plan : NeedPlan, s.transferNeed a p svc b = some plan ∧ plan.place = place ∧
      (e.takeNeed a p plan (some c)).To due u := by
  unfold State.TakesTarget at hu
  split at hu
  · rename_i hd
    obtain ⟨i, hi, rfl, rfl⟩ := hu
    refine ⟨.slot (.free i), by simp [hd, State.transferNeed, State.freeSlot_eq s a i hi], rfl, ?_⟩
    unfold Ev.takeNeed Ev.takeSlot State.venueOfAnt
    rw [h.ant]
    exact (h.setSlot a i _).claimUp _
  · rename_i hd
    obtain ⟨svc', hx⟩ := hu
    obtain ⟨plan, h1, h2, _, h3⟩ := h.takeNeed hon hl hx
    exact ⟨plan, by cases svc <;> simp_all [State.transferNeed], h2, h3⟩

/-- No target can be reserved (R96, R143). -/
theorem State.transferNeed_none {p : Profile} {svc : Service} {b : Bool} (h : s.targetUnmet a p svc b) :
    s.transferNeed a p svc b = none := by
  unfold State.targetUnmet at h
  split at h
  · rename_i hd
    simp [hd, State.transferNeed, State.freeSlot_none h]
  · rename_i hd
    have := State.findNeed_none h
    cases svc <;> simp_all [State.transferNeed]

/-- The start of a transfer with what its search found (R121). -/
theorem Ev.To.startTransfer (h : e.To due s) (hon : s.inService a) (hl : registryLawful s.registry) {p : Profile}
    {svc : Service} {held : Resource} {tr : Track} {c : ContextNo} {cause : Cause} {o : Options} {b : Bool}
    (hu : s.Starts p svc held tr a c cause o b u) :
    ∃ plan : NeedPlan, s.transferNeed a p svc b = some plan ∧ (e.startTransfer p svc held tr c a plan cause o).To due u := by
  obtain ⟨w, v, place, l, h1, h2, h3, rfl⟩ := hu
  obtain ⟨hw1, hw2, hw3, hw4⟩ := h1.same
  have hv : e.st.venueOfAnt a = (s.ant a).venue := by rw [State.venueOfAnt, h.ant]
  have hk := h.wakeIfClosed h1
  have hon' : w.inService a := by simpa [State.inService, State.ant, hw1] using hon
  obtain ⟨plan, h4, rfl, h6⟩ := hk.takeTarget hon' (by rw [hw2]; exact hl) h2
  refine ⟨plan, ?_, ?_⟩
  · rw [← h4]
    rcases h1 with ⟨_, rfl⟩ | ⟨_, _, rfl⟩ <;> rfl
  · have ht : v.tuning = s.tuning := by
      rw [← h6.tuning, (((Ev.Frame.refl _).takeNeed a p plan (some c)).1.tuning), hk.tuning, hw3]
    have h7 := h6.upd (f := fun x => x.setCtx c (some
      { headset := p.ident, sourceAnt := held.ant, source := some held.place, targetAnt := a, target := plan.place,
        cause := cause, options := o, phase := .prepare, timer := x.tuning.tPrep })) (fun _ => rfl)
    have h8 := (h7.setAtt p.ident (.transfer svc c { tr with hearing := pinTarget a tr.hearing })).emit
      (.book a p.ident plan.place)
    rw [ht, h3.pinTarget] at h8
    unfold Ev.startTransfer
    rw [hv]
    exact h3.pinTarget ▸ h8

/-! ## Rounds -/

/-- The track of a headset after its round (R91). -/
theorem Ev.To.setTrack (h : e.To due s) (hl : registryLawful s.registry) {g : Identity} {q : Position} {p : Profile}
    {svc : Service} {held : Resource} {tr tr' : Track} (hr : s.rec? g = some ⟨q, p, .served svc held tr⟩) :
    (e.setTrack g tr').To due (s.setRec ⟨q, p, .served svc held tr'⟩) := by
  have : s.updRec g (fun r => { r with att := r.att.mapTrack (fun _ => tr') }) = s.setRec ⟨q, p, .served svc held tr'⟩ :=
    State.updRec_eq_setRec hl hr (fun r => { r with att := r.att.mapTrack (fun _ => tr') })
    (State.ident_of_rec (r := ⟨q, p, .served svc held tr⟩) hr)
  rw [← this]
  exact h.upd (fun _ => rfl)

/-- The record of a headset after a report: its track, and the sticky flag set by a clip (R62, R66, R69). -/
theorem Ev.To.setHeard (h : e.To due s) (hl : registryLawful s.registry) {g : Identity} {r : HeadsetRecord}
    (hr : s.rec? g = some r) (tr : Track) (clip : Bool) :
    ((e.setTrack g tr).upd (fun s => s.updRec g (fun r =>
      { r with profile := { r.profile with sticky := r.profile.sticky || clip } }))).To due
      (s.setRec { r with
        att := r.att.mapTrack (fun _ => tr), profile := { r.profile with sticky := r.profile.sticky || clip } }) := by
  have hi := State.ident_of_rec hr
  subst hi
  have h1 : s.updRec r.profile.ident (fun r => { r with att := r.att.mapTrack (fun _ => tr) }) =
      s.setRec { r with att := r.att.mapTrack (fun _ => tr) } := State.updRec_eq_setRec hl hr _ rfl
  have h2 := (h.upd (f := fun s => s.updRec r.profile.ident (fun r => { r with att := r.att.mapTrack (fun _ => tr) }))
    (fun _ => rfl)).upd (f := fun s => s.updRec r.profile.ident (fun r =>
      { r with profile := { r.profile with sticky := r.profile.sticky || clip } })) (fun _ => rfl)
  rw [h1, State.updRec_eq_setRec (State.setRec_lawful hl (r := { r with att := r.att.mapTrack (fun _ => tr) }) hr rfl)
    (State.rec_setRec s (r := { r with att := r.att.mapTrack (fun _ => tr) }) hr)
    (fun r => { r with profile := { r.profile with sticky := r.profile.sticky || clip } }) rfl,
    State.setRec_setRec (r := { r with att := r.att.mapTrack (fun _ => tr) })
      (r' := { r with
        att := r.att.mapTrack (fun _ => tr), profile := { r.profile with sticky := r.profile.sticky || clip } }) _ rfl] at h2
  exact h2

/-- The capture of a record sends no cell. -/
theorem Ev.cells_capture (e : Ev) (r : TapRecord) : (e.capture r).cells = e.cells := by
  have h1 : ∀ (e : Ev) (n : TapNo), (e.captureAt r n).cells = e.cells := by
    intro e n
    unfold Ev.captureAt
    dsimp only
    repeat' split
    all_goals rfl
  have h2 : ∀ (l : List TapNo) (e : Ev), (l.foldl (fun e n => e.captureAt r n) e).cells = e.cells := by
    intro l
    induction l with
    | nil => exact fun _ => rfl
    | cons n l ih => exact fun e => (ih _).trans (h1 e n)
  exact h2 _ e

/-- The trigger count after a round with a candidate (R91). -/
theorem countAfter_eq (persist : Nat) (stored : Option AntennaNo) (count : Nat) (x : AntennaNo) (met : Bool) :
    countAfter persist stored count x met =
      if met then min persist ((if stored = some x then count else 0) + 1) else 0 := by
  unfold countAfter
  generalize (if stored = some x then count else 0) = k
  cases met
  · rfl
  · simp only [if_true]
    split <;> omega

end Sys2Proof.Machine
end

