-- ==== Sys2Proof/Laws/Departing.lean ====
section
/-! SUPPORT. What a DOWN reaches at each context, holder and wait entry, said once for each, in the terms of Safety. -/

namespace Sys2Proof.Machine

variable {s t u : State} {e : Ev} {a : AntennaNo} {due : List AntennaNo}

theorem Ev.To.movingIn (h : e.To due s) (c : ContextNo) : e.st.movingIn c = s.movingIn c := by rw [← h.whole]; rfl

theorem State.movingIn_eq {c : ContextNo} {q : Position} {p : Profile} {svc : Service} {tr : Track} {x : Context}
    (hx : s.ctx c = some x) (hr : s.rec? x.headset = some ⟨q, p, .transfer svc c tr⟩) :
    s.movingIn c = some ⟨p, svc, c, tr, x⟩ := by
  simp [State.movingIn, hx, State.movingOf_eq hr hx]

/-- A DOWN at one context (R33 step 3, R131, R132, R134). -/
theorem Ev.To.downContext {c : ContextNo} {x y : State × List AntennaNo} (h : e.To x.2 x.1) (hu : DownsContext a c x y) :
    (Ev.downContext a e c).To y.2 y.1 := by
  unfold Ev.downContext
  rw [h.movingIn]
  cases hu with
  | free s late hx =>
    have : s.movingIn c = none := by simp [State.movingIn, hx]
    rw [this]
    exact h
  | elsewhere s late q p svc tr x hx hr ht hs =>
    rw [State.movingIn_eq hx hr]
    dsimp only
    split
    · rename_i ha
      have hn : x.source = none := hs.resolve_left (fun h => h ha)
      rw [Moving.source_none (m := ⟨p, svc, c, tr, x⟩) hn]
      exact h
    · exact h
  | sourceLost s t late q p svc tr x hx hr ha hn hp hf =>
    obtain ⟨place, hpl⟩ := Option.ne_none_iff_exists'.mp hn
    have hi : p.ident = x.headset := State.ident_of_rec hr
    rw [State.movingIn_eq hx hr]
    dsimp only
    rw [if_pos ha, Moving.source_some (m := ⟨p, svc, c, tr, x⟩) hpl]
    simp only [Option.isSome_some, if_true, Ev.sourceLost, hp]
    exact (h.emit _).failOrphan (m := ⟨p, svc, c, tr, x⟩) hf
  | sourceLeft s t late q p svc tr x place hx hr ha hpl hp hd =>
    rw [State.movingIn_eq hx hr]
    dsimp only
    rw [if_pos ha, Moving.source_some (m := ⟨p, svc, c, tr, x⟩) hpl]
    simp only [Option.isSome_some, if_true, Ev.sourceLost, hp]
    exact h.dropSource (m := ⟨p, svc, c, tr, x⟩) hpl hd
  | returned s t late q p svc tr x place hx hr ht ha hpl hg =>
    rw [State.movingIn_eq hx hr]
    dsimp only
    rw [if_neg ha, if_pos ht]
    unfold Ev.giveUp
    rw [Moving.source_some (m := ⟨p, svc, c, tr, x⟩) hpl]
    exact h.givesBack (m := ⟨p, svc, c, tr, x⟩) hg
  | orphaned s t late q p svc tr x hx hr ht ha hn hf =>
    rw [State.movingIn_eq hx hr]
    dsimp only
    rw [if_neg ha, if_pos ht]
    unfold Ev.giveUp
    rw [Moving.source_none (m := ⟨p, svc, c, tr, x⟩) hn]
    exact h.failOrphan (m := ⟨p, svc, c, tr, x⟩) hf

/-- A DOWN at all contexts. -/
theorem Ev.To.downContexts {l : List ContextNo} {x y : State × List AntennaNo} (h : e.To x.2 x.1)
    (hu : Through (DownsContext a) l x y) : (l.foldl (Ev.downContext a) e).To y.2 y.1 := by
  induction hu generalizing e with
  | done x => exact h
  | next c l x z y h1 _ ih => exact ih (h.downContext h1)

/-- A DOWN at one headset (R9, R33 step 4). -/
theorem Ev.To.downHolder (h : e.To due s) {g : Identity} (hu : s.DownsHolder a g u) : (Ev.downHolder a e g).To due u := by
  unfold Ev.downHolder
  rw [h.recOf]
  cases hu with
  | lost q p svc place tr v hr hv =>
    have hk : v.tuning = s.tuning :=
      (((Ev.Frame.refl e).releaseHeld p svc ⟨a, place⟩).to_tuning (h.releaseHeld (held := ⟨a, place⟩) hv)).trans h.tuning
    have h1 := ((h.releaseHeld (held := ⟨a, place⟩) hv).orphan g a .unitDown).route p a none
    rw [hk] at h1
    rw [hr]
    simp only [if_true]
    exact h1
  | kept hn =>
    split
    · rename_i q p svc held tr hr
      rw [if_neg (hn _ hr svc held tr rfl)]
      exact h
    · exact h

/-- A DOWN at one entry left in the wait list (R33 step 5). -/
theorem Ev.To.downEntry (h : e.To due s) (g : Identity) : (Ev.denyWait a .offline e g).To due (State.entryDowned a s g) :=
  ((h.removeWait a g).detach g).notify _

/-- A DOWN at the entries left in the wait list. -/
theorem Ev.To.downEntries (h : e.To due s) (l : List Identity) :
    (l.foldl (Ev.denyWait a .offline) e).To due (l.foldl (State.entryDowned a) s) := by
  induction l generalizing e s with
  | nil => exact h
  | cons g l ih => exact ih (h.downEntry g)

/-! ## The link state and the port -/

/-- A change of a link state leaves the head port alone. -/
theorem Ev.head_upTaken (e : Ev) (b : AntennaNo) : (e.upTaken b).st.head = e.st.head := by
  unfold Ev.upTaken
  dsimp only
  split <;> split <;> rfl

theorem Ev.head_downTaken (e : Ev) (b : AntennaNo) : (e.downTaken b).st.head = e.st.head := by
  have hd := Ev.Frame.refl ((e.upd (·.setOnline b false)).notify (.unitState b false))
  unfold Ev.downTaken
  split
  · dsimp only
    split
    · rfl
    · have h1 := Ev.Frame.foldl hd _ (fun e c h => h.trans (e.frame_downContext b c)) allContexts
      have h2 := Ev.Frame.foldl h1 _ (fun e g h => h.trans (e.frame_downHolder b g)) (List.foldl (Ev.downContext b)
        ((e.upd (·.setOnline b false)).notify (.unitState b false)) allContexts).st.identities
      exact (Ev.Frame.foldl h2 _ (fun e g h => h.denyWait b .offline g) _).1.head
  · rfl

/-- The owner of a cell leaves the head port alone. -/
theorem Ev.head_cellEvent (e : Ev) (c : RawCell) (k : UnitKind) (b : AntennaNo) : (Ev.cellEvent c k b e).st.head = e.st.head := by
  by_cases hk : k.isLink = false
  · exact ((Ev.Frame.refl e).cellEvent c k b hk).1.head
  · cases k with
    | up => exact e.head_upTaken b
    | down => exact e.head_downTaken b
    | _ => exact absurd rfl hk

/-- The registry's identities outlive every operation inside an event (R33). -/
theorem Ev.Frame.identities {e₀ : Ev} (h : e₀.Frame e) : e.st.identities = e₀.st.identities := by
  have := congrArg (List.map (fun x : Position × Profile => x.2.ident)) h.1.records
  rw [List.map_map, List.map_map] at this
  exact this

end Sys2Proof.Machine
end

