-- ==== Sys2Proof/Laws/Choosing.lean ====
section
/-! SUPPORT. What the choice of a candidate and the tests of a STEER find, said once for each, in the terms of Safety. -/

namespace Sys2Proof.Machine
variable {s : State} {a : AntennaNo}

/-- One candidate is no worse than another (R89). -/
def Scored.beats (x y : Scored) : Prop := y.score < x.score ∨ y.score = x.score ∧ x.ant ≤ y.ant

theorem bestOf_mem {l : List Scored} {c : Scored} (h : bestOf l = some c) : c ∈ l ∧ ∀ y ∈ l, c.beats y := by
  induction l generalizing c with
  | nil => cases h
  | cons x l ih =>
    unfold bestOf at h
    cases hb : bestOf l with
    | none =>
      rw [hb] at h
      cases h
      have : l = [] := by
        cases l with
        | nil => rfl
        | cons y l => unfold bestOf at hb; split at hb <;> cases hb
      subst this
      exact ⟨List.mem_singleton_self _, fun y hy => by rw [List.mem_singleton.mp hy]; exact .inr ⟨rfl, le_refl _⟩⟩
    | some z =>
      rw [hb] at h
      obtain ⟨hz, hy⟩ := ih hb
      cases h
      unfold better
      split
      · rename_i hx
        refine ⟨List.mem_cons_self, fun y hm => ?_⟩
        rcases List.mem_cons.mp hm with rfl | hm
        · exact .inr ⟨rfl, le_refl _⟩
        · have := hy y hm
          unfold Scored.beats at *
          rcases this with h1 | ⟨h1, h2⟩ <;> rcases hx with h3 | ⟨h3, h4⟩ <;>
            first | exact .inl (by omega) | exact .inr ⟨by omega, le_trans (le_of_lt h4) h2⟩
      · rename_i hx
        refine ⟨List.mem_cons_of_mem _ hz, fun y hm => ?_⟩
        rcases List.mem_cons.mp hm with rfl | hm
        · unfold Scored.beats
          rw [not_or, not_and] at hx
          rcases lt_or_eq_of_le (not_lt.mp hx.1) with h1 | h1
          · exact .inl h1
          · exact .inr ⟨h1, not_lt.mp (hx.2 h1)⟩
        · exact hy y hm

theorem bestOf_eq_none {l : List Scored} (h : bestOf l = none) : l = [] := by
  cases l with
  | nil => rfl
  | cons y l => unfold bestOf at h; split at h <;> cases h

theorem State.score_eq (s : State) (p : Profile) (a : AntennaNo) (v : Nat) : s.score p a v = s.scoreOf p a v := by
  have : s.load a p.ident = s.takenByOthers a p.ident := by
    unfold State.load State.takenByOthers allSlots
    rw [List.countP_eq_length_filter]
    congr 1
    apply List.filter_congr
    intro i _
    cases s.slot a i <;> simp [bne, Bool.beq_eq_decide_eq]
  unfold State.score State.scoreOf State.venueOfAnt
  rw [this]

theorem Venue.accepts_iff {v : Venue} {c : ClassNo} : v.accepts c = true ↔ v.takesIn c := by
  unfold Venue.accepts Venue.takesIn wakes
  cases v.state <;> simp

theorem State.eligible_iff {p : Profile} {x : HearEntry} : s.eligible p a x = true ↔ s.mayBeCandidate p a x := by
  unfold State.eligible State.mayBeCandidate State.venueOfAnt
  simp only [Bool.and_eq_true, bne_iff_ne, beq_iff_eq, Bool.not_eq_true', Venue.accepts_iff, Venue.admits_iff,
    Option.isSome_iff_ne_none, and_assoc]

theorem State.eligibleUnchecked_iff {p : Profile} {x : HearEntry} : s.eligibleUnchecked p a x = true ↔
    x.ant ≠ a ∧ x.avg ≠ none ∧ s.inService x.ant ∧ (s.ven (s.ant x.ant).venue).takesIn p.cls := by
  unfold State.eligibleUnchecked State.inService State.venueOfAnt
  simp only [Bool.and_eq_true, bne_iff_ne, Venue.accepts_iff, Option.isSome_iff_ne_none, and_assoc]

/-- The best of the entries that pass (R89). -/
theorem State.bestEntry.bestOf {p : Profile} {f : HearEntry → Bool} {passes : HearEntry → Prop} {l : List HearEntry}
    {x : HearEntry} {v : Nat} (hf : ∀ y, f y = true ↔ passes y) (h : s.bestEntry p passes l x v) :
    Machine.bestOf ((l.filter f).filterMap (s.scored p)) = some ⟨x.ant, v, s.scoreOf p x.ant v⟩ := by
  obtain ⟨hx, hp, hv, hb⟩ := h
  have hmem : (⟨x.ant, v, s.scoreOf p x.ant v⟩ : Scored) ∈ (l.filter f).filterMap (s.scored p) :=
    List.mem_filterMap.mpr ⟨x, List.mem_filter.mpr ⟨hx, (hf x).mpr hp⟩, by simp [State.scored, hv, State.score_eq]⟩
  cases hc : Machine.bestOf ((l.filter f).filterMap (s.scored p)) with
  | none => rw [bestOf_eq_none hc] at hmem; cases hmem
  | some c =>
    obtain ⟨h1, h2⟩ := bestOf_mem hc
    obtain ⟨y, hy, hyc⟩ := List.mem_filterMap.mp h1
    obtain ⟨hy1, hy2⟩ := List.mem_filter.mp hy
    unfold State.scored at hyc
    obtain ⟨w, hw, rfl⟩ := Option.map_eq_some_iff.mp hyc
    have h3 := h2 _ hmem
    have h4 := hb y hy1 w ((hf y).mp hy2) hw
    rw [State.score_eq] at h3 ⊢
    unfold Scored.beats at h3
    dsimp only at h3
    have h5 : s.scoreOf p y.ant w = s.scoreOf p x.ant v := by
      rcases h3 with h3 | h3 <;> rcases h4 with h4 | h4 <;> omega
    have h6 : y.ant = x.ant := by
      rcases h3 with h3 | h3 <;> rcases h4 with h4 | h4
      · omega
      · omega
      · omega
      · exact le_antisymm h3.2 h4.2
    have h7 : w = v := by
      rw [h6] at h5
      unfold State.scoreOf at h5
      omega
    rw [h6, h7]

theorem bestOf_none_of {s : State} {p : Profile} {f : HearEntry → Bool} {l : List HearEntry} (h : ∀ y ∈ l, f y = false) :
    bestOf ((l.filter f).filterMap (s.scored p)) = none := by
  rw [List.filter_eq_nil_iff.mpr (fun y hy => by simp [h y hy])]
  rfl

theorem State.steerBest_none {p : Profile} {held : Resource} {l : List HearEntry} {o : Options}
    (h : ∀ x ∈ l, ¬ s.maySteer p held.ant o x) : s.steerBest p held l o = none := by
  unfold State.steerBest State.roundCandidate
  unfold State.maySteer at h
  split
  · rename_i ho
    rw [bestOf_none_of (fun y hy => ?_)]
    · rfl
    · have := h y hy
      rw [← Bool.not_eq_true, State.eligibleUnchecked_iff]
      exact fun hc => this (.inr ⟨ho, hc⟩)
  · rename_i ho
    rw [bestOf_none_of (fun y hy => ?_)]
    · rfl
    · have := h y hy
      rw [← Bool.not_eq_true, State.eligible_iff]
      exact fun hc => this (.inl ⟨by simpa using ho, hc⟩)

theorem State.steerBest_some {p : Profile} {held : Resource} {l : List HearEntry} {o : Options} {x : HearEntry} {v : Nat}
    (h : s.bestEntry p (s.maySteer p held.ant o) l x v) : s.steerBest p held l o = some x.ant := by
  unfold State.steerBest State.roundCandidate
  split
  · rename_i ho
    rw [h.bestOf (f := s.eligibleUnchecked p held.ant) (fun y => by
      rw [State.eligibleUnchecked_iff]; simp [State.maySteer, ho])]
    rfl
  · rename_i ho
    rw [h.bestOf (f := s.eligible p held.ant) (fun y => by
      rw [State.eligible_iff]; simp only [State.maySteer]; simp [ho])]
    rfl

theorem any_heard {l : List HearEntry} : (l.any (fun y => y.ant == a && y.avg.isSome && y.backoff == 0)) = true ↔
    ∃ y ∈ l, y.ant = a ∧ y.avg ≠ none ∧ y.backoff = 0 := by
  simp [Option.isSome_iff_ne_none, and_assoc]

theorem State.steerTargetFault_some {p : Profile} {held : Resource} {l : List HearEntry} {o : Options} {x : Status}
    (h : s.SteerRefused p held.ant l a o x) : s.steerTargetFault p held l a o = some x := by
  unfold State.steerTargetFault
  have hacc : ∀ {b}, ((s.ven (s.ant a).venue).accepts p.cls = b) ↔ (b = true ↔ (s.ven (s.ant a).venue).takesIn p.cls) := by
    intro b; rw [← Venue.accepts_iff]; cases b <;> simp
  have hadm : ∀ {b}, ((s.ven (s.ant a).venue).admits p.ident = b) ↔ (b = true ↔ (s.ven (s.ant a).venue).letsIn p.ident) := by
    intro b; rw [← Venue.admits_iff]; cases b <;> simp
  dsimp only
  cases h with
  | same h => simp [h]
  | offline h1 h2 =>
    rw [if_neg h1, if_pos]
    unfold State.inService at h2
    cases hp : (s.ant a).present <;> cases ho : (s.ant a).online <;> simp_all
  | barred h1 h2 h3 h4 => simp [h1, h2.1, h2.2, h3, h4]
  | closed h1 h2 h3 h4 =>
    rw [if_neg h1, if_neg (by simp [h2.1, h2.2]), if_neg (by rcases h3 with h3 | h3 <;> simp [h3]), if_pos]
    rw [← Venue.accepts_iff] at h4
    simpa using h4
  | window h1 h2 h3 h4 h5 h6 =>
    rw [if_neg h1, if_neg (by simp [h2.1, h2.2]), if_neg (by simp [h4]), if_neg (by simpa using Venue.accepts_iff.mpr h5), if_pos]
    rw [← Venue.admits_iff] at h6
    simpa [h3] using h6
  | unheard h1 h2 h3 h4 h5 h6 h7 =>
    rw [if_neg h1, if_neg (by simp [h2.1, h2.2]), if_neg (by simp [h4]), if_neg (by simpa using Venue.accepts_iff.mpr h5),
      if_neg (by rw [Venue.admits_iff.mpr h6]; simp), if_pos]
    have : (l.any (fun y => y.ant == a && y.avg.isSome && y.backoff == 0)) = false := by
      rw [← Bool.not_eq_true, any_heard]
      rintro ⟨y, hy, ha, hv, hb⟩
      rcases h7 y hy ha with h | h
      · exact hv h
      · exact h hb
    simp [this, h3]

theorem State.steerTarget_ok {p : Profile} {held : Resource} {l : List HearEntry} {o : Options} {b : Byte}
    (h : s.SteersTo p held.ant l b o a) : s.steerTarget p held l b o = .ok a ∧ s.inService a := by
  unfold State.steerTarget
  rcases h with ⟨hb, h1, h2, h3, h4⟩ | ⟨rfl, x, v, hx, rfl⟩
  · refine ⟨?_, h2⟩
    have : s.steerTargetFault p held l a o = none := by
      unfold State.steerTargetFault
      dsimp only
      rw [if_neg h1, if_neg (by simp [h2.1, h2.2]), if_neg (by rcases h4 with h4 | h4 <;> simp [h4]),
        if_neg (by simpa using Venue.accepts_iff.mpr h3)]
      rcases h4 with h4 | ⟨h4, h5, h6⟩
      · simp [h4]
      · rw [if_neg (by rw [Venue.admits_iff.mpr h5]; simp), if_neg (by rw [any_heard.mpr h6]; simp)]
    rw [antennaOf_eq hb]
    dsimp only
    rw [this]
  · have : antennaOf 0xFF = none := by decide
    rw [this, State.steerBest_some hx]
    refine ⟨rfl, ?_⟩
    rcases hx.2.1 with ⟨_, h⟩ | ⟨_, h⟩
    · exact ⟨h.2.2.2.1, h.2.2.2.2.1⟩
    · exact h.2.2.1

theorem State.freeContext_eq {c : ContextNo} (h : s.ctx c = none) (hl : ∀ d, d < c → s.ctx d ≠ none) : s.freeContext = some c :=
  find_finRange (by simp [h]) (fun j hj => by simpa [Option.isSome_iff_ne_none] using hl j hj)

theorem State.freeContext_none (h : ∀ c : ContextNo, s.ctx c ≠ none) : s.freeContext = none :=
  find_finRange_none (fun j => by simpa [Option.isSome_iff_ne_none] using h j)

end Sys2Proof.Machine
end

