-- ==== Sys2Proof/Laws/Detached.lean ====
section
/-! SUPPORT. An event neither reads nor changes the head port: on another head port it does what it does on this one, said once for
each operation. So a cell at the head of a longer buffer does what it does at an empty one. -/

namespace Sys2Proof.Machine

variable (s : State) (e : Ev) (p : HeadPort)

/-! ## What the part reads -/

@[simp] theorem State.venueOfAnt_setHead (a : AntennaNo) : (s.setHead p).venueOfAnt a = s.venueOfAnt a := rfl
@[simp] theorem State.venueUnits_setHead (v : VenueNo) : (s.setHead p).venueUnits v = s.venueUnits v := rfl
@[simp] theorem State.placementTest_setHead (a : AntennaNo) (m : LineNo) :
    (s.setHead p).placementTest a m = s.placementTest a m := rfl
@[simp] theorem State.waitRoom_setHead (a : AntennaNo) : (s.setHead p).waitRoom a = s.waitRoom a := rfl
@[simp] theorem State.offerChoice_setHead (a : AntennaNo) : (s.setHead p).offerChoice a = s.offerChoice a := rfl
@[simp] theorem State.freeSlot_setHead (a : AntennaNo) : (s.setHead p).freeSlot a = s.freeSlot a := rfl
@[simp] theorem State.findNeed_setHead (a : AntennaNo) (x : Profile) (b : Bool) :
    (s.setHead p).findNeed a x b = s.findNeed a x b := rfl
@[simp] theorem State.movingOf_setHead (h : Identity) : (s.setHead p).movingOf h = s.movingOf h := rfl
@[simp] theorem State.movingIn_setHead (c : ContextNo) : (s.setHead p).movingIn c = s.movingIn c := rfl
@[simp] theorem State.heldAntenna_setHead (h : Identity) : (s.setHead p).heldAntenna h = s.heldAntenna h := rfl
@[simp] theorem State.freeContext_setHead : (s.setHead p).freeContext = s.freeContext := rfl
@[simp] theorem State.transferNeed_setHead (a : AntennaNo) (x : Profile) (svc : Service) (b : Bool) :
    (s.setHead p).transferNeed a x svc b = s.transferNeed a x svc b := rfl
@[simp] theorem State.score_setHead (x : Profile) (a : AntennaNo) (v : Nat) : (s.setHead p).score x a v = s.score x a v := rfl
@[simp] theorem State.roundCandidate_setHead (x : Profile) (a : AntennaNo) (l : List HearEntry) :
    (s.setHead p).roundCandidate x a l = s.roundCandidate x a l := rfl
@[simp] theorem State.triggerMet_setHead (x : Profile) (a : AntennaNo) (v : Int) (c : Scored) :
    (s.setHead p).triggerMet x a v c = s.triggerMet x a v c := rfl
@[simp] theorem State.startCause_setHead (a : AntennaNo) (v : Nat) (c : Scored) (n : Nat) :
    (s.setHead p).startCause a v c n = s.startCause a v c n := rfl
@[simp] theorem State.roundList_setHead (l : List HearEntry) : (s.setHead p).roundList l = s.roundList l := rfl
@[simp] theorem State.identities_setHead : (s.setHead p).identities = s.identities := rfl

/-! ## Events on another head port -/

/-- An event on another head port. -/
def Ev.onHead (e : Ev) (p : HeadPort) : Ev := e.upd (·.setHead p)

@[simp] theorem Ev.st_onHead : (e.onHead p).st = e.st.setHead p := rfl
@[simp] theorem Ev.cells_onHead : (e.onHead p).cells = e.cells := rfl
@[simp] theorem Ev.late_onHead : (e.onHead p).late = e.late := rfl
@[simp] theorem Ev.beforeWarm_onHead : (e.onHead p).beforeWarm = e.beforeWarm := rfl

theorem Ev.onHead_ite (c : Prop) [Decidable c] (x y : Ev) :
    (if c then x else y).onHead p = if c then x.onHead p else y.onHead p := apply_ite (Ev.onHead · p) c x y

/-- An operation repeated over a list. -/
theorem Ev.foldl_onHead {α : Type} {f : Ev → α → Ev} (hf : ∀ (e : Ev) (x : α), f (e.onHead p) x = (f e x).onHead p)
    (l : List α) (e : Ev) : l.foldl f (e.onHead p) = (l.foldl f e).onHead p := by
  induction l generalizing e with
  | nil => rfl
  | cons x l ih => rw [List.foldl_cons, List.foldl_cons, hf, ih]

@[simp] theorem Ev.emit_onHead (c : OutCell) : (e.onHead p).emit c = (e.emit c).onHead p := rfl
@[simp] theorem Ev.emitIf_onHead (b : Bool) (c : OutCell) : (e.onHead p).emitIf b c = (e.emitIf b c).onHead p := by
  cases b <;> rfl
@[simp] theorem Ev.notify_onHead (n : Notice) : (e.onHead p).notify n = (e.notify n).onHead p := rfl
@[simp] theorem Ev.route_onHead (x : Profile) (a : AntennaNo) (q : Option Place) :
    (e.onHead p).route x a q = (e.route x a q).onHead p := rfl
@[simp] theorem Ev.offerLate_onHead (a : AntennaNo) : (e.onHead p).offerLate a = (e.offerLate a).onHead p := rfl
@[simp] theorem Ev.setSlot_onHead (a : AntennaNo) (i : SlotNo) (x : SlotState) :
    (e.onHead p).upd (·.setSlot a i x) = (e.upd (·.setSlot a i x)).onHead p := rfl
@[simp] theorem Ev.setCarrier_onHead (a : AntennaNo) (k : CarrierNo) (x : Carrier) :
    (e.onHead p).upd (·.setCarrier a k x) = (e.upd (·.setCarrier a k x)).onHead p := rfl
@[simp] theorem Ev.setAtt_onHead (h : Identity) (x : Attachment) :
    (e.onHead p).upd (·.setAtt h x) = (e.upd (·.setAtt h x)).onHead p := rfl
@[simp] theorem Ev.setCtx_onHead (c : ContextNo) (x : Option Context) :
    (e.onHead p).upd (·.setCtx c x) = (e.upd (·.setCtx c x)).onHead p := rfl
@[simp] theorem Ev.setTap_onHead (n : TapNo) (x : Tap) :
    (e.onHead p).upd (·.setTap n x) = (e.upd (·.setTap n x)).onHead p := rfl
@[simp] theorem Ev.setOnline_onHead (a : AntennaNo) (b : Bool) :
    (e.onHead p).upd (·.setOnline a b) = (e.upd (·.setOnline a b)).onHead p := rfl
@[simp] theorem Ev.rotate_onHead (a : AntennaNo) (c : ClassNo) :
    (e.onHead p).upd (·.rotate a c) = (e.upd (·.rotate a c)).onHead p := by
  have : (e.st.setHead p).rotate a c = (e.st.rotate a c).setHead p := by
    unfold State.rotate
    rw [State.tuning_setHead]
    cases e.st.tuning.arbitration <;> rfl
  exact congrArg (fun s => ({ e with st := s } : Ev)) this

/-! ### Venues and carriers -/

@[simp] theorem Ev.closeVenue_onHead (v : VenueNo) (c : VenueCause) :
    (e.onHead p).closeVenue v c = (e.closeVenue v c).onHead p := rfl
@[simp] theorem Ev.claimUp_onHead (v : VenueNo) : (e.onHead p).claimUp v = (e.claimUp v).onHead p := rfl
@[simp] theorem Ev.claimDown_onHead (v : VenueNo) : (e.onHead p).claimDown v = (e.claimDown v).onHead p := by
  unfold Ev.claimDown
  rw [Ev.onHead_ite]
  rfl
@[simp] theorem Ev.wakeVenue_onHead (v : VenueNo) : (e.onHead p).wakeVenue v = (e.wakeVenue v).onHead p := rfl
@[simp] theorem Ev.wakeIfClosed_onHead (v : VenueNo) : (e.onHead p).wakeIfClosed v = (e.wakeIfClosed v).onHead p := by
  unfold Ev.wakeIfClosed
  rw [Ev.onHead_ite]
  rfl
@[simp] theorem Ev.mixChanged_onHead (a : AntennaNo) (k : CarrierNo) :
    (e.onHead p).mixChanged a k = (e.mixChanged a k).onHead p := by simp [Ev.mixChanged]
@[simp] theorem Ev.changeCarrier_onHead (a : AntennaNo) (k : CarrierNo) (x : Carrier) :
    (e.onHead p).changeCarrier a k x = (e.changeCarrier a k x).onHead p := by
  unfold Ev.changeCarrier
  simp only [Ev.st_onHead, State.carrier_setHead, Ev.setCarrier_onHead, Ev.mixChanged_onHead, Ev.onHead_ite]
  rfl
@[simp] theorem Ev.place_onHead (a : AntennaNo) (k : CarrierNo) (m : LineNo) (b : Bool) :
    (e.onHead p).place a k m b = (e.place a k m b).onHead p := by simp [Ev.place]
@[simp] theorem Ev.releasePlace_onHead (a : AntennaNo) (k : CarrierNo) (m : LineNo) (b : Bool) :
    (e.onHead p).releasePlace a k m b = (e.releasePlace a k m b).onHead p := by simp [Ev.releasePlace]
@[simp] theorem Ev.convertPlace_onHead (a : AntennaNo) (k : CarrierNo) (m : LineNo) :
    (e.onHead p).convertPlace a k m = (e.convertPlace a k m).onHead p := rfl

/-! ### Wait lists, grants and releases -/

@[simp] theorem Ev.detach_onHead (h : Identity) : (e.onHead p).detach h = (e.detach h).onHead p := rfl
@[simp] theorem Ev.orphan_onHead (h : Identity) (a : AntennaNo) (c : OrphanCause) :
    (e.onHead p).orphan h a c = (e.orphan h a c).onHead p := rfl
@[simp] theorem Ev.grantNotices_onHead (x : Profile) (a : AntennaNo) (q : Place) (svc : Service) (b : Bool) :
    (e.onHead p).grantNotices x a q svc b = (e.grantNotices x a q svc b).onHead p := rfl
@[simp] theorem Ev.appendWait_onHead (a : AntennaNo) (w : WaitEntry) :
    (e.onHead p).appendWait a w = (e.appendWait a w).onHead p := rfl
@[simp] theorem Ev.removeWait_onHead (a : AntennaNo) (h : Identity) :
    (e.onHead p).removeWait a h = (e.removeWait a h).onHead p := by
  unfold Ev.removeWait
  exact Ev.claimDown_onHead (e.upd (fun s => s.setWait a ((s.ant a).wait.eraseP (fun w => w.headset == h)))) p _
@[simp] theorem Ev.claimSlot_onHead (a : AntennaNo) (i : SlotNo) (h : Identity) :
    (e.onHead p).claimSlot a i h = (e.claimSlot a i h).onHead p := rfl
@[simp] theorem Ev.grantJoin_onHead (a : AntennaNo) (i : SlotNo) (x : Profile) (b : Bool) :
    (e.onHead p).grantJoin a i x b = (e.grantJoin a i x b).onHead p := by simp [Ev.grantJoin]
@[simp] theorem Ev.promote_onHead (a : AntennaNo) (i : SlotNo) (x : Profile) (held : Resource) (t : Track) :
    (e.onHead p).promote a i x held t = (e.promote a i x held t).onHead p := by
  unfold Ev.promote
  cases held.place <;> simp
@[simp] theorem Ev.grantEntry_onHead (a : AntennaNo) (i : SlotNo) (w : WaitEntry) :
    (e.onHead p).grantEntry a i w = (e.grantEntry a i w).onHead p := by
  unfold Ev.grantEntry
  simp only [Ev.st_onHead, State.rec_setHead]
  split <;> simp
@[simp] theorem Ev.offer_onHead (a : AntennaNo) (i : SlotNo) : (e.onHead p).offer a i = (e.offer a i).onHead p := by
  unfold Ev.offer
  simp only [Ev.st_onHead, State.offerChoice_setHead]
  split <;> simp
@[simp] theorem Ev.releaseSlot_onHead (a : AntennaNo) (i : SlotNo) :
    (e.onHead p).releaseSlot a i = (e.releaseSlot a i).onHead p := by
  unfold Ev.releaseSlot
  simp only [Ev.st_onHead, State.venueOfAnt_setHead, Ev.setSlot_onHead, Ev.claimDown_onHead, State.ant_setHead,
    Ev.offer_onHead, Ev.onHead_ite]
@[simp] theorem Ev.offerLowest_onHead (a : AntennaNo) : (e.onHead p).offerLowest a = (e.offerLowest a).onHead p := by
  unfold Ev.offerLowest
  simp only [Ev.st_onHead, State.freeSlot_setHead]
  split <;> simp
@[simp] theorem Ev.finish_onHead : (e.onHead p).finish = e.finish.onHead p :=
  Ev.foldl_onHead p (fun e a => e.offerLowest_onHead p a) e.late { e with late := [] }
@[simp] theorem Ev.releaseHeld_onHead (x : Profile) (svc : Service) (held : Resource) :
    (e.onHead p).releaseHeld x svc held = (e.releaseHeld x svc held).onHead p := by
  unfold Ev.releaseHeld
  split
  · simp
  · simp only [Ev.releasePlace_onHead, Ev.removeWait_onHead, Ev.onHead_ite]
@[simp] theorem Ev.releaseReserved_onHead (x : Profile) (a : AntennaNo) (q : Place) :
    (e.onHead p).releaseReserved x a q = (e.releaseReserved x a q).onHead p := by
  unfold Ev.releaseReserved
  split <;> simp
@[simp] theorem Ev.freeCtx_onHead (c : ContextNo) : (e.onHead p).freeCtx c = (e.freeCtx c).onHead p := rfl

/-! ### Admission -/

@[simp] theorem Ev.moveToCarrier_onHead (h : Identity) (svc : Service) (held : Resource) :
    (e.onHead p).moveToCarrier h svc held = (e.moveToCarrier h svc held).onHead p := rfl
@[simp] theorem Ev.reseat_onHead (a : AntennaNo) (x : Profile) (k : CarrierNo) :
    (e.onHead p).reseat a x k = (e.reseat a x k).onHead p := by simp [Ev.reseat]
@[simp] theorem Ev.demote_onHead (a : AntennaNo) (x : Profile) (k : CarrierNo) (h : Identity) :
    (e.onHead p).demote a x k h = (e.demote a x k h).onHead p := by simp [Ev.demote]
@[simp] theorem Ev.takeSlot_onHead (a : AntennaNo) (h : Identity) (plan : SlotPlan) (c : Option ContextNo) :
    (e.onHead p).takeSlot a h plan c = (e.takeSlot a h plan c).onHead p := by
  unfold Ev.takeSlot
  split <;> simp
@[simp] theorem Ev.takeNeed_onHead (a : AntennaNo) (x : Profile) (plan : NeedPlan) (c : Option ContextNo) :
    (e.onHead p).takeNeed a x plan c = (e.takeNeed a x plan c).onHead p := by
  unfold Ev.takeNeed
  split <;> simp
@[simp] theorem Ev.lostRoute_onHead (x : Profile) (lost : Option AntennaNo) :
    (e.onHead p).lostRoute x lost = (e.lostRoute x lost).onHead p := by cases lost <;> rfl
@[simp] theorem Ev.deny_onHead (h : Identity) (a : AntennaNo) (r : DeniedReason) :
    (e.onHead p).deny h a r = (e.deny h a r).onHead p := by cases r <;> rfl
@[simp] theorem Ev.refuseJoin_onHead (x : Profile) (a : AntennaNo) (r : DeniedReason) (lost : Option AntennaNo) :
    (e.onHead p).refuseJoin x a r lost = (e.refuseJoin x a r lost).onHead p := by simp [Ev.refuseJoin]
@[simp] theorem Ev.grantAdmission_onHead (x : Profile) (a : AntennaNo) (plan : NeedPlan) (b : Bool) :
    (e.onHead p).grantAdmission x a plan b = (e.grantAdmission x a plan b).onHead p := by simp [Ev.grantAdmission]
@[simp] theorem Ev.waitAdmission_onHead (x : Profile) (a : AntennaNo) (b : Bool) (lost : Option AntennaNo) :
    (e.onHead p).waitAdmission x a b lost = (e.waitAdmission x a b lost).onHead p := by
  unfold Ev.waitAdmission
  exact Ev.lostRoute_onHead ((e.appendWait a ⟨x.ident, .join b, x.cls⟩).upd
    (fun s => s.setAtt x.ident (.waiting a (s.tuning.tWait * 1000)))) p x lost
@[simp] theorem Ev.admitOpen_onHead (x : Profile) (a : AntennaNo) (b : Bool) (lost : Option AntennaNo) :
    (e.onHead p).admitOpen x a b lost = (e.admitOpen x a b lost).onHead p := by
  unfold Ev.admitOpen
  cases h1 : (e.st.ven (e.st.venueOfAnt a)).admits x.ident <;> cases h2 : e.st.findNeed a x e.st.tuning.preempt <;>
    cases h3 : e.st.waitRoom a <;> simp [h1, h2, h3]
@[simp] theorem Ev.admitJoin_onHead (x : Profile) (a : AntennaNo) (b : Bool) (lost : Option AntennaNo) :
    (e.onHead p).admitJoin x a b lost = (e.admitJoin x a b lost).onHead p := by
  unfold Ev.admitJoin
  cases h1 : (e.st.ant a).barred <;> cases h2 : (e.st.ven (e.st.venueOfAnt a)).state <;>
    cases h3 : wakes (e.st.ven (e.st.venueOfAnt a)).wake x.cls <;> simp [h1, h2, h3]

/-! ### Capture and transfers -/

@[simp] theorem Ev.captureAt_onHead (r : TapRecord) (n : TapNo) :
    (e.onHead p).captureAt r n = (e.captureAt r n).onHead p := by
  unfold Ev.captureAt
  simp only [Ev.st_onHead, State.tap_setHead, Ev.setTap_onHead, Ev.notify_onHead, Ev.onHead_ite]
  rfl
@[simp] theorem Ev.capture_onHead (r : TapRecord) : (e.onHead p).capture r = (e.capture r).onHead p :=
  Ev.foldl_onHead p (fun e n => e.captureAt_onHead p r n) allTaps e
@[simp] theorem Ev.startTransfer_onHead (x : Profile) (svc : Service) (held : Resource) (t : Track) (c : ContextNo)
    (a : AntennaNo) (plan : NeedPlan) (cause : Cause) (o : Options) :
    (e.onHead p).startTransfer x svc held t c a plan cause o = (e.startTransfer x svc held t c a plan cause o).onHead p := by
  unfold Ev.startTransfer
  simp only [Ev.st_onHead, State.venueOfAnt_setHead, Ev.wakeIfClosed_onHead, Ev.takeNeed_onHead]
  rfl
@[simp] theorem Ev.convertTarget_onHead (m : Moving) : (e.onHead p).convertTarget m = (e.convertTarget m).onHead p := by
  unfold Ev.convertTarget
  split <;> simp
@[simp] theorem Ev.freeCell_onHead (a : AntennaNo) (h : Identity) : (e.onHead p).freeCell a h = (e.freeCell a h).onHead p := rfl
@[simp] theorem Ev.releaseSource_onHead (m : Moving) : (e.onHead p).releaseSource m = (e.releaseSource m).onHead p := by
  unfold Ev.releaseSource
  split <;> simp
@[simp] theorem Ev.freeSourceCell_onHead (m : Moving) : (e.onHead p).freeSourceCell m = (e.freeSourceCell m).onHead p := by
  simp [Ev.freeSourceCell]
@[simp] theorem Ev.complete_onHead (m : Moving) : (e.onHead p).complete m = (e.complete m).onHead p := by simp [Ev.complete]
@[simp] theorem Ev.failed_onHead (m : Moving) (r : FailReason) : (e.onHead p).failed m r = (e.failed m r).onHead p := rfl
@[simp] theorem Ev.returnTo_onHead (m : Moving) (held : Resource) (r : FailReason) :
    (e.onHead p).returnTo m held r = (e.returnTo m held r).onHead p := by
  unfold Ev.returnTo
  simp only [Ev.releaseReserved_onHead, Ev.onHead_ite]
  rfl
@[simp] theorem Ev.failOrphan_onHead (m : Moving) (r : FailReason) :
    (e.onHead p).failOrphan m r = (e.failOrphan m r).onHead p := by
  unfold Ev.failOrphan
  simp only [Ev.releaseReserved_onHead, Ev.releaseSource_onHead, Ev.freeCtx_onHead, Ev.failed_onHead, Ev.orphan_onHead,
    Ev.route_onHead, Ev.onHead_ite]
@[simp] theorem Ev.giveUp_onHead (m : Moving) (r : FailReason) : (e.onHead p).giveUp m r = (e.giveUp m r).onHead p := by
  unfold Ev.giveUp
  split <;> simp
@[simp] theorem Ev.dropSource_onHead (m : Moving) : (e.onHead p).dropSource m = (e.dropSource m).onHead p := by
  unfold Ev.dropSource
  dsimp only
  split <;> simp
@[simp] theorem Ev.abortTransfer_onHead (m : Moving) (a : Option AntennaNo) :
    (e.onHead p).abortTransfer m a = (e.abortTransfer m a).onHead p := by
  unfold Ev.abortTransfer
  dsimp only
  split <;> simp
@[simp] theorem Ev.orderMove_onHead (m : Moving) : (e.onHead p).orderMove m = (e.orderMove m).onHead p := by
  unfold Ev.orderMove
  dsimp only
  split <;> simp
@[simp] theorem Ev.lateReady_onHead (a : AntennaNo) (h : Identity) :
    (e.onHead p).lateReady a h = (e.lateReady a h).onHead p := by
  unfold Ev.lateReady
  rw [Ev.onHead_ite]
  rfl
@[simp] theorem Ev.sourceLost_onHead (m : Moving) : (e.onHead p).sourceLost m = (e.sourceLost m).onHead p := by
  unfold Ev.sourceLost
  split <;> simp
@[simp] theorem Ev.goneMoving_onHead (m : Moving) (a : AntennaNo) : (e.onHead p).goneMoving m a = (e.goneMoving m a).onHead p := by
  unfold Ev.goneMoving
  repeat' split
  all_goals simp_all
@[simp] theorem Ev.downContext_onHead (a : AntennaNo) (c : ContextNo) :
    Ev.downContext a (e.onHead p) c = (Ev.downContext a e c).onHead p := by
  unfold Ev.downContext
  simp only [Ev.st_onHead, State.movingIn_setHead]
  repeat' split
  all_goals simp_all

/-! ### The cells of the units -/

theorem Ev.readyTaken_onHead (a : AntennaNo) (h : Identity) : (e.onHead p).readyTaken a h = (e.readyTaken a h).onHead p := by
  unfold Ev.readyTaken
  simp only [Ev.st_onHead, State.movingOf_setHead]
  repeat' split
  all_goals simp_all
theorem Ev.noroomTaken_onHead (a : AntennaNo) (h : Identity) : (e.onHead p).noroomTaken a h = (e.noroomTaken a h).onHead p := by
  unfold Ev.noroomTaken
  simp only [Ev.st_onHead, State.movingOf_setHead]
  repeat' split
  all_goals simp_all
@[simp] theorem Ev.joinMoving_onHead (m : Moving) (a : AntennaNo) : (e.onHead p).joinMoving m a = (e.joinMoving m a).onHead p := by
  unfold Ev.joinMoving
  split <;> simp
@[simp] theorem Ev.reattachRelease_onHead (x : Profile) (svc : Service) (held : Resource) (a : AntennaNo) :
    (e.onHead p).reattachRelease x svc held a = (e.reattachRelease x svc held a).onHead p := by
  unfold Ev.reattachRelease
  dsimp only
  split <;> simp
theorem Ev.joinTaken_onHead (a : AntennaNo) (h : Identity) : (e.onHead p).joinTaken a h = (e.joinTaken a h).onHead p := by
  unfold Ev.joinTaken
  simp only [Ev.st_onHead, State.movingOf_setHead, State.rec_setHead]
  repeat' split
  all_goals simp_all
@[simp] theorem Ev.lateLanded_onHead (a : AntennaNo) (h : Identity) :
    (e.onHead p).lateLanded a h = (e.lateLanded a h).onHead p := by
  unfold Ev.lateLanded
  simp only [Ev.st_onHead, State.heldAntenna_setHead, State.rec_setHead]
  repeat' split
  all_goals simp_all
theorem Ev.landedTaken_onHead (a : AntennaNo) (h : Identity) : (e.onHead p).landedTaken a h = (e.landedTaken a h).onHead p := by
  unfold Ev.landedTaken
  simp only [Ev.st_onHead, State.movingOf_setHead]
  repeat' split
  all_goals simp_all
@[simp] theorem Ev.detachWith_onHead (x : Profile) (c : DetachCause) (lost : Option AntennaNo) :
    (e.onHead p).detachWith x c lost = (e.detachWith x c lost).onHead p := by simp [Ev.detachWith]
theorem Ev.quitTaken_onHead (a : AntennaNo) (h : Identity) : (e.onHead p).quitTaken a h = (e.quitTaken a h).onHead p := by
  unfold Ev.quitTaken
  simp only [Ev.st_onHead, State.movingOf_setHead, State.rec_setHead]
  repeat' split
  all_goals simp_all
theorem Ev.goneTaken_onHead (a : AntennaNo) (h : Identity) : (e.onHead p).goneTaken a h = (e.goneTaken a h).onHead p := by
  unfold Ev.goneTaken
  simp only [Ev.st_onHead, State.movingOf_setHead, State.rec_setHead]
  repeat' split
  all_goals simp_all
@[simp] theorem Ev.setTrack_onHead (h : Identity) (t : Track) : (e.onHead p).setTrack h t = (e.setTrack h t).onHead p := rfl
theorem Ev.requestStart_onHead (x : Profile) (svc : Service) (held : Resource) (t : Track) (a : AntennaNo) (c : Cause) :
    (e.onHead p).requestStart x svc held t a c =
      ((e.requestStart x svc held t a c).1.onHead p, (e.requestStart x svc held t a c).2) := by
  unfold Ev.requestStart
  simp only [Ev.st_onHead, State.freeContext_setHead, State.tuning_setHead, State.transferNeed_setHead]
  repeat' split
  all_goals simp_all
@[simp] theorem Ev.round_onHead (x : Profile) (svc : Service) (held : Resource) (t : Track) :
    (e.onHead p).round x svc held t = (e.round x svc held t).onHead p := by
  unfold Ev.round
  simp only [Ev.st_onHead, State.roundList_setHead, State.score_setHead, State.roundCandidate_setHead, State.tuning_setHead,
    State.triggerMet_setHead, Ev.setTrack_onHead, State.startCause_setHead, Ev.requestStart_onHead]
  repeat' split
  all_goals simp_all
theorem Ev.hearTaken_onHead (a : AntennaNo) (h : Identity) (level errors : Byte) :
    (e.onHead p).hearTaken a h level errors = (e.hearTaken a h level errors).onHead p := by
  have h1 : ∀ (e : Ev) (t : Track) (b : Bool), ((e.onHead p).setTrack h t).upd (fun s => s.updRec h (fun r =>
      { r with profile := { r.profile with sticky := r.profile.sticky || b } })) = ((e.setTrack h t).upd (fun s => s.updRec h
      (fun r => { r with profile := { r.profile with sticky := r.profile.sticky || b } }))).onHead p := fun _ _ _ => rfl
  unfold Ev.hearTaken
  simp only [Ev.st_onHead, State.rec_setHead, State.tuning_setHead, h1]
  repeat' split
  all_goals simp_all
@[simp] theorem Ev.denyWait_onHead (a : AntennaNo) (r : DeniedReason) (h : Identity) :
    Ev.denyWait a r (e.onHead p) h = (Ev.denyWait a r e h).onHead p := by
  unfold Ev.denyWait
  cases r <;> simp [DeniedReason.refuse]
@[simp] theorem Ev.downHolder_onHead (a : AntennaNo) (h : Identity) :
    Ev.downHolder a (e.onHead p) h = (Ev.downHolder a e h).onHead p := by
  unfold Ev.downHolder
  simp only [Ev.st_onHead, State.rec_setHead]
  repeat' split
  all_goals simp_all
theorem Ev.upTaken_onHead (a : AntennaNo) : (e.onHead p).upTaken a = (e.upTaken a).onHead p := by
  unfold Ev.upTaken
  by_cases h1 : (e.st.ant a).online = true <;> by_cases h2 : e.st.mode = .run <;> simp [h1, h2] <;> rfl
theorem Ev.downTaken_onHead (a : AntennaNo) : (e.onHead p).downTaken a = (e.downTaken a).onHead p := by
  unfold Ev.downTaken
  by_cases h1 : (e.st.ant a).online = true
  · cases h2 : ((e.upd (·.setOnline a false)).notify (.unitState a false)).st.mode with
    | setup =>
      have h3 : e.st.mode = .setup := h2
      simp [h1, h3]
    | run =>
      simp only [Ev.st_onHead, State.ant_setHead, Ev.setOnline_onHead, Ev.notify_onHead, State.mode_setHead, h1, h2, if_true]
      rw [Ev.foldl_onHead p (fun e c => e.downContext_onHead p a c), Ev.st_onHead, State.identities_setHead,
        Ev.foldl_onHead p (fun e h => e.downHolder_onHead p a h), Ev.st_onHead, State.ant_setHead,
        Ev.foldl_onHead p (fun e h => e.denyWait_onHead p a .offline h)]
  · simp [h1]

/-- What the owner of a cell does, it does on any head port. -/
theorem Ev.cellEvent_onHead (c : RawCell) (k : UnitKind) (a : AntennaNo) :
    Ev.cellEvent c k a (e.onHead p) = (Ev.cellEvent c k a e).onHead p := by
  cases k with
  | hear => exact e.hearTaken_onHead p a _ _ _
  | join => exact e.joinTaken_onHead p a _
  | ready => exact e.readyTaken_onHead p a _
  | noroom => exact e.noroomTaken_onHead p a _
  | landed => exact e.landedTaken_onHead p a _
  | gone => exact e.goneTaken_onHead p a _
  | quit => exact e.quitTaken_onHead p a _
  | up => exact e.upTaken_onHead p a
  | down => exact e.downTaken_onHead p a

/-- Two head ports with the same output queue have the same room (R149). -/
theorem HeadPort.fits_congr {p q : HeadPort} (h1 : p.output = q.output) (h2 : p.overflow = q.overflow) (n : Nat) :
    p.fits n = q.fits n := by
  unfold HeadPort.fits HeadPort.room
  rw [h1, h2]

/-- An event that is taken on one head port is taken on another with the same output queue, and leads to the same state but for the
input buffer, shedding and HSTALL (R144 to R146, R149). -/
theorem Ev.settle_onHead {q r x : HeadPort} {t : State} (hh : e.finish.st.head = r) (ht : e.settle r = some t)
    (h1 : q.output = r.output) (h2 : q.overflow = r.overflow) (h3 : q.begun = r.begun) (h4 : x.output = r.output)
    (h5 : x.overflow = r.overflow) : (e.onHead q).settle x = some (t.setHead { t.head with
      input := q.input, shedding := q.shedding, hstall := q.hstall }) := by
  have hf : x.fits e.finish.counted = r.fits e.finish.counted := HeadPort.fits_congr h4 h5 _
  unfold Ev.settle at ht ⊢
  dsimp only at ht ⊢
  rw [Ev.finish_onHead, show (e.finish.onHead q).counted = e.finish.counted from rfl, hf]
  split at ht
  · rename_i hfit
    rw [if_pos hfit]
    cases ht
    subst hh
    simp [HeadPort.enqueue, HeadPort.room, h1, h2, h3, State.setHead]
  · cases ht

end Sys2Proof.Machine
end

