-- ==== Sys2Proof/Laws/Layout.lean ====
section
/-! SUPPORT. Request records as bytes, said once: fields read back, record lengths, headers, and the records of a chain
(R158, R182). -/

namespace Sys2Proof.Machine

/-- A 16-bit field reads back from its two bytes. -/
theorem un16_extract (v : BitVec 16) : un16 (v.extractLsb' 8 8) (v.extractLsb' 0 8) = v := by
  apply BitVec.eq_of_getLsbD_eq
  intro i hi
  unfold un16
  rw [BitVec.getLsbD_append]
  simp only [BitVec.getLsbD_extractLsb']
  by_cases h : i < 8
  · simp [h]
  · have h8 : i - 8 < 8 := by omega
    simp [h, h8, show 8 + (i - 8) = i by omega]

/-- An identity reads back from its three bytes. -/
theorem un24_extract (v : Identity) :
    un24 (v.extractLsb' 16 8) (v.extractLsb' 8 8) (v.extractLsb' 0 8) = v := by
  apply BitVec.eq_of_getLsbD_eq
  intro i hi
  unfold un24
  rw [BitVec.getLsbD_append]
  simp only [BitVec.getLsbD_append, BitVec.getLsbD_extractLsb']
  by_cases h : i < 8
  · simp [h]
  · by_cases h1 : i - 8 < 8
    · simp [h, h1, show 8 + (i - 8) = i by omega]
    · have h2 : i - 8 - 8 < 8 := by omega
      simp [h, h1, h2, show 16 + (i - 8 - 8) = i by omega]

/-- A set of crew lines reads back from its four bytes. -/
theorem un32_extract (v : LineSet) :
    un32 (v.extractLsb' 24 8) (v.extractLsb' 16 8) (v.extractLsb' 8 8) (v.extractLsb' 0 8) = v := by
  apply BitVec.eq_of_getLsbD_eq
  intro i hi
  unfold un32
  rw [BitVec.getLsbD_append]
  simp only [BitVec.getLsbD_append, BitVec.getLsbD_extractLsb']
  by_cases h : i < 8
  · simp [h]
  · by_cases h1 : i - 8 < 8
    · simp [h, h1, show 8 + (i - 8) = i by omega]
    · by_cases h2 : i - 8 - 8 < 8
      · simp [h, h1, h2, show 16 + (i - 8 - 8) = i by omega]
      · have h3 : i - 8 - 8 - 8 < 8 := by omega
        simp [h, h1, h2, h3, show 24 + (i - 8 - 8 - 8) = i by omega]

/-- The fields of a request read back (R182). -/
theorem parseRequest_requestFields (r : Request) : parseRequest (requestCode r) (requestFields r) = some r := by
  cases r with
  | tune f =>
    have h : parseRequest (requestCode (.tune f)) (requestFields (.tune f)) =
      some (.tune ⟨un16 (f.mask.extractLsb' 8 8) (f.mask.extractLsb' 0 8), f.avgShift, f.hysteresis, f.persist, f.floor,
        f.homeBonus, f.loadWeight, f.showMargin, f.staleLimit, f.backoff,
        un16 (f.tPrep.extractLsb' 8 8) (f.tPrep.extractLsb' 0 8), un16 (f.tMove.extractLsb' 8 8) (f.tMove.extractLsb' 0 8),
        f.tHold, f.tWait, f.preempt, f.arbitration⟩) := rfl
    rw [h, un16_extract, un16_extract, un16_extract]
  | enrol f =>
    have h : parseRequest (requestCode (.enrol f)) (requestFields (.enrol f)) =
      some (.enrol ⟨un24 (f.ident.extractLsb' 16 8) (f.ident.extractLsb' 8 8) (f.ident.extractLsb' 0 8), f.cls, f.home, f.mode,
        un32 (f.talk.extractLsb' 24 8) (f.talk.extractLsb' 16 8) (f.talk.extractLsb' 8 8) (f.talk.extractLsb' 0 8),
        un32 (f.listen.extractLsb' 24 8) (f.listen.extractLsb' 16 8) (f.listen.extractLsb' 8 8) (f.listen.extractLsb' 0 8),
        f.monitor⟩) := rfl
    rw [h, un24_extract, un32_extract, un32_extract]
  | unenrol h => exact congrArg (fun x => some (Request.unenrol x)) (un24_extract h)
  | evict h => exact congrArg (fun x => some (Request.evict x)) (un24_extract h)
  | unstick h => exact congrArg (fun x => some (Request.unstick x)) (un24_extract h)
  | peekHeadset h => exact congrArg (fun x => some (Request.peekHeadset x)) (un24_extract h)
  | steer h t o => exact congrArg (fun x => some (Request.steer x t o)) (un24_extract h)
  | venue v lo hi w =>
    exact congrArg₂ (fun x y => some (Request.venue v x y w)) (un24_extract lo) (un24_extract hi)
  | tap n k sel c circ => exact congrArg (fun x => some (Request.tap n k sel x circ)) (un16_extract c)
  | list st c f => exact congrArg (fun x => some (Request.list x c f)) (un16_extract st)
  | ident => rfl
  | floor v => rfl
  | go => rfl
  | warm => rfl
  | site a p v => rfl
  | line n k => rfl
  | setVenue v st => rfl
  | bar a => rfl
  | unbar a => rfl
  | untap n => rfl
  | peekAntenna a => rfl
  | peekVenue v => rfl
  | peekContext c => rfl

/-- The kind of a request fixes the length of its record (R182). -/
theorem recordLength_requestCode (r : Request) : recordLength (requestCode r) = some ((requestFields r).length + 2) := by
  cases r <;> rfl

/-- Every kind code lies below 128 (R182). -/
theorem requestCode_lt (r : Request) : (requestCode r).toNat < 128 := by cases r <;> simp [requestCode]

/-- A header gives its kind and its continuation flag (R182). -/
theorem header_fields : ∀ code : Byte, code.toNat < 128 →
    headerKind (0x00 ||| code) = code ∧ headerContinues (0x00 ||| code) = false ∧
      headerKind (0x80 ||| code) = code ∧ headerContinues (0x80 ||| code) = true := by decide +kernel

/-- The header of a record gives its kind (R182). -/
theorem headerKind_header (continued : Bool) (r : Request) :
    headerKind ((if continued then 0x80 else 0x00) ||| requestCode r) = requestCode r := by
  obtain ⟨h1, -, h3, -⟩ := header_fields _ (requestCode_lt r)
  cases continued
  · exact h1
  · exact h3

/-- The header of a record gives its continuation flag (R182). -/
theorem headerContinues_header (continued : Bool) (r : Request) :
    headerContinues ((if continued then 0x80 else 0x00) ||| requestCode r) = continued := by
  obtain ⟨-, h2, -, h4⟩ := header_fields _ (requestCode_lt r)
  cases continued
  · exact h2
  · exact h4

/-- A chain holds at least as many bytes as records. -/
theorem length_le_chainBytes (l : List (Byte × Request)) : l.length ≤ (chainBytes l).length := by
  induction l with
  | nil => simp
  | cons x l ih =>
    cases l with
    | nil => simp [chainBytes, recordBytes]
    | cons y l =>
      simp only [chainBytes, recordBytes, List.length_cons, List.length_append] at ih ⊢
      omega

end Sys2Proof.Machine
end

