-- ==== Sys2Proof/Tests/Slice0.lean ====
section
/-! SUPPORT. Tests of the model: the checks of WellFormed, values that the manual works out, one step of each kind of command,
and for every statement with hypotheses a state and operands that meet them, at the ends of their ranges. -/

namespace Sys2Proof.Tests

open Sys2Proof Sys2Proof.Machine

/- One theorem after another: the kernel evaluations below are too many to hold open at once. -/
set_option Elab.async false

/-! ## States -/

/-- The state after a command. -/
def after (c : Instr) (s : State) : Option State :=
  match exec c s with
  | .next t => some t
  | .fault _ => none
  | .refused _ => none

/-- A present, ONLINE antenna of venue 0. -/
def unit0 : Antenna := { Antenna.reset with present := true, online := true }

/-- A DUPLEX profile of class 1 with home venue 0. -/
def duplex : Profile := ⟨0x00A3F1, 1, 0, .duplex, 1, 1, 0, false⟩

/-- A LISTEN profile with monitor line 0. -/
def listener : Profile := ⟨0x00A3F1, 1, 0, .listen, 0, 1, 0, false⟩

/-- RUN with antennas 0 and 1 ONLINE in venue 0, which is OPEN, and a registry. -/
def running (l : List HeadsetRecord) : State :=
  { State.reset with
    mode := .run
    antennas := (State.reset.antennas.set 0 unit0).set 1 unit0
    venues := State.reset.venues.set 0 { Venue.reset with state := .opened }
    registry := l }

/-- One record in RUN, in a given state. -/
def one (p : Profile) (x : Attachment) : State := running [⟨0, p, x⟩]

/-- A track that hears antennas 0 (serving) and 1. -/
def track : Track := ⟨none, 0, [⟨0, none, 0, 0, false, .serving⟩, ⟨1, some 2400, 0, 1, false, .unpinned⟩]⟩

/-- A track that hears antennas 0 (serving) and 1, which may be steered to. -/
def free : Track := ⟨none, 0, [⟨0, none, 0, 0, false, .serving⟩, ⟨1, some 2400, 0, 0, false, .unpinned⟩]⟩

/-- The headset SERVED on slot 0 of antenna 0. -/
def served (t : Track) : State :=
  ((one duplex (.served .talk ⟨0, .slot 0⟩ t)).setSlot 0 0 (.held 0x00A3F1)).claimed 0

/-- The headset in TRANSFER from slot 0 of antenna 0 to slot 9 of antenna 1. -/
def moving (phase : Phase) (timer : Nat) : State :=
  ((((one duplex (.transfer .talk 0 ⟨some 1, 3, [⟨0, some 1600, 0, 0, false, .serving⟩,
    ⟨1, some 2400, 0, 0, false, .target⟩]⟩)).setSlot 0 0 (.held 0x00A3F1)).setSlot 1 9
    (.reserved 0x00A3F1 0)).setCtx 0 (some ⟨0x00A3F1, 0, some (.slot 0), 1, .slot 9, .auto, noOptions, phase,
    timer⟩)).claimed 0

/-- A track with one unmeasured entry, pinned SERVING. -/
def fresh (a : AntennaNo) : Track := ⟨none, 0, [⟨a, none, 0, 0, false, .serving⟩]⟩

/-- The profile of the holder of a slot in a crowd: DUPLEX, of a class. -/
def crew (i : SlotNo) (c : ClassNo) : Profile := ⟨BitVec.ofNat 24 (0x000100 + i.val), c, 0, .duplex, 1, 1, 0, false⟩

/-- A DUPLEX joiner of class 2. -/
def joiner : Profile := { duplex with cls := 2 }

/-- The joiner, IDLE, and antenna 1 with a SERVED holder on every slot, of services and classes given by the slot. -/
def crowd (svc : SlotNo → Service) (cls : SlotNo → ClassNo) : State :=
  (running (⟨0, joiner, .idle⟩ :: (List.finRange 10).map (fun i : SlotNo =>
    ⟨⟨i.val + 1, by omega⟩, crew i (cls i), .served (svc i) ⟨1, .slot i⟩ (fresh 1)⟩))).setAnt 1
    { unit0 with slots := Vector.ofFn (fun i : SlotNo => .held (crew i (cls i)).ident) }

/-- A headset SERVED on slot 0 of antenna 0, where another waits: a WAIT_JOIN entry of class 2 behind a passed over entry. -/
def offered : State :=
  let s := running [⟨0, duplex, .served .talk ⟨0, .slot 0⟩ track⟩, ⟨1, crew 1 2, .waiting 0 500⟩,
    ⟨2, crew 2 3, .transfer .demoted 0 (fresh 0)⟩]
  ((s.setSlot 0 0 (.held 0x00A3F1)).setWait 0 [⟨0x000102, .promote, 3⟩, ⟨0x000101, .join true, 2⟩]).claimed 0

/-- A headset SERVED on slot 0 of antenna 0, and a DEMOTED one on its carrier 0 with a WAIT_PROMOTE entry. -/
def demotedBehind : State :=
  let s := running [⟨0, duplex, .served .talk ⟨0, .slot 0⟩ track⟩, ⟨1, crew 1 2, .served .demoted ⟨0, .carrier 0⟩ (fresh 0)⟩]
  (((s.setSlot 0 0 (.held 0x00A3F1)).setWait 0 [⟨0x000101, .promote, 2⟩]).setCarrier 0 0 [⟨0, 1, 0⟩]).claimed 0

/-- A LISTEN headset SERVED on carrier 3 of antenna 0, whose line 0 has a number of listeners. -/
def listening (n : Nat) : State :=
  ((one listener (.served .listen ⟨0, .carrier 3⟩ (fresh 0))).setCarrier 0 3 [⟨0, n, 0⟩, ⟨5, 1, 0⟩]).claimed 0

/-- A WAITING headset with its entry at antenna 1. -/
def waiting (timer : Nat) : State :=
  ((one duplex (.waiting 1 timer)).setWait 1 [⟨0x00A3F1, .join false, 1⟩]).claimed 0

/-- The state with a full output queue. -/
def full (s : State) : State := s.setHead { s.head with output := List.replicate 128 (.clear 0) }

/-- Tap 3 RUNNING and circular, MEASURE, of antenna 1, with a number of records and a number left to capture. -/
def tapped (records left : Nat) : State :=
  (served track).setTap 3 ⟨true, .measure, 2, 40, left, true, 7, List.replicate records (.measure 1 0x00A3F1 1 16 false), false⟩

/-- The headset SERVED in venue 0, which is DRAINING, and antenna 1 in venue 1, which is in SHOW. -/
def drained : State :=
  (((served track).setVenueState 0 .draining).setVenueState 1 .show).setAnt 1 { unit0 with venue := 1 }

/-- The headset in TRANSFER by a STEER with BREAK_FIRST. -/
def breaking : State :=
  (moving .prepare 9).setCtx 0 (some ⟨0x00A3F1, 0, some (.slot 0), 1, .slot 9, .steer, ⟨true, false, false⟩, .prepare, 9⟩)

/-- The headset in TRANSFER in ORDERED with its source resource gone. -/
def homeless : State :=
  (moving .ordered 9).setCtx 0 (some ⟨0x00A3F1, 0, none, 1, .slot 9, .steer, ⟨true, false, false⟩, .ordered, 9⟩)

/-- A LISTEN headset in TRANSFER from carrier 3 of antenna 0 to carrier 2 of antenna 1. -/
def landing : State :=
  ((((one listener (.transfer .listen 0 free)).setCarrier 0 3 [⟨0, 1, 0⟩]).setCarrier 1 2 [⟨0, 0, 1⟩, ⟨5, 1, 0⟩]).setCtx 0
    (some ⟨0x00A3F1, 0, some (.carrier 3), 1, .carrier 2, .auto, noOptions, .prepare, 9⟩)).claimed 0

/-- A DEMOTED headset in TRANSFER from carrier 3 of antenna 0, where slot 0 is the lowest FREE one, to slot 9 of antenna 1. -/
def demotedMover : State :=
  (((((one duplex (.transfer .demoted 0 free)).setCarrier 0 3 [⟨0, 1, 0⟩]).setWait 0 [⟨0x00A3F1, .promote, 1⟩]).setSlot 1 9
    (.reserved 0x00A3F1 0)).setCtx 0 (some ⟨0x00A3F1, 0, some (.carrier 3), 1, .slot 9, .auto, noOptions, .ordered, 9⟩)).claimed 0

/-- The joiner LISTENing, IDLE, and antenna 1 with given carriers. -/
def carried (k : CarrierNo → Carrier) : State :=
  (one listener .idle).setAnt 1 { unit0 with carriers := Vector.ofFn k }

/-- A carrier of three lines from a line on. -/
def three (m : LineNo) : Carrier := [⟨m, 1, 0⟩, ⟨m + 1, 1, 0⟩, ⟨m + 2, 1, 0⟩]

/-- A state whose control port is another. -/
def withCtrl (c : ControlPort) : State := { State.reset with ctrl := c }

/-- A head input buffer with a number of DOWN cells. -/
def withInput (n : Nat) (shedding hstall : Bool) : State :=
  { State.reset with head := ⟨List.replicate n ⟨9, 0, 0, 0, 0, 0⟩, shedding, hstall, [], [], false⟩ }

/-! ## WellFormed: each check refuses an ill-formed term -/

theorem test_wf_unknown_kind : (Instr.unknownKindRecord [0x01, 0x07]).wellFormed = false ∧
    (Instr.unknownKindRecord [0x7F, 0x07]).wellFormed = true := by decide +kernel

theorem test_wf_short : (Instr.shortRecord [0x03, 0x07, 0x01]).wellFormed = false ∧
    (Instr.shortRecord [0x03, 0x07]).wellFormed = true := by decide +kernel

theorem test_wf_skipped : (Instr.skippedRecord [0x7F, 0x07, 0x00]).wellFormed = false ∧
    (Instr.skippedRecord [0xFF, 0x07, 0x00]).wellFormed = true := by decide +kernel

theorem test_wf_chain_too_long : (Instr.unknownKindRecord (0x7F :: List.replicate 255 0)).wellFormed = false := by
  decide +kernel

theorem test_wf_length : (Instr.frameLengthTooLong 256).wellFormed = false ∧
    (Instr.frameLengthTooLong 257).wellFormed = true := by decide +kernel

theorem test_wf_body : (Instr.frameComplete (List.replicate 257 1) 0).wellFormed = false ∧
    (Instr.frameComplete (List.replicate 256 1) 0).wellFormed = true := by decide +kernel

theorem test_wf_cell : (Instr.nonUnitKindCell ⟨9, 0, 0, 0, 0, 0⟩).wellFormed = false ∧
    (Instr.nonUnitKindCell ⟨10, 0, 0, 0, 0, 0⟩).wellFormed = true := by decide +kernel

/-! ## Values that the manual works out -/

/-- Chapter 12, cell examples: SEAT of 0x00A3F1 on slot 3 at antenna 12. -/
theorem test_seat_bytes : (OutCell.seat 12 0x00A3F1 (.slot 3)).bytes =
    [0x81, 0x0C, 0x00, 0xA3, 0xF1, 0x03, 0x00, 0x00] := by decide +kernel

/-- Chapter 12, cell examples: MIX of carrier 0 at antenna 9, lines 10 and 13. -/
theorem test_mix_bytes : (OutCell.mix 9 0 [10, 13]).bytes = [0x86, 0x09, 0x00, 0x00, 0x10, 0x0A, 0x0D, 0xFF] := by
  decide +kernel

/-- R154: the check of the nine digits, the well-known value of a CRC-16 with polynomial 0x1021 and initial value 0xFFFF. -/
theorem test_crc : crc16 [0x31, 0x32, 0x33, 0x34, 0x35, 0x36, 0x37, 0x38, 0x39] = 0x29B1 := by decide +kernel

/-- Chapter 4, the table of typical reports: quality and clip. -/
theorem test_quality : quality 156 2 = (150, false) ∧ quality 60 10 = (30, false) ∧ quality 251 0 = (0, true) ∧
    quality 255 3 = (241, true) ∧ quality 200 70 = (8, true) ∧ quality 40 20 = (0, true) ∧ quality 251 90 = (0, true) := by
  decide +kernel

/-- Chapter 4, worked case of the stage hand, rows 1, 2, 5 and 8: steps that truncate toward zero from both sides. -/
theorem test_average : averageAfter 3 (some 1760) 150 = 1840 ∧ averageAfter 3 (some 2048) 120 = 2032 ∧
    averageAfter 3 (some 1950) 180 = 2066 ∧ averageAfter 3 (some 1935) 90 = 1874 := by decide +kernel

/-- Chapter 9, worked sequence: the chain of BAR, STEER, SETVENUE and an unknown kind, its 22 body bytes and its reply. -/
theorem test_worked_chain :
    ((after (.skippedRecord [0x96, 1, 0, 0xA0, 2, 0x00, 0xA3, 0xF1, 14, 0, 0x95, 3, 20, 1, 0xFF, 4, 1, 2, 3, 4, 5])
      (moving .prepare 100)).map (·.ctrl.answers)) =
    some [.reply false [⟨0x16, 1, .ok, 0, [0]⟩, ⟨0x20, 2, .busy, 2, [0, 0]⟩, ⟨0x15, 3, .badValue, 2, [0]⟩,
      ⟨0x7F, 4, .badKind, 0, []⟩, ⟨0, 0, .skipped, 0, [2, 0, 5]⟩]] := by decide +kernel

/-- Chapter 10, worked sequence: mask 0x0284 with persist 1, stale_limit 2 and t_prep 600 is CLAMPED at offset 6. -/
theorem test_worked_tune :
    ((after (.tune 7 ⟨0x0284, 9, 9, 1, 9, 9, 9, 9, 2, 9, 600, 9, 9, 9, 9, 9⟩) State.reset).map (·.ctrl.answers)) =
    some [.reply false [⟨0x02, 7, .clamped, 6, [3, 8, 2, 40, 10, 2, 12, 2, 5, 0x01, 0xF4, 0x01, 0x90, 30, 10, 1, 0]⟩]] := by
  decide +kernel

/-- R163: a notice goes after every notice of equal or higher priority (chapter 9, the notices of the worked sequence). -/
theorem test_notice_order :
    ((([Notice.attached 0x2001 0 (.slot 0) .talk, .orphaned 0x3104 0 .gone, .denied 0x3406 0 .full].foldl
      ControlPort.queueNotice ControlPort.reset).notices).map Notice.priority) = [3, 2, 1] := by decide +kernel

/-! ## One step -/

/-- R182: a request record's bytes, ENROL with tag 0x05 of 0x00A3F1, class 2, home 3, DUPLEX, lines 4 and 5, listening to 4, 5
and 9, monitor 9. -/
theorem test_enrol_bytes : recordBytes false 0x05 (.enrol ⟨0x00A3F1, 2, 3, 0, 0x30, 0x230, 9⟩) =
    [0x10, 0x05, 0x00, 0xA3, 0xF1, 2, 3, 0, 0, 0, 0, 0x30, 0, 0, 0x02, 0x30, 9] := by decide +kernel

/-- R4, R5: in SETUP the first ENROL takes position 0; R6: UNENROL gives it back. -/
theorem test_enrol_unenrol :
    ((after (.enrol 5 ⟨0x00A3F1, 2, 3, 0, 0x30, 0x230, 9⟩) State.reset).bind (after (.unenrol 6 0x00A3F1))).map
      (fun s => (s.registry, s.ctrl.answers)) =
    some ([], [.reply false [⟨0x10, 5, .ok, 0, [0, 0, 0]⟩], .reply false [⟨0x11, 6, .ok, 0, [0, 0]⟩]]) := by decide +kernel

/-- R172: WARM in RUN with an empty output queue sends CLEAR to the ONLINE antennas and leaves SETUP. -/
theorem test_warm : (after (.warm 9) (served track)).map (fun s => (s.mode, s.head.output, s.registry, s.ctrl.answers)) =
    some (.setup, [.clear 0, .clear 1], [⟨0, duplex, .idle⟩], [.reply false [⟨0x05, 9, .ok, 0, [1]⟩]]) := by decide +kernel

/-- R153, log 7: a WARM keeps the cell that an earlier one has kept, until it is sent. -/
theorem test_warm_again :
    ((after (.warm 9) ((served track).setHead ⟨[], false, false, [.free 0 0x00A3F1, .clear 5], [], true⟩)).map
      (fun s => (s.head.output, s.head.begun)) = some ([.free 0 0x00A3F1, .clear 0, .clear 1], true)) ∧
    ((after .cellSent ((served track).setHead ⟨[], false, false, [.free 0 0x00A3F1, .clear 5], [], true⟩)).map
      (fun s => (s.head.output, s.head.begun)) = some ([.clear 5], false)) := by decide +kernel

/-- R45, R116: a JOIN wakes a CLOSED venue whose wake mask holds the class. -/
theorem test_join_wakes :
    (after (.join 0 0x00A3F1) { one duplex .idle with venues := State.reset.venues }).map
      (fun s => (s.head.output, s.slot 0 0, (s.ven 0).state, (s.ven 0).claims)) =
    some ([.mode 0 true, .mode 1 true, .seat 0 0x00A3F1 (.slot 0)], .held 0x00A3F1, .opened, 1) := by decide +kernel

/-- R127: a READY orders the move with GOTO. -/
theorem test_ready : (after (.ready 1 0x00A3F1) (moving .prepare 50)).map (fun s => (s.head.output, (s.ctx 0).map (·.timer))) =
    some ([.goto 0 0x00A3F1 1 (.slot 9)], some 400) := by decide +kernel

/-- R123: a LANDED completes the transfer: FREE to the source, the target slot HELD, the source slot FREE. -/
theorem test_landed :
    (after (.landed 1 0x00A3F1) (moving .ordered 50)).map (fun s => (s.head.output, s.slot 1 9, s.slot 0 0, s.ctx 0)) =
    some ([.free 0 0x00A3F1], .held 0x00A3F1, .free, none) := by decide +kernel

/-- R33, R131: a DOWN of the source in PREPARE orphans the headset with a FREE cell to the target. -/
theorem test_down : (after (.down 0) (moving .prepare 50)).map (fun s => (s.head.output, s.slot 1 9, s.slot 0 0,
      (s.rec? 0x00A3F1).map (·.att))) =
    some ([.free 1 0x00A3F1], .free, .free, some (.orphan 30000)) := by decide +kernel

/-- R149: a JOIN whose cells have no room waits at the head of the input buffer, with nothing else changed. -/
theorem test_join_waits : (after (.join 0 0x00A3F1)
      { one duplex .idle with head := ⟨[], false, false, List.replicate 128 (.clear 0), [], false⟩ }).map
      (fun s => (s.head.input.length, s.slot 0 0, s.head.output.length)) = some (1, .free, 128) := by decide +kernel

/-- R149: that JOIN is taken when a cell is sent, and its SEAT cell takes the room. -/
theorem test_join_taken_later : ((after (.join 0 0x00A3F1)
      { one duplex .idle with head := ⟨[], false, false, List.replicate 128 (.clear 0), [], false⟩ }).bind (after .cellSent)).map
      (fun s => (s.head.input.length, s.slot 0 0, s.waiting, s.head.output.getLast?)) =
    some (0, .held 0x00A3F1, [], some (.seat 0 0x00A3F1 (.slot 0))) := by decide +kernel

/-- R151, log 5: a step on an empty queue is one millisecond. -/
theorem test_tick : (match step (moving .ordered 400) with
    | .next s => (s.ctx 0).map (·.timer)
    | .fault _ => none
    | .refused _ => none) = some 399 := by decide +kernel

/-! ## Witnesses: hypotheses of the statements, met together -/

/-- The antennas of a venue with units, as the statements name them. -/
def unitsOf (s : State) (v : VenueNo) : List AntennaNo :=
  (List.finRange 48).filter (fun a => (s.ant a).present && (s.ant a).online && (s.ant a).venue == v)

theorem not_canMove {s : State} {a : AntennaNo} {i : SlotNo} {svc : Service} (h : s.slotHolder a i svc = none) (p : Profile) :
    ¬ s.canMove a i svc p := by
  rintro ⟨g, q, held, tg, h1, h2, _⟩
  rw [State.slotHolder_eq h1 h2] at h
  cases h

theorem lawful_one (p : Profile) (hp : p.ident = 0x00A3F1) (x : Attachment) : registryLawful [⟨0, p, x⟩] := by
  simp [registryLawful, hp]

theorem strange_of_none {s : State} {a : AntennaNo} {h : Identity} (hr : s.rec? h = none) : s.strange a h := by
  intro r h1
  rw [hr] at h1
  cases h1

theorem not_passesOver {s : State} {w : WaitEntry} (h : s.considers w = true) : ¬ s.passesOver w := by
  rintro ⟨h1, q, p, svc, c, tr, h2⟩
  simp [State.considers, h1, State.isTransferring, h2, Attachment.inTransfer] at h

/-- The hypotheses of `StepRunsFrontCommand` and of `IdleStepIsOneMillisecond`. -/
theorem test_witness_step : ({ State.reset with pending := [.frameBegin, .go 1] } : State).pending = .frameBegin :: [.go 1] ∧
    (moving .ordered 400).pending = [] ∧ (moving .ordered 400).resetPin = false := by decide +kernel

/-- `ResetPin`: the state with the pin asserted. -/
theorem test_witness_resetPin : (State.reset.resetTo true).resetPin = true := by decide +kernel

/-- The state of the invariants' witnesses: a HEAR from the target waits in the queue of a headset in TRANSFER. -/
def queued : State := { moving .prepare 50 with pending := [.hear 1 0x00A3F1 200 0] }

/-- The step that the invariants speak of answers a next state. -/
theorem test_witness_next : ∃ t : State, step queued = .next t := ⟨_, rfl⟩

/-- The premises of `ControlPortLawKept`, `HeadPortLawKept`, `TapLawKept` and `WaitListLawKept`. -/
theorem test_witness_ports : queued.ctrl.lawful ∧ queued.head.lawful ∧ queued.tapsLawful ∧ queued.waitsLawful ∧
    queued.carriersLawful ∧ (carried (fun k => three (3 * k.castLE (by decide)))).carriersLawful := by
  unfold ControlPort.lawful HeadPort.lawful State.tapsLawful Tap.lawful State.waitsLawful State.carriersLawful
  decide +kernel

/-- `WaitListLawKept` and `RoundCountsTrigger`: a lawful tuning set, the one of the reset. -/
theorem test_witness_tuning : queued.tuning.lawful := by
  unfold Tuning.lawful
  decide +kernel

/-- The premises of `RegistryLawKept` and `TrackLawsKept`. -/
theorem test_witness_registry : registryLawful queued.registry ∧ queued.tracksLawful := by
  have h : queued.registry = [⟨0, duplex, .transfer .talk 0 ⟨some 1, 3, [⟨0, some 1600, 0, 0, false, .serving⟩,
    ⟨1, some 2400, 0, 0, false, .target⟩]⟩⟩] := by decide +kernel
  have hp : queued.tuning.persist = 3 := by decide +kernel
  refine ⟨?_, ?_⟩
  · unfold registryLawful
    rw [h]
    decide +kernel
  · unfold State.tracksLawful
    rw [h, hp]
    simp [Attachment.lawful, hearingLawful]

/-- `LiveEventsKeepConfiguration`: no event waits, or an expiry does. -/
theorem test_witness_live : isLive (.hear 1 0x00A3F1 200 0) = true ∧ queued.waiting = [] ∧
    (∀ w ∈ [WaitingEvent.tMove 0], w ≠ .cell ∧ w ≠ .frame) ∧ ∃ t : State, exec (.hear 1 0x00A3F1 200 0) queued = .next t :=
  ⟨rfl, rfl, by decide, _, rfl⟩

/-- `HostRequestIsItsFrame`: a FLOOR request at the reset state. -/
theorem test_witness_request : State.reset.ctrl.rx = .hunting ∧ State.reset.ctrl.frames = [] ∧ ∃ s1 s2 : State,
    exec .frameBegin State.reset = .next s1 ∧
      exec (.frameComplete (oneRecordBody 7 (.floor 2)) (frameCheck (oneRecordBody 7 (.floor 2)))) s1 = .next s2 :=
  ⟨rfl, rfl, _, _, rfl, rfl⟩

/-- `ChainIsDelimited`: chains of one and of eight records. -/
theorem test_witness_chain : ([(1, Request.ident)] : List (Byte × Request)) ≠ [] ∧
    (List.replicate 8 ((1 : Byte), Request.warm)).length ≤ 8 := by decide +kernel

/-- `RequestFrameIsTaken`: behind two answers, behind one, and behind none. -/
theorem test_witness_taken :
    (withCtrl { ControlPort.reset with frames := [[0x01]], answers := [.reject .check, .reject .type] }).ctrl.answers =
      [.reject .check, .reject .type] ∧
    (withCtrl { ControlPort.reset with frames := [[0x01]] }).ctrl.frames = [[0x01]] ∧
    (withCtrl { ControlPort.reset with frames := [[0x01]] }).ctrl.ctxd = none ∧
    (withCtrl { ControlPort.reset with frames := [[0x01], [0x01, 0x01, 9]], answers := [.reject .check] }).ctrl.answers.length < 2 ∧
    (withCtrl { ControlPort.reset with frames := [[0x01, 0x01, 9]] }).ctrl.frames = [0x01, 0x01, 9] :: [] ∧
    (withCtrl { ControlPort.reset with frames := [[0x01, 0x01, 9]] }).resetPin = false ∧
    (withCtrl { ControlPort.reset with frames := [[0x01, 0x01, 9]] }).waiting = [] := by decide +kernel

/-- The idle control port of the request statements, in both modes. -/
theorem test_witness_hostReady : State.reset.hostReady ∧ State.reset.mode = .setup ∧ (served track).hostReady ∧
    (served track).mode = .run := by decide +kernel

/-- `TuneReplaces`: a mask that is refused, and one whose bit 15 is clear. -/
theorem test_witness_tuneMask : (0x8000 : BitVec 16).getLsbD 15 = true ∧ (0x7FFF : BitVec 16).getLsbD 15 = false := by
  decide +kernel

/-- `TuneReplaces`: all values at the tops of their ranges. -/
theorem test_witness_tuneKept : ∀ x ∈ tuneValues ⟨0x7FFF, 5, 30, 15, 250, 40, 4, 40, 15, 15, 500, 2000, 120, 60, 1, 1⟩,
    ¬ x.clamps 0x7FFF := by decide +kernel

/-- `TuneReplaces`: avg_shift unselected, hysteresis at 30, persist one below its range and the first that is clamped. -/
theorem test_witness_tuneClamped : ∃ l x r,
    tuneValues ⟨0x0006, 9, 30, 1, 0, 0, 0, 0, 0, 0, 0, 0, 0, 0, 0, 0⟩ = l ++ x :: r ∧ (∀ y ∈ l, ¬ y.clamps 0x0006) ∧
      x.clamps 0x0006 ∧ x.offset = 6 :=
  ⟨[⟨0, 1, 5, 9, 4⟩, ⟨1, 0, 30, 30, 5⟩], ⟨2, 2, 15, 1, 6⟩, _, rfl, by decide +kernel, by decide +kernel, rfl⟩

/-- `FloorIsSet`: the values 3 and 4. -/
theorem test_witness_floor : (3 : Byte).toNat ≤ 3 ∧ 3 < (4 : Byte).toNat := by decide +kernel

/-- SETUP with antenna 0 present and ONLINE in venue 0. -/
def setup (l : List HeadsetRecord) : State := { running l with mode := .setup }

/-- `GoEntersRun`: a home venue with a present antenna; and no present antenna. -/
theorem test_witness_go : (setup [⟨0, duplex, .idle⟩]).hostReady ∧ (setup [⟨0, duplex, .idle⟩]).mode = .setup ∧
    (∃ a : AntennaNo, ((setup [⟨0, duplex, .idle⟩]).ant a).present = true) ∧
    (∀ r ∈ (setup [⟨0, duplex, .idle⟩]).registry, ∃ a : AntennaNo, ((setup [⟨0, duplex, .idle⟩]).ant a).present = true ∧
      ((setup [⟨0, duplex, .idle⟩]).ant a).venue = r.profile.home) ∧ (setup [⟨0, duplex, .idle⟩]).roomFor 2 ∧
    (∀ a : AntennaNo, (State.reset.ant a).present = false) := by decide +kernel

/-- `GoEntersRun`: records at positions 1 and 511, of the home venues 0, which has a present antenna, and 15, which has none. -/
theorem test_witness_goRegistry : ∃ r ∈ (setup [⟨1, crew 1 0, .idle⟩, ⟨511, { duplex with home := 15 }, .idle⟩]).registry,
    r.position = 511 ∧ registryLawful [⟨1, crew 1 0, .idle⟩, ⟨511, { duplex with home := 15 }, .idle⟩] ∧
    (∃ a : AntennaNo, ((setup []).ant a).present = true) ∧
    (∀ a : AntennaNo, ((setup []).ant a).present = true → ((setup []).ant a).venue ≠ r.profile.home) ∧
    (∀ q ∈ (setup [⟨1, crew 1 0, .idle⟩, ⟨511, { duplex with home := 15 }, .idle⟩]).registry, q.position < r.position →
      ∃ a : AntennaNo, ((setup []).ant a).present = true ∧ ((setup []).ant a).venue = q.profile.home) :=
  ⟨⟨511, { duplex with home := 15 }, .idle⟩, by decide +kernel, rfl, by unfold registryLawful; decide +kernel, by decide +kernel,
    by decide +kernel, by decide +kernel⟩

/-- `EnrolCreatesOrReplaces`: position 0 taken and 1 free for another identity; an IDLE record; an attached one. -/
theorem test_witness_enrol :
    (enrolFieldsOk (one duplex .idle) ⟨0x00A3F2, 3, 0, 0, 1, 1, 0⟩ ∧ (one duplex .idle).rec? 0x00A3F2 = none ∧
      (∀ r ∈ (one duplex .idle).registry, r.position ≠ 1) ∧
      (∀ q : Position, q < 1 → ∃ r ∈ (one duplex .idle).registry, r.position = q)) ∧
    (enrolFieldsOk State.reset ⟨0x00A3F1, 0, 15, 1, 0, 0x80000000, 31⟩ ∧
      (one duplex .idle).rec? 0x00A3F1 = some ⟨0, duplex, .idle⟩ ∧
      (served track).rec? 0x00A3F1 = some ⟨0, duplex, .served .talk ⟨0, .slot 0⟩ track⟩) := by decide +kernel

/-- `UnenrolRemoves` and `UnstickClears`: a record IDLE, attached, and none; a sticky flag set. -/
theorem test_witness_unenrol : (one duplex .idle).rec? 0x00A3F1 = some ⟨0, duplex, .idle⟩ ∧
    (served track).rec? 0x00A3F1 = some ⟨0, duplex, .served .talk ⟨0, .slot 0⟩ track⟩ ∧
    State.reset.rec? 0x00A3F1 = none ∧
    (one { duplex with sticky := true } .idle).rec? 0x00A3F1 = some ⟨0, { duplex with sticky := true }, .idle⟩ := by
  decide +kernel

/-! ### Releases -/

/-- A promotion and a grant: the hypotheses on the entry chosen. -/
theorem promotes : (demotedBehind.slotEnded 0 0).offerChooses 0 [] ⟨0x000101, .promote, 2⟩ [] := by
  refine ⟨by decide +kernel, not_passesOver (by decide +kernel), by simp, [3], [1, 0], by decide +kernel, ?_⟩
  have h : ((demotedBehind.slotEnded 0 0).ant 0).wait = [⟨0x000101, .promote, 2⟩] := by decide +kernel
  simp [h]

theorem grants : (offered.slotEnded 0 0).offerChooses 0 [⟨0x000102, .promote, 3⟩] ⟨0x000101, .join true, 2⟩ [] := by
  have h2 : (offered.slotEnded 0 0).rec? 0x000102 = some ⟨2, crew 2 3, .transfer .demoted 0 (fresh 0)⟩ := by decide +kernel
  have hp : (offered.slotEnded 0 0).passesOver ⟨0x000102, .promote, 3⟩ := ⟨rfl, _, _, _, _, _, h2⟩
  refine ⟨by decide +kernel, not_passesOver (by decide +kernel), by simp, [3], [1, 0], by decide +kernel, ?_⟩
  have h : ((offered.slotEnded 0 0).ant 0).wait = [⟨0x000102, .promote, 3⟩, ⟨0x000101, .join true, 2⟩] := by decide +kernel
  simp only [h, List.mem_cons, List.not_mem_nil, or_false]
  rintro x (rfl | rfl) hx
  · exact hp
  · exact absurd hx (by decide)

/-- `Releases` (of `EvictDetaches`, `GoneOrphansAndQuitDetaches`, `LandedCompletes`, `ReadyOrdersMove` and the JOINs): a slot where
nothing waits, the last claim of a DRAINING venue among them; a grant past an entry that is passed over; a promotion. -/
theorem test_witness_releasesSlot :
    (∃ u, (served track).Releases duplex .talk 0 (.slot 0) u ∧ (served track).roomTo u) ∧
    (∃ u, drained.Releases duplex .talk 0 (.slot 0) u ∧ drained.roomTo u ∧ (u.ven 0).state = .closed) ∧
    (∃ u, offered.Releases duplex .talk 0 (.slot 0) u ∧ offered.roomTo u ∧ u.slot 0 0 = .held 0x000101) ∧
    (∃ u, demotedBehind.Releases duplex .talk 0 (.slot 0) u ∧ demotedBehind.roomTo u ∧ u.slot 0 0 = .held 0x000101) :=
  ⟨⟨_, State.releasesSlot_of_wait_nil 0 (by decide +kernel), by decide +kernel⟩,
    ⟨_, State.releasesSlot_of_wait_nil 0 (by decide +kernel), by decide +kernel⟩,
    ⟨_, State.releasesSlot_of_offers (by decide +kernel) (.grant _ _ 0x000101 true 2 1 (crew 1 2) (.waiting 0 500) .talk grants
      (by decide +kernel) (.inl ⟨rfl, rfl⟩)), by decide +kernel⟩,
    ⟨_, State.releasesSlot_of_offers (by decide +kernel) (.promote _ _ 0x000101 2 1 (crew 1 2) .demoted 0 0 (fresh 0) _ promotes
      (by decide +kernel) (.leaves [] [] 1 0 (by decide +kernel) (by simp) (.inl ⟨rfl, by decide, rfl⟩))), by decide +kernel⟩⟩

/-- `Releases`: carrier places of a line with two listeners and with one, and the place and the entry of a DEMOTED headset. -/
theorem test_witness_releasesPlace :
    (∃ u, (listening 2).Releases listener .listen 0 (.carrier 3) u ∧ (listening 2).roomTo u) ∧
    (∃ u, (listening 1).Releases listener .listen 0 (.carrier 3) u ∧ (listening 1).roomTo u) ∧
    (∃ u, demotedBehind.Releases (crew 1 2) .demoted 0 (.carrier 0) u ∧ demotedBehind.roomTo u ∧ (u.ant 0).wait = []) :=
  ⟨⟨_, .stays [] [⟨5, 1, 0⟩] 2 0 1 0 (by decide +kernel) (by decide) (.inl ⟨rfl, rfl, rfl⟩) (by decide), by decide +kernel⟩,
    ⟨_, .leaves [] [⟨5, 1, 0⟩] 1 0 (by decide +kernel) (by decide) (.inl ⟨rfl, by decide, rfl⟩), by decide +kernel⟩,
    ⟨_, ⟨_, .leaves [] [] 1 0 (by decide +kernel) (by simp) (.inl ⟨rfl, by decide, rfl⟩), rfl⟩, by decide +kernel⟩⟩

/-- `Aborts`: a reserved slot and a source slot, from no unit and from the source's; no source; and a reserved place. -/
theorem test_witness_aborts :
    (∃ u, (moving .prepare 5).Aborts duplex .talk 0 ⟨0x00A3F1, 0, some (.slot 0), 1, .slot 9, .auto, noOptions, .prepare, 5⟩ none u ∧
      (moving .prepare 5).roomTo u) ∧
    (∃ u, (moving .prepare 5).Aborts duplex .talk 0 ⟨0x00A3F1, 0, some (.slot 0), 1, .slot 9, .auto, noOptions, .prepare, 5⟩
      (some 0) u ∧ (moving .prepare 5).roomTo u) ∧
    (∃ u, homeless.Aborts duplex .talk 0 ⟨0x00A3F1, 0, none, 1, .slot 9, .steer, ⟨true, false, false⟩, .ordered, 9⟩ (some 1) u ∧
      homeless.roomTo u) ∧
    (∃ u, landing.Aborts listener .listen 0 ⟨0x00A3F1, 0, some (.carrier 3), 1, .carrier 2, .auto, noOptions, .prepare, 9⟩ none u ∧
      landing.roomTo u) :=
  ⟨⟨_, ⟨_, State.releasesSlot_of_wait_nil 9 (by decide +kernel), _, State.releasesSlot_of_wait_nil 0 (by decide +kernel), rfl⟩,
      by decide +kernel⟩,
    ⟨_, ⟨_, State.releasesSlot_of_wait_nil 9 (by decide +kernel), _, State.releasesSlot_of_wait_nil 0 (by decide +kernel), rfl⟩,
      by decide +kernel⟩,
    ⟨_, ⟨_, State.releasesSlot_of_wait_nil 9 (by decide +kernel), rfl⟩, by decide +kernel⟩,
    ⟨_, ⟨_, .leaves [] [⟨5, 1, 0⟩] 0 1 (by decide +kernel) (by decide) (.inr ⟨rfl, rfl, by decide⟩), _,
      .leaves [] [] 1 0 (by decide +kernel) (by simp) (.inl ⟨rfl, by decide, rfl⟩), rfl⟩, by decide +kernel⟩⟩

/-- `EvictDetaches`: the records of `test_witness_releasesSlot`, `test_witness_releasesPlace` and `test_witness_aborts`, a WAITING
headset and an ORPHAN one. -/
theorem test_witness_evict : (served track).hostReady ∧ (served track).mode = .run ∧
    (served track).rec? 0x00A3F1 = some ⟨0, duplex, .served .talk ⟨0, .slot 0⟩ track⟩ ∧ (moving .prepare 5).hostReady ∧
    (moving .prepare 5).rec? 0x00A3F1 = some ⟨0, duplex, .transfer .talk 0 ⟨some 1, 3,
      [⟨0, some 1600, 0, 0, false, .serving⟩, ⟨1, some 2400, 0, 0, false, .target⟩]⟩⟩ ∧
    (moving .prepare 5).ctx 0 = some ⟨0x00A3F1, 0, some (.slot 0), 1, .slot 9, .auto, noOptions, .prepare, 5⟩ ∧
    (waiting 5).hostReady ∧ (waiting 5).rec? 0x00A3F1 = some ⟨0, duplex, .waiting 1 5⟩ ∧
    (waiting 5).roomTo (((waiting 5).entryEnded 1 0x00A3F1).sends [.refuse 1 0x00A3F1 .evicted]) ∧
    (one duplex (.orphan 5)).hostReady ∧ (one duplex (.orphan 5)).rec? 0x00A3F1 = some ⟨0, duplex, .orphan 5⟩ := by
  decide +kernel

/-- `SiteSetsPresence`: antenna 47 absent, antenna 0 present. -/
theorem test_witness_site : (setup []).hostReady ∧ (47 : Byte).toNat = (47 : AntennaNo).val ∧
    (15 : Byte).toNat = (15 : VenueNo).val ∧ ((setup []).ant 47).present = false ∧ ((setup []).ant 0).present = true ∧
    (setup []).roomFor 1 := by decide +kernel

/-- `SiteSetsPresence` in RUN: a claim at antenna 0; none at antenna 1, with another antenna in its venue; and the last antenna of a
home venue. -/
theorem test_witness_siteRun : (served track).hostReady ∧ (served track).holdsClaim 0 ∧ ¬ (served track).holdsClaim 1 ∧
    (∃ b : AntennaNo, b ≠ 1 ∧ ((served track).ant b).present = true ∧ ((served track).ant b).venue = ((served track).ant 1).venue) ∧
    ((served track).ant 1).online = true ∧ (15 : VenueNo) ≠ ((served track).ant 1).venue ∧
    (∀ b : AntennaNo, b ≠ 0 → (((one duplex .idle).setAnt 1 Antenna.reset).ant b).present = true →
      (((one duplex .idle).setAnt 1 Antenna.reset).ant b).venue ≠ (((one duplex .idle).setAnt 1 Antenna.reset).ant 0).venue) ∧
    ¬ ((one duplex .idle).setAnt 1 Antenna.reset).holdsClaim 0 ∧
    (∃ r ∈ ((one duplex .idle).setAnt 1 Antenna.reset).registry, r.profile.home = 0) := by decide +kernel

/-- `VenueSetsWindow`: wake masks 15 and 16. -/
theorem test_witness_venue : (15 : Byte).toNat ≤ 15 ∧ 15 < (16 : Byte).toNat := by decide +kernel

/-- `LineSetsKind`: line 31 carried nowhere; line 0 carried at antenna 1 and not below. -/
theorem test_witness_line :
    (∀ a : AntennaNo, ∀ j : CarrierNo, ∀ l ∈ State.reset.carrier a j, l.line ≠ 31) ∧
    (((running []).setCarrier 1 3 [⟨0, 1, 0⟩]).lineKind 0 ≠ .cue ∧
      (∃ j : CarrierNo, ∃ l ∈ ((running []).setCarrier 1 3 [⟨0, 1, 0⟩]).carrier 1 j, l.line = 0) ∧
      (∀ b : AntennaNo, b < 1 → ∀ j : CarrierNo, ∀ l ∈ ((running []).setCarrier 1 3 [⟨0, 1, 0⟩]).carrier b j,
        l.line ≠ 0)) := by decide +kernel

/-- `SetVenueOpensAndCloses`: venue 15 CLOSED without units; venue 0 OPEN without claims, with two. -/
theorem test_witness_setVenue : (running []).hostReady ∧ ((running []).ven 15).state = .closed ∧
    ((running []).ven 0).state = .opened ∧ ((running []).ven 0).claims = 0 ∧ (running []).roomFor 2 := by decide +kernel

/-- `SetVenueOpensAndCloses`: a drain with claims and a WAIT_JOIN entry at antenna 1; and the last claim of a DRAINING venue. -/
theorem test_witness_drain : ((waiting 5).claimed 0).hostReady ∧ (((waiting 5).claimed 0).ven 0).state = .opened ∧
    2 ≤ (((waiting 5).claimed 0).ven 0).claims ∧
    (((waiting 5).claimed 0).ant 1).wait = [⟨0x00A3F1, .join false, 1⟩] ∧
    (∀ b : AntennaNo, b ≠ 1 → (((waiting 5).claimed 0).ant b).present = true → (((waiting 5).claimed 0).ant b).venue = 0 →
      ∀ w ∈ (((waiting 5).claimed 0).ant b).wait, w.kind = .promote) ∧
    (served track).cellReady ∧ (((served track).setVenueState 0 .draining).ven 0).state = .draining ∧
    (((served track).setVenueState 0 .draining).ven 0).claims = 1 ∧
    ((served track).setVenueState 0 .draining).roomFor (unitsOf ((served track).setVenueState 0 .draining) 0).length := by
  decide +kernel

/-- `BarAndUnbar`: a WAIT_JOIN entry behind a WAIT_PROMOTE one, no entry, and an antenna that is barred. -/
theorem test_witness_bar : (waiting 5).hostReady ∧ ((waiting 5).ant 1).present = true ∧ ((waiting 5).ant 1).barred = false ∧
    ((((waiting 5).setWait 1 [⟨0x000101, .promote, 2⟩, ⟨0x00A3F1, .join false, 1⟩]).ant 1).wait.filter
      (fun w => decide (w.kind ≠ .promote))).map (·.headset) = [0x00A3F1] ∧
    (waiting 5).roomTo ([0x00A3F1].foldl (State.entryRefused 1 .barred .barred)
      ((waiting 5).setAnt 1 { (waiting 5).ant 1 with barred := true })) ∧
    ((running []).ant 1).wait = [] ∧ (((running []).setBarred 1 true).ant 1).barred = true := by decide +kernel

/-- `PeekHeadsetReports` and `PeekAntennaReports`. -/
theorem test_witness_peek : (served track).hostReady ∧
    (Attachment.served .talk ⟨0, .slot 0⟩ track).hearing.length ≤ 6 ∧
    ((one duplex .idle).ant 47).wait.length ≤ 8 ∧ (∀ k : CarrierNo, ((one duplex .idle).carrier 47 k).length ≤ 3) ∧
    ((one duplex .idle).ant 47).slots = Vector.replicate 10 .free ∧
    ((one duplex .idle).ant 47).carriers = Vector.replicate 4 [] := by decide +kernel

/-- `PeekVenueAndContextReport`: numbers 15 and 16, 23 and 24; a context free and one in use. -/
theorem test_witness_peekContext : 15 < (16 : Byte).toNat ∧ (15 : Byte).toNat = (15 : VenueNo).val ∧ 23 < (24 : Byte).toNat ∧
    (23 : Byte).toNat = (23 : ContextNo).val ∧ (moving .prepare 7).ctx 23 = none ∧
    (moving .prepare 7).ctx 0 = some ⟨0x00A3F1, 0, some (.slot 0), 1, .slot 9, .auto, noOptions, .prepare, 7⟩ ∧
    (moving .prepare 7).hostReady := by decide +kernel

/-- `ListWalks`: start positions 0 and 512, counts 1 and 16, filters 0 and 31. -/
theorem test_witness_list : (served track).hostReady ∧ (512 : BitVec 16).toNat ≤ 512 ∧ 1 ≤ (1 : Byte).toNat ∧
    (16 : Byte).toNat ≤ 16 ∧ (31 : Byte).toNat ≤ 31 := by decide +kernel

/-- `TapAndUntap`: a tap OFF and empty; a tap that is RUNNING; one with a record left. -/
theorem test_witness_tap : (running []).hostReady ∧ (3 : Byte).toNat = (3 : TapNo).val ∧ (1 : Byte).toNat ≤ 1 ∧
    (48 : Byte).toNat ≤ 48 ∧ (0xFFFF : BitVec 16) ≠ 0 ∧ ((running []).tap 3).running = false ∧
    ((running []).tap 3).buffer = [] ∧ (((running []).setTap 3 { Tap.reset with running := true }).tap 3).running = true ∧
    (((running []).setTap 3 { Tap.reset with buffer := [.measure 0 0x00A3F1 1 16 false] }).tap 3).buffer ≠ [] := by
  decide +kernel

/-- `UnknownKindAndRemainder` and `ShortRecordIsAnswered`: kind 0x7F with 253 bytes after the tag; a TUNE one byte short. -/
theorem test_witness_records : (0x7F : Byte).toNat < 128 ∧ recordLength 0x7F = none ∧
    (List.replicate 253 (0 : Byte)).length ≤ 253 ∧ recordLength 0x02 = some 21 ∧
    (List.replicate 18 (0 : Byte)).length + 2 < 21 := by decide +kernel

/-- A receiver inside a frame. -/
def receiving (b : Bool) (q : Nat) : State := withCtrl { ControlPort.reset with rx := .inFrame b q }

/-- `ReceiverFollowsItsFrame`: a length of 257, and a quiet time that has run out. -/
theorem test_witness_receiver : State.reset.ctrl.rx = .hunting ∧ (receiving true 5).ctrl.rx = .inFrame true 5 ∧
    256 < (257 : BitVec 16).toNat ∧ (receiving false 0).ctrl.rx = .inFrame false 0 ∧ (receiving true 5).resetPin = false := by
  decide +kernel

/-- `CompleteFrameIsJudged`: a frame for each of the five cases. -/
theorem test_witness_complete : (receiving true 20).ctrl.rx = .inFrame true 20 ∧
    0x8934 = crc16 (be16 (BitVec.ofNat 16 2) ++ [0x01, 0x05]) ∧ ([0x01, 0x05] : List Byte).head? = some 0x01 ∧
    (0 : BitVec 16) ≠ crc16 (be16 (BitVec.ofNat 16 2) ++ [0x01, 0x05]) ∧
    0x1D0F = crc16 (be16 (BitVec.ofNat 16 0) ++ []) ∧ ([0x02] : List Byte).head? ≠ some 0x01 ∧
    (List.replicate 256 (0 : Byte)).length ≤ 256 := by decide +kernel

/-- `SenderChoosesFrame` and `TapFrameIsSent`: an answer waiting; a notice alone; records at tap 0 with the turn at tap 1. -/
theorem test_witness_sender :
    (withCtrl { ControlPort.reset with answers := [.reject .check] }).ctrl.answers = .reject .check :: [] ∧
    (withCtrl { ControlPort.reset with notices := [.tapDone 0] }).ctrl.notices = .tapDone 0 :: [] ∧
    State.reset.ctrl.ctxd = none ∧
    (({ State.reset.setTap 0 { Tap.reset with buffer := [.measure 0 0x00A3F1 1 16 false] } with tapTurn := 1 } : State).tap
      (1 + 3)).buffer ≠ [] ∧
    (∀ i : Fin 4, i < 3 → (({ State.reset.setTap 0 { Tap.reset with buffer := [.measure 0 0x00A3F1 1 16 false] } with
      tapTurn := 1 } : State).tap (1 + i)).buffer = []) := by decide +kernel

/-- `ArrivalFollowsOccupancy`: occupancies 95, 96, 127 and 128. -/
theorem test_witness_arrival : (withInput 95 false false).head.input.length < 96 ∧
    (withInput 127 false true).head.input.length < 128 ∧ 96 ≤ (withInput 96 false false).head.input.length ∧
    (withInput 96 true false).head.shedding = true ∧ (withInput 96 false false).head.shedding = false ∧
    128 ≤ (withInput 128 true true).head.input.length ∧ (withInput 128 true true).resetPin = false := by decide +kernel

/-- A head buffer, with shedding on and HSTALL asserted, of a GONE that is discarded and a number of cells behind it. -/
def filled (n : Nat) : State :=
  (served track).setHead ⟨⟨6, 1, 0x00A3F1, 0, 0, 0⟩ :: List.replicate n ⟨9, 0, 0, 0, 0, 0⟩, true, true, [], [], false⟩

/-- `ArrivalFollowsOccupancy`: a cell at the head of a longer buffer, with any number of cells behind it (63 and 64, 112 and 113). -/
theorem test_witness_head (n : Nat) : cellOf (.gone 1 0x00A3F1) = some ⟨6, 1, 0x00A3F1, 0, 0, 0⟩ ∧ (filled n).resetPin = false ∧
    (filled n).waiting = [] ∧ ∃ t, exec (.gone 1 0x00A3F1) (State.setHead (if (filled n).head.shedding = true ∧
      (List.replicate n (⟨9, 0, 0, 0, 0, 0⟩ : RawCell)).length < 64 then (filled n).notify (.shedding false) else filled n)
      { (filled n).head with input := [], shedding := false, hstall := false }) = .next t ∧ t.waiting = [] := by
  refine ⟨rfl, rfl, rfl, ?_⟩
  split <;> exact ⟨_, rfl, rfl⟩

/-- `FailingCellsAreDiscarded`: kinds 0 and 10; antenna 48; an absent antenna; SETUP. -/
theorem test_witness_failing : (running []).cellReady ∧ (0 : Byte).toNat = 0 ∧ 9 < (10 : Byte).toNat ∧ 47 < (48 : Byte).toNat ∧
    (47 : Byte).toNat = (47 : AntennaNo).val ∧ ((running []).ant 47).present = false ∧ State.reset.mode = .setup ∧
    State.reset.cellReady := by decide +kernel

/-- `FailingCellsAreDiscarded`: level codes 252 and 254; a HEAR for an IDLE headset; a GONE from an antenna that holds nothing. -/
theorem test_witness_unheard : 252 ≤ (252 : Byte).toNat ∧ (254 : Byte).toNat ≤ 254 ∧ (one duplex .idle).cellReady ∧
    (∀ r, (one duplex .idle).rec? 0x00A3F1 = some r → r.att = .idle) ∧
    (∀ r, (served track).rec? 0x00A3F1 = some r → (∀ svc held tr, r.att = .served svc held tr → held.ant ≠ 1) ∧
      ∀ svc c tr, r.att ≠ .transfer svc c tr) := by
  refine ⟨by decide, by decide, by decide +kernel, ?_, ?_⟩
  · have h : (one duplex .idle).rec? 0x00A3F1 = some ⟨0, duplex, .idle⟩ := by decide +kernel
    rintro r hr
    rw [h] at hr
    cases hr
    rfl
  · have h : (served track).rec? 0x00A3F1 = some ⟨0, duplex, .served .talk ⟨0, .slot 0⟩ track⟩ := by decide +kernel
    rintro r hr
    rw [h] at hr
    cases hr
    exact ⟨fun _ _ _ e => by cases e; decide, fun _ _ _ e => by cases e⟩

/-- `CellSentLeavesQueue`: a queue with and without cells of an oversize event behind it; a full queue with a wait expiry due, and
with a JOIN that no record answers. -/
theorem test_witness_sent :
    ({ State.reset with head := ⟨[], false, false, [.clear 0], [], false⟩ } : State).head.output = .clear 0 :: [] ∧
    ({ State.reset with head := ⟨[], false, false, List.replicate 128 (.clear 0), [.clear 1], false⟩ } : State).head.overflow =
      .clear 1 :: [] ∧
    (∃ t : State, exec .cellSent { State.reset with head := ⟨[], false, false, [.clear 0], [], false⟩ } = .next t) ∧
    (full (waiting 0)).head.output = .clear 0 :: List.replicate 127 (.clear 0) ∧ (full (waiting 0)).head.output.length = 128 ∧
    (full (waiting 0)).head.overflow = [] ∧ (full (waiting 0)).rec? 0x00A3F1 = some ⟨0, duplex, .waiting 1 0⟩ ∧
    (full (running [])).cellReady ∧ (full (running [])).servesCells 1 1 0x00A3F1 ∧ (full (running [])).rec? 0x00A3F1 = none :=
  ⟨rfl, rfl, ⟨_, rfl⟩, by decide +kernel⟩

/-- `CandidateIsBest`: a list with an eligible entry and one with none. -/
theorem test_witness_candidate : (served track).mayBeCandidate duplex 0 ⟨1, some 2400, 0, 0, false, .unpinned⟩ ∧
    ¬ (served track).mayBeCandidate duplex 0 ⟨0, some 2400, 0, 0, false, .serving⟩ ∧
    ¬ (served track).mayBeCandidate duplex 0 ⟨1, some 2400, 0, 1, false, .unpinned⟩ := by decide +kernel

/-- The hypotheses of `JoinIsGranted`, met together with states between. -/
def granted (s : State) (b : Byte) (h : Identity) (a : AntennaNo) (pr : Profile) (mark : Bool) (lost : Option AntennaNo)
    (svc : Service) (place : Place) : Prop :=
  s.cellReady ∧ s.servesCells b a h ∧ (s.ant a).barred = false ∧ ∃ u w x t : State, s.Joins a h pr u mark lost ∧
    u.Enters (s.ant a).venue pr.cls w ∧ (w.ven (s.ant a).venue).letsIn h ∧ w.TakesNeed a pr none w.tuning.preempt svc place x ∧
    t = State.routed (State.notify ((x.setAtt h (.served svc ⟨a, place⟩
      ⟨none, 0, [⟨a, none, 0, 0, false, .serving⟩]⟩)).sends [.seat a h place])
      (if mark then .recovered h a place svc else .attached h a place svc)) pr a (some place) ∧ s.roomTo t

/-- `JoinIsGranted`: from IDLE, in an OPEN venue and in a CLOSED one that the class wakes. -/
theorem test_witness_joinIdle : granted (one duplex .idle) 1 0x00A3F1 1 duplex false none .talk (.slot 0) ∧
    granted ((one duplex .idle).setVen 0 Venue.reset) 1 0x00A3F1 1 duplex false none .talk (.slot 0) ∧
    registryLawful (one duplex .idle).registry :=
  ⟨⟨by decide +kernel, by decide +kernel, by decide +kernel, _, _, _, _, .idle 0 duplex (by decide +kernel),
      .inl ⟨.inl (by decide +kernel), rfl⟩, by decide +kernel, .talk 0 _ rfl (.free 0 (by decide +kernel)), rfl, by decide +kernel⟩,
    ⟨by decide +kernel, by decide +kernel, by decide +kernel, _, _, _, _, .idle 0 duplex (by decide +kernel),
      .inr ⟨by decide +kernel, by decide +kernel, rfl⟩, by decide +kernel, .talk 0 _ rfl (.free 0 (by decide +kernel)), rfl,
      by decide +kernel⟩, lawful_one duplex rfl _⟩

/-- `JoinIsGranted`: from WAITING at another antenna, and from ORPHAN. -/
theorem test_witness_joinWaiting : granted (waiting 5) 0 0x00A3F1 0 duplex false none .talk (.slot 0) ∧
    granted (one duplex (.orphan 5)) 1 0x00A3F1 1 duplex true none .talk (.slot 0) ∧ registryLawful (waiting 5).registry :=
  ⟨⟨by decide +kernel, by decide +kernel, by decide +kernel, _, _, _, _, .waiting 0 duplex 1 5 (by decide +kernel) (by decide),
      .inl ⟨.inl (by decide +kernel), rfl⟩, by decide +kernel, .talk 0 _ rfl (.free 0 (by decide +kernel)), rfl, by decide +kernel⟩,
    ⟨by decide +kernel, by decide +kernel, by decide +kernel, _, _, _, _, .orphan 0 duplex 5 (by decide +kernel),
      .inl ⟨.inl (by decide +kernel), rfl⟩, by decide +kernel, .talk 0 _ rfl (.free 0 (by decide +kernel)), rfl,
      by decide +kernel⟩, lawful_one duplex rfl _⟩

/-- `JoinIsGranted`: from SERVED at another antenna, and from TRANSFER at the source. -/
theorem test_witness_joinAgain : granted (served track) 1 0x00A3F1 1 duplex false (some 0) .talk (.slot 0) ∧
    granted (moving .prepare 5) 0 0x00A3F1 0 duplex false (some 0) .talk (.slot 0) ∧
    registryLawful (served track).registry ∧ registryLawful (moving .prepare 5).registry :=
  ⟨⟨by decide +kernel, by decide +kernel, by decide +kernel, _, _, _, _, .served 0 duplex .talk ⟨0, .slot 0⟩ track _
      (by decide +kernel) (State.releasesSlot_of_wait_nil 0 (by decide +kernel)),
      .inl ⟨.inl (by decide +kernel), rfl⟩, by decide +kernel, .talk 0 _ rfl (.free 0 (by decide +kernel)), rfl, by decide +kernel⟩,
    ⟨by decide +kernel, by decide +kernel, by decide +kernel, _, _, _, _, .moving 0 duplex .talk 0 ⟨some 1, 3,
      [⟨0, some 1600, 0, 0, false, .serving⟩, ⟨1, some 2400, 0, 0, false, .target⟩]⟩
      ⟨0x00A3F1, 0, some (.slot 0), 1, .slot 9, .auto, noOptions, .prepare, 5⟩ _ (by decide +kernel) (by decide +kernel)
      (by decide) ⟨_, State.releasesSlot_of_wait_nil 9 (by decide +kernel), _,
        State.releasesSlot_of_wait_nil 0 (by decide +kernel), rfl⟩,
      .inl ⟨.inl (by decide +kernel), rfl⟩, by decide +kernel, .talk 0 _ rfl (.free 0 (by decide +kernel)), rfl,
      by decide +kernel⟩, lawful_one duplex rfl _, lawful_one duplex rfl _⟩

/-- `JoinIsGranted` in LISTEN: the carrier that carries the line, the lowest FREE one, the lowest MIXED one with room, and a talk
slot where no carrier can take the line. -/
theorem test_witness_joinListen :
    granted (carried (fun k => if k = 2 then [⟨0, 1, 0⟩] else [])) 1 0x00A3F1 1 listener false none .listen (.carrier 2) ∧
    granted (one listener .idle) 1 0x00A3F1 1 listener false none .listen (.carrier 0) ∧
    granted (carried (fun k => if k = 0 then three 1 else [⟨k.castLE (by decide) + 4, 1, 0⟩])) 1 0x00A3F1 1 listener false none
      .listen (.carrier 1) ∧
    granted (carried (fun k => three (3 * k.castLE (by decide) + 1))) 1 0x00A3F1 1 listener false none .listenSlot (.slot 0) :=
  ⟨⟨by decide +kernel, by decide +kernel, by decide +kernel, _, _, _, _, .idle 0 listener (by decide +kernel),
      .inl ⟨.inl (by decide +kernel), rfl⟩, by decide +kernel,
      .listen 2 _ rfl (.carried 2 [] [] 1 0 2 0 (by decide +kernel) (by simp) (by decide +kernel)
        (.inl ⟨rfl, rfl, rfl⟩)), rfl, by decide +kernel⟩,
    ⟨by decide +kernel, by decide +kernel, by decide +kernel, _, _, _, _, .idle 0 listener (by decide +kernel),
      .inl ⟨.inl (by decide +kernel), rfl⟩, by decide +kernel, .listen 0 _ rfl (.fresh 0 (by decide +kernel)), rfl,
      by decide +kernel⟩,
    ⟨by decide +kernel, by decide +kernel, by decide +kernel, _, _, _, _, .idle 0 listener (by decide +kernel),
      .inl ⟨.inl (by decide +kernel), rfl⟩, by decide +kernel,
      .listen 1 _ rfl (.mixed 1 [] [⟨5, 1, 0⟩] (by decide +kernel) (by decide +kernel) (by decide +kernel) (by simp) (by decide)
        (by decide +kernel) (by decide +kernel)), rfl, by decide +kernel⟩,
    ⟨by decide +kernel, by decide +kernel, by decide +kernel, _, _, _, _, .idle 0 listener (by decide +kernel),
      .inl ⟨.inl (by decide +kernel), rfl⟩, by decide +kernel, .listenSlot 0 _ rfl (by decide +kernel) (.free 0 (by decide +kernel)),
      rfl, by decide +kernel⟩⟩

/-- A crowd whose LISTEN_SLOT holders stand on slots 4 and 7, and crowds of TALK holders of the classes 1 and 2 alone. -/
def reseatable : State := crowd (fun i => if i = 4 ∨ i = 7 then .listenSlot else .talk) (fun _ => 0)

/-- TALK holders of class 2, but of class 1 on slots 3 and 6. -/
def talking : State := crowd (fun _ => .talk) (fun i => if i = 3 ∨ i = 6 then 1 else 2)

/-- `JoinIsGranted`: the re-seat of slot 7. -/
theorem test_witness_reseat : granted reseatable 1 0x00A3F1 1 joiner false none .talk (.slot 7) := by
  have h : ∀ j : SlotNo, 7 < j → reseatable.slotHolder 1 j .listenSlot = none := by decide +kernel
  exact ⟨by decide +kernel, by decide +kernel, by decide +kernel, _, _, _, _, .idle 0 joiner (by decide +kernel),
    .inl ⟨.inl (by decide +kernel), rfl⟩, by decide +kernel, .talk 7 _ rfl (.reseat 7 0 (crew 7 0).ident 8 (crew 7 0) ⟨1, .slot 7⟩
      (fresh 1) _ (by decide +kernel) (fun j p hj => not_canMove (h j hj) p) (by decide +kernel) (by decide +kernel)
      (.fresh 0 (by decide +kernel))), rfl, by decide +kernel⟩

/-- No slot is FREE or can be re-seated, read slot by slot. -/
theorem slotsTaken_of {s : State} {a : AntennaNo} (h : ∀ i : SlotNo, s.slot a i ≠ .free ∧ s.slotHolder a i .listenSlot = none) :
    s.slotsTaken a := ⟨fun i => (h i).1, fun i p => not_canMove (h i).2 p⟩

/-- No slot of the TALK crowd is FREE or can be re-seated. -/
theorem talking_taken : talking.slotsTaken 1 := slotsTaken_of (by decide +kernel)

/-- `JoinIsGranted`: the pre-emption of slot 6 for a joiner of class 2. -/
theorem test_witness_preempt : granted talking 1 0x00A3F1 1 joiner false none .talk (.slot 6) := by
  have h : ∀ j : SlotNo, ∀ pf ∈ talking.slotHolder 1 j .talk, pf.cls < joiner.cls →
      (crew 6 1).cls < pf.cls ∨ (crew 6 1).cls = pf.cls ∧ j ≤ 6 := by decide +kernel
  exact ⟨by decide +kernel, by decide +kernel, by decide +kernel, _, _, _, _, .idle 0 joiner (by decide +kernel),
    .inl ⟨.inl (by decide +kernel), rfl⟩, by decide +kernel, .talk 6 _ rfl (.demote 6 0 (crew 6 1).ident 7 (crew 6 1) ⟨1, .slot 6⟩
      (fresh 1) _ talking_taken rfl (by decide +kernel)
      (fun j p hv => by
        obtain ⟨⟨g, q, held, tr, h1, h2, _⟩, h3, _⟩ := hv
        exact h j p (State.slotHolder_eq h1 h2) h3)
      (by decide) (by decide +kernel) (by decide +kernel) (by decide +kernel) (.fresh 0 (by decide +kernel))), rfl,
    by decide +kernel⟩

/-- The registries of the crowds are lawful. -/
theorem test_witness_crowdLawful : registryLawful reseatable.registry ∧ registryLawful talking.registry := by
  unfold registryLawful
  decide +kernel

/-- `JoinIsRefused`: no record; WAITING there; a barred antenna for a re-attach; a DRAINING venue, and a CLOSED one that the class
does not wake; a window that leaves the identity out. -/
theorem test_witness_refused : (running []).cellReady ∧ (running []).servesCells 1 1 0x00A3F1 ∧ (running []).roomFor 1 ∧
    (running []).rec? 0x00A3F1 = none ∧ (waiting 5).rec? 0x00A3F1 = some ⟨0, duplex, .waiting 1 5⟩ ∧
    (∃ u, ((served track).setBarred 1 true).Joins 1 0x00A3F1 duplex u false (some 0)) ∧
    (((served track).setBarred 1 true).ant 1).barred = true ∧
    (∃ u, (one duplex .idle).Joins 1 0x00A3F1 duplex u false none) ∧
    (((one duplex .idle).setVenueState 0 .draining).ven 0).state = .draining ∧
    (((one duplex .idle).setVen 0 { Venue.reset with wake := 0xD }).ven 0).wake.getLsbD duplex.cls.val = false ∧
    ¬ (((one duplex .idle).setVen 0 { Venue.reset with state := .opened, low := 0, high := 0x00A3F0 }).ven 0).letsIn 0x00A3F1 :=
  ⟨by decide +kernel, by decide +kernel, by decide +kernel, by decide +kernel, by decide +kernel,
    ⟨_, .served 0 duplex .talk ⟨0, .slot 0⟩ track _ (by decide +kernel) (State.releasesSlot_of_wait_nil 0 (by decide +kernel))⟩,
    by decide +kernel, ⟨_, .idle 0 duplex (by decide +kernel)⟩, by decide +kernel, by decide +kernel, by decide +kernel⟩

/-- `JoinIsRefused`: nothing can be had with preempt off, with room to wait and with a list of 8 entries. -/
theorem test_witness_unmet : (∃ u, talking.Joins 1 0x00A3F1 joiner u false none) ∧
    ({ talking with tuning := { talking.tuning with preempt := false } } : State).needUnmet 1 joiner false ∧
    (talking.ant 1).wait.length < 8 ∧
    (talking.setWait 1 (List.replicate 8 ⟨0x000101, .promote, 2⟩)).needUnmet 1 joiner true ∧
    8 ≤ ((talking.setWait 1 (List.replicate 8 ⟨0x000101, .promote, 2⟩)).ant 1).wait.length :=
  ⟨⟨_, .idle 0 joiner (by decide +kernel)⟩, ⟨fun h => (by cases h), talking_taken, .inl rfl⟩, by decide +kernel,
    ⟨fun h => (by cases h), slotsTaken_of (by decide +kernel), .inr (.inl (by decide +kernel))⟩, by decide +kernel⟩

/-! ### STEER -/

/-- The option NO_CHECKS alone. -/
def unchecked : Options := ⟨false, true, false⟩

/-- `SteerStartsTransfer`: the fields that are refused, the headsets that are not SERVED, and each of the six tests of a named
antenna; NO_CHECKS passes the bar, the window and the hearing. -/
theorem test_witness_steerRefused : (served free).hostReady ∧
    (served free).rec? 0x00A3F1 = some ⟨0, duplex, .served .talk ⟨0, .slot 0⟩ free⟩ ∧ 48 ≤ (48 : Byte).toNat ∧
    (254 : Byte).toNat ≤ 254 ∧ 7 < (8 : Byte).toNat ∧
    (running []).rec? 0x00A3F1 = none ∧ (waiting 5).rec? 0x00A3F1 = some ⟨0, duplex, .waiting 1 5⟩ ∧
    (served free).SteerRefused duplex 0 free.hearing 0 noOptions .sameAntenna ∧
    (served free).SteerRefused duplex 0 free.hearing 47 unchecked .offline ∧
    ((served free).setBarred 1 true).SteerRefused duplex 0 free.hearing 1 noOptions .barred ∧
    ((served free).setVenueState 0 .draining).SteerRefused duplex 0 free.hearing 1 noOptions .closed ∧
    (((served free).setBarred 1 true).setVenueState 0 .draining).SteerRefused duplex 0 free.hearing 1 unchecked .closed ∧
    ((served free).setVen 0 { Venue.reset with state := .show, low := 0, high := 0x00A3F0 }).SteerRefused duplex 0 free.hearing 1
      noOptions .window ∧
    (served track).SteerRefused duplex 0 track.hearing 1 noOptions .noCandidate :=
  ⟨by decide +kernel, by decide +kernel, by decide, by decide, by decide, by decide +kernel, by decide +kernel,
    .same rfl, .offline (by decide) (by decide +kernel),
    .barred (by decide) (by decide +kernel) rfl (by decide +kernel),
    .closed (by decide) (by decide +kernel) (by decide +kernel) (by decide +kernel),
    .closed (by decide) (by decide +kernel) (by decide +kernel) (by decide +kernel),
    .window (by decide) (by decide +kernel) rfl (by decide +kernel) (by decide +kernel) (by decide +kernel),
    .unheard (by decide) (by decide +kernel) rfl (by decide +kernel) (by decide +kernel) (by decide +kernel) (by decide +kernel)⟩

/-- The best of the entries of `free` at antenna 0, with and without the tests. -/
theorem steers (o : Options) (h : (served free).maySteer duplex 0 o ⟨1, some 2400, 0, 0, false, .unpinned⟩)
    (h0 : ¬ (served free).maySteer duplex 0 o ⟨0, none, 0, 0, false, .serving⟩) :
    (served free).SteersTo duplex 0 free.hearing 0xFF o 1 := by
  refine .inr ⟨rfl, ⟨1, some 2400, 0, 0, false, .unpinned⟩, 2400, ⟨by decide, h, rfl, ?_⟩, rfl⟩
  simp only [free, List.mem_cons, List.not_mem_nil, or_false, forall_eq_or_imp, forall_eq]
  exact ⟨fun w hp => absurd hp h0, fun w _ hw => .inr ⟨by cases hw; rfl, Nat.le_refl _⟩⟩

/-- `SteerStartsTransfer`: targets. A named antenna; one that is barred and not heard, under NO_CHECKS; the best for 0xFF with and
without NO_CHECKS; and none for 0xFF, where the one entry is in its backoff. -/
theorem test_witness_steersTo : (served free).SteersTo duplex 0 free.hearing 1 noOptions 1 ∧
    (((served track).setBarred 1 true).SteersTo duplex 0 track.hearing 1 unchecked 1) ∧
    (served free).SteersTo duplex 0 free.hearing 0xFF noOptions 1 ∧ (served free).SteersTo duplex 0 free.hearing 0xFF unchecked 1 ∧
    ∀ x ∈ track.hearing, ¬ (served track).maySteer duplex 0 noOptions x :=
  ⟨.inl ⟨by decide, by decide, by decide +kernel, by decide +kernel, .inr ⟨by decide +kernel, by decide +kernel, by decide +kernel⟩⟩,
    .inl ⟨by decide, by decide, by decide +kernel, by decide +kernel, .inl rfl⟩,
    steers _ (by decide +kernel) (by decide +kernel), steers _ (by decide +kernel) (by decide +kernel), by decide +kernel⟩

/-- The headset SERVED at antenna 0, beside the crowd of TALK holders at antenna 1. -/
def besieged : State :=
  let s := talking.setAtt 0x00A3F1 (.served .talk ⟨0, .slot 0⟩ free)
  (s.setSlot 0 0 (.held 0x00A3F1)).claimed 0

/-- No slot of the crowd is FREE or can be re-seated. -/
theorem besieged_taken : besieged.slotsTaken 1 := slotsTaken_of (by decide +kernel)

/-- The part with every context but those from a number on in use. -/
def busyTo (n : Nat) (s : State) : State :=
  { s with contexts := Vector.ofFn (fun c : ContextNo =>
      if c.val < n then some ⟨0x000101, 0, none, 1, .slot 9, .auto, noOptions, .prepare, 9⟩ else none) }

/-- `SteerStartsTransfer`: BUSY; no free context, and 23 as the lowest one; nothing to be had without pre-emption, and none for a
DEMOTED headset. -/
theorem test_witness_steerUnmet :
    (∃ tr, (moving .prepare 5).rec? 0x00A3F1 = some ⟨0, duplex, .transfer .talk 0 tr⟩) ∧
    (∀ c : ContextNo, (busyTo 24 (served free)).ctx c ≠ none) ∧ (busyTo 23 (served free)).ctx 23 = none ∧
    (∀ d : ContextNo, d < 23 → (busyTo 23 (served free)).ctx d ≠ none) ∧
    ({ besieged with tuning := { besieged.tuning with preempt := false } } : State).targetUnmet 1 joiner .talk false ∧
    (besieged.setAtt 0x00A3F1 (.served .demoted ⟨0, .carrier 0⟩ free)).targetUnmet 1 joiner .demoted true :=
  ⟨⟨⟨some 1, 3, [⟨0, some 1600, 0, 0, false, .serving⟩, ⟨1, some 2400, 0, 0, false, .target⟩]⟩, by decide +kernel⟩,
    by decide +kernel, by decide +kernel, by decide +kernel, ⟨(fun h => nomatch h), besieged_taken, .inl rfl⟩,
    show ∀ i : SlotNo, _ ≠ SlotState.free from besieged_taken.1⟩

/-- `SteerStartsTransfer`: the starts. A FREE slot; a CLOSED venue that the class wakes; a carrier place for a LISTEN headset, whose
target has no entry yet; a FREE slot for a DEMOTED one; and the pre-emption of slot 6. -/
theorem test_witness_starts :
    (∃ t, (served free).Starts duplex .talk ⟨0, .slot 0⟩ free 1 0 .steer noOptions true t ∧ (served free).roomTo t) ∧
    (∃ t, ((served free).setVenueState 0 .closed).Starts duplex .talk ⟨0, .slot 0⟩ free 1 0 .steer noOptions true t ∧
      ((served free).setVenueState 0 .closed).roomTo t) ∧
    (∃ t, (listening 1).Starts listener .listen ⟨0, .carrier 3⟩ (fresh 0) 1 0 .steer unchecked true t ∧ (listening 1).roomTo t) ∧
    (∃ t, demotedBehind.Starts (crew 1 2) .demoted ⟨0, .carrier 0⟩ (fresh 0) 1 0 .steer unchecked true t ∧ demotedBehind.roomTo t) ∧
    (∃ t, besieged.Starts joiner .talk ⟨0, .slot 0⟩ free 1 0 .steer noOptions true t ∧ besieged.roomTo t) ∧
    besieged.hostReady ∧ registryLawful besieged.registry := by
  have h : ∀ j : SlotNo, ∀ pf ∈ besieged.slotHolder 1 j .talk, pf.cls < joiner.cls →
      (crew 6 1).cls < pf.cls ∨ (crew 6 1).cls = pf.cls ∧ j ≤ 6 := by decide +kernel
  exact ⟨⟨_, ⟨_, _, _, _, .inl ⟨.inl (by decide +kernel), rfl⟩, ⟨_, .talk 0 _ rfl (.free 0 (by decide +kernel))⟩,
      .found _ (by decide +kernel), rfl⟩, by decide +kernel⟩,
    ⟨_, ⟨_, _, _, _, .inr ⟨by decide +kernel, by decide +kernel, rfl⟩, ⟨_, .talk 0 _ rfl (.free 0 (by decide +kernel))⟩,
      .found _ (by decide +kernel), rfl⟩, by decide +kernel⟩,
    ⟨_, ⟨_, _, _, _, .inl ⟨.inl (by decide +kernel), rfl⟩, ⟨_, .listen 0 _ rfl (.fresh 0 (by decide +kernel))⟩,
      .created _ _ (by decide +kernel) (.room _ (by decide)), rfl⟩, by decide +kernel⟩,
    ⟨_, ⟨_, _, _, _, .inl ⟨.inl (by decide +kernel), rfl⟩, ⟨0, by decide +kernel, rfl, rfl⟩,
      .created _ _ (by decide +kernel) (.room _ (by decide)), rfl⟩, by decide +kernel⟩,
    ⟨_, ⟨_, _, _, _, .inl ⟨.inl (by decide +kernel), rfl⟩, ⟨_, .talk 6 _ rfl (.demote 6 0 (crew 6 1).ident 7 (crew 6 1) ⟨1, .slot 6⟩
      (fresh 1) _ besieged_taken rfl (by decide +kernel)
      (fun j p hv => by
        obtain ⟨⟨g, q, held, tr, h1, h2, _⟩, h3, _⟩ := hv
        exact h j p (State.slotHolder_eq h1 h2) h3)
      (by decide) (by decide +kernel) (by decide +kernel) (by decide +kernel) (.fresh 0 (by decide +kernel)))⟩,
      .found _ (by decide +kernel), rfl⟩, by decide +kernel⟩, by decide +kernel, by unfold registryLawful; decide +kernel⟩
/-! ### HEAR -/

/-- A record of which no tap takes any leaves the taps as they were. -/
theorem captures_none {s : State} {r : TapRecord} (h : ∀ n : TapNo, ¬ (s.tap n).takes r) : s.Captures r s :=
  .next 0 _ _ s _ (.passes (h 0)) (.next 1 _ _ s _ (.passes (h 1)) (.next 2 _ _ s _ (.passes (h 2))
    (.next 3 _ _ s _ (.passes (h 3)) (.done s))))

theorem takes_running {t : Tap} {r : TapRecord} (h : t.takes r) : t.running = true := by
  cases r <;> exact h.1

theorem captures_off {s : State} {r : TapRecord} (h : ∀ n : TapNo, (s.tap n).running = false) : s.Captures r s :=
  captures_none (fun n hn => by simpa [h n] using takes_running hn)

/-- A record that tap 3 alone may take. -/
theorem captures_last {s t : State} {r : TapRecord} (h : ∀ n : TapNo, n < 3 → (s.tap n).running = false)
    (ht : s.TapTakes r 3 t) : s.Captures r t :=
  have no (n : TapNo) (hn : n < 3) : ¬ (s.tap n).takes r := fun hr => by simpa [h n hn] using takes_running hr
  .next 0 _ _ s _ (.passes (no 0 (by decide))) (.next 1 _ _ s _ (.passes (no 1 (by decide)))
    (.next 2 _ _ s _ (.passes (no 2 (by decide))) (.next 3 _ _ t _ ht (.done t))))

/-- `HearStepsAverage` and `RoundCountsTrigger`: reports at the levels 250, 251 and 255, at 64 and 65 errors, and where the errors
outweigh the level. -/
theorem test_witness_reports : reportGives 250 0 250 false ∧ reportGives 251 1 0 true ∧ reportGives 255 3 241 true ∧
    reportGives 200 64 8 false ∧ reportGives 200 65 8 true ∧ reportGives 191 64 0 true :=
  ⟨⟨250, 0, by decide⟩, ⟨0, 1, by decide⟩, ⟨250, 3, by decide⟩, ⟨200, 64, by decide⟩, ⟨200, 64, by decide⟩, ⟨191, 64, by decide⟩⟩

/-- A full hearing list, whose tail is pinned TARGET. -/
def crowded : List HearEntry :=
  [⟨0, none, 0, 0, false, .serving⟩, ⟨2, some 160, 0, 0, false, .unpinned⟩, ⟨3, some 160, 0, 0, false, .unpinned⟩,
    ⟨4, some 160, 0, 0, false, .unpinned⟩, ⟨5, some 160, 0, 0, false, .unpinned⟩, ⟨47, some 160, 0, 0, false, .target⟩]

/-- The hearing list after a HEAR of level 250 from antenna 1. -/
def louder : List HearEntry := [⟨1, some 2600, 0, 1, false, .unpinned⟩, ⟨0, none, 0, 0, false, .serving⟩]

/-- A report that seeds, steps, enters at an average of 4000, and replaces the entry of antenna 5. -/
theorem test_witness_hearsInto : (∃ l, HearsInto 3 0 100 false track.hearing 1600 l) ∧
    HearsInto 3 1 250 false track.hearing 2600 louder ∧ (∃ l, HearsInto 3 1 250 false (fresh 0).hearing 4000 l) ∧
    HearsInto 3 1 0 true crowded 0 [⟨1, some 0, 0, 0, true, .unpinned⟩, ⟨0, none, 0, 0, false, .serving⟩,
      ⟨2, some 160, 0, 0, false, .unpinned⟩, ⟨3, some 160, 0, 0, false, .unpinned⟩, ⟨4, some 160, 0, 0, false, .unpinned⟩,
      ⟨47, some 160, 0, 0, false, .target⟩] :=
  ⟨⟨_, .seeds [] _ ⟨0, none, 0, 0, false, .serving⟩ rfl (by decide) rfl⟩,
    .steps [⟨0, none, 0, 0, false, .serving⟩] [] ⟨1, some 2400, 0, 1, false, .unpinned⟩ 2400 2600 rfl (by decide) rfl (by decide),
    ⟨_, .enters _ _ (by decide) (.room _ (by decide))⟩,
    .enters _ _ (by decide) (.replaces [⟨0, none, 0, 0, false, .serving⟩, ⟨2, some 160, 0, 0, false, .unpinned⟩,
      ⟨3, some 160, 0, 0, false, .unpinned⟩, ⟨4, some 160, 0, 0, false, .unpinned⟩] [⟨47, some 160, 0, 0, false, .target⟩]
      ⟨5, some 160, 0, 0, false, .unpinned⟩ (by decide) rfl (by decide))⟩

/-- A tap takes a MEASURE record of antenna 1. -/
theorem takes_measure {t : Tap} (h : t.running = true ∧ t.kind = .measure ∧ (t.selector = 0 ∨ t.selector = 2)) {g : Identity}
    {q v : Nat} {clip : Bool} : t.takes (.measure 1 g q v clip) := h

/-- The state before the record of that HEAR is offered to the taps. -/
def updated (s : State) : State := s.setRec ⟨0, duplex, .served .talk ⟨0, .slot 0⟩ { track with hearing := louder }⟩

/-- `HearStepsAverage`: the headset SERVED at another antenna, and in TRANSFER; no tap that takes the record, and one that adds it,
ends a block with it, stops with it, and skips it. -/
theorem test_witness_heard : (served track).cellReady ∧ (served track).servesCells 1 1 0x00A3F1 ∧
    registryLawful (served track).registry ∧ (served track).rec? 0x00A3F1 = some ⟨0, duplex, .served .talk ⟨0, .slot 0⟩ track⟩ ∧
    (updated (served track)).Captures (.measure 1 0x00A3F1 250 2600 false) (updated (served track)) ∧
    (moving .ordered 9).rec? 0x00A3F1 = some ⟨0, duplex, .transfer .talk 0 ⟨some 1, 3, [⟨0, some 1600, 0, 0, false, .serving⟩,
      ⟨1, some 2400, 0, 0, false, .target⟩]⟩⟩ ∧
    (∃ t, (updated (tapped 15 2)).Captures (.measure 1 0x00A3F1 250 2600 false) t) ∧
    (∃ t, (updated (tapped 15 1)).Captures (.measure 1 0x00A3F1 250 2600 false) t) ∧
    (∃ t, ((updated (tapped 15 1)).setTap 3 { (tapped 15 1).tap 3 with circular := false }).Captures
      (.measure 1 0x00A3F1 250 2600 false) t) ∧
    (∃ t, (updated (tapped 16 2)).Captures (.measure 1 0x00A3F1 250 2600 false) t) ∧ (tapped 16 2).cellReady :=
  ⟨by decide +kernel, by decide +kernel, lawful_one duplex rfl _, by decide +kernel, captures_off (by decide +kernel),
    by decide +kernel, ⟨_, captures_last (by decide +kernel) (.adds (takes_measure (by decide +kernel)) (by decide +kernel)
      (by decide +kernel))⟩,
    ⟨_, captures_last (by decide +kernel) (.block (takes_measure (by decide +kernel)) (by decide +kernel) rfl rfl)⟩,
    ⟨_, captures_last (by decide +kernel) (.last (takes_measure (by decide +kernel)) (by decide +kernel) rfl rfl)⟩,
    ⟨_, captures_last (by decide +kernel) (.gap (takes_measure (by decide +kernel)) (by decide +kernel))⟩, by decide +kernel⟩

/-! ### Rounds -/

/-- The hypotheses of `RoundCountsTrigger` on the part before its clauses, for the headset on slot 0 of antenna 0. -/
def rounds (s m : State) (level : Byte) (pr : Profile) (tr : Track) (v : Nat) (l : List HearEntry) : Prop :=
  s.cellReady ∧ s.servesCells 0 0 0x00A3F1 ∧ registryLawful s.registry ∧ s.tuning.lawful ∧
    s.rec? 0x00A3F1 = some ⟨0, pr, .served .talk ⟨0, .slot 0⟩ tr⟩ ∧ reportGives level 0 level.toNat false ∧
    HearsInto s.tuning.avgShift 0 level.toNat false tr.hearing v l ∧
    (s.setRec ⟨0, { pr with sticky := pr.sticky || false }, .served .talk ⟨0, .slot 0⟩ { tr with hearing := l }⟩).Captures
      (.measure 0 0x00A3F1 level.toNat v false) m

/-- The state after the update of a HEAR from antenna 0, before its ROUND record. -/
def aged (s : State) (pr : Profile) (c : Option AntennaNo) (n : Nat) (l : List HearEntry) : State :=
  s.setRec ⟨0, pr, .served .talk ⟨0, .slot 0⟩ ⟨c, n, l⟩⟩

/-- Of two entries, the first of the serving antenna, the second is the best that may be a candidate. -/
theorem best_second {s : State} {p : Profile} {x y : HearEntry} {v : Nat} (hx : x.ant = 0) (hy : s.mayBeCandidate p 0 y)
    (hv : y.avg = some v) : s.bestEntry p (s.mayBeCandidate p 0) [x, y] y v := by
  refine ⟨by simp, hy, hv, fun z hz w hp hw => ?_⟩
  simp only [List.mem_cons, List.not_mem_nil, or_false] at hz
  rcases hz with rfl | rfl
  · exact absurd hx hp.1
  · rw [hv] at hw; cases hw; exact .inr ⟨rfl, Nat.le_refl _⟩

/-- A track that hears antennas 0 and 1, with a candidate, a count, and the age of the entry of antenna 1. -/
def counting (c : Option AntennaNo) (n age : Nat) : Track :=
  ⟨c, n, [⟨0, none, 0, 0, false, .serving⟩, ⟨1, some 2400, age, 1, false, .unpinned⟩]⟩

/-- The hearing list after the update of a round, with an average of antenna 0. -/
def settledList (v : Nat) : List HearEntry :=
  [⟨0, some v, 0, 0, false, .serving⟩, ⟨1, some 2400, 1, 0, false, .unpinned⟩]

/-- The update of a round from the first entry of a list, unmeasured, where no tap runs. -/
theorem rounds_off {s : State} {level : Byte} {pr : Profile} {tr : Track} (y : HearEntry) (hs : s.cellReady ∧
    s.servesCells 0 0 0x00A3F1 ∧ s.rec? 0x00A3F1 = some ⟨0, pr, .served .talk ⟨0, .slot 0⟩ tr⟩ ∧
    (∀ n : TapNo, (s.tap n).running = false) ∧ level.toNat ≤ 250 ∧
    tr.hearing = [⟨0, none, 0, 0, false, .serving⟩, y]) (ht : s.tuning.lawful) (hr : registryLawful s.registry) :
    ∃ m, rounds s m level pr tr (16 * level.toNat) [⟨0, some (16 * level.toNat), 0, 0, false, .serving⟩, y] ∧
      m = aged s { pr with sticky := pr.sticky || false } tr.candidate tr.count
        [⟨0, some (16 * level.toNat), 0, 0, false, .serving⟩, y] := by
  obtain ⟨h1, h2, h3, h4, h5, h6⟩ := hs
  refine ⟨_, ⟨h1, h2, hr, ht, h3, ⟨level.toNat, 0, .inl ⟨h5, rfl⟩, rfl, rfl, ?_⟩, ?_, captures_off h4⟩, rfl⟩
  · simp; omega
  · rw [h6]; exact .seeds [] [y] ⟨0, none, 0, 0, false, .serving⟩ rfl (by simp) rfl

/-- The list of `rounds_off` for the tracks below. -/
def heardList (v age : Nat) : List HearEntry :=
  [⟨0, some v, 0, 0, false, .serving⟩, ⟨1, some 2400, age, 1, false, .unpinned⟩]

/-- The part after a round has settled its candidate and its count. -/
def ready (s : State) (c : Option AntennaNo) (n v : Nat) : State := aged s duplex c n (settledList v)

/-- `RoundCountsTrigger`: an entry of age 4 leaves at the limit of 4 and no entry is eligible; at age 0 it stays, is the candidate,
and the count becomes 1, which calls for no start. -/
theorem test_witness_roundStays :
    (∃ m t, rounds (served (counting (some 1) 2 4)) m 100 duplex (counting (some 1) 2 4) 1600 (heardList 1600 4) ∧
      agedList (served (counting (some 1) 2 4)).tuning.staleLimit (heardList 1600 4) = [⟨0, some 1600, 0, 0, false, .serving⟩] ∧
      (m.setRec ⟨0, duplex, .served .talk ⟨0, .slot 0⟩ ⟨none, 0, [⟨0, some 1600, 0, 0, false, .serving⟩]⟩⟩).Captures
        (.round 0 0x00A3F1 1760 none 0 0 .noCandidate) t) ∧
    (∃ m t, rounds (served track) m 100 duplex track 1600 (heardList 1600 0) ∧
      agedList (served track).tuning.staleLimit (heardList 1600 0) = settledList 1600 ∧
      (served track).bestEntry duplex ((served track).mayBeCandidate duplex 0) (settledList 1600)
        ⟨1, some 2400, 1, 0, false, .unpinned⟩ 2400 ∧
      (served track).scoreOf duplex 0 1600 + 16 * (8 + 0) ≤ (served track).scoreOf duplex 1 2400 ∧
      ¬ (1600 < 16 * (served track).tuning.floor) ∧ ((served track).ven 0).state ≠ .draining ∧ 1 ≠ (served track).tuning.persist ∧
      (ready m (some 1) 1 1600).Captures (.round 0 0x00A3F1 1760 (some 1) 2560 1 .stay) t) := by
  obtain ⟨m, hm, rfl⟩ := rounds_off (s := served (counting (some 1) 2 4)) (level := 100) (tr := counting (some 1) 2 4) (pr := duplex)
    ⟨1, some 2400, 4, 1, false, .unpinned⟩ (by decide +kernel) (by unfold Tuning.lawful; decide +kernel) (lawful_one duplex rfl _)
  obtain ⟨m', hm', rfl⟩ := rounds_off (s := served track) (level := 100) (tr := track) (pr := duplex)
    ⟨1, some 2400, 0, 1, false, .unpinned⟩ (by decide +kernel) (by unfold Tuning.lawful; decide +kernel) (lawful_one duplex rfl _)
  exact ⟨⟨_, _, hm, by decide +kernel, captures_off (by decide +kernel)⟩, _, _, hm', by decide +kernel,
    best_second rfl (by decide +kernel) rfl, by decide +kernel, by decide +kernel, by decide +kernel, by decide +kernel,
    captures_off (by decide +kernel)⟩

/-- `RoundCountsTrigger`: the starts by the count, at 2 before it, by the rescue test, at level 39, and by the drain test; and no free
context. -/
theorem test_witness_roundStarts :
    (∃ m u t, rounds (served (counting (some 1) 2 0)) m 100 duplex (counting (some 1) 2 0) 1600 (heardList 1600 0) ∧
      min (served track).tuning.persist (2 + 1) = (served track).tuning.persist ∧
      (ready m (some 1) 3 1600).Starts duplex .talk ⟨0, .slot 0⟩ ⟨some 1, 3, settledList 1600⟩ 1 0 .auto noOptions true u ∧
      u.Captures (.round 0 0x00A3F1 1760 (some 1) 2560 3 .auto) t ∧ (served track).roomTo t) ∧
    (∃ m u t, rounds (served track) m 39 duplex track 624 (heardList 624 0) ∧
      624 < 16 * (served track).tuning.floor ∧ 16 * (served track).tuning.floor ≤ 2400 ∧
      (ready m (some 1) 1 624).Starts duplex .talk ⟨0, .slot 0⟩ ⟨some 1, 1, settledList 624⟩ 1 0 .rescue noOptions true u ∧
      u.Captures (.round 0 0x00A3F1 784 (some 1) 2560 1 .rescue) t ∧ (served track).roomTo t) ∧
    (∃ m u t, rounds drained m 100 duplex track 1600 (heardList 1600 0) ∧ (drained.ven 0).state = .draining ∧
      drained.bestEntry duplex (drained.mayBeCandidate duplex 0) (settledList 1600) ⟨1, some 2400, 1, 0, false, .unpinned⟩ 2400 ∧
      (ready m (some 1) 1 1600).Starts duplex .talk ⟨0, .slot 0⟩ ⟨some 1, 1, settledList 1600⟩ 1 0 .drain noOptions true u ∧
      u.Captures (.round 0 0x00A3F1 1760 (some 1) 2400 1 .drain) t ∧ drained.roomTo t) ∧
    (∃ m t, rounds (busyTo 24 (served track)) m 39 duplex track 624 (heardList 624 0) ∧
      (ready m (some 1) 1 624).Captures (.round 0 0x00A3F1 784 (some 1) 2560 1 .noContext) t) := by
  obtain ⟨m1, h1, rfl⟩ := rounds_off (s := served (counting (some 1) 2 0)) (level := 100) (tr := counting (some 1) 2 0) (pr := duplex)
    ⟨1, some 2400, 0, 1, false, .unpinned⟩ (by decide +kernel) (by unfold Tuning.lawful; decide +kernel) (lawful_one duplex rfl _)
  obtain ⟨m2, h2, rfl⟩ := rounds_off (s := served track) (level := 39) (tr := track) (pr := duplex)
    ⟨1, some 2400, 0, 1, false, .unpinned⟩ (by decide +kernel) (by unfold Tuning.lawful; decide +kernel) (lawful_one duplex rfl _)
  obtain ⟨m3, h3, rfl⟩ := rounds_off (s := drained) (level := 100) (tr := track) (pr := duplex)
    ⟨1, some 2400, 0, 1, false, .unpinned⟩ (by decide +kernel) (by unfold Tuning.lawful; decide +kernel) (lawful_one duplex rfl _)
  obtain ⟨m4, h4, rfl⟩ := rounds_off (s := busyTo 24 (served track)) (level := 39) (tr := track) (pr := duplex)
    ⟨1, some 2400, 0, 1, false, .unpinned⟩ (by decide +kernel) (by unfold Tuning.lawful; decide +kernel) (lawful_one duplex rfl _)
  exact ⟨⟨_, _, _, h1, by decide +kernel, ⟨_, _, _, _, .inl ⟨.inl (by decide +kernel), rfl⟩,
      ⟨_, .talk 0 _ rfl (.free 0 (by decide +kernel))⟩, .found _ (by decide +kernel), rfl⟩, captures_off (by decide +kernel),
      by decide +kernel⟩,
    ⟨_, _, _, h2, by decide +kernel, by decide +kernel, ⟨_, _, _, _, .inl ⟨.inl (by decide +kernel), rfl⟩,
      ⟨_, .talk 0 _ rfl (.free 0 (by decide +kernel))⟩, .found _ (by decide +kernel), rfl⟩, captures_off (by decide +kernel),
      by decide +kernel⟩,
    ⟨_, _, _, h3, by decide +kernel, best_second rfl (by decide +kernel) rfl, ⟨_, _, _, _, .inl ⟨.inr (by decide +kernel), rfl⟩,
      ⟨_, .talk 0 _ rfl (.free 0 (by decide +kernel))⟩, .found _ (by decide +kernel), rfl⟩, captures_off (by decide +kernel),
      by decide +kernel⟩,
    _, _, h4, captures_off (by decide +kernel)⟩

/-- `RoundCountsTrigger`: a start blocked for want of a slot, and a ROUND record that a tap takes as its last. -/
theorem test_witness_roundBlocked :
    (∃ m t, rounds { besieged with tuning := { besieged.tuning with preempt := false } } m 39 joiner free 624
        [⟨0, some 624, 0, 0, false, .serving⟩, ⟨1, some 2400, 0, 0, false, .unpinned⟩] ∧
      (aged m joiner (some 1) 1 (settledList 624)).targetUnmet 1 joiner .talk false ∧
      (aged m joiner (some 1) 1 (settledList 624)).Captures (.round 0 0x00A3F1 784 (some 1) 2240 1 .noResource) t) ∧
    ∃ t, ((ready (served track) (some 1) 1 1600).setTap 3 ⟨true, .round, 1, 1, 1, false, 0, [], false⟩).Captures
      (.round 0 0x00A3F1 1760 (some 1) 2560 1 .stay) t := by
  obtain ⟨m, hm, rfl⟩ := rounds_off (s := { besieged with tuning := { besieged.tuning with preempt := false } }) (level := 39)
    (tr := free) (pr := joiner) ⟨1, some 2400, 0, 0, false, .unpinned⟩ (by decide +kernel) (by unfold Tuning.lawful; decide +kernel)
    (by unfold registryLawful; decide +kernel)
  refine ⟨⟨_, _, hm, ⟨(fun h => nomatch h), ?_, .inl rfl⟩, captures_off (by decide +kernel)⟩, _,
    captures_last (by decide +kernel) (.last (show _ ∧ _ ∧ _ from by decide +kernel) (by decide +kernel) rfl rfl)⟩
  exact slotsTaken_of (by decide +kernel)
/-! ### Transfers and endings -/

/-- `ReadyOrdersMove`, `NoroomReturns`, `LandedCompletes` and the t_prep clause of `TransferTimersExpire` (their ends:
`test_witness_returns`, `test_witness_landed`). -/
theorem test_witness_prepare : (moving .prepare 0).cellReady ∧ (moving .prepare 0).servesCells 1 1 0x00A3F1 ∧
    (moving .prepare 0).rec? 0x00A3F1 = some ⟨0, duplex, .transfer .talk 0 ⟨some 1, 3,
      [⟨0, some 1600, 0, 0, false, .serving⟩, ⟨1, some 2400, 0, 0, false, .target⟩]⟩⟩ ∧
    (moving .prepare 0).ctx 0 = some ⟨0x00A3F1, 0, some (.slot 0), 1, .slot 9, .auto, noOptions, .prepare, 0⟩ ∧
    (moving .prepare 0).roomFor 1 := by decide +kernel

/-- `ReadyOrdersMove` under BREAK_FIRST, with a source slot; and `DropsSource` for a DEMOTED headset. -/
theorem test_witness_breakFirst : breaking.cellReady ∧ breaking.servesCells 1 1 0x00A3F1 ∧
    breaking.ctx 0 = some ⟨0x00A3F1, 0, some (.slot 0), 1, .slot 9, .steer, ⟨true, false, false⟩, .prepare, 9⟩ ∧
    (∃ t, ((breaking.sends [.goto 0 0x00A3F1 1 (.slot 9), .free 0 0x00A3F1]).setCtx 0
        (some ⟨0x00A3F1, 0, some (.slot 0), 1, .slot 9, .steer, ⟨true, false, false⟩, .ordered, 400⟩)).DropsSource duplex .talk 0
        ⟨0x00A3F1, 0, some (.slot 0), 1, .slot 9, .steer, ⟨true, false, false⟩, .ordered, 400⟩ ⟨some 1, 3,
          [⟨0, some 1600, 0, 0, false, .serving⟩, ⟨1, some 2400, 0, 0, false, .target⟩]⟩ (.slot 0) t ∧ breaking.roomTo t) ∧
    ∃ t, demotedMover.DropsSource duplex .demoted 0 ⟨0x00A3F1, 0, some (.carrier 3), 1, .slot 9, .auto, noOptions, .ordered, 9⟩ free
      (.carrier 3) t ∧ demotedMover.roomTo t ∧ demotedMover.cellReady ∧ demotedMover.servesCells 0 0 0x00A3F1 :=
  ⟨by decide +kernel, by decide +kernel, by decide +kernel,
    ⟨_, ⟨_, State.releasesSlot_of_wait_nil 0 (by decide +kernel), rfl⟩, by decide +kernel⟩,
    ⟨_, ⟨_, ⟨_, .leaves [] [] 1 0 (by decide +kernel) (by simp) (.inl ⟨rfl, by decide, rfl⟩), rfl⟩, rfl⟩, by decide +kernel⟩⟩

/-- `ReadyOrdersMove` and `LandedCompletes`: a unit that has nothing of the headset, with and without a record. -/
theorem test_witness_strange : (served track).strange 1 0x00A3F1 ∧ (running []).strange 1 0x00A3F1 ∧
    (∀ r, (served track).rec? 0x00A3F1 = some r → ∀ n, r.att ≠ .orphan n) ∧ (served track).roomFor 1 := by
  have h : (served track).rec? 0x00A3F1 = some ⟨0, duplex, .served .talk ⟨0, .slot 0⟩ track⟩ := by decide +kernel
  refine ⟨fun r hr => ?_, strange_of_none (by decide +kernel), fun r hr => ?_, by decide +kernel⟩ <;> rw [h] at hr <;> cases hr
  · exact ⟨fun _ _ _ e => by cases e; decide, fun _ _ _ e => by cases e⟩
  · exact fun _ e => by cases e

/-- `LandedCompletes`: a slot, and the source slot released; no source; a carrier place, and the source place released. -/
theorem test_witness_landed :
    (∃ u, (((moving .prepare 0).setSlot 1 9 (.held 0x00A3F1)).sends [.free 0 0x00A3F1]).Releases duplex .talk 0 (.slot 0) u ∧
      (moving .prepare 0).roomTo u) ∧
    homeless.cellReady ∧ homeless.servesCells 1 1 0x00A3F1 ∧
    homeless.ctx 0 = some ⟨0x00A3F1, 0, none, 1, .slot 9, .steer, ⟨true, false, false⟩, .ordered, 9⟩ ∧
    landing.cellReady ∧ landing.servesCells 1 1 0x00A3F1 ∧
    landing.rec? 0x00A3F1 = some ⟨0, listener, .transfer .listen 0 free⟩ ∧
    landing.ctx 0 = some ⟨0x00A3F1, 0, some (.carrier 3), 1, .carrier 2, .auto, noOptions, .prepare, 9⟩ ∧
    landing.carrier 1 2 = [] ++ ⟨listener.monitor, 0, 0 + 1⟩ :: [⟨5, 1, 0⟩] ∧
    (∃ u, ((landing.setCarrier 1 2 [⟨0, 1, 0⟩, ⟨5, 1, 0⟩]).sends [.free 0 0x00A3F1]).Releases listener .listen 0 (.carrier 3) u ∧
      landing.roomTo u) :=
  ⟨⟨_, State.releasesSlot_of_wait_nil 0 (by decide +kernel), by decide +kernel⟩, by decide +kernel, by decide +kernel,
    by decide +kernel, by decide +kernel, by decide +kernel, by decide +kernel, by decide +kernel, by decide +kernel,
    ⟨_, .leaves [] [] 1 0 (by decide +kernel) (by simp) (.inl ⟨rfl, by decide, rfl⟩), by decide +kernel⟩⟩

/-- `TransferTimersExpire` and `NoroomReturns`: a carrier place reserved at the target, and given back; a DEMOTED headset, whose
antenna then has no FREE slot to offer; and an expiry with the source absent. -/
theorem test_witness_returns :
    (∃ t, landing.Returns listener .listen 0 ⟨0x00A3F1, 0, some (.carrier 3), 1, .carrier 2, .auto, noOptions, .prepare, 9⟩ free
      (.carrier 3) .refused t ∧ landing.roomTo t) ∧
    (∃ t, (landing.sends [.free 1 0x00A3F1]).Returns listener .listen 0
      ⟨0x00A3F1, 0, some (.carrier 3), 1, .carrier 2, .auto, noOptions, .prepare, 0⟩ free (.carrier 3) .noAnswer t ∧
      landing.roomTo t) ∧
    (∃ t, ((moving .ordered 0).sends [.free 1 0x00A3F1]).Returns duplex .talk 0
      ⟨0x00A3F1, 0, some (.slot 0), 1, .slot 9, .auto, noOptions, .ordered, 0⟩ free (.slot 0) .noLanding t ∧
      (moving .ordered 0).roomTo t) ∧
    (∃ t, ((demotedMover.setAnt 0 { demotedMover.ant 0 with slots := Vector.replicate 10 (.held 0x000101) }).sends
      [.free 1 0x00A3F1]).Returns duplex .demoted 0
      ⟨0x00A3F1, 0, some (.carrier 3), 1, .slot 9, .auto, noOptions, .ordered, 0⟩ free (.carrier 3) .noLanding t ∧
      demotedMover.roomTo t) ∧
    (∃ t, (homeless.sends [.free 1 0x00A3F1]).FailsOrphan duplex .talk 0
      ⟨0x00A3F1, 0, none, 1, .slot 9, .steer, ⟨true, false, false⟩, .ordered, 0⟩ .noLanding t ∧ homeless.roomTo t) :=
  ⟨⟨_, ⟨_, ⟨_, .leaves [] [⟨5, 1, 0⟩] 0 1 (by decide +kernel) (by decide) (.inr ⟨rfl, rfl, by decide⟩), rfl⟩,
      .inl ⟨by decide, rfl⟩⟩, by decide +kernel⟩,
    ⟨_, ⟨_, ⟨_, .leaves [] [⟨5, 1, 0⟩] 0 1 (by decide +kernel) (by decide) (.inr ⟨rfl, rfl, by decide⟩), rfl⟩,
      .inl ⟨by decide, rfl⟩⟩, by decide +kernel⟩,
    ⟨_, ⟨_, ⟨_, State.releasesSlot_of_wait_nil 9 (by decide +kernel), rfl⟩, .inl ⟨by decide, rfl⟩⟩, by decide +kernel⟩,
    ⟨_, ⟨_, ⟨_, State.releasesSlot_of_wait_nil 9 (by decide +kernel), rfl⟩, .inr ⟨rfl, .inl ⟨by decide +kernel, rfl⟩⟩⟩,
      by decide +kernel⟩,
    ⟨_, ⟨_, _, _, State.releasesSlot_of_wait_nil 9 (by decide +kernel), rfl, rfl, rfl⟩, by decide +kernel⟩⟩

/-- `NoroomReturns`: no context in PREPARE toward the antenna, of a SERVED headset and of one in ORDERED. -/
theorem test_witness_noroomDiscarded : ∀ s ∈ [served track, moving .ordered 5], ∀ r, s.rec? 0x00A3F1 = some r →
    ∀ svc c tr, r.att = .transfer svc c tr → ∀ x, s.ctx c = some x → x.targetAnt ≠ 1 ∨ x.phase = .ordered := by
  simp only [List.mem_cons, List.not_mem_nil, or_false, forall_eq_or_imp, forall_eq]
  have h1 : (served track).rec? 0x00A3F1 = some ⟨0, duplex, .served .talk ⟨0, .slot 0⟩ track⟩ := by decide +kernel
  have h2 : (moving .ordered 5).rec? 0x00A3F1 = some ⟨0, duplex, .transfer .talk 0 ⟨some 1, 3,
    [⟨0, some 1600, 0, 0, false, .serving⟩, ⟨1, some 2400, 0, 0, false, .target⟩]⟩⟩ := by decide +kernel
  have h3 : ((moving .ordered 5).ctx 0).map (·.phase) = some .ordered := by decide +kernel
  refine ⟨fun r hr svc c tr he => ?_, fun r hr svc c tr he x hx => .inr ?_⟩
  · rw [h1] at hr; cases hr; cases he
  · rw [h2] at hr; cases hr; cases he
    simpa [hx] using h3

/-- `DuplicateReadyIsDiscarded` and the t_move clause of `TransferTimersExpire`. -/
theorem test_witness_ordered : (moving .ordered 0).cellReady ∧ (moving .ordered 0).servesCells 1 1 0x00A3F1 ∧
    (moving .ordered 0).ctx 0 = some ⟨0x00A3F1, 0, some (.slot 0), 1, .slot 9, .auto, noOptions, .ordered, 0⟩ ∧
    (moving .ordered 0).roomFor 1 := by decide +kernel

/-- `GoneOrphansAndQuitDetaches`: the releases of `test_witness_releasesSlot` and `test_witness_releasesPlace` and the abortions of
`test_witness_aborts`; a WAITING headset whose QUIT comes from another antenna; ORPHAN and IDLE headsets; no record. -/
theorem test_witness_quit : (served track).cellReady ∧ (served track).servesCells 0 0 0x00A3F1 ∧
    (served track).servesCells 1 1 0x00A3F1 ∧ (served track).rec? 0x00A3F1 = some ⟨0, duplex, .served .talk ⟨0, .slot 0⟩ track⟩ ∧
    (waiting 5).cellReady ∧ (waiting 5).servesCells 0 0 0x00A3F1 ∧ (waiting 5).rec? 0x00A3F1 = some ⟨0, duplex, .waiting 1 5⟩ ∧
    (waiting 5).roomTo ((waiting 5).entryEnded 1 0x00A3F1) ∧ (one duplex (.orphan 5)).cellReady ∧
    (one duplex (.orphan 5)).rec? 0x00A3F1 = some ⟨0, duplex, .orphan 5⟩ ∧
    (one duplex .idle).rec? 0x00A3F1 = some ⟨0, duplex, .idle⟩ ∧ (running []).rec? 0x00A3F1 = none := by decide +kernel

/-- The track of the DEMOTED headset after its return. -/
def returned : Track := ⟨none, 0, [⟨0, none, 0, 0, false, .serving⟩, ⟨1, some 2400, 0, 5, false, .unpinned⟩]⟩

/-- `GoneOrphansAndQuitDetaches`: a GONE of the source in PREPARE; of the target without a source; and of the target of a DEMOTED
headset, whose entry then takes the lowest FREE slot. (A GONE of the source in ORDERED: `test_witness_breakFirst`.) -/
theorem test_witness_goneMoving :
    (∃ t, ((moving .prepare 5).sends [.free 1 0x00A3F1]).FailsOrphan duplex .talk 0
      ⟨0x00A3F1, 0, some (.slot 0), 1, .slot 9, .auto, noOptions, .prepare, 5⟩ .sourceLost t ∧ (moving .prepare 5).roomTo t) ∧
    (∃ t, homeless.FailsOrphan duplex .talk 0 ⟨0x00A3F1, 0, none, 1, .slot 9, .steer, ⟨true, false, false⟩, .ordered, 9⟩
      .targetLost t ∧ homeless.roomTo t) ∧
    (∃ t, demotedMover.Returns duplex .demoted 0 ⟨0x00A3F1, 0, some (.carrier 3), 1, .slot 9, .auto, noOptions, .ordered, 9⟩ free
      (.carrier 3) .targetLost t ∧ demotedMover.roomTo t ∧ t.slot 0 0 = .held 0x00A3F1) ∧ demotedMover.servesCells 1 1 0x00A3F1 := by
  refine ⟨⟨_, ⟨_, _, _, State.releasesSlot_of_wait_nil 9 (by decide +kernel), State.releasesSlot_of_wait_nil 0 (by decide +kernel),
      rfl, rfl⟩, by decide +kernel⟩,
    ⟨_, ⟨_, _, _, State.releasesSlot_of_wait_nil 9 (by decide +kernel), rfl, rfl, rfl⟩, by decide +kernel⟩,
    ⟨_, ⟨_, ⟨_, State.releasesSlot_of_wait_nil 9 (by decide +kernel), rfl⟩, .inr ⟨rfl, .inr ⟨0, by decide +kernel,
      .promote [] [] 0x00A3F1 1 0 duplex .demoted 0 3 returned _ ⟨by decide +kernel,
        not_passesOver (by decide +kernel), by simp, [3, 2], [0], by decide +kernel, ?_⟩ (by decide +kernel)
        (.leaves [] [] 1 0 (by decide +kernel) (by simp) (.inl ⟨rfl, by decide, rfl⟩))⟩⟩⟩, by decide +kernel⟩, by decide +kernel⟩
  exact fun x hx hc => absurd hc ((show ∀ x ∈ _, x.cls ∉ ([3, 2] : List ClassNo) from by decide +kernel) x hx)

/-- `UpMakesOnline` and `DownMakesOffline`: antennas ONLINE and OFFLINE in both modes, and in RUN one where nothing is held. -/
theorem test_witness_link : (setup []).cellReady ∧ ((setup []).ant 0).present = true ∧ ((setup []).ant 0).online = true ∧
    ((setup []).setOnline 0 false).cellReady ∧ (((setup []).setOnline 0 false).ant 0).online = false ∧
    ((running []).setOnline 0 false).roomFor 1 ∧ (((running []).setOnline 0 false).ant 0).present = true ∧
    (∀ c : ContextNo, (running []).ctx c = none) ∧ ((running []).ant 0).wait = [] ∧ (running []).cellReady := by
  decide +kernel

/-! ### DOWN -/

/-- The part after the first step of a DOWN. -/
def darkened (s : State) (a : AntennaNo) : State :=
  (s.setAnt a { s.ant a with online := false }).notify (.unitState a false)

/-- The last three parts of a DOWN, after its contexts. -/
def fallsTo (a : AntennaNo) (d u : State) (late : List AntennaNo) (t : State) : Prop :=
  ∃ w, Through (fun h s t => s.DownsHolder a h t) (d.registry.map (·.profile.ident)) u w ∧
    Through (fun b s t => s.OffersLowest b t) late (((w.ant a).wait.map (·.headset)).foldl (State.entryDowned a) w) t ∧ d.roomTo t

/-- The hypotheses of `DownMakesOffline` in RUN, met together. -/
def downs (s : State) (a : AntennaNo) (late : List AntennaNo) (t : State) : Prop :=
  s.cellReady ∧ (s.ant a).present = true ∧ (s.ant a).online = true ∧ s.mode = .run ∧ ∃ u,
    Through (DownsContext a) (List.finRange 24) (darkened s a, []) (u, late) ∧ fallsTo a (darkened s a) u late t

/-- Contexts none of which is in use stay as they are. -/
theorem downs_free {a : AntennaNo} {s : State} {late : List AntennaNo} (l : List ContextNo) (h : ∀ c ∈ l, s.ctx c = none) :
    Through (DownsContext a) l (s, late) (s, late) := by
  induction l with
  | nil => exact .done _
  | cons c l ih => exact .next c l _ (s, late) _ (.free s late (h c (by simp))) (ih (fun d hd => h d (by simp [hd])))

/-- Context 0 alone is in use. -/
theorem downs_first {a : AntennaNo} {s u : State} {late : List AntennaNo} (h : DownsContext a 0 (s, []) (u, late))
    (hu : ∀ c : ContextNo, c ≠ 0 → u.ctx c = none) : Through (DownsContext a) (List.finRange 24) (s, []) (u, late) := by
  have e : List.finRange 24 = 0 :: (List.finRange 24).tail := by decide +kernel
  rw [e]
  exact .next 0 _ _ (u, late) _ h (downs_free _ (fun c hc => hu c (by revert c; decide +kernel)))

/-- A headset that is not SERVED at the antenna stays as it is. -/
theorem kept {a : AntennaNo} {s : State} {h : Identity}
    (hk : ((s.rec? h).all fun r => match r.att with | .served _ held _ => held.ant != a | _ => true) = true) :
    s.DownsHolder a h s := by
  refine .kept (fun x hx svc held tr hs => ?_)
  simpa [hx, hs] using hk

/-- `DownMakesOffline` without contexts: nothing; a WAITING headset; a slot holder and a DEMOTED one with its entry, in registry
order; and the last claim of a DRAINING venue, which closes. -/
theorem test_witness_downed : (∃ t, downs (running []) 0 [] t) ∧
    (∃ t, downs (waiting 5) 1 [] t ∧ t.rec? 0x00A3F1 = some ⟨0, duplex, .idle⟩) ∧
    (∃ t, downs demotedBehind 0 [] t ∧ (t.ant 0).wait = []) ∧ (∃ t, downs drained 0 [] t ∧ (t.ven 0).state = .closed) := by
  refine ⟨⟨_, by decide +kernel, by decide +kernel, by decide +kernel, by decide +kernel, _, downs_free _ (by decide +kernel), _,
      .done _, .done _, by decide +kernel⟩,
    ⟨_, ⟨by decide +kernel, by decide +kernel, by decide +kernel, by decide +kernel, _, downs_free _ (by decide +kernel), _,
      .next _ _ _ _ _ (kept (by decide +kernel)) (.done _), .done _, by decide +kernel⟩, by decide +kernel⟩,
    ⟨_, ⟨by decide +kernel, by decide +kernel, by decide +kernel, by decide +kernel, _, downs_free _ (by decide +kernel), _,
      .next _ _ _ _ _ (.lost 0 duplex .talk (.slot 0) track _ (by decide +kernel)
        (State.releasesSlot_of_offline 0 (by decide +kernel))) (.next _ _ _ _ _ (.lost 1 (crew 1 2) .demoted (.carrier 0) (fresh 0) _
        (by decide +kernel) ⟨_, .leaves [] [] 1 0 (by decide +kernel) (by simp) (.inl ⟨rfl, by decide, rfl⟩), rfl⟩) (.done _)),
      .done _, by decide +kernel⟩, by decide +kernel⟩,
    ⟨_, ⟨by decide +kernel, by decide +kernel, by decide +kernel, by decide +kernel, _, downs_free _ (by decide +kernel), _,
      .next _ _ _ _ _ (.lost 0 duplex .talk (.slot 0) track _ (by decide +kernel)
        (State.releasesSlot_of_wait_nil 0 (by decide +kernel))) (.done _), .done _, by decide +kernel⟩, by decide +kernel⟩⟩

/-- `DownMakesOffline` at the source of a context: in PREPARE, in ORDERED, and with the source gone. -/
theorem test_witness_downSource : (∃ t, downs (moving .prepare 5) 0 [] t ∧ t.rec? 0x00A3F1 = some ⟨0, duplex, .orphan 30000⟩) ∧
    (∃ t, downs (moving .ordered 5) 0 [] t ∧ (t.ctx 0).map (·.source) = some none) ∧ (∃ t, downs homeless 0 [] t) := by
  refine ⟨⟨_, ⟨by decide +kernel, by decide +kernel, by decide +kernel, by decide +kernel, _,
      downs_first (.sourceLost _ _ _ 0 duplex .talk ⟨some 1, 3, [⟨0, some 1600, 0, 0, false, .serving⟩,
        ⟨1, some 2400, 0, 0, false, .target⟩]⟩ ⟨0x00A3F1, 0, some (.slot 0), 1, .slot 9, .auto, noOptions, .prepare, 5⟩
        (by decide +kernel) (by decide +kernel) rfl (by decide) rfl ⟨_, _, _, State.releasesSlot_of_wait_nil 9 (by decide +kernel),
          State.releasesSlot_of_wait_nil 0 (by decide +kernel), rfl, rfl⟩) (by decide +kernel), _,
      .next _ _ _ _ _ (kept (by decide +kernel)) (.done _), .done _, by decide +kernel⟩, by decide +kernel⟩,
    ⟨_, ⟨by decide +kernel, by decide +kernel, by decide +kernel, by decide +kernel, _,
      downs_first (.sourceLeft _ _ _ 0 duplex .talk ⟨some 1, 3, [⟨0, some 1600, 0, 0, false, .serving⟩,
        ⟨1, some 2400, 0, 0, false, .target⟩]⟩ ⟨0x00A3F1, 0, some (.slot 0), 1, .slot 9, .auto, noOptions, .ordered, 5⟩ (.slot 0)
        (by decide +kernel) (by decide +kernel) rfl rfl rfl ⟨_, State.releasesSlot_of_wait_nil 0 (by decide +kernel), rfl⟩)
        (by decide +kernel), _, .next _ _ _ _ _ (kept (by decide +kernel)) (.done _), .done _, by decide +kernel⟩,
      by decide +kernel⟩,
    ⟨_, by decide +kernel, by decide +kernel, by decide +kernel, by decide +kernel, _,
      downs_first (.elsewhere _ _ 0 duplex .talk ⟨some 1, 3, [⟨0, some 1600, 0, 0, false, .serving⟩,
        ⟨1, some 2400, 0, 0, false, .target⟩]⟩ ⟨0x00A3F1, 0, none, 1, .slot 9, .steer, ⟨true, false, false⟩, .ordered, 9⟩
        (by decide +kernel) (by decide +kernel) (by decide) (.inr rfl)) (by decide +kernel), _,
      .next _ _ _ _ _ (kept (by decide +kernel)) (.done _), .done _, by decide +kernel⟩⟩

/-- `DownMakesOffline` at the target of a context: a carrier place; the source gone; and a DEMOTED headset, whose return offers the
lowest FREE slot of its antenna last. -/
theorem test_witness_downTarget : (∃ t, downs landing 1 [] t ∧ t.carrier 1 2 = [⟨5, 1, 0⟩]) ∧
    (∃ t, downs homeless 1 [] t ∧ t.rec? 0x00A3F1 = some ⟨0, duplex, .orphan 30000⟩) ∧
    (∃ t, downs demotedMover 1 [0] t ∧ t.slot 0 0 = .held 0x00A3F1) := by
  refine ⟨⟨_, ⟨by decide +kernel, by decide +kernel, by decide +kernel, by decide +kernel, _,
      downs_first (.returned _ _ _ 0 listener .listen free
        ⟨0x00A3F1, 0, some (.carrier 3), 1, .carrier 2, .auto, noOptions, .prepare, 9⟩ (.carrier 3)
        (by decide +kernel) (by decide +kernel) rfl (by decide) rfl ⟨_, .leaves [] [⟨5, 1, 0⟩] 0 1 (by decide +kernel) (by decide)
          (.inr ⟨rfl, rfl, by decide⟩), rfl⟩) (by decide +kernel), _,
      .next _ _ _ _ _ (kept (by decide +kernel)) (.done _), .done _, by decide +kernel⟩, by decide +kernel⟩,
    ⟨_, ⟨by decide +kernel, by decide +kernel, by decide +kernel, by decide +kernel, _,
      downs_first (.orphaned _ _ _ 0 duplex .talk ⟨some 1, 3, [⟨0, some 1600, 0, 0, false, .serving⟩,
        ⟨1, some 2400, 0, 0, false, .target⟩]⟩ ⟨0x00A3F1, 0, none, 1, .slot 9, .steer, ⟨true, false, false⟩, .ordered, 9⟩
        (by decide +kernel) (by decide +kernel) rfl (by decide) rfl ⟨_, _, _, State.releasesSlot_of_wait_nil 9 (by decide +kernel),
          rfl, rfl, rfl⟩) (by decide +kernel), _,
      .next _ _ _ _ _ (kept (by decide +kernel)) (.done _), .done _, by decide +kernel⟩, by decide +kernel⟩,
    ⟨_, ⟨by decide +kernel, by decide +kernel, by decide +kernel, by decide +kernel, _,
      downs_first (.returned _ _ _ 0 duplex .demoted free
        ⟨0x00A3F1, 0, some (.carrier 3), 1, .slot 9, .auto, noOptions, .ordered, 9⟩ (.carrier 3)
        (by decide +kernel) (by decide +kernel) rfl (by decide) rfl ⟨_, State.releasesSlot_of_wait_nil 9 (by decide +kernel), rfl⟩)
        (by decide +kernel), _, .next _ _ _ _ _ (kept (by decide +kernel)) (.done _),
      .next _ _ _ _ _ (.inr ⟨0, by decide +kernel, .promote [] [] 0x00A3F1 1 0 duplex .demoted 0 3 returned _
        ⟨by decide +kernel, not_passesOver (by decide +kernel), by simp, [3, 2], [0], by decide +kernel, ?_⟩ (by decide +kernel)
        (.leaves [] [] 1 0 (by decide +kernel) (by simp) (.inl ⟨rfl, by decide, rfl⟩))⟩) (.done _), by decide +kernel⟩,
      by decide +kernel⟩⟩
  exact fun x hx hc => absurd hc ((show ∀ x ∈ _, x.cls ∉ ([3, 2] : List ClassNo) from by decide +kernel) x hx)
/-- `WaitAndHoldExpire`: timers at 0 and 1. -/
theorem test_witness_timers : (waiting 0).rec? 0x00A3F1 = some ⟨0, duplex, .waiting 1 0⟩ ∧
    ((waiting 0).ven ((waiting 0).ant 1).venue).state ≠ .draining ∧ (waiting 0).roomFor 1 ∧
    (waiting 0).resetPin = false ∧ (waiting 0).waiting = [] ∧
    (one duplex (.orphan 0)).rec? 0x00A3F1 = some ⟨0, duplex, .orphan 0⟩ ∧
    (waiting 1).rec? 0x00A3F1 = some ⟨0, duplex, .waiting 1 (0 + 1)⟩ ∧
    (one duplex (.orphan 1)).rec? 0x00A3F1 = some ⟨0, duplex, .orphan (0 + 1)⟩ := by decide +kernel

end Sys2Proof.Tests
end

section
/-! PROOF. The headset records: the detach by EVICT and QUIT, the orphaning by GONE, and the JOIN in each state (chapter 1). An
event is followed to the state in which it ends (`Ev.To`, Laws/Reach.lean); its taking at an idle port then gives the command. -/

namespace Sys2Proof.Machine

variable {s t u w : State} {e : Ev} {a : AntennaNo} {h : Identity} {due : List AntennaNo}

/-! ## The commands -/

theorem exec_evict (tag : Byte) : exec (.evict tag h) s = .next (s.presentRequest tag (.evict h)) := rfl
theorem exec_join (b : Byte) : exec (.join b h) s = .next (s.presentCell (unitCell .join b h)) := rfl
theorem exec_landed (b : Byte) : exec (.landed b h) s = .next (s.presentCell (unitCell .landed b h)) := rfl
theorem exec_quit (b : Byte) : exec (.quit b h) s = .next (s.presentCell (unitCell .quit b h)) := rfl
theorem exec_gone (b : Byte) : exec (.gone b h) s = .next (s.presentCell (unitCell .gone b h)) := rfl

/-- A cell at an idle head port whose event ends without a cell needs no room. -/
theorem State.presentCell_silent {c : RawCell} {k : UnitKind} (hk : k.isLink = false) (hs : s.cellReady)
    (hj : s.judge c = some (k, a)) (ht : (Ev.cellEvent c k a (Ev.start s)).To [] t)
    (hn : (Ev.cellEvent c k a (Ev.start s)).cells = []) : s.presentCell c = t :=
  have hf := ((Ev.Frame.refl (Ev.start s)).cellEvent c k a hk).1
  State.presentCell_of_head s c k hs hj rfl hf.head hf.waiting ht.finish
    (.inl (by rw [Ev.finish_of_late_nil _ ht.late]; exact hn))

/-- What an event leaves of an antenna's configuration in the state that it reaches. -/
theorem Ev.Frame.to_ant (hf : (Ev.start s).Frame e) (he : e.To due t) (a : AntennaNo) :
    (t.ant a).present = (s.ant a).present ∧ (t.ant a).venue = (s.ant a).venue ∧ (t.ant a).online = (s.ant a).online ∧
      (t.ant a).barred = (s.ant a).barred := by
  rw [← he.ant]
  exact hf.1.antBack a

theorem Ev.Frame.to_registryLawful (hf : (Ev.start s).Frame e) (he : e.To due t) (hl : registryLawful s.registry) :
    registryLawful t.registry := by
  rw [← he.whole]
  exact hf.1.registryLawful hl

/-! ## Detach and orphaning -/

/-- The detach that ends a QUIT or an EVICT (R16, R17, R20). -/
theorem Ev.To.detachWith (he : e.To due s) (p : Profile) (cause : DetachCause) (lost : Option AntennaNo) :
    (e.detachWith p cause lost).To due (((s.setAtt p.ident .idle).notify (.detached p.ident cause)).lostAt p lost) :=
  ((he.detach _).notify _).lostRoute p lost

/-- The detach after the end of a transfer by QUIT or EVICT (R17, R20). -/
theorem Ev.To.abortDetach (he : e.To due s) {m : Moving} {from? : Option AntennaNo} (cause : DetachCause)
    (hu : s.Aborts m.profile m.service m.ctx m.context from? u) :
    ((e.abortTransfer m from?).detachWith m.profile cause (m.source.map (·.ant))).To due
      (((u.setAtt m.profile.ident .idle).notify (.detached m.profile.ident cause)).lostAt m.profile
        (m.context.source.map (fun _ => m.context.sourceAnt))) := by
  rw [Moving.source_ant]
  exact (he.abortTransfer hu).detachWith _ _ _

/-- The release and the orphaning by a GONE from the antenna of the held resource (R18). -/
theorem Ev.To.orphanHolder (he : e.To due s) {p : Profile} {svc : Service} {held : Resource} (g : Identity) (cause : OrphanCause)
    (hu : s.Releases p svc held.ant held.place u) :
    (((e.releaseHeld p svc held).orphan g held.ant cause).route p held.ant none).To due
      (State.routed ((u.setAtt g (.orphan (1000 * s.tuning.tHold))).notify (.orphaned g held.ant cause)) p held.ant none) := by
  have hr := he.releaseHeld hu
  have hk : u.tuning = s.tuning := (((Ev.Frame.refl e).releaseHeld p svc held).to_tuning hr).trans he.tuning
  rw [← hk]
  exact (hr.orphan g held.ant cause).route p held.ant none

/-! ## EVICT -/

/-- An EVICT of a headset that is not IDLE carries out the actions of its state and reports that state (R19, R20). -/
theorem Ev.carryOut_evict {r : HeadsetRecord} (hm : s.mode = .run) (h0 : h ≠ 0x000000) (h1 : h ≠ 0xFFFFFF)
    (hr : s.rec? h = some r) (hi : r.att.isIdle = false) :
    (Ev.start s).carryOut (.evict h) = ((Ev.start s).evictActions r, ⟨.ok, 0, [r.att.code]⟩) := by
  have ha : accepts (Ev.start s).st.mode (.evict h) = true := by simp [accepts, Ev.start, hm]
  have hd : (Ev.start s).doEvict h = ((Ev.start s).evictActions r).ok [r.att.code] := by
    simp [Ev.doEvict, identityOk_of_ne h0 h1, hr, hi]
  rw [Ev.carryOut, if_pos ha]
  exact hd

/-- An EVICT at an idle control port, whose actions have no cells or room for them. -/
theorem exec_evict_eq (tag : Byte) {r : HeadsetRecord} (hs : s.hostReady) (hm : s.mode = .run) (h0 : h ≠ 0x000000)
    (h1 : h ≠ 0xFFFFFF) (hr : s.rec? h = some r) (hi : r.att.isIdle = false) (ht : ((Ev.start s).evictActions r).To [] t)
    (hn : ((Ev.start s).evictActions r).cells = [] ∨ s.roomTo t) :
    exec (.evict tag h) s = .next (t.replied 0x21 tag .ok 0 [r.att.code]) := by
  rw [exec_evict, State.presentRequest_to s tag (.evict h) _ hs rfl (Ev.carryOut_evict hm h0 h1 hr hi) ht
    (Ev.frame_evictActions _ r) hn]
  rfl

section
variable {q : Position} {p : Profile} {svc : Service} {tr : Track}

theorem Ev.To.evictServed (he : e.To due s) {held : Resource}
    (hu : (s.sends [.free held.ant p.ident]).Releases p svc held.ant held.place u) :
    (e.evictActions ⟨q, p, .served svc held tr⟩).To due
      (State.routed ((u.setAtt p.ident .idle).notify (.detached p.ident .evict)) p held.ant none) :=
  ((he.emit _).releaseHeld hu).detachWith p .evict (some held.ant)

theorem Ev.To.evictMoving (he : e.To due s) {c : ContextNo} {x : Context}
    (hr : s.rec? p.ident = some ⟨q, p, .transfer svc c tr⟩) (hx : s.ctx c = some x) (hu : s.Aborts p svc c x none u) :
    (e.evictActions ⟨q, p, .transfer svc c tr⟩).To due
      (State.lostAt ((u.setAtt p.ident .idle).notify (.detached p.ident .evict)) p (x.source.map (fun _ => x.sourceAnt))) := by
  unfold Ev.evictActions
  simp only [he.movingOf, State.movingOf_eq hr hx]
  exact he.abortDetach (m := ⟨p, svc, c, tr, x⟩) .evict hu

theorem Ev.To.evictWaiting (he : e.To due s) (b : AntennaNo) (n : Nat) :
    (e.evictActions ⟨q, p, .waiting b n⟩).To due
      (State.notify (((s.entryEnded b p.ident).sends [.refuse b p.ident .evicted]).setAtt p.ident .idle)
        (.detached p.ident .evict)) :=
  ((he.removeWait b p.ident).emit _).detachWith p .evict none

theorem Ev.To.evictOrphan (he : e.To due s) (n : Nat) :
    (e.evictActions ⟨q, p, .orphan n⟩).To due ((s.setAtt p.ident .idle).notify (.detached p.ident .evict)) :=
  he.detachWith p .evict none

end

/-! ## QUIT -/

section
variable {q : Position} {p : Profile} {svc : Service} {tr : Track}

/-- A QUIT of a SERVED headset, with FREE to its unit when the QUIT comes from another (R17). -/
theorem Ev.To.quitServed (he : e.To due s) {held : Resource} (hr : s.rec? h = some ⟨q, p, .served svc held tr⟩)
    (hu : (s.sends (if held.ant = a then [] else [.free held.ant h])).Releases p svc held.ant held.place u) :
    (e.quitTaken a h).To due (State.routed ((u.setAtt h .idle).notify (.detached h .quit)) p held.ant none) := by
  obtain rfl : p.ident = h := State.ident_of_rec hr
  have hc : (if held.ant = a then e else e.freeCell held.ant p.ident).To due
      (s.sends (if held.ant = a then [] else [.free held.ant p.ident])) := by
    split
    · rw [State.sends_nil]
      exact he
    · exact he.emit _
  unfold Ev.quitTaken
  simp only [he.recOf, hr]
  exact (hc.releaseHeld hu).detachWith p .quit (some held.ant)

theorem Ev.To.quitWaiting (he : e.To due s) {b : AntennaNo} {n : Nat} (hr : s.rec? h = some ⟨q, p, .waiting b n⟩) :
    (e.quitTaken a h).To due (State.notify ((s.entryEnded b h).setAtt h .idle) (.detached h .quit)) := by
  obtain rfl : p.ident = h := State.ident_of_rec hr
  unfold Ev.quitTaken
  simp only [he.recOf, hr]
  exact (he.removeWait b p.ident).detachWith p .quit none

theorem Ev.To.quitMoving (he : e.To due s) {c : ContextNo} {x : Context}
    (hr : s.rec? h = some ⟨q, p, .transfer svc c tr⟩) (hx : s.ctx c = some x) (hu : s.Aborts p svc c x (some a) u) :
    (e.quitTaken a h).To due
      (State.lostAt ((u.setAtt h .idle).notify (.detached h .quit)) p (x.source.map (fun _ => x.sourceAnt))) := by
  obtain rfl : p.ident = h := State.ident_of_rec hr
  unfold Ev.quitTaken
  simp only [he.recOf, he.movingOf, hr, State.movingOf_eq hr hx]
  exact he.abortDetach (m := ⟨p, svc, c, tr, x⟩) .quit hu

theorem Ev.quitTaken_orphan {n : Nat} (hr : e.st.rec? h = some ⟨q, p, .orphan n⟩) :
    e.quitTaken a h = e.detachWith p .quit none := by
  simp [Ev.quitTaken, hr]

theorem Ev.quitTaken_absent (hr : e.st.rec? h = none ∨ e.st.rec? h = some ⟨q, p, .idle⟩) : e.quitTaken a h = e := by
  rcases hr with hr | hr <;> simp [Ev.quitTaken, hr]

/-! ## GONE -/

theorem Ev.To.goneServed (he : e.To due s) {place : Place} (hr : s.rec? h = some ⟨q, p, .served svc ⟨a, place⟩ tr⟩)
    (hu : s.Releases p svc a place u) :
    (e.goneTaken a h).To due
      (State.routed ((u.setAtt h (.orphan (1000 * s.tuning.tHold))).notify (.orphaned h a .gone)) p a none) := by
  unfold Ev.goneTaken
  simp only [he.recOf, hr, if_true]
  exact he.orphanHolder (held := ⟨a, place⟩) h .gone hu

/-- A GONE of a headset in TRANSFER is acted on by its transfer (R131, R132, R134). -/
theorem Ev.To.goneTaken_moving (he : e.To due s) {c : ContextNo} {x : Context}
    (hr : s.rec? h = some ⟨q, p, .transfer svc c tr⟩) (hx : s.ctx c = some x) :
    e.goneTaken a h = e.goneMoving ⟨p, svc, c, tr, x⟩ a := by
  simp [Ev.goneTaken, he.recOf, he.movingOf, hr, State.movingOf_eq hr hx]

end

section
variable {m : Moving} {place : Place}

/-- A GONE from the source while it is present is the loss of the source (R131, R134). -/
theorem Ev.goneMoving_source (ha : m.context.sourceAnt = a) (hp : m.context.source = some place) :
    e.goneMoving m a = e.sourceLost m := by
  simp [Ev.goneMoving, ha, Moving.source_some hp]

/-- A GONE from the target gives the reservation up (R132). -/
theorem Ev.goneMoving_target (ht : m.context.targetAnt = a) (hn : m.context.sourceAnt ≠ a ∨ m.context.source = none) :
    e.goneMoving m a = e.giveUp m .targetLost := by
  have hc : ¬ (m.context.sourceAnt = a ∧ m.source.isSome = true) := by
    rintro ⟨ha, hp⟩
    rcases hn with hn | hn
    · exact hn ha
    · simp [Moving.source_none hn] at hp
  rw [Ev.goneMoving, if_neg hc, if_pos ht]

/-- The loss of the source in PREPARE: FREE to the target, then orphaning (R131). -/
theorem Ev.To.sourceLost_prepare (he : e.To due s) (hp : m.context.phase = .prepare)
    (hu : (s.sends [.free m.context.targetAnt m.profile.ident]).FailsOrphan m.profile m.service m.ctx m.context .sourceLost u) :
    (e.sourceLost m).To due u := by
  simp only [Ev.sourceLost, hp]
  exact (he.emit _).failOrphan hu

/-- The loss of the source in ORDERED: the transfer goes on without it (R134). -/
theorem Ev.To.sourceLost_ordered (he : e.To due s) (hp : m.context.phase = .ordered) (hs : m.context.source = some place)
    (hu : s.DropsSource m.profile m.service m.ctx m.context m.track place u) : (e.sourceLost m).To due u := by
  simp only [Ev.sourceLost, hp]
  exact he.dropSource hs hu

/-- The reservation given up: orphaning where the source is absent, else the return with its offer at the end of the event
(R132, R135). -/
theorem Ev.To.giveUp_finish (he : e.To [] s) {reason : FailReason}
    (hu : m.context.source = none ∧ s.FailsOrphan m.profile m.service m.ctx m.context reason u ∨
      ∃ place : Place, m.context.source = some place ∧
        s.Returns m.profile m.service m.ctx m.context m.track place reason u) :
    (e.giveUp m reason).finish.To [] u := by
  unfold Ev.giveUp
  rcases hu with ⟨hn, hf⟩ | ⟨place, hp, hr⟩
  · rw [Moving.source_none hn]
    exact (he.failOrphan hf).finish
  · rw [Moving.source_some hp]
    exact he.returnTo hr

end

/-! ### What the antenna holds (R147 item 8) -/

section
variable {q : Position} {p : Profile} {svc : Service} {tr : Track}

theorem State.holdsFor_served {place : Place} (hr : s.rec? h = some ⟨q, p, .served svc ⟨a, place⟩ tr⟩) :
    s.holdsFor a h = true := by
  simp [State.holdsFor, hr]

theorem State.holdsFor_moving {c : ContextNo} {x : Context} (hr : s.rec? h = some ⟨q, p, .transfer svc c tr⟩)
    (hx : s.ctx c = some x) (ha : x.sourceAnt = a ∧ x.source ≠ none ∨ x.targetAnt = a) : s.holdsFor a h = true := by
  have hm := State.movingOf_eq hr hx
  rcases ha with ⟨ha, hn⟩ | ha
  · simp [State.holdsFor, hr, hm, ha, Moving.source, Option.isSome_iff_ne_none, hn]
  · simp [State.holdsFor, hr, hm, ha]

end

/-! ## The cells at an idle port -/

section
variable {b : Byte}

theorem exec_join_eq (hs : s.cellReady) (hv : s.servesCells b a h) (ht : ((Ev.start s).joinTaken a h).finish.To [] t)
    (hr : s.roomTo t) : exec (.join b h) s = .next t := by
  rw [exec_join, State.presentCell_to s _ .join rfl hs (State.judge_unitCell s .join b a h (by simp) hv) ht hr]

theorem exec_landed_eq (hs : s.cellReady) (hv : s.servesCells b a h) (ht : ((Ev.start s).landedTaken a h).finish.To [] t)
    (hr : s.roomTo t) : exec (.landed b h) s = .next t := by
  rw [exec_landed, State.presentCell_to s _ .landed rfl hs (State.judge_unitCell s .landed b a h (by simp) hv) ht hr]

theorem exec_quit_eq (hs : s.cellReady) (hv : s.servesCells b a h) (ht : ((Ev.start s).quitTaken a h).To [] t)
    (hr : s.roomTo t) : exec (.quit b h) s = .next t := by
  rw [exec_quit, State.presentCell_to s _ .quit rfl hs (State.judge_unitCell s .quit b a h (by simp) hv) ht.finish hr]

theorem exec_gone_eq (hs : s.cellReady) (hv : s.servesCells b a h) (hh : s.holdsFor a h = true)
    (ht : ((Ev.start s).goneTaken a h).finish.To [] t) (hr : s.roomTo t) : exec (.gone b h) s = .next t := by
  rw [exec_gone, State.presentCell_to s _ .gone rfl hs (State.judge_gone s b a h hv hh) ht hr]

/-- A GONE of a headset in TRANSFER from its present source or from its target. -/
theorem exec_gone_moving {q : Position} {p : Profile} {svc : Service} {tr : Track} {c : ContextNo} {x : Context}
    (hs : s.cellReady) (hv : s.servesCells b a h) (hr : s.rec? h = some ⟨q, p, .transfer svc c tr⟩) (hx : s.ctx c = some x)
    (ha : x.sourceAnt = a ∧ x.source ≠ none ∨ x.targetAnt = a)
    (ht : ((Ev.start s).goneMoving ⟨p, svc, c, tr, x⟩ a).finish.To [] t) (hn : s.roomTo t) :
    exec (.gone b h) s = .next t := by
  rw [← (Ev.to_start s).goneTaken_moving hr hx] at ht
  exact exec_gone_eq hs hv (State.holdsFor_moving hr hx ha) ht hn

/-- A JOIN whose event produces no cell. -/
theorem exec_join_silent (hs : s.cellReady) (hv : s.servesCells b a h) (ht : ((Ev.start s).joinTaken a h).To [] t)
    (hn : ((Ev.start s).joinTaken a h).cells = []) : exec (.join b h) s = .next t := by
  rw [exec_join, State.presentCell_silent rfl hs (State.judge_unitCell s .join b a h (by simp) hv) ht hn]

/-- A QUIT whose event produces no cell. -/
theorem exec_quit_silent (hs : s.cellReady) (hv : s.servesCells b a h) (ht : ((Ev.start s).quitTaken a h).To [] t)
    (hn : ((Ev.start s).quitTaken a h).cells = []) : exec (.quit b h) s = .next t := by
  rw [exec_quit, State.presentCell_silent rfl hs (State.judge_unitCell s .quit b a h (by simp) hv) ht hn]

end

/-! ## JOIN -/

theorem Ev.joinTaken_unknown (hr : e.st.rec? h = none) : e.joinTaken a h = e.emit (.refuse a h .unknown) := by
  simp [Ev.joinTaken, hr]

theorem Ev.joinTaken_repeated {q : Position} {p : Profile} {n : Nat} (hr : e.st.rec? h = some ⟨q, p, .waiting a n⟩) :
    e.joinTaken a h = e := by
  simp [Ev.joinTaken, hr]

/-- A JOIN is a recovery from ORPHAN alone (R15). -/
theorem State.Joins.orphan_of_mark {p : Profile} {mark : Bool} {lost : Option AntennaNo} (hj : s.Joins a h p u mark lost)
    (hm : mark = true) : ∃ q n, s.rec? h = some ⟨q, p, .orphan n⟩ := by
  cases hj with
  | orphan q _ n hr => exact ⟨q, n, hr⟩
  | _ => contradiction

/-- A late LANDED of an ORPHAN headset is a JOIN (R138). -/
theorem Ev.landedTaken_orphan {q : Position} {p : Profile} {n : Nat} (hr : e.st.rec? h = some ⟨q, p, .orphan n⟩) :
    e.landedTaken a h = e.joinTaken a h := by
  simp [Ev.landedTaken, Ev.lateLanded, Ev.joinTaken, State.movingOf, hr]

/-- A JOIN whose admission, begun in the state that the headset's own state asks for, ends with room for its cells; a LANDED is
such a JOIN where the JOIN is a recovery (R11 to R15, R138). -/
theorem State.Joins.exec_eq {b : Byte} {p : Profile} {mark : Bool} {lost : Option AntennaNo} (hj : s.Joins a h p u mark lost)
    (hs : s.cellReady) (hv : s.servesCells b a h) (hr : s.roomTo t)
    (ht : ∀ e : Ev, p.ident = h → e.To [] u → (Ev.start s).Frame e → (e.admitJoin p a mark lost).To [] t) :
    exec (.join b h) s = .next t ∧ (mark = true → exec (.landed b h) s = .next t) := by
  obtain ⟨hi, e, he, hto, hf⟩ := Ev.to_joins hj
  have hend : ((Ev.start s).joinTaken a h).finish.To [] t := by
    rw [he]
    exact (ht e hi hto hf).finish
  refine ⟨exec_join_eq hs hv hend hr, fun hm => ?_⟩
  obtain ⟨q, n, ho⟩ := hj.orphan_of_mark hm
  refine exec_landed_eq hs hv ?_ hr
  rw [Ev.landedTaken_orphan ho]
  exact hend

/-- The venue check passed by an event begun on `s`: what admission then starts from (R45, R116). -/
theorem Ev.Frame.to_admitOpen {p : Profile} {mark : Bool} {lost : Option AntennaNo} (hf : (Ev.start s).Frame e) (he : e.To [] u)
    (hb : (s.ant a).barred = false) (hw : u.Enters (s.ant a).venue p.cls w) :
    ∃ e', e.admitJoin p a mark lost = e'.admitOpen p a mark lost ∧ e'.To [] w ∧ (Ev.start s).Frame e' ∧
      (w.ant a).venue = (s.ant a).venue := by
  obtain ⟨_, hven, _, hbar⟩ := hf.to_ant he a
  obtain ⟨e', h1, h2, h3⟩ := he.admitJoin (p := p) (mark := mark) (lost := lost) (hbar.trans hb) (by rw [hven]; exact hw)
  exact ⟨e', h1, h2, hf.trans h3, ((hf.trans h3).to_ant h2 a).2.1⟩

end Sys2Proof.Machine

open Sys2Proof Sys2Proof.Machine

/-- Settles O24: the actions of an EVICT by the headset's state. -/
theorem evictDetaches : Obligations.EvictDetaches := by
  unfold Obligations.EvictDetaches
  intro s tag h p pr hs hm h0 h1
  refine ⟨?_, ?_, ?_, ?_⟩
  · rintro svc a place tr u t hr hu rfl hn
    obtain rfl : pr.ident = h := State.ident_of_rec hr
    exact exec_evict_eq tag hs hm h0 h1 hr rfl ((Ev.to_start s).evictServed (held := ⟨a, place⟩) hu) (.inr hn)
  · rintro svc c tr x u t hr hx hu rfl hn
    obtain rfl : pr.ident = h := State.ident_of_rec hr
    exact exec_evict_eq tag hs hm h0 h1 hr rfl ((Ev.to_start s).evictMoving hr hx hu) (.inr hn)
  · rintro a n t hr rfl hn
    obtain rfl : pr.ident = h := State.ident_of_rec hr
    exact exec_evict_eq tag hs hm h0 h1 hr rfl ((Ev.to_start s).evictWaiting a n) (.inr hn)
  · intro n hr
    obtain rfl : pr.ident = h := State.ident_of_rec hr
    exact exec_evict_eq tag hs hm h0 h1 hr rfl ((Ev.to_start s).evictOrphan n) (.inl rfl)

/-- Settles O50: the JOIN follows its state, the venue check and the search to the grant. -/
theorem joinIsGranted : Obligations.JoinIsGranted := by
  unfold Obligations.JoinIsGranted
  rintro s u w x t b h a pr mark lost svc place hs hv hl hj hb hw hi hx rfl hn
  refine hj.exec_eq hs hv hn (fun e hid he hf => ?_)
  subst hid
  obtain ⟨e', h1, h2, hf', hven⟩ := hf.to_admitOpen he hb hw
  obtain ⟨hpres, _, honl, _⟩ := hf'.to_ant h2 a
  obtain ⟨_, _, hp, ho, _, _⟩ := hv
  rw [h1]
  exact h2.grantAdmission ⟨hpres.trans hp, honl.trans ho⟩ (hf'.to_registryLawful h2 hl) (by rw [hven]; exact hi) hx

/-- Settles O51: the JOIN without a record and the repeated one; the first check that fails; the wait. -/
theorem joinIsRefused : Obligations.JoinIsRefused := by
  unfold Obligations.JoinIsRefused
  intro s b h a hs hv
  refine ⟨?_, ?_, ?_⟩
  · intro ⟨ho, hn⟩ hr
    refine exec_join_eq hs hv ?_ ⟨ho, by simpa [State.sends] using hn⟩
    rw [Ev.joinTaken_unknown hr]
    exact ((Ev.to_start s).emit _).finish
  · intro p pr n hr
    have hsame : (Ev.start s).joinTaken a h = Ev.start s := Ev.joinTaken_repeated hr
    exact exec_join_silent hs hv (by rw [hsame]; exact Ev.to_start s) (by rw [hsame]; rfl)
  · rintro u w t pr mark lost _ hj rfl ht hn
    refine hj.exec_eq hs hv hn (fun e hid he hf => ?_)
    subst hid
    obtain ⟨_, hven, _, hbar⟩ := hf.to_ant he a
    rcases ht with ⟨cell, reason, hc, rfl⟩ | ⟨hb, hw, hi, hu, hlen, rfl⟩
    · rcases hc with ⟨hb, rfl, hc⟩ | ⟨hb, hst, rfl, hc⟩ | ⟨hb, hw, hi, hc⟩ | ⟨hb, hw, hi, hu, hlen, hc⟩
      · exact he.refuseEarly (.inl ⟨hbar.trans hb, hc⟩)
      · exact he.refuseEarly (.inr ⟨hbar.trans hb, by rw [hven]; exact hst, hc⟩)
      · obtain ⟨e', h1, h2, _, hven'⟩ := hf.to_admitOpen he hb hw
        rw [h1]
        exact h2.refuseOpen (.inl ⟨by rw [hven']; exact hi, hc⟩)
      · obtain ⟨e', h1, h2, _, hven'⟩ := hf.to_admitOpen he hb hw
        rw [h1]
        exact h2.refuseOpen (.inr ⟨by rw [hven']; exact hi, hu, hlen, hc⟩)
    · obtain ⟨e', h1, h2, hf', hven'⟩ := hf.to_admitOpen he hb hw
      have htun : w.tuning = s.tuning := hf'.to_tuning h2
      rw [h1, ← hven', ← htun]
      exact h2.waitAdmission (by rw [hven']; exact hi) hu hlen

/-- Settles O56: QUIT in each state, GONE in SERVED and TRANSFER. -/
theorem goneOrphansAndQuitDetaches : Obligations.GoneOrphansAndQuitDetaches := by
  unfold Obligations.GoneOrphansAndQuitDetaches
  intro s b h a p pr hs hv
  have h0 := Ev.to_start s
  refine ⟨?_, ?_, ?_, ?_, ?_, ?_⟩
  · rintro svc place tr u t hr hu rfl hn
    exact exec_gone_eq hs hv (State.holdsFor_served hr) (h0.goneServed hr hu).finish hn
  · rintro svc held tr u t hr hu rfl hn
    exact exec_quit_eq hs hv (h0.quitServed hr hu) hn
  · rintro w n t hr rfl hn
    exact exec_quit_eq hs hv (h0.quitWaiting hr) hn
  · intro n hr
    obtain rfl : pr.ident = h := State.ident_of_rec hr
    have hq : (Ev.start s).quitTaken a pr.ident = (Ev.start s).detachWith pr .quit none := Ev.quitTaken_orphan hr
    exact exec_quit_silent hs hv (by rw [hq]; exact h0.detachWith pr .quit none) (by rw [hq]; rfl)
  · intro hr
    have hq : (Ev.start s).quitTaken a h = Ev.start s := Ev.quitTaken_absent hr
    exact exec_quit_silent hs hv (by rw [hq]; exact h0) (by rw [hq]; rfl)
  · intro svc c tr x hr hx
    have hi : pr.ident = h := State.ident_of_rec hr
    refine ⟨?_, ?_, ?_, ?_⟩
    · rintro u t hu rfl hn
      exact exec_quit_eq hs hv (h0.quitMoving hr hx hu) hn
    · intro t ha hsrc hp hu hn
      obtain ⟨place, hpl⟩ := Option.ne_none_iff_exists'.mp hsrc
      refine exec_gone_moving hs hv hr hx (.inl ⟨ha, hsrc⟩) ?_ hn
      rw [Ev.goneMoving_source ha hpl]
      exact (h0.sourceLost_prepare hp (by rw [hi]; exact hu)).finish
    · intro place t ha hpl hp hu hn
      refine exec_gone_moving hs hv hr hx (.inl ⟨ha, by simp [hpl]⟩) ?_ hn
      rw [Ev.goneMoving_source ha hpl]
      exact (h0.sourceLost_ordered hp hpl hu).finish
    · intro t ha hsrc hu hn
      refine exec_gone_moving hs hv hr hx (.inr ha) ?_ hn
      rw [Ev.goneMoving_target ha hsrc]
      exact h0.giveUp_finish hu
end

section
/-! PROOF. The antennas' bars and links: BAR and UNBAR (R35), and the DOWN of an antenna (R33, R34). An event is followed to the
state in which it ends (`Ev.To`, Laws/Reach.lean); its taking at an idle port then gives the command. -/

namespace Sys2Proof.Machine

variable {s t u w : State} {e : Ev} {a : AntennaNo} {b : Byte} {due late : List AntennaNo}

/-! ## Requests at an idle control port -/

/-- A request at an idle control port, whose event leaves the head port and the waiting events alone, and has no cells or room for
them, leads to the state in which the event ends, with the reply. -/
theorem State.presentRequest_of_head (s : State) (tag : Byte) (r : Request) (d : Done) (hs : s.hostReady) (hq : isQuery r = false)
    (hd : (Ev.start s).carryOut r = (e, d)) (ht : e.To [] t) (hh : e.st.head = s.head) (hw : e.st.waiting = s.waiting)
    (hr : e.cells = [] ∨ s.roomTo t) :
    s.presentRequest tag r = t.replied (requestCode r) tag d.status d.offset d.result := by
  obtain ⟨st, cells, warm, offers⟩ := e
  obtain ⟨rfl, rfl, rfl⟩ := ht
  have ⟨_, _, _, _, hidle⟩ := hs
  have hst : st.head = s.head := hh
  have hn : cells = [] ∨ s.roomFor cells.length := by
    refine hr.imp_right (fun ⟨ho, hl⟩ => ⟨ho, ?_⟩)
    simpa [State.sends, hst] using hl
  exact State.presentRequest_eq s st tag r cells d hs hd (by simp [hq]) hst (hw.trans hidle) hn

/-- A request of RUN that ends well, at an idle control port. -/
theorem State.presentRequest_ok (tag : Byte) (r : Request) {result : List Byte} (hs : s.hostReady) (hm : s.mode = .run)
    (ha : accepts .run r = true) (hq : isQuery r = false) (hd : (Ev.start s).doRequest r = e.ok result) (ht : e.To [] t)
    (hh : e.st.head = s.head) (hw : e.st.waiting = s.waiting) (hr : e.cells = [] ∨ s.roomTo t) :
    s.presentRequest tag r = t.replied (requestCode r) tag .ok 0 result := by
  have hc : (Ev.start s).carryOut r = e.ok result := by
    rw [Ev.carryOut, if_pos (by simpa [Ev.start, hm] using ha)]
    exact hd
  exact State.presentRequest_of_head s tag r _ hs hq hc ht hh hw hr

/-- An operation for each element of a list follows the change that it makes to the state. -/
theorem Ev.To.foldl {α : Type} {f : Ev → α → Ev} {g : State → α → State}
    (hf : ∀ {e s} (x : α), e.To due s → (f e x).To due (g s x)) (he : e.To due s) (l : List α) : (l.foldl f e).To due (l.foldl g s) := by
  induction l generalizing e s with
  | nil => exact he
  | cons x l ih => exact ih (hf x he)

/-! ## BAR and UNBAR -/

/-- The WAIT_JOIN entries are those that are not of kind WAIT_PROMOTE (R107). -/
theorem State.waitJoins_eq (s : State) (a : AntennaNo) :
    s.waitJoins a = ((s.ant a).wait.filter (fun x => decide (x.kind ≠ .promote))).map (·.headset) := by
  unfold State.waitJoins
  congr 2
  funext x
  cases hk : x.kind <;> simp

/-- An entry removed with a denial whose reason has a REFUSE cell (R35, R43). -/
theorem Ev.To.refuseEntry {reason : DeniedReason} {cell : RefuseReason} (hc : reason.refuse = some cell) (he : e.To due s)
    (h : Identity) : (Ev.denyWait a reason e h).To due (State.entryRefused a cell reason s h) := by
  unfold Ev.denyWait
  simp only [hc]
  exact (((he.removeWait a h).emit (.refuse a h cell)).detach h).notify _

/-- The WAIT_JOIN entries of an antenna refused in list order (R35, R43). -/
theorem Ev.To.refuseJoins {reason : DeniedReason} {cell : RefuseReason} (hc : reason.refuse = some cell) (he : e.To due s) :
    (Ev.denyJoins reason e a).To due ((s.waitJoins a).foldl (State.entryRefused a cell reason) s) := by
  have hj : e.st.waitJoins a = s.waitJoins a := by unfold State.waitJoins; rw [he.ant]
  unfold Ev.denyJoins
  rw [hj]
  exact Ev.To.foldl (fun h he => he.refuseEntry hc h) he _

theorem Ev.doBar_barred (hb : b.toNat = a.val) (hp : (e.st.ant a).present = true) (hx : (e.st.ant a).barred = true) :
    e.doBar b = e.ok [1] := by
  simp [Ev.doBar, antennaOf_eq hb, hp, hx]

theorem Ev.doBar_clear (hb : b.toNat = a.val) (hp : (e.st.ant a).present = true) (hx : (e.st.ant a).barred = false) :
    e.doBar b = (Ev.denyJoins .barred (e.upd (·.setBarred a true)) a).ok [0] := by
  simp [Ev.doBar, antennaOf_eq hb, hp, hx]

theorem Ev.doUnbar_present (hb : b.toNat = a.val) (hp : (e.st.ant a).present = true) :
    e.doUnbar b = (e.upd (·.setBarred a false)).ok [flagByte (e.st.ant a).barred] := by
  simp [Ev.doUnbar, antennaOf_eq hb, hp]

/-- The barred flag set, and then the WAIT_JOIN entries refused (R35). -/
theorem Ev.To.barJoins (he : e.To due s) : (Ev.denyJoins .barred (e.upd (·.setBarred a true)) a).To due
    ((((s.ant a).wait.filter (fun x => decide (x.kind ≠ .promote))).map (·.headset)).foldl
      (State.entryRefused a .barred .barred) (s.setAnt a { s.ant a with barred := true })) := by
  have hf : (e.upd (·.setBarred a true)).To due (s.setBarred a true) := he.upd (fun _ => rfl)
  have hj := hf.refuseJoins (a := a) (reason := .barred) rfl
  have hw : ((s.setBarred a true).ant a).wait = (s.ant a).wait := by simp [State.setBarred]
  rw [State.waitJoins_eq, hw] at hj
  exact hj

/-! ## DOWN -/

theorem Ev.downTaken_offline (ho : (e.st.ant a).online = false) : e.downTaken a = e := by
  simp [Ev.downTaken, ho]

theorem Ev.downTaken_setup (ho : (e.st.ant a).online = true) (hm : e.st.mode = .setup) :
    e.downTaken a = (e.upd (·.setOnline a false)).notify (.unitState a false) := by
  unfold Ev.downTaken
  rw [if_pos ho]
  have hm' : ((e.upd (·.setOnline a false)).notify (.unitState a false)).st.mode = .setup := hm
  simp only [hm']

/-- In RUN the claims at the antenna end: its contexts, its holders in registry order, and what is left of its wait list
(R33). -/
theorem Ev.downTaken_run {c g : Ev} (ho : (e.st.ant a).online = true) (hm : e.st.mode = .run)
    (hc : allContexts.foldl (Ev.downContext a) ((e.upd (·.setOnline a false)).notify (.unitState a false)) = c)
    (hg : e.st.identities.foldl (Ev.downHolder a) c = g) :
    e.downTaken a = ((g.st.ant a).wait.map (·.headset)).foldl (Ev.denyWait a .offline) g := by
  have hf : ((e.upd (·.setOnline a false)).notify (.unitState a false)).Frame c := by
    rw [← hc]
    exact Ev.Frame.foldl (Ev.Frame.refl _) _ (fun e x h => h.trans (e.frame_downContext a x)) _
  have hi : c.st.identities = e.st.identities := hf.identities
  have hm' : ((e.upd (·.setOnline a false)).notify (.unitState a false)).st.mode = .run := hm
  unfold Ev.downTaken
  rw [if_pos ho]
  simp only [hm', hc, hi, hg]

/-- The antenna OFFLINE, with its notice (R33 steps 1 and 2). -/
theorem Ev.To.goOffline (he : e.To due s) (a : AntennaNo) :
    ((e.upd (·.setOnline a false)).notify (.unitState a false)).To due
      ((s.setAnt a { s.ant a with online := false }).notify (.unitState a false)) :=
  Ev.To.notify (s := s.setOnline a false) (he.upd (fun _ => rfl)) _

/-- A DOWN in RUN, followed through its contexts, its holders, the entries left and the offers of returns (R33). -/
theorem Ev.To.downTaken_run (he : e.To [] s) (ho : (s.ant a).online = true) (hm : s.mode = .run)
    (hu : Through (DownsContext a) (List.finRange 24)
      ((s.setAnt a { s.ant a with online := false }).notify (.unitState a false), []) (u, late))
    (hw : Through (fun h s t => s.DownsHolder a h t) (s.registry.map (·.profile.ident)) u w)
    (ht : Through (fun b s t => s.OffersLowest b t) late (((w.ant a).wait.map (·.headset)).foldl (State.entryDowned a) w) t) :
    (e.downTaken a).finish.To [] t := by
  have hi : e.st.identities = s.registry.map (·.profile.ident) := by rw [← he.whole]; rfl
  have hme : e.st.mode = .run := by rw [← hm, ← he.whole]; rfl
  have hcontexts := (he.goOffline a).downContexts (l := allContexts) hu
  have hholders := Ev.To.through (f := Ev.downHolder a) (fun h hu => h.downHolder hu) hcontexts hw
  have hentries := hholders.downEntries (a := a) ((w.ant a).wait.map (·.headset))
  rw [Ev.downTaken_run (by rw [he.ant]; exact ho) hme rfl rfl, hi, hholders.ant]
  exact hentries.finish_due ht

/-- A DOWN of a present antenna at an idle head port, whose event ends without a cell or with room for its cells. -/
theorem exec_down_eq (hs : s.cellReady) (hb : b.toNat = a.val) (hp : (s.ant a).present = true)
    (ht : ((Ev.start s).downTaken a).finish.To [] t) (hr : ((Ev.start s).downTaken a).finish.cells = [] ∨ s.roomTo t) :
    exec (.down b) s = .next t :=
  congrArg _ (State.presentCell_of_head s (unitCell .down b 0) .down hs (State.judge_link s .down b a 0 (.inr rfl) hb hp) rfl
    ((Ev.start s).head_downTaken a) ((Ev.start s).portsKept_downTaken a).waiting ht hr)

end Sys2Proof.Machine

open Sys2Proof Sys2Proof.Machine

/-- Settles O58: the DOWN without effect, in SETUP, and in RUN through the end of every claim. -/
theorem downMakesOffline : Obligations.DownMakesOffline := by
  unfold Obligations.DownMakesOffline
  rintro s d b a hs hb hp rfl
  have h0 := Ev.to_start s
  refine ⟨fun ho => ?_, fun ho hm => ?_, fun u w t late ho hm hu hw ht hr => ?_⟩
  · have he : (Ev.start s).downTaken a = Ev.start s := Ev.downTaken_offline ho
    exact exec_down_eq hs hb hp (by rw [he]; exact h0.finish) (.inl (by rw [he]; rfl))
  · have he := Ev.downTaken_setup (e := Ev.start s) ho hm
    exact exec_down_eq hs hb hp (by rw [he]; exact (h0.goOffline a).finish) (.inl (by rw [he]; rfl))
  · exact exec_down_eq hs hb hp (h0.downTaken_run ho hm hu hw ht) (.inr hr)

/-- Settles O30: the BAR that refuses, the BAR without effect, and the UNBAR. -/
theorem barAndUnbar : Obligations.BarAndUnbar := by
  unfold Obligations.BarAndUnbar
  intro s tag ab a hs hm hb hp
  have h0 := Ev.to_start s
  refine ⟨?_, fun hx => ?_, ?_⟩
  · rintro joins t hx rfl rfl hr
    have hf := Ev.frame_denyJoins ((Ev.start s).upd (·.setBarred a true)) .barred a
    exact congrArg _ (State.presentRequest_ok tag (.bar ab) hs hm rfl rfl (Ev.doBar_clear hb hp hx) h0.barJoins hf.1.head
      hf.1.waiting (.inr hr))
  · exact congrArg _ (State.presentRequest_ok tag (.bar ab) hs hm rfl rfl (Ev.doBar_barred hb hp hx) h0 rfl rfl (.inl rfl))
  · have hu : ((Ev.start s).upd (·.setBarred a false)).To [] (s.setBarred a false) := h0.upd (fun _ => rfl)
    exact congrArg _ (State.presentRequest_ok tag (.unbar ab) hs hm rfl rfl (Ev.doUnbar_present hb hp) hu rfl rfl (.inl rfl))
end

section
/-! PROOF. The moves of the tables: every change that a step makes to wait lists, carriers, line kinds and tuning values is a chain
of a few moves, each with the test that the part has made for it (chapters 3, 6 and 10). What every move keeps, every step keeps. -/

namespace Sys2Proof.Machine

variable {s t u : State} {e : Ev} {a : AntennaNo}

/-! ## The moves -/

/-- One change of the antenna table, the crew lines or the tuning set, with the test that comes before it. -/
inductive State.Move (s : State) : State → Prop
  /-- The rest of the part changes. -/
  | rest (t : State) (ha : t.antennas = s.antennas) (hl : t.lines = s.lines) (ht : t.tuning = s.tuning) : Move s t
  /-- An antenna entry changes, but for its carriers and its wait list. -/
  | entry (a : AntennaNo) (x : Antenna) (hc : x.carriers = (s.ant a).carriers) (hw : x.wait = (s.ant a).wait) :
      Move s (s.setAnt a x)
  /-- A placement on the carrier that the search finds (R52, R53). -/
  | place (a : AntennaNo) (k : CarrierNo) (m : LineNo) (reserved : Bool) (h : s.placementTest a m = some k) :
      Move s (s.setCarrier a k ((s.carrier a k).addPlace m reserved))
  /-- The release of a listener place (R56). -/
  | release (a : AntennaNo) (k : CarrierNo) (m : LineNo) (reserved : Bool) :
      Move s (s.setCarrier a k ((s.carrier a k).dropPlace m reserved))
  /-- The conversion of a reserved place (R55). -/
  | convert (a : AntennaNo) (k : CarrierNo) (m : LineNo) : Move s (s.setCarrier a k ((s.carrier a k).convertPlace m))
  /-- An entry joins a wait list that has room (R107). -/
  | append (a : AntennaNo) (w : WaitEntry) (h : s.waitRoom a = true) : Move s (s.setWait a ((s.ant a).wait ++ [w]))
  /-- An entry leaves a wait list (R107, R114). -/
  | remove (a : AntennaNo) (p : WaitEntry → Bool) : Move s (s.setWait a ((s.ant a).wait.eraseP p))
  /-- The kind of a line that no carrier carries changes (R48). -/
  | line (m : LineNo) (kind : LineKind) (h : s.carriedAt m = []) : Move s { s with lines := s.lines.set m.val kind }
  /-- A TUNE (R167). -/
  | tune (f : TuneFields) : Move s { s with tuning := s.tuning.tune f }
  /-- A WARM (R61, R118). -/
  | warm (t : State) (ha : t.antennas = s.antennas.map Antenna.warm) (hl : t.lines = s.lines) (ht : t.tuning = s.tuning) : Move s t
  /-- The reset pin (R173). -/
  | reset (pin : Bool) : Move s (s.resetTo pin)

/-- A chain of moves. -/
def State.Moves (s t : State) : Prop := Relation.ReflTransGen State.Move s t

theorem State.Moves.refl (s : State) : s.Moves s := Relation.ReflTransGen.refl

theorem State.Moves.trans (h : s.Moves t) (k : t.Moves u) : s.Moves u := Relation.ReflTransGen.trans h k

theorem State.Moves.move (h : s.Moves t) (k : t.Move u) : s.Moves u := Relation.ReflTransGen.tail h k

/-- A change of the rest of the part. -/
theorem State.Moves.rest (h : s.Moves t) (ha : u.antennas = t.antennas := by rfl) (hl : u.lines = t.lines := by rfl)
    (ht : u.tuning = t.tuning := by rfl) : s.Moves u := h.move (.rest u ha hl ht)

/-- What every move keeps, a chain of moves keeps. -/
theorem State.Moves.keeps {P : State → Prop} (hp : ∀ {s t : State}, s.Move t → P s → P t) (h : s.Moves t) (hs : P s) :
    P t := by
  induction h with
  | refl => exact hs
  | tail _ hm ih => exact hp hm ih

/-- An operation repeated over a list moves the tables by moves. -/
theorem State.Moves.foldl {α : Type} (h : s.Moves e.st) {f : Ev → α → Ev}
    (hf : ∀ {e : Ev} (x : α), s.Moves e.st → s.Moves (f e x).st) (l : List α) : s.Moves (l.foldl f e).st := by
  induction l generalizing e with
  | nil => exact h
  | cons x l ih => exact ih (hf x h)

/-! ## Cells, records, contexts and notices -/

theorem State.Moves.emit (h : s.Moves e.st) (c : OutCell) : s.Moves (e.emit c).st := h

theorem State.Moves.emitIf (h : s.Moves e.st) (b : Bool) (c : OutCell) : s.Moves (e.emitIf b c).st := by
  rw [Ev.emitIf_st]
  exact h

theorem State.Moves.setAtt (h : s.Moves e.st) (g : Identity) (x : Attachment) : s.Moves (e.upd (·.setAtt g x)).st := h.rest

theorem State.Moves.setCtx (h : s.Moves e.st) (c : ContextNo) (x : Option Context) : s.Moves (e.upd (·.setCtx c x)).st := h.rest

theorem State.Moves.notify (h : s.Moves e.st) (n : Notice) : s.Moves (e.notify n).st := h.rest

theorem State.Moves.route (h : s.Moves e.st) (p : Profile) (a : AntennaNo) (x : Option Place) : s.Moves (e.route p a x).st :=
  h.notify _

theorem State.Moves.orphan (h : s.Moves e.st) (g : Identity) (a : AntennaNo) (c : OrphanCause) : s.Moves (e.orphan g a c).st :=
  h.rest

theorem State.Moves.failed (h : s.Moves e.st) (m : Moving) (r : FailReason) : s.Moves (e.failed m r).st := h.notify _

/-! ## Venues, carriers and wait lists -/

theorem State.Moves.claimDown (h : s.Moves e.st) (v : VenueNo) : s.Moves (e.claimDown v).st := by
  unfold Ev.claimDown
  dsimp only
  split <;> exact h.rest

theorem State.Moves.wakeIfClosed (h : s.Moves e.st) (v : VenueNo) : s.Moves (e.wakeIfClosed v).st := by
  unfold Ev.wakeIfClosed
  split
  · exact h.rest
  · exact h

/-- A change of a carrier that is a move of the tables, with its MIX cell and notice (R58, R59). -/
theorem State.Moves.changeCarrier (h : s.Moves e.st) {k : CarrierNo} {x : Carrier} (hm : e.st.Move (e.st.setCarrier a k x)) :
    s.Moves (e.changeCarrier a k x).st := by
  have h1 : s.Moves (e.upd (·.setCarrier a k x)).st := h.move hm
  unfold Ev.changeCarrier
  dsimp only
  split
  · exact (h1.emitIf _ _).rest
  · exact h1

theorem State.Moves.place (h : s.Moves e.st) {k : CarrierNo} {m : LineNo} (hk : e.st.placementTest a m = some k) (reserved : Bool) :
    s.Moves (e.place a k m reserved).st := by
  have h1 := h.changeCarrier (.place a k m reserved hk)
  exact h1.rest

theorem State.Moves.releasePlace (h : s.Moves e.st) (a : AntennaNo) (k : CarrierNo) (m : LineNo) (reserved : Bool) :
    s.Moves (e.releasePlace a k m reserved).st :=
  (h.changeCarrier (.release a k m reserved)).claimDown _

theorem State.Moves.appendWait (h : s.Moves e.st) (hw : e.st.waitRoom a = true) (w : WaitEntry) : s.Moves (e.appendWait a w).st :=
  (h.move (.append a w hw)).rest

theorem State.Moves.removeWait (h : s.Moves e.st) (a : AntennaNo) (g : Identity) : s.Moves (e.removeWait a g).st := by
  have h1 : s.Moves (e.upd (fun s => s.setWait a ((s.ant a).wait.eraseP (fun w => w.headset == g)))).st := h.move (.remove a _)
  exact h1.claimDown _

theorem State.Moves.setSlot (h : s.Moves e.st) (a : AntennaNo) (i : SlotNo) (x : SlotState) :
    s.Moves (e.upd (·.setSlot a i x)).st :=
  h.move (.entry a { e.st.ant a with slots := (e.st.ant a).slots.set i.val x } rfl rfl)

/-! ## Grants and releases -/

theorem State.Moves.rotate (h : s.Moves e.st) (a : AntennaNo) (c : ClassNo) : s.Moves (e.upd (·.rotate a c)).st := by
  show s.Moves (e.st.rotate a c)
  unfold State.rotate
  split
  · exact h
  · exact h.move (.entry a _ rfl rfl)

/-- The entry that an offer grants leaves the wait list, and the slot is claimed (R112, R113). -/
theorem State.Moves.claimOffered (h : s.Moves e.st) (a : AntennaNo) (i : SlotNo) (g : Identity) :
    s.Moves ((e.removeWait a g).claimSlot a i g).st := by
  have h1 := (h.removeWait a g).setSlot a i (.held g)
  exact h1.rest

/-- The attachment, the SEAT cell and the notices of a grant (R112, R116). -/
theorem State.Moves.granted (h : s.Moves e.st) (p : Profile) (a : AntennaNo) (place : Place) (svc : Service) (r : Bool) :
    s.Moves (((e.upd (·.setAtt p.ident (.served svc ⟨a, place⟩ (Track.granted a)))).emit (.seat a p.ident place)).grantNotices
      p a place svc r).st :=
  h.rest

theorem State.Moves.grantJoin (h : s.Moves e.st) (a : AntennaNo) (i : SlotNo) (p : Profile) (r : Bool) :
    s.Moves (e.grantJoin a i p r).st :=
  (h.claimOffered a i p.ident).granted p a _ _ r

theorem State.Moves.promote (h : s.Moves e.st) (a : AntennaNo) (i : SlotNo) (p : Profile) (held : Resource) (tr : Track) :
    s.Moves (e.promote a i p held tr).st := by
  have h1 : s.Moves (((e.removeWait a p.ident).claimSlot a i p.ident).emit (.seat a p.ident (.slot i))).st :=
    h.claimOffered a i p.ident
  unfold Ev.promote
  cases held.place with
  | slot j => exact ((h1.setAtt _ _).notify _).route p a _
  | carrier k => exact (((h1.releasePlace held.ant k p.monitor false).setAtt _ _).notify _).route p a _

theorem State.Moves.offer (h : s.Moves e.st) (a : AntennaNo) (i : SlotNo) : s.Moves (e.offer a i).st := by
  unfold Ev.offer
  split
  · exact h
  · refine State.Moves.rotate ?_ a _
    unfold Ev.grantEntry
    split
    · exact h.grantJoin a i _ _
    · exact h.promote a i _ _ _
    · exact h

theorem State.Moves.releaseSlot (h : s.Moves e.st) (a : AntennaNo) (i : SlotNo) : s.Moves (e.releaseSlot a i).st := by
  have h1 := (h.setSlot a i .free).claimDown (e.st.venueOfAnt a)
  unfold Ev.releaseSlot
  dsimp only
  split
  · exact h1.offer a i
  · exact h1

theorem State.Moves.finish (h : s.Moves e.st) : s.Moves e.finish.st := by
  refine State.Moves.foldl (e := { e with late := [] }) h (fun a h => ?_) e.late
  unfold Ev.offerLowest
  split
  · exact h
  · exact h.offer a _

theorem State.Moves.releaseHeld (h : s.Moves e.st) (p : Profile) (svc : Service) (held : Resource) :
    s.Moves (e.releaseHeld p svc held).st := by
  unfold Ev.releaseHeld
  split
  · exact h.releaseSlot _ _
  · dsimp only
    split
    · exact (h.releasePlace _ _ _ _).removeWait _ _
    · exact h.releasePlace _ _ _ _

theorem State.Moves.releaseReserved (h : s.Moves e.st) (p : Profile) (a : AntennaNo) (x : Place) :
    s.Moves (e.releaseReserved p a x).st := by
  unfold Ev.releaseReserved
  split
  · exact h.releaseSlot _ _
  · exact h.releasePlace _ _ _ _

/-! ## What a search finds -/

/-- The tests behind a slot plan: the placement test of the headset that gives its slot up, and wait room where it is demoted
(R103, R104). -/
def State.tested (s : State) (a : AntennaNo) : SlotPlan → Prop
  | .free _ => True
  | .reseat _ p k => s.placementTest a p.monitor = some k
  | .demote _ p k => s.placementTest a p.monitor = some k ∧ s.waitRoom a = true

/-- The tests behind a plan (R101). -/
def State.needTested (s : State) (a : AntennaNo) (p : Profile) : NeedPlan → Prop
  | .carrier k => s.placementTest a p.monitor = some k
  | .slot plan => s.tested a plan

theorem State.reseatAt_tested {i : SlotNo} {plan : SlotPlan} (h : s.reseatAt a i = some plan) : s.tested a plan := by
  unfold State.reseatAt at h
  split at h
  · cases h
  · obtain ⟨k, hk, rfl⟩ := Option.map_eq_some_iff.mp h
    exact hk

theorem State.preemption_tested {c : ClassNo} {plan : SlotPlan} (h : s.preemption a c = some plan) : s.tested a plan := by
  unfold State.preemption at h
  split at h
  · rename_i hw
    obtain ⟨d, _, hd⟩ := List.exists_of_findSome?_eq_some h
    obtain ⟨i, _, hi⟩ := List.exists_of_findSome?_eq_some hd
    unfold State.demoteAt at hi
    split at hi
    · cases hi
    · split at hi
      · obtain ⟨k, hk, rfl⟩ := Option.map_eq_some_iff.mp hi
        exact ⟨hk, hw⟩
      · cases hi
  · cases h

/-- The talk slot search names a plan whose tests it has made (R102). -/
theorem State.slotSearch_tested {c : ClassNo} {b : Bool} {plan : SlotPlan} (h : s.slotSearch a c b = some plan) :
    s.tested a plan := by
  unfold State.slotSearch at h
  split at h
  · cases h
  · split at h
    · cases h
      trivial
    · split at h
      · rename_i plan' hr
        cases h
        obtain ⟨i, _, hi⟩ := List.exists_of_findSome?_eq_some hr
        exact State.reseatAt_tested hi
      · split at h
        · exact State.preemption_tested h
        · cases h

theorem State.findNeed_tested {p : Profile} {b : Bool} {plan : NeedPlan} (h : s.findNeed a p b = some plan) :
    s.needTested a p plan := by
  have key : (s.slotSearch a p.cls b).map NeedPlan.slot = some plan → s.needTested a p plan := by
    intro hs
    obtain ⟨sp, hsp, rfl⟩ := Option.map_eq_some_iff.mp hs
    exact State.slotSearch_tested hsp
  unfold State.findNeed at h
  split at h
  · exact key h
  · split at h
    · cases h
      assumption
    · exact key h

theorem State.transferNeed_tested {p : Profile} {svc : Service} {b : Bool} {plan : NeedPlan}
    (h : s.transferNeed a p svc b = some plan) : s.needTested a p plan := by
  cases svc with
  | demoted =>
    obtain ⟨i, _, rfl⟩ := Option.map_eq_some_iff.mp h
    trivial
  | talk => exact State.findNeed_tested h
  | listen => exact State.findNeed_tested h
  | listenSlot => exact State.findNeed_tested h

/-- The wake of the target's venue leaves the tests as they were (R121). -/
theorem State.needTested.wakeIfClosed {p : Profile} {plan : NeedPlan} (h : e.st.needTested a p plan) (v : VenueNo) :
    (e.wakeIfClosed v).st.needTested a p plan := by
  unfold Ev.wakeIfClosed
  split
  · exact h
  · exact h

/-! ## Taking what a search found -/

/-- A placement leaves the wait lists as they were. -/
theorem Ev.waitRoom_place (e : Ev) (a : AntennaNo) (k : CarrierNo) (m : LineNo) (reserved : Bool) :
    (e.place a k m reserved).st.waitRoom a = e.st.waitRoom a := by
  unfold Ev.place Ev.changeCarrier Ev.mixChanged Ev.claimUp State.waitRoom
  dsimp only
  split <;> simp

theorem State.Moves.demote (h : s.Moves e.st) {p : Profile} {k : CarrierNo} (hk : e.st.placementTest a p.monitor = some k)
    (hw : e.st.waitRoom a = true) (g : Identity) : s.Moves (e.demote a p k g).st := by
  have h1 : s.Moves ((e.place a k p.monitor false).moveToCarrier p.ident .demoted ⟨a, .carrier k⟩).st :=
    (h.place hk false).rest
  have h2 := h1.appendWait ((e.waitRoom_place a k p.monitor false).trans hw) ⟨p.ident, .promote, p.cls⟩
  exact ((h2.emit _).notify _).route p a _

theorem State.Moves.takeSlot (h : s.Moves e.st) {plan : SlotPlan} (ht : e.st.tested a plan) (g : Identity) (c : Option ContextNo) :
    s.Moves (e.takeSlot a g plan c).st := by
  cases plan with
  | free i =>
    have h1 := h.setSlot a i (claimant g c)
    exact h1.rest
  | reseat i p k =>
    have h1 : s.Moves (e.reseat a p k).st := (h.place ht false).rest
    exact h1.setSlot a i _
  | demote i p k =>
    obtain ⟨hk, hw⟩ := ht
    exact (h.demote hk hw g).setSlot a i _

theorem State.Moves.takeNeed (h : s.Moves e.st) {p : Profile} {plan : NeedPlan} (ht : e.st.needTested a p plan)
    (c : Option ContextNo) : s.Moves (e.takeNeed a p plan c).st := by
  cases plan with
  | carrier k => exact h.place ht _
  | slot sp => exact h.takeSlot ht _ c

/-! ## Admission -/

theorem State.Moves.lostRoute (h : s.Moves e.st) (p : Profile) (lost : Option AntennaNo) : s.Moves (e.lostRoute p lost).st := by
  cases lost with
  | none => exact h
  | some a => exact h.rest

theorem State.Moves.refuseJoin (h : s.Moves e.st) (p : Profile) (a : AntennaNo) (r : DeniedReason) (lost : Option AntennaNo) :
    s.Moves (e.refuseJoin p a r lost).st := by
  have h1 : s.Moves (e.deny p.ident a r).st := by cases r <;> exact h.rest
  exact h1.lostRoute p lost

theorem State.Moves.admitOpen (h : s.Moves e.st) (p : Profile) (a : AntennaNo) (r : Bool) (lost : Option AntennaNo) :
    s.Moves (e.admitOpen p a r lost).st := by
  unfold Ev.admitOpen
  split
  · split
    · rename_i plan hp
      exact (h.takeNeed (State.findNeed_tested hp) none).granted p a _ _ r
    · split
      · rename_i hw
        have h1 := h.appendWait hw ⟨p.ident, .join r, p.cls⟩
        exact State.Moves.lostRoute (e := Ev.upd _ (fun s => s.setAtt p.ident (.waiting a (s.tuning.tWait * 1000)))) h1.rest p lost
      · exact h.refuseJoin p a _ lost
  · exact h.refuseJoin p a _ lost

theorem State.Moves.admitJoin (h : s.Moves e.st) (p : Profile) (a : AntennaNo) (r : Bool) (lost : Option AntennaNo) :
    s.Moves (e.admitJoin p a r lost).st := by
  unfold Ev.admitJoin
  dsimp only
  split
  · exact h.refuseJoin p a _ lost
  · split
    · exact h.refuseJoin p a _ lost
    · split
      · have h1 : s.Moves (e.wakeVenue (e.st.venueOfAnt a)).st := h.rest
        exact h1.admitOpen p a r lost
      · exact h.refuseJoin p a _ lost
    · exact h.admitOpen p a r lost
    · exact h.admitOpen p a r lost

/-! ## Transfers -/

theorem State.Moves.capture (h : s.Moves e.st) (r : TapRecord) : s.Moves (e.capture r).st := by
  refine h.foldl (fun n h => ?_) _
  unfold Ev.captureAt
  dsimp only
  repeat' split
  all_goals exact h.rest

theorem State.Moves.startTransfer (h : s.Moves e.st) {p : Profile} {plan : NeedPlan} (ht : e.st.needTested a p plan) (svc : Service)
    (held : Resource) (tr : Track) (c : ContextNo) (cause : Cause) (o : Options) :
    s.Moves (e.startTransfer p svc held tr c a plan cause o).st :=
  ((h.wakeIfClosed _).takeNeed (ht.wakeIfClosed _) (some c)).rest

theorem State.Moves.releaseSource (h : s.Moves e.st) (m : Moving) : s.Moves (e.releaseSource m).st := by
  unfold Ev.releaseSource
  split
  · exact h.releaseHeld _ _ _
  · exact h

theorem State.Moves.convertTarget (h : s.Moves e.st) (m : Moving) : s.Moves (e.convertTarget m).st := by
  unfold Ev.convertTarget
  split
  · exact h.setSlot _ _ _
  · exact h.move (.convert _ _ _)

theorem State.Moves.complete (h : s.Moves e.st) (m : Moving) : s.Moves (e.complete m).st :=
  ((((((h.convertTarget m).emitIf _ _).releaseSource m).setAtt _ _).setCtx _ none).notify _).route _ _ _

theorem State.Moves.failOrphan (h : s.Moves e.st) (m : Moving) (r : FailReason) : s.Moves (e.failOrphan m r).st := by
  have h1 := ((h.releaseReserved m.profile m.context.targetAnt m.context.target).releaseSource m).setCtx m.ctx none
  have h2 := (h1.failed m r).orphan m.profile.ident m.context.sourceAnt .transfer
  unfold Ev.failOrphan
  dsimp only
  split
  · exact h2.route _ _ _
  · exact h2

theorem State.Moves.giveUp (h : s.Moves e.st) (m : Moving) (r : FailReason) : s.Moves (e.giveUp m r).st := by
  unfold Ev.giveUp
  split
  · have h1 := h.releaseReserved m.profile m.context.targetAnt m.context.target
    unfold Ev.returnTo
    dsimp only
    split <;> exact ((h1.setAtt _ _).setCtx m.ctx none).failed m r
  · exact h.failOrphan m r

theorem State.Moves.dropSource (h : s.Moves e.st) (m : Moving) : s.Moves (e.dropSource m).st := by
  have h1 := (h.releaseSource m).setCtx m.ctx (some { m.context with source := none })
  unfold Ev.dropSource
  dsimp only
  split
  · exact (h1.setAtt _ _).route _ _ _
  · exact h1.route _ _ _

theorem State.Moves.abortTransfer (h : s.Moves e.st) (m : Moving) (silent : Option AntennaNo) :
    s.Moves (e.abortTransfer m silent).st := by
  have h1 := (h.emit (.free m.context.targetAnt m.profile.ident)).releaseReserved m.profile m.context.targetAnt m.context.target
  unfold Ev.abortTransfer
  dsimp only
  split
  · exact (h1.releaseSource m).rest
  · exact ((h1.emitIf _ _).releaseSource m).rest

theorem State.Moves.sourceLost (h : s.Moves e.st) (m : Moving) : s.Moves (e.sourceLost m).st := by
  unfold Ev.sourceLost
  split
  · exact (h.emit _).failOrphan m _
  · exact h.dropSource m

/-! ## The cells of the units -/

theorem State.Moves.requestStart (h : s.Moves e.st) (p : Profile) (svc : Service) (held : Resource) (tr : Track) (a : AntennaNo)
    (c : Cause) : s.Moves (e.requestStart p svc held tr a c).1.st := by
  unfold Ev.requestStart
  split
  · exact h
  · split
    · exact h
    · rename_i hp
      exact h.startTransfer (State.transferNeed_tested hp) _ _ _ _ _ _

theorem State.Moves.round (h : s.Moves e.st) (p : Profile) (svc : Service) (held : Resource) (tr : Track) :
    s.Moves (e.round p svc held tr).st := by
  have h1 : ∀ tr, s.Moves (e.setTrack p.ident tr).st := fun tr => h.rest
  unfold Ev.round
  dsimp only
  split
  · exact (h1 _).capture _
  · split
    · exact (h1 _).capture _
    · exact ((h1 _).requestStart p svc held _ _ _).capture _

theorem State.Moves.hearTaken (h : s.Moves e.st) (a : AntennaNo) (g : Identity) (level errors : Byte) :
    s.Moves (e.hearTaken a g level errors).st := by
  unfold Ev.hearTaken
  split
  · exact h
  · split
    · exact h
    · rename_i tr _
      have h1 : ∀ tr b r, s.Moves (((e.setTrack g tr).upd (fun s => s.updRec g (fun r =>
          { r with profile := { r.profile with sticky := r.profile.sticky || b } }))).capture r).st :=
        fun tr b r => State.Moves.capture h.rest r
      dsimp only
      split
      · split
        · exact (h1 _ _ _).round _ _ _ _
        · exact h1 _ _ _
      · exact h1 _ _ _

theorem State.Moves.orderMove (h : s.Moves e.st) (m : Moving) : s.Moves (e.orderMove m).st := by
  have h1 := (h.emit (.goto m.context.sourceAnt m.profile.ident m.context.targetAnt m.context.target)).setCtx m.ctx
    (some { m.context with phase := .ordered, timer := e.st.tuning.tMove })
  unfold Ev.orderMove
  dsimp only
  split
  · exact (h1.emitIf _ _).dropSource _
  · exact h1

theorem State.Moves.readyTaken (h : s.Moves e.st) (a : AntennaNo) (g : Identity) : s.Moves (e.readyTaken a g).st := by
  have hlate : s.Moves (e.lateReady a g).st := by
    unfold Ev.lateReady
    split <;> exact h
  unfold Ev.readyTaken
  split
  · split
    · split
      · exact h.orderMove _
      · exact h
    · exact hlate
  · exact hlate

theorem State.Moves.noroomTaken (h : s.Moves e.st) (a : AntennaNo) (g : Identity) : s.Moves (e.noroomTaken a g).st := by
  unfold Ev.noroomTaken
  split
  · split
    · exact h.giveUp _ _
    · exact h
  · exact h

/-- A headset is detached, and then its JOIN is judged (R11, R13, R15). -/
theorem State.Moves.joinDetached (h : s.Moves e.st) (g : Identity) (p : Profile) (a : AntennaNo) (r : Bool)
    (lost : Option AntennaNo) : s.Moves ((e.detach g).admitJoin p a r lost).st :=
  (h.setAtt g .idle).admitJoin p a r lost

theorem State.Moves.joinTaken (h : s.Moves e.st) (a : AntennaNo) (g : Identity) : s.Moves (e.joinTaken a g).st := by
  unfold Ev.joinTaken
  split
  · exact h
  · split
    · exact h.admitJoin _ a _ _
    · split
      · exact h
      · exact (h.removeWait _ g).joinDetached _ _ _ _ _
    · unfold Ev.reattachRelease
      dsimp only
      split
      · exact (h.releaseHeld _ _ _).joinDetached _ _ _ _ _
      · exact ((h.emit _).releaseHeld _ _ _).joinDetached _ _ _ _ _
    · split
      · unfold Ev.joinMoving
        split
        · exact h.complete _
        · exact ((h.abortTransfer _ _).failed _ _).joinDetached _ _ _ _ _
      · exact h
    · exact h.joinDetached _ _ _ _ _

theorem State.Moves.landedTaken (h : s.Moves e.st) (a : AntennaNo) (g : Identity) : s.Moves (e.landedTaken a g).st := by
  have hlate : s.Moves (e.lateLanded a g).st := by
    unfold Ev.lateLanded
    split
    · exact h.joinDetached _ _ _ _ _
    · split <;> exact h
  unfold Ev.landedTaken
  split
  · split
    · exact h.complete _
    · exact hlate
  · exact hlate

theorem State.Moves.detachWith (h : s.Moves e.st) (p : Profile) (c : DetachCause) (lost : Option AntennaNo) :
    s.Moves (e.detachWith p c lost).st :=
  ((h.setAtt p.ident .idle).notify (.detached p.ident c)).lostRoute p lost

theorem State.Moves.quitTaken (h : s.Moves e.st) (a : AntennaNo) (g : Identity) : s.Moves (e.quitTaken a g).st := by
  unfold Ev.quitTaken
  split
  · exact h
  · split
    · exact h
    · exact (h.removeWait _ g).detachWith _ _ _
    · dsimp only
      split
      · exact (h.releaseHeld _ _ _).detachWith _ _ _
      · exact ((h.emit _).releaseHeld _ _ _).detachWith _ _ _
    · split
      · exact (h.abortTransfer _ _).detachWith _ _ _
      · exact h
    · exact h.detachWith _ _ _

theorem State.Moves.goneTaken (h : s.Moves e.st) (a : AntennaNo) (g : Identity) : s.Moves (e.goneTaken a g).st := by
  unfold Ev.goneTaken
  split
  · exact h
  · split
    · split
      · exact ((h.releaseHeld _ _ _).orphan g _ _).route _ _ _
      · exact h
    · split
      · unfold Ev.goneMoving
        split
        · exact h.sourceLost _
        · split
          · exact h.giveUp _ _
          · exact h
      · exact h
    · exact h

/-! ## Links -/

theorem State.Moves.setOnline (h : s.Moves e.st) (a : AntennaNo) (online : Bool) :
    s.Moves ((e.upd (·.setOnline a online)).notify (.unitState a online)).st := by
  have h1 : s.Moves (e.upd (·.setOnline a online)).st := h.move (.entry a { e.st.ant a with online := online } rfl rfl)
  exact h1.rest

theorem State.Moves.denyWait (h : s.Moves e.st) (a : AntennaNo) (r : DeniedReason) (g : Identity) :
    s.Moves (Ev.denyWait a r e g).st := by
  have h1 := h.removeWait a g
  unfold Ev.denyWait
  dsimp only
  split
  · exact ((h1.emit _).setAtt g .idle).notify _
  · exact (h1.setAtt g .idle).notify _

theorem State.Moves.downContext (h : s.Moves e.st) (a : AntennaNo) (c : ContextNo) : s.Moves (Ev.downContext a e c).st := by
  unfold Ev.downContext
  split
  · split
    · split
      · exact h.sourceLost _
      · exact h
    · split
      · exact h.giveUp _ _
      · exact h
  · exact h

theorem State.Moves.downHolder (h : s.Moves e.st) (a : AntennaNo) (g : Identity) : s.Moves (Ev.downHolder a e g).st := by
  unfold Ev.downHolder
  split
  · split
    · exact ((h.releaseHeld _ _ _).orphan g a _).route _ a _
    · exact h
  · exact h

theorem State.Moves.upTaken (h : s.Moves e.st) (a : AntennaNo) : s.Moves (e.upTaken a).st := by
  unfold Ev.upTaken
  dsimp only
  split <;> split
  · exact h
  · exact h
  · exact h.setOnline a true
  · exact h.setOnline a true

theorem State.Moves.downTaken (h : s.Moves e.st) (a : AntennaNo) : s.Moves (e.downTaken a).st := by
  unfold Ev.downTaken
  split
  · have h1 := h.setOnline a false
    dsimp only
    split
    · exact h1
    · have hcontexts := h1.foldl (f := Ev.downContext a) (fun c h => h.downContext a c) allContexts
      have hholders := fun l => hcontexts.foldl (f := Ev.downHolder a) (fun g h => h.downHolder a g) l
      exact (hholders _).foldl (fun g h => h.denyWait a .offline g) _
  · exact h

theorem State.Moves.cellEvent (h : s.Moves e.st) (c : RawCell) (k : UnitKind) (a : AntennaNo) :
    s.Moves (Ev.cellEvent c k a e).st := by
  cases k with
  | hear => exact h.hearTaken a _ _ _
  | join => exact h.joinTaken a _
  | ready => exact h.readyTaken a _
  | noroom => exact h.noroomTaken a _
  | landed => exact h.landedTaken a _
  | gone => exact h.goneTaken a _
  | quit => exact h.quitTaken a _
  | up => exact h.upTaken a
  | down => exact h.downTaken a

end Sys2Proof.Machine
end

section
/-! PROOF. Every step moves the tables by moves: the requests, the taking of events, and the commands (chapters 8 and 9). -/

namespace Sys2Proof.Machine

variable {s t u : State} {e : Ev}

/-! ## Requests -/

theorem State.Moves.evictActions (h : s.Moves e.st) (r : HeadsetRecord) : s.Moves (e.evictActions r).st := by
  unfold Ev.evictActions
  dsimp only
  split
  · exact h
  · exact ((h.removeWait _ _).emit _).detachWith _ _ _
  · exact ((h.emit _).releaseHeld _ _ _).detachWith _ _ _
  · split
    · exact (h.abortTransfer _ _).detachWith _ _ _
    · exact h
  · exact h.detachWith _ _ _

theorem State.Moves.doEvict (h : s.Moves e.st) (g : Identity) : s.Moves (e.doEvict g).1.st := by
  unfold Ev.doEvict
  split
  · exact h
  · split
    · exact h
    · split
      · exact h
      · exact h.evictActions _

theorem State.Moves.site (h : s.Moves e.st) (a : AntennaNo) (present : Bool) (v : VenueNo) :
    s.Moves (e.site a present v).st := by
  unfold Ev.site
  dsimp only
  split
  · exact h.move (.entry a _ rfl rfl)
  · have h1 : s.Moves (e.upd (·.setAnt a { e.st.ant a with venue := v })).st := h.move (.entry a _ rfl rfl)
    split
    · exact h1.emit _
    · exact h1
  · rw [Ev.upd_st, Ev.emitIf_st]
    exact h.move (.entry a _ rfl rfl)
  · exact h

theorem State.Moves.doSite (h : s.Moves e.st) (b p v : Byte) : s.Moves (e.doSite b p v).1.st := by
  unfold Ev.doSite
  split
  · exact h
  · split
    · exact h
    · split
      · exact h
      · split
        · exact h
        · exact h.site _ _ _

theorem State.Moves.denyJoins (h : s.Moves e.st) (r : DeniedReason) (a : AntennaNo) : s.Moves (Ev.denyJoins r e a).st :=
  h.foldl (fun g h => h.denyWait a r g) _

theorem State.Moves.openVenue (h : s.Moves e.st) (v : VenueNo) (x : VenueState) : s.Moves (e.openVenue v x).st := by
  unfold Ev.openVenue
  dsimp only
  split <;> exact h.rest

theorem State.Moves.shutVenue (h : s.Moves e.st) (v : VenueNo) : s.Moves (e.shutVenue v).st := by
  unfold Ev.shutVenue
  split
  · exact h.rest
  · have h1 : s.Moves ((e.upd (·.setVenueState v .draining)).notify (.venueState v .draining .request)).st := h.rest
    exact h1.foldl (fun a h => h.denyJoins .closed a) _

theorem State.Moves.doSetVenue (h : s.Moves e.st) (v x : Byte) : s.Moves (e.doSetVenue v x).1.st := by
  unfold Ev.doSetVenue
  split
  · exact h
  · split
    · exact h
    · dsimp only [Ev.ok]
      unfold Ev.setVenue
      dsimp only
      split
      · exact h
      · split
        · exact h.openVenue _ _
        · exact h.openVenue _ _
        · split
          · exact h
          · exact h.shutVenue _
        · exact h

/-- The kind of a line changes only where no carrier carries it (R48). -/
theorem State.Moves.doLine (h : s.Moves e.st) (n k : Byte) : s.Moves (e.doLine n k).1.st := by
  unfold Ev.doLine
  split
  · exact h
  · split
    · exact h
    · rename_i m _ _
      generalize (if k = 1 then LineKind.cue else LineKind.opened) = kind
      dsimp only
      split
      · exact h
      · split
        · rename_i hc
          exact h.move (.line m kind (List.isEmpty_iff.mp hc))
        · exact h

theorem State.Moves.setBarred (h : s.Moves e.st) (a : AntennaNo) (b : Bool) : s.Moves (e.upd (·.setBarred a b)).st :=
  h.move (.entry a { e.st.ant a with barred := b } rfl rfl)

theorem State.Moves.doBar (h : s.Moves e.st) (b : Byte) : s.Moves (e.doBar b).1.st := by
  unfold Ev.doBar
  split
  · exact h
  · split
    · dsimp only
      split
      · exact h
      · exact (h.setBarred _ true).denyJoins .barred _
    · exact h

theorem State.Moves.doUnbar (h : s.Moves e.st) (b : Byte) : s.Moves (e.doUnbar b).1.st := by
  unfold Ev.doUnbar
  split
  · exact h
  · split
    · exact h.setBarred _ false
    · exact h

theorem State.Moves.steerStart (h : s.Moves e.st) (p : Profile) (svc : Service) (held : Resource) (tr : Track) (a : AntennaNo)
    (o : Options) : s.Moves (e.steerStart p svc held tr a o).1.st := by
  unfold Ev.steerStart
  split
  · exact h
  · split
    · exact h
    · rename_i hp
      exact h.startTransfer (State.transferNeed_tested hp) _ _ _ _ _ _

theorem State.Moves.doSteer (h : s.Moves e.st) (g : Identity) (target options : Byte) :
    s.Moves (e.doSteer g target options).1.st := by
  unfold Ev.doSteer
  split
  · exact h
  · split
    · exact h
    · split
      · exact h
      · split
        · exact h
        · split
          · exact h
          · split
            · exact h
            · exact h.steerStart _ _ _ _ _ _
          · exact h

theorem State.Moves.doTune (h : s.Moves e.st) (f : TuneFields) : s.Moves (e.doTune f).1.st := by
  have h1 : s.Moves (e.upd (fun s => { s with tuning := s.tuning.tune f })).st := h.move (.tune f)
  unfold Ev.doTune
  split
  · exact h
  · dsimp only
    split <;> exact h1.rest

/-- A request moves the tables by moves, whoever its owner is. -/
theorem State.Moves.doRequest (h : s.Moves e.st) (r : Request) : s.Moves (e.doRequest r).1.st := by
  cases r with
  | tune f => exact h.doTune f
  | warm => exact h.move (.warm _ rfl rfl rfl)
  | site b p v => exact h.doSite b p v
  | line n k => exact h.doLine n k
  | setVenue v x => exact h.doSetVenue v x
  | bar b => exact h.doBar b
  | unbar b => exact h.doUnbar b
  | steer g target options => exact h.doSteer g target options
  | evict g => exact h.doEvict g
  | ident => exact h
  | floor v =>
    show s.Moves (e.doFloor v).1.st
    unfold Ev.doFloor
    split <;> exact h.rest
  | go =>
    show s.Moves e.doGo.1.st
    unfold Ev.doGo
    repeat' split
    all_goals exact h.rest
  | enrol f =>
    show s.Moves (e.doEnrol f).1.st
    unfold Ev.doEnrol
    repeat' split
    all_goals exact h.rest
  | unenrol g =>
    show s.Moves (e.doUnenrol g).1.st
    unfold Ev.doUnenrol
    repeat' split
    all_goals exact h.rest
  | venue v lo hi w =>
    show s.Moves (e.doVenue v lo hi w).1.st
    unfold Ev.doVenue
    repeat' split
    all_goals exact h.rest
  | unstick g =>
    show s.Moves (e.doUnstick g).1.st
    unfold Ev.doUnstick
    repeat' split
    all_goals exact h.rest
  | tap n k sel c circ =>
    show s.Moves (e.doTap n k sel c circ).1.st
    unfold Ev.doTap
    repeat' split
    all_goals exact h.rest
  | untap n =>
    show s.Moves (e.doUntap n).1.st
    unfold Ev.doUntap
    split <;> exact h.rest
  | peekHeadset g =>
    show s.Moves (e.doPeekHeadset g).1.st
    unfold Ev.doPeekHeadset
    repeat' split
    all_goals exact h
  | peekAntenna b =>
    show s.Moves (e.doPeekAntenna b).1.st
    unfold Ev.doPeekAntenna
    split <;> exact h
  | peekVenue v =>
    show s.Moves (e.doPeekVenue v).1.st
    unfold Ev.doPeekVenue
    split <;> exact h
  | peekContext c =>
    show s.Moves (e.doPeekContext c).1.st
    unfold Ev.doPeekContext
    split <;> exact h
  | list st c f =>
    show s.Moves (e.doList st c f).1.st
    unfold Ev.doList
    repeat' split
    all_goals exact h

theorem State.Moves.runItem (h : s.Moves e.st) (n : Nat) (i : ChainItem) : s.Moves (e.runItem n i).1.st := by
  cases i with
  | record tag r =>
    have h1 : s.Moves (e.carryOut r).1.st := by
      unfold Ev.carryOut
      split
      · exact h.doRequest r
      · exact h
    show s.Moves (e.runRecord n tag r).1.st
    unfold Ev.runRecord
    dsimp only
    split
    · exact h
    · exact h1
  | tooMany code tag => exact h
  | badKind code tag => exact h
  | badLength code tag => exact h
  | remainder n => exact h

theorem State.Moves.runChain (h : s.Moves e.st) (n : Nat) (l : List ChainItem) : s.Moves (e.runChain n l).1.st := by
  induction l generalizing e n with
  | nil => exact h
  | cons i rest ih => exact ih (h.runItem _ i) _

/-- The taking of a request frame (R157 to R160). -/
theorem State.Moves.frame (h : s.Moves e.st) (chain : List ChainItem × Bool) : s.Moves (e.frame chain).st :=
  (h.runChain 2 chain.1).rest

/-! ## Takings -/

/-- An event settled: its late offers, and then its cells in the output queue (R148, R149). -/
theorem State.Moves.settle {p : HeadPort} (h : s.Moves e.st) (ht : e.settle p = some t) : s.Moves t := by
  unfold Ev.settle at ht
  dsimp only at ht
  split at ht
  · cases ht
    exact h.finish.rest
  · cases ht

theorem State.Moves.attempt {p : HeadPort} (h : s.Moves e.st) (ht : e.attempt p = .taken t) : s.Moves t := by
  unfold Ev.attempt at ht
  split at ht
  · rename_i x hx
    cases ht
    exact h.settle hx
  · cases ht

theorem State.moves_leaveBuffer (s : State) : s.Moves s.leaveBuffer := by
  unfold State.leaveBuffer
  dsimp only
  split <;> exact (State.Moves.refl s).rest

theorem State.moves_attemptCell (h : s.attemptCell = .taken t) : s.Moves t := by
  unfold State.attemptCell at h
  split at h
  · cases h
  · split at h
    · cases h
      exact s.moves_leaveBuffer
    · exact State.Moves.attempt (State.Moves.cellEvent (e := Ev.start _) s.moves_leaveBuffer _ _ _) h

theorem State.moves_attemptFrame (h : s.attemptFrame = .taken t) : s.Moves t := by
  unfold State.attemptFrame at h
  split at h
  · cases h
  · rename_i rest _
    split at h
    · have h1 : s.Moves ((Ev.start s).upd (fun t => t.setCtrl { t.ctrl with frames := rest })).st := (State.Moves.refl s).rest
      exact (h1.frame _).attempt h
    · cases h

theorem State.moves_attemptTransfer {c : ContextNo} {p : Phase} {r : FailReason} (h : s.attemptTransfer c p r = .taken t) :
    s.Moves t := by
  unfold State.attemptTransfer at h
  split at h
  · split at h
    · exact (State.Moves.giveUp (e := (Ev.start s).freeCell _ _) (State.Moves.refl s) _ r).attempt h
    · cases h
  · cases h

theorem State.moves_attemptWait {g : Identity} (h : s.attemptWait g = .taken t) : s.Moves t := by
  unfold State.attemptWait at h
  split at h
  · exact (State.Moves.denyWait (e := Ev.start s) (State.Moves.refl s) _ .full g).attempt h
  · cases h

theorem State.moves_attemptHold {g : Identity} (h : s.attemptHold g = .taken t) : s.Moves t := by
  unfold State.attemptHold at h
  split at h
  · exact State.Moves.attempt ((State.Moves.refl s).rest : s.Moves ((Ev.start s).holdExpired g).st) h
  · cases h

/-- An event that is taken moves the tables by moves. -/
theorem State.moves_attempt {w : WaitingEvent} (h : s.attempt w = .taken t) : s.Moves t := by
  cases w with
  | cell => exact State.moves_attemptCell h
  | frame => exact State.moves_attemptFrame h
  | tPrep c => exact State.moves_attemptTransfer h
  | tMove c => exact State.moves_attemptTransfer h
  | wait g => exact State.moves_attemptWait h
  | hold g => exact State.moves_attemptHold h

theorem State.Moves.reconsider (h : s.Moves t) : s.Moves t.reconsider :=
  State.reconsider_keeps s.Moves (fun _ _ h => h.rest) (fun _ _ h => h.rest)
    (fun _ _ _ h _ ha => h.trans (State.moves_attempt ha)) t h

theorem State.Moves.consider (h : s.Moves t) (w : WaitingEvent) : s.Moves (t.consider w) :=
  State.consider_keeps s.Moves (fun _ _ h => h.rest) (fun _ _ h => h.rest)
    (fun _ _ _ h ha => h.trans (State.moves_attempt ha)) t w h

/-! ## The commands -/

theorem State.moves_arrive (s : State) (c : RawCell) : s.Moves (s.arrive c) := by
  have h := State.Moves.refl s
  unfold State.arrive
  split
  · exact h
  · split
    · unfold State.shed
      split
      · exact h
      · exact h.rest
    · split
      · exact h
      · exact h.rest

theorem State.moves_presentCell (s : State) (c : RawCell) : s.Moves (s.presentCell c) := by
  have h1 : s.Moves (if s.headIs c then s else s.arrive c) := by
    split
    · exact State.Moves.refl s
    · exact s.moves_arrive c
  unfold State.presentCell
  split
  · exact State.Moves.refl s
  · dsimp only
    generalize (if s.headIs c = true then s else s.arrive c) = t at h1 ⊢
    split
    · exact h1.consider .cell
    · exact h1

theorem State.moves_cellSent (s : State) : s.Moves s.cellSent := by
  unfold State.cellSent
  split
  · exact State.Moves.refl s
  · exact (State.Moves.refl s).rest.reconsider

theorem State.moves_answerSent (s : State) : s.Moves s.answerSent := by
  unfold State.answerSent
  split
  · exact State.Moves.refl s
  · exact (State.Moves.refl s).rest.reconsider

theorem State.moves_storeBody (s : State) (body : List Byte) : s.Moves (s.storeBody body) := by
  unfold State.storeBody State.addWaiting
  split <;> exact (State.Moves.refl s).rest

theorem State.moves_takeOrStore (s : State) (body : List Byte) (chain : List ChainItem × Bool) :
    s.Moves (s.takeOrStore body chain) := by
  unfold State.takeOrStore
  split
  · split
    · rename_i t ht
      exact ((State.Moves.frame (e := Ev.start s) (State.Moves.refl s) chain).settle ht).reconsider
    · exact s.moves_storeBody body
  · exact s.moves_storeBody body

theorem State.moves_presentFrame (s : State) (body : List Byte) (chain : List ChainItem × Bool) :
    s.Moves (s.presentFrame body chain) := by
  unfold State.presentFrame
  split
  · exact State.Moves.refl s
  · split
    · exact State.Moves.refl s
    · split
      · exact s.moves_takeOrStore body chain
      · exact (State.Moves.refl s).rest

theorem State.moves_onCtrl (s : State) (f : ControlPort → ControlPort) : s.Moves (s.onCtrl f) := by
  unfold State.onCtrl
  split
  · exact State.Moves.refl s
  · exact (State.Moves.refl s).rest

theorem State.moves_sendTap (s : State) : s.Moves s.sendTap := by
  unfold State.sendTap
  split
  · exact State.Moves.refl s
  · split
    · exact (State.Moves.refl s).rest
    · exact State.Moves.refl s

theorem State.moves_tick (s : State) : s.Moves s.tick := by
  unfold State.tick
  split
  · exact State.Moves.refl s
  · exact (State.Moves.refl s).rest

/-- A command with a test moves the tables by moves where each of its two ways does. -/
theorem State.Moves.ite {c : Prop} [Decidable c] (h : s.Moves t) (k : s.Moves u) : s.Moves (if c then t else u) := by
  split
  · exact h
  · exact k

/-- Every command moves the tables by moves. -/
theorem exec_moves {c : Instr} (h : exec c s = .next t) : s.Moves t := by
  have h0 := State.Moves.refl s
  have hrequest := fun tag r => s.moves_presentFrame (oneRecordBody tag r) ([.record tag r], false)
  have hchain := fun chain : List Byte => s.moves_presentFrame (0x01 :: chain) (delimitChain chain)
  cases c <;> cases h
  case frameBegin => exact s.moves_onCtrl _
  case frameTimeout => exact s.moves_onCtrl _
  case sendNoticeFrame => exact s.moves_onCtrl _
  case frameSendDone => exact s.moves_onCtrl _
  case frameLengthTooLong => exact .ite (s.moves_onCtrl _) h0
  case frameComplete => exact .ite (s.moves_onCtrl _) h0
  case sendAnswerFrame => exact s.moves_answerSent
  case sendTapFrame => exact s.moves_sendTap
  case unknownKindRecord => exact .ite (hchain _) h0
  case shortRecord => exact .ite (hchain _) h0
  case skippedRecord => exact .ite (hchain _) h0
  case cellArrival c => exact s.moves_arrive c
  case hear => exact s.moves_presentCell _
  case join => exact s.moves_presentCell _
  case ready => exact s.moves_presentCell _
  case noroom => exact s.moves_presentCell _
  case landed => exact s.moves_presentCell _
  case gone => exact s.moves_presentCell _
  case quit => exact s.moves_presentCell _
  case up => exact s.moves_presentCell _
  case down => exact s.moves_presentCell _
  case nonUnitKindCell => exact .ite (s.moves_presentCell _) h0
  case cellSent => exact s.moves_cellSent
  case tPrepExpiry => exact .ite h0 (h0.consider _)
  case tMoveExpiry => exact .ite h0 (h0.consider _)
  case waitExpiry => exact .ite h0 (h0.consider _)
  case holdExpiry => exact .ite h0 (h0.consider _)
  case requestFrameTaken => exact .ite h0 (h0.consider _)
  case resetAssert => exact h0.move (.reset true)
  case resetRelease => exact .ite (h0.move (.reset false)) h0
  -- what is left is the host's requests
  all_goals exact hrequest _ _

/-- Every step moves the tables by moves. -/
theorem step_moves (h : step s = .next t) : s.Moves t := by
  unfold step at h
  split at h
  · cases h
    exact s.moves_tick
  · rename_i c rest _
    have h1 : s.Moves (s.setPending rest) := (State.Moves.refl s).rest
    exact h1.trans (exec_moves h)

end Sys2Proof.Machine
end

section
/-! PROOF. The laws of the wait lists (R107), the carriers (R50, R51) and the tuning values (R167), kept by every move and so by
every step. -/

namespace Sys2Proof.Machine

variable {s t : State} {a : AntennaNo} {k : CarrierNo}

/-! ## Wait lists -/

theorem State.waitsLawful_setWait {l : List WaitEntry} (h : s.waitsLawful) (hl : l.length ≤ 8) : (s.setWait a l).waitsLawful := by
  intro b
  unfold State.setWait
  rw [State.ant_setAnt]
  split
  · exact hl
  · exact h b

/-- Every move keeps the wait lists at 8 entries or fewer: an entry joins only where there is room (R107). -/
theorem State.Move.waitsLawful (h : s.Move t) (hs : s.waitsLawful) : t.waitsLawful := by
  cases h with
  | rest t ha =>
    intro b
    unfold State.ant
    rw [ha]
    exact hs b
  | entry a x _ hw =>
    intro b
    rw [State.ant_setAnt]
    split
    · rename_i hb
      rw [hw, ← hb]
      exact hs b
    · exact hs b
  | place a k m r =>
    intro b
    rw [State.ant_setCarrier_wait]
    exact hs b
  | release a k m r =>
    intro b
    rw [State.ant_setCarrier_wait]
    exact hs b
  | convert a k m =>
    intro b
    rw [State.ant_setCarrier_wait]
    exact hs b
  | append a w hroom =>
    have hroom : (s.ant a).wait.length < 8 := of_decide_eq_true hroom
    exact State.waitsLawful_setWait hs (by rw [List.length_append, List.length_singleton]; omega)
  | remove a p => exact State.waitsLawful_setWait hs (List.length_eraseP_le.trans (hs a))
  | line m kind _ => exact hs
  | tune f => exact hs
  | warm t ha =>
    intro b
    simp [State.ant, ha, Antenna.warm]
  | reset pin =>
    intro b
    simp [State.ant, State.resetTo, State.reset, Antenna.reset]

/-! ## Carriers -/

/-- The law of a line set that stands on a carrier of an antenna, beside the antenna's other carriers (R50, R51, R58). -/
def State.carrierLawful (s : State) (a : AntennaNo) (k : CarrierNo) (x : Carrier) : Prop :=
  x.length ≤ 3 ∧ x.Pairwise (fun l l' => l.line < l'.line) ∧
    ∀ l ∈ x, 1 ≤ l.served + l.reserved ∧ (s.lineKind l.line = .cue → x = [l]) ∧
      ∀ j : CarrierNo, j ≠ k → ∀ l' ∈ s.carrier a j, l'.line ≠ l.line

theorem State.carrier_setCarrier (s : State) (a b : AntennaNo) (k j : CarrierNo) (x : Carrier) :
    (s.setCarrier a k x).carrier b j = if b = a ∧ j = k then x else s.carrier b j := by
  by_cases hb : b = a
  · subst hb
    simp [State.carrier, State.setCarrier, Vector.getElem_set, Fin.ext_iff, eq_comm]
  · simp [State.carrier, State.setCarrier, hb]

/-- A lawful line set on one carrier keeps the law of all. -/
theorem State.carriersLawful_setCarrier {x : Carrier} (h : s.carriersLawful) (hx : s.carrierLawful a k x) :
    (s.setCarrier a k x).carriersLawful := by
  obtain ⟨hlen, hsort, hlines⟩ := hx
  intro b i
  rw [State.carrier_setCarrier]
  split
  · rename_i hb
    obtain ⟨rfl, rfl⟩ := hb
    refine ⟨hlen, hsort, fun l hl => ?_⟩
    obtain ⟨hn, hcue, hapart⟩ := hlines l hl
    refine ⟨hn, hcue, fun j hj => ?_⟩
    rw [State.carrier_setCarrier, if_neg (by simp [hj])]
    exact hapart j hj
  · rename_i hb
    obtain ⟨hlen', hsort', hlines'⟩ := h b i
    refine ⟨hlen', hsort', fun l hl => ?_⟩
    obtain ⟨hn, hcue, hapart⟩ := hlines' l hl
    refine ⟨hn, hcue, fun j hj l' hl' => ?_⟩
    rw [State.carrier_setCarrier] at hl'
    split at hl'
    · rename_i hab
      obtain ⟨rfl, rfl⟩ := hab
      obtain ⟨_, _, hapart'⟩ := hlines l' hl'
      exact (hapart' i (Ne.symm hj) l hl).symm
    · exact hapart j hj l' hl'

/-- A line set that has lost lines or none, each of the rest with a listener, is lawful where the set before it was. -/
theorem State.carrierLawful_of_sublist {x c : Carrier} (h : s.carrierLawful a k c) (hx : x.lines.Sublist c.lines)
    (hn : ∀ l ∈ x, 1 ≤ l.served + l.reserved) : s.carrierLawful a k x := by
  obtain ⟨hlen, hsort, hlines⟩ := h
  have hle : x.length ≤ c.length := by simpa [Carrier.lines] using hx.length_le
  refine ⟨hle.trans hlen, List.pairwise_map.mp (List.Pairwise.sublist hx (List.pairwise_map.mpr hsort)), fun l hl => ?_⟩
  obtain ⟨l₀, hl₀, heq⟩ := List.mem_map.mp (hx.subset (List.mem_map_of_mem hl))
  obtain ⟨_, hcue, hapart⟩ := hlines l₀ hl₀
  rw [heq] at hcue hapart
  refine ⟨hn l hl, fun hkind => ?_, hapart⟩
  have hone : x.length ≤ 1 := by
    rw [hcue hkind] at hle
    exact hle
  obtain ⟨l₁, rfl⟩ := List.length_eq_one_iff.mp (le_antisymm hone (List.length_pos_of_mem hl))
  rw [List.mem_singleton.mp hl]

/-- A change of the counts alone, after which lines may leave, leaves no other lines. -/
theorem Carrier.lines_sublist_of_map {x c : Carrier} {f : CarrierLine → CarrierLine} (hf : ∀ l, (f l).line = l.line)
    (hx : x.Sublist (c.map f)) : x.lines.Sublist c.lines := by
  have h := hx.map (·.line)
  rw [List.map_map, show (·.line) ∘ f = (·.line) from funext hf] at h
  exact h

/-- A change of the counts that leaves each line a listener. -/
theorem State.carrierLawful_map {c : Carrier} (h : s.carrierLawful a k c) {f : CarrierLine → CarrierLine}
    (hf : ∀ l, (f l).line = l.line) (hn : ∀ l, 1 ≤ l.served + l.reserved → 1 ≤ (f l).served + (f l).reserved) :
    s.carrierLawful a k (c.map f) := by
  have ⟨_, _, hlines⟩ := h
  refine State.carrierLawful_of_sublist h (Carrier.lines_sublist_of_map hf (.refl _)) (fun l hl => ?_)
  obtain ⟨l₀, hl₀, rfl⟩ := List.mem_map.mp hl
  exact hn l₀ (hlines l₀ hl₀).1

theorem State.carrierLawful_dropPlace {c : Carrier} (h : s.carrierLawful a k c) (m : LineNo) (reserved : Bool) :
    s.carrierLawful a k (c.dropPlace m reserved) := by
  refine State.carrierLawful_of_sublist h (Carrier.lines_sublist_of_map (fun l => ?_) List.filter_sublist)
    (fun l hl => by simpa using (List.mem_filter.mp hl).2)
  split
  · split <;> rfl
  · rfl

theorem State.carrierLawful_convertPlace {c : Carrier} (h : s.carrierLawful a k c) (m : LineNo) :
    s.carrierLawful a k (c.convertPlace m) := by
  refine State.carrierLawful_map h (fun l => ?_) (fun l hn => ?_)
  · split <;> rfl
  · split
    · dsimp only
      omega
    · exact hn

/-- A line joins a line set as one more line. -/
theorem Carrier.insertLine_perm (x : CarrierLine) (c : Carrier) : (Carrier.insertLine x c).Perm (x :: c) := by
  induction c with
  | nil => exact .refl _
  | cons l rest ih =>
    unfold Carrier.insertLine
    split
    · exact .refl _
    · exact (ih.cons l).trans (.swap x l rest)

/-- A new line joins a line set at its place (R58). -/
theorem Carrier.insertLine_sorted {x : CarrierLine} {c : Carrier} (hc : c.Pairwise (fun l l' => l.line < l'.line))
    (hx : ∀ l ∈ c, l.line ≠ x.line) : (Carrier.insertLine x c).Pairwise (fun l l' => l.line < l'.line) := by
  induction c with
  | nil => exact List.pairwise_singleton _ _
  | cons l rest ih =>
    obtain ⟨hl, hrest⟩ := List.pairwise_cons.mp hc
    have hne := hx l List.mem_cons_self
    unfold Carrier.insertLine
    split
    · rename_i hlt
      refine List.pairwise_cons.mpr ⟨fun l' hl' => ?_, hc⟩
      rcases List.mem_cons.mp hl' with rfl | hl'
      · exact hlt
      · exact hlt.trans (hl l' hl')
    · rename_i hlt
      refine List.pairwise_cons.mpr ⟨fun l' hl' => ?_, ih hrest (fun l' hl' => hx l' (List.mem_cons_of_mem _ hl'))⟩
      rcases List.mem_cons.mp ((Carrier.insertLine_perm x rest).mem_iff.mp hl') with rfl | hl'
      · exact lt_of_le_of_ne (not_lt.mp hlt) hne
      · exact hl l' hl'

/-- A carrier that the placement test names: it carries the line; or no carrier of the antenna does, and it is FREE, or MIXED with
room and the line is OPEN (R52, R54). -/
theorem State.placementTest_some {m : LineNo} (h : s.placementTest a m = some k) :
    (s.carrier a k).carries m = true ∨ (∀ j, (s.carrier a j).carries m = false) ∧ (s.carrier a k = [] ∨
      s.lineKind m = .opened ∧ s.carrierState (s.carrier a k) = .mixed ∧ (s.carrier a k).length < 3) := by
  unfold State.placementTest at h
  split at h
  · cases h
  · split at h
    · rename_i j hj
      cases h
      exact .inl (by simpa using List.find?_some hj)
    · rename_i hnone
      have hno : ∀ j, (s.carrier a j).carries m = false := fun j => by
        simpa using List.find?_eq_none.mp hnone j (List.mem_finRange j)
      refine .inr ⟨hno, ?_⟩
      split at h
      · rename_i j hj
        cases h
        exact .inl (by simpa using List.find?_some hj)
      · split at h
        · rename_i hm
          exact .inr ⟨hm, by simpa using List.find?_some h⟩
        · cases h

/-- On a lawful MIXED carrier no line is a CUE line (R50). -/
theorem State.lineKind_of_mixed {c : Carrier} (h : s.carrierLawful a k c) (hc : s.carrierState c = .mixed) :
    ∀ l ∈ c, s.lineKind l.line ≠ .cue := by
  obtain ⟨_, _, hlines⟩ := h
  intro l hl hcue
  obtain ⟨_, halone, _⟩ := hlines l hl
  rw [halone hcue] at hc
  simp [State.carrierState, hcue] at hc

/-- A placement on the carrier that the test names keeps the law of the carriers (R50 to R54). -/
theorem State.carrierLawful_addPlace (h : s.carriersLawful) {m : LineNo} (hk : s.placementTest a m = some k) (reserved : Bool) :
    s.carrierLawful a k ((s.carrier a k).addPlace m reserved) := by
  have hc : s.carrierLawful a k (s.carrier a k) := h a k
  have ⟨hlen, hsort, hlines⟩ := hc
  unfold Carrier.addPlace
  split
  · refine State.carrierLawful_map hc (fun l => ?_) (fun l hn => ?_)
    · split
      · split <;> rfl
      · rfl
    · split
      · split <;> (dsimp only; omega)
      · exact hn
  · rename_i hnot
    obtain hcar | ⟨hno, hroom⟩ := State.placementTest_some hk
    · exact absurd hcar hnot
    · have happart : ∀ j, ∀ l ∈ s.carrier a j, l.line ≠ m := fun j => Carrier.carries_eq_false.mp (hno j)
      change s.carrierLawful a k (Carrier.insertLine (CarrierLine.one m reserved) (s.carrier a k))
      have hline := CarrierLine.line_one m reserved
      have hperm := Carrier.insertLine_perm (CarrierLine.one m reserved) (s.carrier a k)
      refine ⟨?_, Carrier.insertLine_sorted hsort (by rw [hline]; exact happart k), fun l hl => ?_⟩
      · rw [hperm.length_eq, List.length_cons]
        rcases hroom with hfree | ⟨_, _, hlt⟩
        · simp [hfree]
        · exact hlt
      · rcases List.mem_cons.mp (hperm.mem_iff.mp hl) with rfl | hl
        · rw [hline]
          refine ⟨by cases reserved <;> exact Nat.le_refl 1, fun hcue => ?_, fun j _ => happart j⟩
          rcases hroom with hfree | ⟨hopen, _, _⟩
          · rw [hfree]
            rfl
          · rw [hopen] at hcue
            cases hcue
        · obtain ⟨hn, _, hapart⟩ := hlines l hl
          refine ⟨hn, fun hcue => ?_, hapart⟩
          rcases hroom with hfree | ⟨_, hmixed, _⟩
          · rw [hfree] at hl
            cases hl
          · exact absurd hcue (State.lineKind_of_mixed hc hmixed l hl)

/-- The law of the carriers reads the carriers, and the kinds of the lines on them. -/
theorem State.carriersLawful_congr (h : s.carriersLawful) (hc : ∀ a k, t.carrier a k = s.carrier a k)
    (hl : ∀ a k, ∀ l ∈ s.carrier a k, t.lineKind l.line = s.lineKind l.line) : t.carriersLawful := by
  intro a k
  obtain ⟨hlen, hsort, hlines⟩ := h a k
  rw [hc]
  refine ⟨hlen, hsort, fun l hm => ?_⟩
  obtain ⟨hn, hcue, hapart⟩ := hlines l hm
  rw [hl a k l hm]
  exact ⟨hn, hcue, fun j hj => by rw [hc]; exact hapart j hj⟩

/-- Empty carriers are lawful. -/
theorem State.carriersLawful_of_nil (h : ∀ a k, s.carrier a k = []) : s.carriersLawful := by
  intro a k
  rw [h]
  exact ⟨Nat.zero_le _, List.Pairwise.nil, fun l hl => by cases hl⟩

theorem State.lineKind_set_of_ne {m n : LineNo} (hn : n ≠ m) (kind : LineKind) :
    ({ s with lines := s.lines.set m.val kind } : State).lineKind n = s.lineKind n := by
  have : m.val ≠ n.val := fun hv => hn (Fin.ext hv.symm)
  simp [State.lineKind, Vector.getElem_set_ne, this]

/-- A line that no antenna carries is on no carrier (R48). -/
theorem State.line_ne_of_carriedAt_nil {m : LineNo} (h : s.carriedAt m = []) : ∀ l ∈ s.carrier a k, l.line ≠ m := by
  have ha := List.filter_eq_nil_iff.mp h a (List.mem_finRange a)
  rw [Bool.not_eq_true, List.any_eq_false] at ha
  exact Carrier.carries_eq_false.mp (Bool.not_eq_true _ ▸ ha k (List.mem_finRange k))

/-- Every move keeps the law of the carriers (R50, R51). -/
theorem State.Move.carriersLawful (h : s.Move t) (hs : s.carriersLawful) : t.carriersLawful := by
  cases h with
  | rest t ha hl =>
    exact State.carriersLawful_congr hs (fun a k => by simp only [State.carrier, State.ant, ha])
      (fun a k l _ => by simp only [State.lineKind, hl])
  | entry a x hc _ =>
    refine State.carriersLawful_congr hs (fun b k => ?_) (fun _ _ _ _ => rfl)
    unfold State.carrier
    rw [State.ant_setAnt]
    split
    · rename_i hb
      simp only [hc, hb]
    · rfl
  | place a k m r hk => exact State.carriersLawful_setCarrier hs (State.carrierLawful_addPlace hs hk r)
  | release a k m r => exact State.carriersLawful_setCarrier hs (State.carrierLawful_dropPlace (hs a k) m r)
  | convert a k m => exact State.carriersLawful_setCarrier hs (State.carrierLawful_convertPlace (hs a k) m)
  | append a w _ =>
    exact State.carriersLawful_congr hs (fun b k => by simp only [State.carrier, State.ant_setWait_carriers]) (fun _ _ _ _ => rfl)
  | remove a p =>
    exact State.carriersLawful_congr hs (fun b k => by simp only [State.carrier, State.ant_setWait_carriers]) (fun _ _ _ _ => rfl)
  | line m kind hm =>
    exact State.carriersLawful_congr hs (fun _ _ => rfl)
      (fun a k l hl => State.lineKind_set_of_ne (State.line_ne_of_carriedAt_nil hm l hl) kind)
  | tune f => exact hs
  | warm t ha => exact State.carriersLawful_of_nil (fun a k => by simp [State.carrier, State.ant, ha, Antenna.warm])
  | reset pin =>
    exact State.carriersLawful_of_nil (fun a k => by simp [State.carrier, State.ant, State.resetTo, State.reset, Antenna.reset])

/-! ## Tuning values -/

/-- A tuned value is in its range where the value before it was (R167). -/
theorem tuned_mem {lo hi old : Nat} (hr : lo ≤ hi) (h : lo ≤ old ∧ old ≤ hi) (mask : BitVec 16) (bit given : Nat) :
    lo ≤ tuned mask bit lo hi given old ∧ tuned mask bit lo hi given old ≤ hi := by
  unfold tuned clamp
  repeat' split
  all_goals omega

theorem Tuning.lawful_tune {x : Tuning} (h : x.lawful) (f : TuneFields) : (x.tune f).lawful := by
  obtain ⟨h0, h1, h2, h3, h4, h5, h6, h7, h8, h9, h10, h11, h12⟩ := h
  have upto : ∀ {hi old : Nat} (bit given : Nat), old ≤ hi → tuned f.mask bit 0 hi given old ≤ hi := fun bit given ho =>
    (tuned_mem (Nat.zero_le _) ⟨Nat.zero_le _, ho⟩ f.mask bit given).2
  exact ⟨tuned_mem (by decide) h0 _ _ _, upto _ _ h1, tuned_mem (by decide) h2 _ _ _, upto _ _ h3, upto _ _ h4, upto _ _ h5,
    upto _ _ h6, tuned_mem (by decide) h7 _ _ _, upto _ _ h8, tuned_mem (by decide) h9 _ _ _, tuned_mem (by decide) h10 _ _ _,
    tuned_mem (by decide) h11 _ _ _, tuned_mem (by decide) h12 _ _ _⟩

theorem Tuning.lawful_reset : Tuning.reset.lawful := by
  unfold Tuning.lawful
  decide

/-- Every move keeps the tuning values in their ranges (R167). -/
theorem State.Move.tuningLawful (h : s.Move t) (hs : s.tuning.lawful) : t.tuning.lawful := by
  cases h with
  | rest t _ _ ht => exact ht ▸ hs
  | warm t _ _ ht => exact ht ▸ hs
  | tune f => exact Tuning.lawful_tune hs f
  | reset pin => exact Tuning.lawful_reset
  | entry => exact hs
  | place => exact hs
  | release => exact hs
  | convert => exact hs
  | append => exact hs
  | remove => exact hs
  | line => exact hs

end Sys2Proof.Machine

open Sys2Proof Sys2Proof.Machine

/-- Settles O11: every step is a chain of moves, and every move keeps each of the three laws. -/
theorem waitListLawKept : Obligations.WaitListLawKept := by
  unfold Obligations.WaitListLawKept
  intro s t h
  have hm := step_moves h
  exact ⟨hm.keeps State.Move.waitsLawful, hm.keeps State.Move.carriersLawful,
    hm.keeps (P := fun s => s.tuning.lawful) State.Move.tuningLawful⟩
end

section
/-! PROOF. The reports of the units and the rounds that they make (chapters 4 and 5). A HEAR is followed to the state after its
MEASURE record; where it makes a round, the round is followed through its choice, its count, its test and its start to the ROUND
record (`Ev.To`, Laws/Reach.lean). -/

namespace Sys2Proof.Machine

variable {s t m k u : State} {e : Ev} {a : AntennaNo} {h : Identity} {due : List AntennaNo}

/-! ## What a round reads while an event runs -/

theorem Ev.To.roundList (he : e.To due s) (l : List HearEntry) : e.st.roundList l = s.roundList l := by
  rw [← he.whole]
  rfl

theorem Ev.To.score (he : e.To due s) (p : Profile) (a : AntennaNo) (v : Nat) : e.st.score p a v = s.score p a v := by
  rw [← he.whole]
  rfl

theorem Ev.To.roundCandidate (he : e.To due s) (p : Profile) (a : AntennaNo) (l : List HearEntry) :
    e.st.roundCandidate p a l = s.roundCandidate p a l := by
  rw [← he.whole]
  rfl

theorem Ev.To.triggerMet (he : e.To due s) (p : Profile) (a : AntennaNo) (v : Int) (c : Scored) :
    e.st.triggerMet p a v c = s.triggerMet p a v c := by
  rw [← he.whole]
  rfl

theorem Ev.To.startCause (he : e.To due s) (a : AntennaNo) (v : Nat) (c : Scored) (n : Nat) :
    e.st.startCause a v c n = s.startCause a v c n := by
  rw [← he.whole]
  rfl

theorem Ev.To.freeContext (he : e.To due s) : e.st.freeContext = s.freeContext := by
  rw [← he.whole]
  rfl

theorem Ev.To.transferNeed (he : e.To due s) (a : AntennaNo) (p : Profile) (svc : Service) (b : Bool) :
    e.st.transferNeed a p svc b = s.transferNeed a p svc b := by
  rw [← he.whole]
  rfl

/-! ## The tables that a round reads -/

/-- Two states that agree in what the tests of a round read: they may differ in the records, the taps and the ports. -/
structure State.SameTables (s t : State) : Prop where
  tuning : t.tuning = s.tuning
  antennas : t.antennas = s.antennas
  venues : t.venues = s.venues
  contexts : t.contexts = s.contexts

theorem State.SameTables.trans (h1 : s.SameTables t) (h2 : t.SameTables u) : s.SameTables u :=
  ⟨h2.tuning.trans h1.tuning, h2.antennas.trans h1.antennas, h2.venues.trans h1.venues, h2.contexts.trans h1.contexts⟩

theorem State.sameTables_setRec (s : State) (r : HeadsetRecord) : s.SameTables (s.setRec r) := ⟨rfl, rfl, rfl, rfl⟩

theorem State.Captures.head {r : TapRecord} (hc : s.Captures r u) : u.head = s.head := by
  obtain ⟨_, _, _, _, _, _, hhead⟩ := hc.same
  exact hhead

theorem State.Captures.sameTables {r : TapRecord} (hc : s.Captures r u) : s.SameTables u := by
  obtain ⟨_, htun, hant, hven, hctx, _, _⟩ := hc.same
  exact ⟨htun, hant, hven, hctx⟩

section
variable (hst : s.SameTables t)
include hst

theorem State.SameTables.ant (a : AntennaNo) : t.ant a = s.ant a := by simp only [State.ant, hst.antennas]

theorem State.SameTables.ven (v : VenueNo) : t.ven v = s.ven v := by simp only [State.ven, hst.venues]

theorem State.SameTables.ctx (c : ContextNo) : t.ctx c = s.ctx c := by simp only [State.ctx, hst.contexts]

theorem State.SameTables.scoreOf (p : Profile) (a : AntennaNo) (v : Nat) : t.scoreOf p a v = s.scoreOf p a v := by
  simp only [State.scoreOf, State.takenByOthers, State.slot, hst.ant, hst.tuning]

theorem State.SameTables.mayBeCandidate (p : Profile) (a : AntennaNo) :
    t.mayBeCandidate p a = s.mayBeCandidate p a := by
  funext x
  simp only [State.mayBeCandidate, hst.ant, hst.ven]

theorem State.SameTables.bestEntry {p : Profile} {l : List HearEntry} {x : HearEntry} {v : Nat}
    (hb : s.bestEntry p (s.mayBeCandidate p a) l x v) : t.bestEntry p (t.mayBeCandidate p a) l x v := by
  rw [hst.mayBeCandidate]
  simpa only [State.bestEntry, hst.scoreOf] using hb

theorem State.SameTables.triggerMet (p : Profile) (a : AntennaNo) (v : Int) (c : Scored) :
    t.triggerMet p a v c = s.triggerMet p a v c := by
  cases s
  cases t
  obtain ⟨rfl, rfl, rfl, rfl⟩ := hst
  rfl

theorem State.SameTables.startCause (a : AntennaNo) (v : Nat) (c : Scored) (n : Nat) :
    t.startCause a v c n = s.startCause a v c n := by
  cases s
  cases t
  obtain ⟨rfl, rfl, rfl, rfl⟩ := hst
  rfl

end

/-! ## The tests of a round -/

section
variable {p : Profile} {l : List HearEntry}

/-- A list without an eligible entry gives no candidate (R91). -/
theorem State.roundCandidate_eq_none (hn : ∀ x ∈ l, ¬ s.mayBeCandidate p a x) : s.roundCandidate p a l = none :=
  bestOf_none_of (fun y hy => by
    rw [← Bool.not_eq_true, State.eligible_iff]
    exact hn y hy)

/-- The best eligible entry is the candidate (R89). -/
theorem State.bestEntry.roundCandidate {x : HearEntry} {v : Nat} (hb : s.bestEntry p (s.mayBeCandidate p a) l x v) :
    s.roundCandidate p a l = some ⟨x.ant, v, s.scoreOf p x.ant v⟩ :=
  hb.bestOf (fun _ => State.eligible_iff)

/-- The trigger condition, with the show margin in force (R90). -/
theorem State.triggerMet_iff {score margin : Int} {c : Scored}
    (hm : margin = (if (s.ven (s.ant a).venue).state = .show ∧ (s.ant c.ant).venue ≠ (s.ant a).venue ∧
      p.home = (s.ant a).venue then (s.tuning.showMargin : Int) else 0)) :
    s.triggerMet p a score c = true ↔ score + 16 * ((s.tuning.hysteresis : Int) + margin) ≤ c.score := by
  have hadd : (s.addedMargin p a c.ant : Int) = margin := by
    rw [hm, State.addedMargin]
    exact Nat.cast_ite _ _ _
  rw [State.triggerMet, decide_eq_true_iff, Nat.cast_add, hadd]

/-- The trigger count after a round (R91). -/
theorem State.countAfter_trigger {score margin : Int} {c : Scored}
    (hm : margin = (if (s.ven (s.ant a).venue).state = .show ∧ (s.ant c.ant).venue ≠ (s.ant a).venue ∧
      p.home = (s.ant a).venue then (s.tuning.showMargin : Int) else 0)) (stored : Option AntennaNo) (count : Nat) :
    countAfter s.tuning.persist stored count c.ant (s.triggerMet p a score c) =
      if score + 16 * ((s.tuning.hysteresis : Int) + margin) ≤ c.score then
        min s.tuning.persist ((if stored = some c.ant then count else 0) + 1) else 0 :=
  (countAfter_eq ..).trans (if_congr (State.triggerMet_iff hm) rfl rfl)

end

section
variable {v n : Nat} {c : Scored} {rescue drain : Prop} (hr : rescue ↔ v < 16 * s.tuning.floor ∧ 16 * s.tuning.floor ≤ c.avg)
  (hd : drain ↔ (s.ven (s.ant a).venue).state = .draining ∧ 16 * s.tuning.floor ≤ c.avg)
include hr hd

/-- No test calls for a start (R91 to R94). -/
theorem State.startCause_none (h1 : ¬ rescue) (h2 : ¬ drain) (h3 : n ≠ s.tuning.persist) : s.startCause a v c n = none := by
  rw [State.startCause, State.venueOfAnt, if_neg (hr.not.mp h1), if_neg (hd.not.mp h2), if_neg h3]

/-- The start has the cause of the first test that is met (R95), and a ROUND record of its own (R100). -/
theorem State.startCause_some {cause : Cause} {starts : RoundOutcome}
    (hc : rescue ∧ cause = .rescue ∧ starts = .rescue ∨ ¬ rescue ∧ drain ∧ cause = .drain ∧ starts = .drain ∨
      ¬ rescue ∧ ¬ drain ∧ n = s.tuning.persist ∧ cause = .auto ∧ starts = .auto) :
    s.startCause a v c n = some cause ∧ cause.outcome = starts := by
  rcases hc with ⟨h1, rfl, rfl⟩ | ⟨h1, h2, rfl, rfl⟩ | ⟨h1, h2, h3, rfl, rfl⟩
  · rw [State.startCause, State.venueOfAnt, if_pos (hr.mp h1)]
    exact ⟨rfl, rfl⟩
  · rw [State.startCause, State.venueOfAnt, if_neg (hr.not.mp h1), if_pos (hd.mp h2)]
    exact ⟨rfl, rfl⟩
  · rw [State.startCause, State.venueOfAnt, if_neg (hr.not.mp h1), if_neg (hd.not.mp h2), if_pos h3]
    exact ⟨rfl, rfl⟩

end

/-! ## The start that a round calls for -/

/-- What a round does with its candidate: nothing, or the start that its tests call for; and the outcome that its ROUND record gives
(R91 to R97). -/
def Ev.roundStart (e : Ev) (p : Profile) (svc : Service) (held : Resource) (tr : Track) (v : Nat) (c : Scored) :
    Ev × RoundOutcome :=
  match e.st.startCause held.ant v c tr.count with
  | none => (e, .stay)
  | some cause => e.requestStart p svc held tr c.ant cause

section
variable {p : Profile} {svc : Service} {held : Resource} {tr : Track} {cause : Cause}

theorem Ev.To.roundStart_stays (he : e.To due k) {v : Nat} {c : Scored} (hc : k.startCause held.ant v c tr.count = none) :
    e.roundStart p svc held tr v c = (e, .stay) := by
  unfold Ev.roundStart
  rw [he.startCause, hc]

theorem Ev.To.roundStart_calls (he : e.To due k) {v : Nat} {c : Scored} (hc : k.startCause held.ant v c tr.count = some cause) :
    e.roundStart p svc held tr v c = e.requestStart p svc held tr c.ant cause := by
  unfold Ev.roundStart
  rw [he.startCause, hc]

/-- A start is blocked where every context is in use (R96). -/
theorem Ev.To.requestStart_noContext (he : e.To due k) (hc : ∀ d : ContextNo, k.ctx d ≠ none) :
    e.requestStart p svc held tr a cause = (e, .noContext) := by
  unfold Ev.requestStart
  rw [he.freeContext, State.freeContext_none hc]

/-- A start is blocked where no target can be reserved (R96). -/
theorem Ev.To.requestStart_noResource (he : e.To due k) (hc : ∃ d : ContextNo, k.ctx d = none)
    (hu : k.targetUnmet a p svc k.tuning.preempt) : e.requestStart p svc held tr a cause = (e, .noResource) := by
  obtain ⟨d, hd⟩ : ∃ d, k.freeContext = some d := by
    obtain ⟨d, hd⟩ := hc
    refine Option.isSome_iff_exists.mp (List.find?_isSome.mpr ⟨d, List.mem_finRange d, ?_⟩)
    rw [hd]
    rfl
  unfold Ev.requestStart
  simp only [he.freeContext, hd, he.tuning, he.transferNeed, State.transferNeed_none hu]

/-- A start that nothing blocks proceeds with the lowest free context (R97, R120, R121). -/
theorem Ev.To.requestStart_starts (he : e.To due k) (hl : registryLawful k.registry) (hon : k.inService a) {d : ContextNo}
    (hd : k.ctx d = none) (hlow : ∀ c : ContextNo, c < d → k.ctx c ≠ none)
    (hu : k.Starts p svc held tr a d cause noOptions k.tuning.preempt u) :
    ∃ e', e.requestStart p svc held tr a cause = (e', cause.outcome) ∧ e'.To due u := by
  obtain ⟨plan, hplan, hto⟩ := he.startTransfer hon hl hu
  refine ⟨_, ?_, hto⟩
  unfold Ev.requestStart
  simp only [he.freeContext, State.freeContext_eq hd hlow, he.tuning, he.transferNeed, hplan]

end

/-! ## The round -/

/-- A round of a SERVED headset is due in a state that an event begun on `s` has reached: nothing but records, taps and ports has
changed; the headset's record; and the list after the ageing and the count-down, with the average of the serving entry (R78, R79,
R85). -/
structure State.RoundDue (s m : State) (q : Position) (p p' : Profile) (svc : Service) (held : Resource) (tr : Track)
    (list : List HearEntry) (v : Nat) : Prop where
  tables : s.SameTables m
  head : m.head = s.head
  lawful : registryLawful m.registry
  record : m.rec? p.ident = some ⟨q, p', .served svc held tr⟩
  list_eq : m.roundList tr.hearing = list
  average : servingAverage list held.ant = v

section
variable {q : Position} {p p' : Profile} {svc : Service} {held : Resource} {tr : Track} {list : List HearEntry} {v : Nat}

/-- The registry stays lawful with the track after the round (R1, R3). -/
theorem State.RoundDue.setRec_lawful (hd : s.RoundDue m q p p' svc held tr list v) (tr' : Track) :
    registryLawful (m.setRec ⟨q, p', .served svc held tr'⟩).registry := by
  have hi : p'.ident = p.ident := State.ident_of_rec hd.record
  refine State.setRec_lawful (x := ⟨q, p', .served svc held tr⟩) hd.lawful ?_ rfl
  rw [hi]
  exact hd.record

/-- A round without a candidate (R91). -/
theorem State.RoundDue.withoutCandidate (hd : s.RoundDue m q p p' svc held tr list v) (he : e.To due m)
    (hc : ∀ x ∈ list, ¬ s.mayBeCandidate p held.ant x)
    (ht : (m.setRec ⟨q, p', .served svc held ⟨none, 0, list⟩⟩).Captures
      (.round held.ant p.ident (s.scoreOf p held.ant v) none 0 0 .noCandidate) t) :
    (e.round p svc held tr).To due t := by
  rw [← hd.tables.mayBeCandidate] at hc
  unfold Ev.round
  simp only [he.roundList, hd.list_eq, hd.average, he.score, State.score_eq, hd.tables.scoreOf, he.roundCandidate,
    State.roundCandidate_eq_none hc]
  exact (he.setTrack hd.lawful hd.record).capture ht

/-- A round with a candidate: its track, what it does with the candidate, and its ROUND record (R91, R100). -/
theorem Ev.round_of_candidate {c : Scored} (hc : e.st.roundCandidate p held.ant (e.st.roundList tr.hearing) = some c)
    (v : Nat) (hv : servingAverage (e.st.roundList tr.hearing) held.ant = v) (tr' : Track)
    (htr : tr' = ⟨some c.ant, countAfter e.st.tuning.persist tr.candidate tr.count c.ant
      (e.st.triggerMet p held.ant (e.st.score p held.ant v) c), e.st.roundList tr.hearing⟩) :
    e.round p svc held tr = ((e.setTrack p.ident tr').roundStart p svc held tr' v c).1.capture
      (.round held.ant p.ident (e.st.score p held.ant v) (some c.ant) c.score tr'.count
        ((e.setTrack p.ident tr').roundStart p svc held tr' v c).2) := by
  subst hv htr
  unfold Ev.round
  simp only [hc]
  rfl

/-- A round with a candidate leads to where what it does with the candidate leads, and then to the capture of its ROUND record. -/
theorem State.RoundDue.withCandidate (hd : s.RoundDue m q p p' svc held tr list v) (he : e.To due m) {x : HearEntry} {vc n : Nat}
    {o : RoundOutcome} (hk : k = m.setRec ⟨q, p', .served svc held ⟨some x.ant, n, list⟩⟩)
    (hb : s.bestEntry p (s.mayBeCandidate p held.ant) list x vc)
    (hn : n = countAfter s.tuning.persist tr.candidate tr.count x.ant
      (s.triggerMet p held.ant (s.scoreOf p held.ant v) ⟨x.ant, vc, s.scoreOf p x.ant vc⟩))
    (hs : ∀ e' : Ev, e'.To due k → ∃ e'', e'.roundStart p svc held ⟨some x.ant, n, list⟩ v
      ⟨x.ant, vc, s.scoreOf p x.ant vc⟩ = (e'', o) ∧ e''.To due u)
    (ht : u.Captures (.round held.ant p.ident (s.scoreOf p held.ant v) (some x.ant) (s.scoreOf p x.ant vc) n o) t) :
    (e.round p svc held tr).To due t := by
  subst hk
  have hlist : e.st.roundList tr.hearing = list := (he.roundList _).trans hd.list_eq
  have hscore : e.st.score p held.ant v = s.scoreOf p held.ant v := by
    rw [he.score, State.score_eq, hd.tables.scoreOf]
  have hc : e.st.roundCandidate p held.ant list = some ⟨x.ant, vc, s.scoreOf p x.ant vc⟩ := by
    rw [he.roundCandidate, (hd.tables.bestEntry hb).roundCandidate, hd.tables.scoreOf]
  obtain ⟨e'', hstart, hto⟩ := hs _ (he.setTrack hd.lawful hd.record)
  rw [Ev.round_of_candidate (by rw [hlist, hc]) v (by rw [hlist, hd.average]) ⟨some x.ant, n, list⟩
    (by rw [hn, hlist, hscore, he.tuning, he.triggerMet, hd.tables.tuning, hd.tables.triggerMet]), hstart, hscore]
  exact hto.capture ht

end

/-! ## The report -/

/-- What follows the MEASURE record of a HEAR: the round, where the headset is SERVED at the antenna (R62 step 7). -/
def Ev.roundAt (e : Ev) (a : AntennaNo) (r : HeadsetRecord) (tr : Track) : Ev :=
  match r.att with
  | .served svc held _ => if held.ant = a then e.round r.profile svc held tr else e
  | _ => e

section
variable {pos : Position} {p : Profile} {svc : Service} {held : Resource} {tr tr' : Track}

theorem Ev.roundAt_here (ha : held.ant = a) : e.roundAt a ⟨pos, p, .served svc held tr⟩ tr' = e.round p svc held tr' := if_pos ha

theorem Ev.roundAt_elsewhere (ha : held.ant ≠ a) : e.roundAt a ⟨pos, p, .served svc held tr⟩ tr' = e := if_neg ha

theorem Ev.roundAt_transfer (c : ContextNo) : e.roundAt a ⟨pos, p, .transfer svc c tr⟩ tr' = e := rfl

end

/-- A report of an antenna reaches a headset with a track, and its MEASURE record the taps (R62 to R68, R73 to R75, R82). -/
structure State.Reported (s : State) (a : AntennaNo) (h : Identity) (level errors : Byte) (r : HeadsetRecord) (tr : Track)
    (q v : Nat) (clip : Bool) (l : List HearEntry) (m : State) : Prop where
  lawful : registryLawful s.registry
  record : s.rec? h = some r
  track : r.att.track? = some tr
  gives : reportGives level errors q clip
  hears : HearsInto s.tuning.avgShift a q clip tr.hearing v l
  captures : (s.setRec { r with
    att := r.att.mapTrack (fun _ => { tr with hearing := l }),
    profile := { r.profile with sticky := r.profile.sticky || clip } }).Captures (.measure a h q v clip) m

section
variable {level errors : Byte} {r : HeadsetRecord} {tr : Track} {q v : Nat} {clip : Bool} {l : List HearEntry}

/-- A HEAR is followed to the state after its MEASURE record (R62). -/
theorem State.Reported.hearTaken (hd : s.Reported a h level errors r tr q v clip l m) (he : e.To due s) :
    ∃ e' : Ev, e'.To due m ∧ e.hearTaken a h level errors = e'.roundAt a r { tr with hearing := l } := by
  obtain ⟨hl, hr, htr, hq, hi, hm⟩ := hd
  obtain ⟨hlist, x, rest, rfl, hx, hv, _⟩ := hi.hearUpdate
  refine ⟨_, (he.setHeard hl hr _ clip).capture hm, ?_⟩
  unfold Ev.hearTaken
  simp only [he.recOf, hr, htr, hq.quality.1, he.tuning, hlist, servingAverage_head hx hv]
  rfl

theorem State.Reported.heardFor (hd : s.Reported a h level errors r tr q v clip l m) : s.heardFor h = true := by
  simp [State.heardFor, hd.record, hd.track]

theorem State.Reported.head (hd : s.Reported a h level errors r tr q v clip l m) : m.head = s.head :=
  hd.captures.head

theorem State.Reported.sameTables (hd : s.Reported a h level errors r tr q v clip l m) : s.SameTables m :=
  (s.sameTables_setRec _).trans hd.captures.sameTables

end

/-! ## HEAR at an idle head port -/

theorem exec_hear (b level errors : Byte) : exec (.hear b h level errors) s =
    .next (s.presentCell { unitCell .hear b h with byte5 := level, byte6 := errors }) := rfl

/-- An event that ends with the head port as it was has no cell. -/
theorem Ev.To.cells_nil_of_head (he : e.To due t) (hf : (Ev.start s).Frame e) (hh : t.head = s.head) : e.cells = [] := by
  have hout : (e.st.sends e.cells).head.output = s.head.output := by rw [he.whole, hh]
  have hst : e.st.head = s.head := hf.1.head
  simpa [State.sends, hst] using hout

/-- A HEAR at an idle head port leads to where what follows its MEASURE record leads, with no cell or with room for its cells. -/
theorem State.Reported.exec_eq {b level errors : Byte} {r : HeadsetRecord} {tr : Track} {q v : Nat} {clip : Bool}
    {l : List HearEntry} (hd : s.Reported a h level errors r tr q v clip l m) (hs : s.cellReady) (hv : s.servesCells b a h)
    (ht : ∀ e : Ev, e.To [] m → (e.roundAt a r { tr with hearing := l }).To [] t) (hn : t.head = s.head ∨ s.roomTo t) :
    exec (.hear b h level errors) s = .next t := by
  obtain ⟨e', he', heq⟩ := hd.hearTaken (Ev.to_start s)
  have hto : ((Ev.start s).hearTaken a h level errors).To [] t := by
    rw [heq]
    exact ht e' he'
  have hf := (Ev.Frame.refl (Ev.start s)).hearTaken a h level errors
  have hj := s.judge_hear b level errors a h hv hd.gives.quality.2 hd.heardFor
  have hcells : ((Ev.start s).hearTaken a h level errors).finish.cells = [] ∨ s.roomTo t :=
    hn.imp_left fun hh => by
      rw [Ev.finish_of_late_nil _ hto.late]
      exact hto.cells_nil_of_head hf hh
  rw [exec_hear, State.presentCell_of_head s _ .hear hs hj rfl hf.1.head hf.1.waiting hto.finish hcells]

/-! ## The round of a report -/

section
variable {level errors : Byte} {pos : Position} {p : Profile} {svc : Service} {held : Resource} {tr : Track} {q v : Nat}
  {clip : Bool} {l : List HearEntry}

/-- The report of the serving antenna makes a round due, with the serving entry measured (R78, R79, R85). -/
theorem State.Reported.roundDue (hd : s.Reported a p.ident level errors ⟨pos, p, .served svc held tr⟩ tr q v clip l m)
    (ha : held.ant = a) (hstale : 1 ≤ s.tuning.staleLimit) :
    s.RoundDue m pos p { p with sticky := p.sticky || clip } svc held { tr with hearing := l } (agedList s.tuning.staleLimit l) v := by
  obtain ⟨hreg, _⟩ := hd.captures.same
  obtain ⟨_, x, rest, rfl, hx, hv, hage⟩ := hd.hears.hearUpdate
  refine ⟨hd.sameTables, hd.head, ?_, ?_, ?_, ?_⟩
  · rw [hreg]
    exact State.setRec_lawful hd.lawful hd.record rfl
  · unfold State.rec?
    rw [hreg]
    exact State.rec_setRec s (r := ⟨pos, { p with sticky := p.sticky || clip }, .served svc held { tr with hearing := x :: rest }⟩)
      hd.record
  · rw [State.roundList_eq, hd.sameTables.tuning]
  · exact servingAverage_aged hstale (hx.trans ha.symm) hv hage

end

end Sys2Proof.Machine

open Sys2Proof Sys2Proof.Machine

/-- Settles O47: no round follows the MEASURE record, of a headset SERVED elsewhere or in TRANSFER. -/
theorem hearStepsAverage : Obligations.HearStepsAverage := by
  unfold Obligations.HearStepsAverage
  intro s t b level errors h a p pr pr' svc tr q v clip l hs hv hl hq hi hpr
  subst hpr
  refine ⟨?_, ?_⟩
  · intro held hr ha ht
    have hd : s.Reported a h level errors ⟨p, pr, .served svc held tr⟩ tr q v clip l t := ⟨hl, hr, rfl, hq, hi, ht⟩
    exact hd.exec_eq hs hv (fun e he => (Ev.roundAt_elsewhere ha).symm ▸ he) (.inl hd.head)
  · intro c hr ht
    have hd : s.Reported a h level errors ⟨p, pr, .transfer svc c tr⟩ tr q v clip l t := ⟨hl, hr, rfl, hq, hi, ht⟩
    exact hd.exec_eq hs hv (fun e he => (Ev.roundAt_transfer c).symm ▸ he) (.inl hd.head)

/-- Settles O48: the round without a candidate, the round that stays, the two that are blocked, and the one that starts. -/
theorem roundCountsTrigger : Obligations.RoundCountsTrigger := by
  unfold Obligations.RoundCountsTrigger
  intro s m t b level errors h a p pr pr' svc place tr q v clip l list scoreS hs hv hl htun hr hq hi hpr hm hlist hscore
  subst hpr hscore
  obtain rfl : pr.ident = h := State.ident_of_rec hr
  have hd : s.Reported a pr.ident level errors ⟨p, pr, .served svc ⟨a, place⟩ tr⟩ tr q v clip l m := ⟨hl, hr, rfl, hq, hi, hm⟩
  obtain ⟨_, _, _, _, _, _, _, ⟨hstale, _⟩, _⟩ := htun
  have hdue := hlist ▸ hd.roundDue rfl hstale
  have hexec : ∀ {t : State}, (∀ e : Ev, e.To [] m → (e.round pr svc ⟨a, place⟩ { tr with hearing := l }).To [] t) →
      (t.head = s.head ∨ s.roomTo t) → exec (.hear b pr.ident level errors) s = .next t := fun ht =>
    hd.exec_eq hs hv (fun e he => (Ev.roundAt_here rfl).symm ▸ ht e he)
  refine ⟨fun hnone ht => hexec (fun e he => hdue.withoutCandidate he hnone ht) (.inl (ht.head.trans hdue.head)), ?_⟩
  intro x vc n scoreC margin rescue drain k hbest hscoreC hmargin hn hrescue hdrain hk
  subst hscoreC
  have hst : s.SameTables k := hk ▸ hdue.tables.trans (m.sameTables_setRec _)
  have hhead : k.head = s.head := hk ▸ hdue.head
  have hcount := hn.trans
    (State.countAfter_trigger (c := ⟨x.ant, vc, s.scoreOf pr x.ant vc⟩) hmargin tr.candidate tr.count).symm
  have hround : ∀ {o : RoundOutcome} {u t : State}, (∀ e : Ev, e.To [] k →
      ∃ e', e.roundStart pr svc ⟨a, place⟩ ⟨some x.ant, n, list⟩ v ⟨x.ant, vc, s.scoreOf pr x.ant vc⟩ = (e', o) ∧ e'.To [] u) →
      u.Captures (.round a pr.ident (s.scoreOf pr a v) (some x.ant) (s.scoreOf pr x.ant vc) n o) t →
      (t.head = s.head ∨ s.roomTo t) → exec (.hear b pr.ident level errors) s = .next t := fun hstart ht =>
    hexec (fun e he => hdue.withCandidate he hk hbest hcount hstart ht)
  refine ⟨fun h1 h2 h3 ht => ?_, fun cause starts hcause => ?_⟩
  · have hstays := State.startCause_none (c := ⟨x.ant, vc, s.scoreOf pr x.ant vc⟩) hrescue hdrain h1 h2 h3
    rw [← hst.startCause] at hstays
    exact hround (fun e he => ⟨e, he.roundStart_stays hstays, he⟩) ht (.inl (ht.head.trans hhead))
  · obtain ⟨hcalls, rfl⟩ := State.startCause_some (c := ⟨x.ant, vc, s.scoreOf pr x.ant vc⟩) hrescue hdrain hcause
    rw [← hst.startCause] at hcalls
    have hcall : ∀ {e : Ev}, e.To [] k →
        e.roundStart pr svc ⟨a, place⟩ ⟨some x.ant, n, list⟩ v ⟨x.ant, vc, s.scoreOf pr x.ant vc⟩ =
          e.requestStart pr svc ⟨a, place⟩ ⟨some x.ant, n, list⟩ x.ant cause := fun he => he.roundStart_calls hcalls
    simp only [← hst.ctx]
    rw [← hst.tuning]
    refine ⟨fun hfull ht => ?_, fun hfree hunmet ht => ?_, fun d u hfree hlow hu ht hroom => ?_⟩
    · exact hround (fun e he => ⟨e, (hcall he).trans (he.requestStart_noContext hfull), he⟩) ht (.inl (ht.head.trans hhead))
    · exact hround (fun e he => ⟨e, (hcall he).trans (he.requestStart_noResource hfree hunmet), he⟩) ht
        (.inl (ht.head.trans hhead))
    · obtain ⟨_, ⟨_, _, _, hpresent, honline, _⟩, _⟩ := hst.bestEntry hbest
      have hlk : registryLawful k.registry := by
        rw [hk]
        exact hdue.setRec_lawful _
      refine hround (fun e he => ?_) ht (.inr hroom)
      obtain ⟨e', hstart, hto⟩ := he.requestStart_starts hlk ⟨hpresent, honline⟩ hfree hlow hu
      exact ⟨e', (hcall he).trans hstart, hto⟩
end

section
/-! PROOF. STEER (R140 to R143): its tests in order, each with its refusal, and the start of the transfer. What the tests of the
target and the start come to is said in Laws/Choosing.lean and Laws/Starting.lean; here the request is followed to them. -/

namespace Sys2Proof.Machine

variable {s t : State} {e : Ev} {a : AntennaNo} {h : Identity} {ab ob : Byte} {due : List AntennaNo}

/-! ## A STEER at an idle control port -/

theorem exec_steer (tag : Byte) : exec (.steer tag h ab ob) s = .next (s.presentRequest tag (.steer h ab ob)) := rfl

/-- A STEER in RUN, whose event ends without a cell or with room for its cells, leads to where the event ends, with its reply. -/
theorem exec_steer_eq (tag : Byte) {d : Done} (hs : s.hostReady) (hm : s.mode = .run)
    (hd : (Ev.start s).doSteer h ab ob = (e, d)) (ht : e.To [] t) (hn : e.cells = [] ∨ s.roomTo t) :
    exec (.steer tag h ab ob) s = .next (t.replied 0x20 tag d.status d.offset d.result) := by
  have hc : (Ev.start s).carryOut (.steer h ab ob) = (e, d) := by
    rw [Ev.carryOut, if_pos (by simp [accepts, Ev.start, hm])]
    exact hd
  have hf : (Ev.start s).Frame e := by
    have hsteer := Ev.frame_doSteer (Ev.start s) h ab ob
    rwa [hd] at hsteer
  rw [exec_steer, State.presentRequest_to s tag (.steer h ab ob) d hs rfl hc ht hf hn]
  rfl

/-- A refused STEER changes nothing but the reply, whose two result bytes are 0 (R160). -/
theorem exec_steer_refused (tag : Byte) {status : Status} {offset : Nat} (hs : s.hostReady) (hm : s.mode = .run)
    (hd : (Ev.start s).doSteer h ab ob = (Ev.start s).refuse status offset 2) :
    exec (.steer tag h ab ob) s = .next (s.replied 0x20 tag status offset [0, 0]) :=
  exec_steer_eq tag hs hm hd (Ev.to_start s) (.inl rfl)

/-! ## The fields (R140) -/

theorem Ev.doSteer_badIdentity (hh : h = 0x000000 ∨ h = 0xFFFFFF) : e.doSteer h ab ob = e.refuse .badValue 2 2 := by
  have hi : identityOk h = false := by rcases hh with rfl | rfl <;> rfl
  simp [Ev.doSteer, hi]

theorem Ev.doSteer_badTarget (h0 : h ≠ 0x000000) (h1 : h ≠ 0xFFFFFF) (hlow : 48 ≤ ab.toNat) (hhigh : ab.toNat ≤ 254) :
    e.doSteer h ab ob = e.refuse .badValue 5 2 := by
  simp [Ev.doSteer, identityOk_of_ne h0 h1, hlow, hhigh]

/-- The identity and the target of a STEER pass the checks of their fields (R140). -/
structure SteerNames (h : Identity) (ab : Byte) : Prop where
  nonzero : h ≠ 0x000000
  nonall : h ≠ 0xFFFFFF
  target : ab.toNat ≤ 47 ∨ ab = 0xFF

theorem SteerNames.identityOk (hf : SteerNames h ab) : identityOk h = true := identityOk_of_ne hf.nonzero hf.nonall

theorem SteerNames.not_outOfRange (hf : SteerNames h ab) : ¬ (48 ≤ ab.toNat ∧ ab.toNat ≤ 254) := by
  rintro ⟨hlow, hhigh⟩
  rcases hf.target with hab | rfl
  · omega
  · exact absurd hhigh (by decide)

theorem SteerNames.doSteer_badOptions (hf : SteerNames h ab) (hob : 7 < ob.toNat) :
    e.doSteer h ab ob = e.refuse .badValue 6 2 := by
  simp [Ev.doSteer, hf.identityOk, hf.not_outOfRange, hob]

/-! ## The record (R141) -/

section
variable {q : Position} {p : Profile} {svc : Service} {tr : Track}

theorem SteerNames.doSteer_notFound (hf : SteerNames h ab) (hob : ob.toNat ≤ 7) (hr : e.st.rec? h = none) :
    e.doSteer h ab ob = e.refuse .notFound 2 2 := by
  simp [Ev.doSteer, hf.identityOk, hf.not_outOfRange, hob, hr]

theorem SteerNames.doSteer_busy (hf : SteerNames h ab) (hob : ob.toNat ≤ 7) {c : ContextNo}
    (hr : e.st.rec? h = some ⟨q, p, .transfer svc c tr⟩) : e.doSteer h ab ob = e.refuse .busy 2 2 := by
  simp [Ev.doSteer, hf.identityOk, hf.not_outOfRange, hob, hr]

theorem SteerNames.doSteer_notServed (hf : SteerNames h ab) (hob : ob.toNat ≤ 7) {r : HeadsetRecord} (hr : e.st.rec? h = some r)
    (ha : r.att = .idle ∨ (∃ b n, r.att = .waiting b n) ∨ ∃ n, r.att = .orphan n) :
    e.doSteer h ab ob = e.refuse .notServed 2 2 := by
  rcases ha with ha | ⟨b, n, ha⟩ | ⟨n, ha⟩ <;>
    simp [Ev.doSteer, hf.identityOk, hf.not_outOfRange, hob, hr, ha]

/-! ## The target (R141, R142) -/

variable {held : Resource}

theorem SteerNames.doSteer_targetRefused (hf : SteerNames h ab) (hob : ob.toNat ≤ 7)
    (hr : e.st.rec? h = some ⟨q, p, .served svc held tr⟩) {status : Status}
    (ht : e.st.steerTarget p held tr.hearing ab (optionsOf ob) = .error status) :
    e.doSteer h ab ob = e.refuse status 5 2 := by
  simp [Ev.doSteer, hf.identityOk, hf.not_outOfRange, hob, hr, ht]

theorem SteerNames.doSteer_start (hf : SteerNames h ab) (hob : ob.toNat ≤ 7)
    (hr : e.st.rec? h = some ⟨q, p, .served svc held tr⟩)
    (ht : e.st.steerTarget p held tr.hearing ab (optionsOf ob) = .ok a) :
    e.doSteer h ab ob = e.steerStart p svc held tr a (optionsOf ob) := by
  simp [Ev.doSteer, hf.identityOk, hf.not_outOfRange, hob, hr, ht]

/-- A named antenna that a test refuses is no target (R141). -/
theorem State.SteerRefused.steerTarget {l : List HearEntry} {o : Options} {status : Status}
    (hx : s.SteerRefused p held.ant l a o status) (hb : ab.toNat = a.val) : s.steerTarget p held l ab o = .error status := by
  rw [State.steerTarget, antennaOf_eq hb]
  dsimp only
  rw [State.steerTargetFault_some hx]

/-- For 0xFF there is no target where no entry may be chosen (R142). -/
theorem State.steerTarget_noCandidate {l : List HearEntry} {o : Options} (hn : ∀ x ∈ l, ¬ s.maySteer p held.ant o x) :
    s.steerTarget p held l 0xFF o = .error .noCandidate := by
  rw [State.steerTarget, antennaOf_none (by decide)]
  dsimp only
  rw [State.steerBest_none hn]

/-! ## The start (R141, R143) -/

variable {o : Options}

theorem State.exists_freeContext (hc : ∃ c : ContextNo, s.ctx c = none) : ∃ d, s.freeContext = some d := by
  obtain ⟨c, hc⟩ := hc
  exact Option.isSome_iff_exists.mp (List.find?_isSome.mpr ⟨c, List.mem_finRange c, by rw [hc]; rfl⟩)

theorem Ev.To.steerStart_noContext (he : e.To due s) (hc : ∀ c : ContextNo, s.ctx c ≠ none) :
    e.steerStart p svc held tr a o = e.refuse .noContext 0 2 := by
  rw [Ev.steerStart, he.freeContext, State.freeContext_none hc]

theorem Ev.To.steerStart_noResource (he : e.To due s) (hc : ∃ c : ContextNo, s.ctx c = none)
    (hu : s.targetUnmet a p svc (s.tuning.preempt || o.preempt)) :
    e.steerStart p svc held tr a o = e.refuse .noResource 5 2 := by
  obtain ⟨d, hd⟩ := State.exists_freeContext hc
  unfold Ev.steerStart
  simp only [he.freeContext, hd, he.tuning, he.transferNeed, State.transferNeed_none hu]

/-- A STEER that passes its tests starts the transfer in the lowest free context, and reports that and the target (R141). -/
theorem Ev.To.steerStart_starts (he : e.To due s) (hl : registryLawful s.registry) (hon : s.inService a) {c : ContextNo}
    (hc : s.ctx c = none) (hlow : ∀ d : ContextNo, d < c → s.ctx d ≠ none)
    (hu : s.Starts p svc held tr a c .steer o (s.tuning.preempt || o.preempt) t) :
    ∃ e' : Ev, e.steerStart p svc held tr a o = e'.ok [byte c.val, byte a.val] ∧ e'.To due t := by
  obtain ⟨plan, hplan, hto⟩ := he.startTransfer hon hl hu
  refine ⟨_, ?_, hto⟩
  unfold Ev.steerStart
  simp only [he.freeContext, State.freeContext_eq hc hlow, he.tuning, he.transferNeed, hplan]

end

end Sys2Proof.Machine

open Sys2Proof Sys2Proof.Machine

/-- Settles O31: the tests of the fields, of the record, of the target and of the start in their order, and the start. -/
theorem steerStartsTransfer : Obligations.SteerStartsTransfer := by
  unfold Obligations.SteerStartsTransfer
  rintro s tag ab ob h refused o hs hm rfl
  refine ⟨fun hh => exec_steer_refused tag hs hm (Ev.doSteer_badIdentity hh), fun h0 h1 => ⟨fun hlow hhigh => ?_, fun hab => ?_⟩⟩
  · exact exec_steer_refused tag hs hm (Ev.doSteer_badTarget h0 h1 hlow hhigh)
  have hf : SteerNames h ab := ⟨h0, h1, hab⟩
  refine ⟨fun hob => exec_steer_refused tag hs hm (hf.doSteer_badOptions hob), fun hob ho => ?_⟩
  obtain rfl : o = optionsOf ob := ho
  refine ⟨fun hr => ?_, fun p pr svc c tr hr => ?_, fun r hr ha => ?_, fun p pr svc held tr hr => ⟨?_, ?_, ?_⟩⟩
  · exact exec_steer_refused tag hs hm (hf.doSteer_notFound hob hr)
  · exact exec_steer_refused tag hs hm (hf.doSteer_busy hob hr)
  · exact exec_steer_refused tag hs hm (hf.doSteer_notServed hob hr ha)
  · intro a status hb hx
    exact exec_steer_refused tag hs hm (hf.doSteer_targetRefused hob hr (hx.steerTarget hb))
  · rintro rfl hn
    exact exec_steer_refused tag hs hm (hf.doSteer_targetRefused hob hr (State.steerTarget_noCandidate hn))
  · intro a ha
    obtain ⟨htarget, hon⟩ := State.steerTarget_ok ha
    have hstart : (Ev.start s).doSteer h ab ob = _ := hf.doSteer_start hob hr htarget
    have he := Ev.to_start s
    refine ⟨fun hfull => ?_, fun hfree hu => ?_, fun c t hl hfree hlow hu hroom => ?_⟩
    · exact exec_steer_refused tag hs hm (hstart.trans (he.steerStart_noContext hfull))
    · exact exec_steer_refused tag hs hm (hstart.trans (he.steerStart_noResource hfree hu))
    · obtain ⟨e, hends, hto⟩ := he.steerStart_starts hl hon hfree hlow hu
      exact exec_steer_eq tag hs hm (hstart.trans hends) hto (.inr hroom)
end

section
/-! PROOF. The cells and the expiries of a transfer (chapter 7): READY, NOROOM, LANDED, and the ends of t_prep and t_move. An event
is followed to the state in which it ends (`Ev.To`, Laws/Reach.lean and Laws/Endings.lean); its taking at an idle port then gives the
command. -/

namespace Sys2Proof.Machine

variable {s t u : State} {e : Ev} {a : AntennaNo} {h : Identity} {b : Byte} {due : List AntennaNo} {q : Position} {p : Profile}
  {svc : Service} {held : Resource} {c : ContextNo} {tr : Track} {x : Context} {m : Moving} {place : Place}

/-! ## The cells at an idle head port -/

theorem exec_ready (b : Byte) : exec (.ready b h) s = .next (s.presentCell (unitCell .ready b h)) := rfl
theorem exec_noroom (b : Byte) : exec (.noroom b h) s = .next (s.presentCell (unitCell .noroom b h)) := rfl

theorem exec_ready_eq (hs : s.cellReady) (hv : s.servesCells b a h) (ht : ((Ev.start s).readyTaken a h).To [] t)
    (hr : s.roomTo t) : exec (.ready b h) s = .next t := by
  rw [exec_ready, State.presentCell_to s _ .ready rfl hs (State.judge_unitCell s .ready b a h (by simp) hv) ht.finish hr]

theorem exec_noroom_eq (hs : s.cellReady) (hv : s.servesCells b a h) (ht : ((Ev.start s).noroomTaken a h).finish.To [] t)
    (hr : s.roomTo t) : exec (.noroom b h) s = .next t := by
  rw [exec_noroom, State.presentCell_to s _ .noroom rfl hs (State.judge_unitCell s .noroom b a h (by simp) hv) ht hr]

/-- A cell whose event changes nothing is discarded, whatever room the output queue has (R149). -/
theorem State.presentCell_discarded {k : UnitKind} (hs : s.cellReady) (hv : s.servesCells b a h)
    (hk : k = .join ∨ k = .ready ∨ k = .noroom ∨ k = .landed ∨ k = .quit)
    (he : Ev.cellEvent (unitCell k b h) k a (Ev.start s) = Ev.start s) : s.presentCell (unitCell k b h) = s := by
  have hlink : k.isLink = false := by rcases hk with rfl | rfl | rfl | rfl | rfl <;> rfl
  exact State.presentCell_silent hlink hs (State.judge_unitCell s k b a h hk hv) (by rw [he]; exact Ev.to_start s)
    (by rw [he]; rfl)

theorem exec_ready_discarded (hs : s.cellReady) (hv : s.servesCells b a h)
    (he : (Ev.start s).readyTaken a h = Ev.start s) : exec (.ready b h) s = .next s :=
  congrArg _ (State.presentCell_discarded hs hv (k := .ready) (by simp) he)

theorem exec_noroom_discarded (hs : s.cellReady) (hv : s.servesCells b a h)
    (he : (Ev.start s).noroomTaken a h = Ev.start s) : exec (.noroom b h) s = .next s :=
  congrArg _ (State.presentCell_discarded hs hv (k := .noroom) (by simp) he)

theorem exec_landed_discarded (hs : s.cellReady) (hv : s.servesCells b a h)
    (he : (Ev.start s).landedTaken a h = Ev.start s) : exec (.landed b h) s = .next s :=
  congrArg _ (State.presentCell_discarded hs hv (k := .landed) (by simp) he)

/-! ## The transfer and the resource of a headset -/

theorem State.movingOf_some (hm : s.movingOf h = some m) :
    ∃ q, s.rec? h = some ⟨q, m.profile, .transfer m.service m.ctx m.track⟩ ∧ s.ctx m.ctx = some m.context := by
  unfold State.movingOf at hm
  split at hm
  · rename_i q p svc c tr hr
    split at hm
    · rename_i x hx
      obtain rfl := Option.some.inj hm
      exact ⟨q, hr, hx⟩
    · cases hm
  · cases hm

/-- A SERVED headset has no transfer that a unit could be the target of. -/
theorem State.target_ne_of_served (hr : s.rec? h = some ⟨q, p, .served svc held tr⟩) (hm : s.movingOf h = some m) :
    m.context.targetAnt ≠ a := by
  simp [State.movingOf, hr] at hm

theorem State.target_ne_of_moving (hr : s.rec? h = some ⟨q, p, .transfer svc c tr⟩) (hx : s.ctx c = some x)
    (ha : x.targetAnt ≠ a) (hm : s.movingOf h = some m) : m.context.targetAnt ≠ a := by
  obtain rfl := Option.some.inj ((State.movingOf_eq hr hx).symm.trans hm)
  exact ha

theorem Ev.To.heldAntenna (he : e.To due s) (h : Identity) : e.st.heldAntenna h = s.heldAntenna h := by
  rw [← he.whole]
  rfl

theorem State.heldAntenna_served (hr : s.rec? h = some ⟨q, p, .served svc held tr⟩) : s.heldAntenna h = some held.ant := by
  simp [State.heldAntenna, State.heldOf, hr]

theorem State.heldAntenna_moving (hr : s.rec? h = some ⟨q, p, .transfer svc c tr⟩) (hx : s.ctx c = some x) (hn : x.source ≠ none) :
    s.heldAntenna h = some x.sourceAnt := by
  obtain ⟨place, hp⟩ := Option.ne_none_iff_exists'.mp hn
  simp [State.heldAntenna, State.heldOf, hr, hx, hp]

/-- The antenna of the held resource is that of a SERVED headset, or the source antenna of a transfer whose source is present. -/
theorem State.heldAntenna_some (hh : s.heldAntenna h = some a) : ∃ r, s.rec? h = some r ∧
    ((∃ svc held tr, r.att = .served svc held tr ∧ held.ant = a) ∨
      ∃ svc c tr x, r.att = .transfer svc c tr ∧ s.ctx c = some x ∧ x.source ≠ none ∧ x.sourceAnt = a) := by
  unfold State.heldAntenna at hh
  split at hh
  · rename_i r hr
    refine ⟨r, hr, ?_⟩
    unfold State.heldOf at hh
    split at hh
    · rename_i svc held tr hatt
      exact .inl ⟨svc, held, tr, hatt, by simpa using hh⟩
    · rename_i svc c tr hatt
      split at hh
      · rename_i x hx
        cases hp : x.source with
        | none => simp [hp] at hh
        | some place => exact .inr ⟨svc, c, tr, x, hatt, hx, by simp [hp], by simpa [hp] using hh⟩
      · cases hh
    · cases hh
  · cases hh

/-- No transfer of a headset has its target at a unit that has nothing of the headset. -/
theorem State.strange.target_ne (hx : s.strange a h) (hm : s.movingOf h = some m) : m.context.targetAnt ≠ a := by
  obtain ⟨q, hr, hc⟩ := State.movingOf_some hm
  exact ((hx _ hr).2 _ _ _ rfl _ hc).1

theorem State.strange.heldAntenna_ne (hx : s.strange a h) : s.heldAntenna h ≠ some a := by
  intro hh
  obtain ⟨r, hr, ⟨svc, held, tr, hatt, ha⟩ | ⟨svc, c, tr, x, hatt, hc, hn, ha⟩⟩ := State.heldAntenna_some hh
  · exact (hx r hr).1 _ _ _ hatt ha
  · exact ((hx r hr).2 _ _ _ hatt _ hc).2 hn ha

/-! ## READY -/

/-- A transfer in ORDERED, its timer at `n`. -/
def Moving.ordered (m : Moving) (n : Nat) : Moving := { m with context := { m.context with phase := .ordered, timer := n } }

theorem Ev.readyTaken_prepare (hm : e.st.movingOf h = some m) (ha : m.context.targetAnt = a) (hp : m.context.phase = .prepare) :
    e.readyTaken a h = e.orderMove m := by
  simp [Ev.readyTaken, hm, ha, hp]

theorem Ev.readyTaken_ordered (hm : e.st.movingOf h = some m) (ha : m.context.targetAnt = a) (hp : m.context.phase = .ordered) :
    e.readyTaken a h = e := by
  simp [Ev.readyTaken, hm, ha, hp]

theorem Ev.readyTaken_late (hn : ∀ m, e.st.movingOf h = some m → m.context.targetAnt ≠ a) :
    e.readyTaken a h = e.lateReady a h := by
  unfold Ev.readyTaken
  split
  · rename_i m hm
    rw [if_neg (hn m hm)]
  · rfl

theorem Ev.lateReady_held (hh : e.st.heldAntenna h = some a) : e.lateReady a h = e := if_pos hh

theorem Ev.To.lateReady_strange (he : e.To due s) (hx : s.strange a h) : (e.lateReady a h).To due (s.sends [.free a h]) := by
  rw [Ev.lateReady, he.heldAntenna, if_neg hx.heldAntenna_ne]
  exact he.emit _

/-- The GOTO cell, the phase and the timer of a matched READY (R127). -/
theorem Ev.To.gotoOrdered (he : e.To due s) (m : Moving) :
    ((e.emit (.goto m.context.sourceAnt m.profile.ident m.context.targetAnt m.context.target)).upd
      (·.setCtx m.ctx (some (m.ordered s.tuning.tMove).context))).To due
      ((s.sends [.goto m.context.sourceAnt m.profile.ident m.context.targetAnt m.context.target]).setCtx m.ctx
        (some (m.ordered s.tuning.tMove).context)) :=
  (he.emit _).setCtx _ _

theorem Ev.To.orderMove_keeps (he : e.To due s) (ho : m.context.options.breakFirst = false) : (e.orderMove m).To due
    ((s.sends [.goto m.context.sourceAnt m.profile.ident m.context.targetAnt m.context.target]).setCtx m.ctx
      (some (m.ordered s.tuning.tMove).context)) := by
  have hgoto := he.gotoOrdered m
  rw [← he.tuning] at hgoto ⊢
  unfold Ev.orderMove
  rw [if_neg (by simp [ho])]
  exact hgoto

theorem State.sends_setCtx (s : State) (c : ContextNo) (x : Option Context) (cells : List OutCell) :
    (s.setCtx c x).sends cells = (s.sends cells).setCtx c x := rfl

/-- Under BREAK_FIRST the source is freed and released after the GOTO cell (R128). -/
theorem Ev.To.orderMove_breaks (he : e.To due s) (ho : m.context.options.breakFirst = true) (hp : m.context.source = some place)
    (hu : ((s.sends [.goto m.context.sourceAnt m.profile.ident m.context.targetAnt m.context.target,
      .free m.context.sourceAnt m.profile.ident]).setCtx m.ctx (some (m.ordered s.tuning.tMove).context)).DropsSource m.profile
      m.service m.ctx (m.ordered s.tuning.tMove).context m.track place t) : (e.orderMove m).To due t := by
  have hfree := (he.gotoOrdered m).freeSourceCell hp
  rw [State.sends_setCtx, State.sends_sends] at hfree
  have hdrop := hfree.dropSource (m := m.ordered s.tuning.tMove) hp hu
  rw [← he.tuning] at hdrop
  unfold Ev.orderMove
  rw [if_pos ho]
  exact hdrop

/-! ## NOROOM -/

theorem Ev.noroomTaken_prepare (hm : e.st.movingOf h = some m) (ha : m.context.targetAnt = a) (hp : m.context.phase = .prepare) :
    e.noroomTaken a h = e.giveUp m .refused := by
  simp [Ev.noroomTaken, hm, ha, hp]

theorem Ev.noroomTaken_discarded
    (hn : ∀ m, e.st.movingOf h = some m → m.context.targetAnt ≠ a ∨ m.context.phase = .ordered) : e.noroomTaken a h = e := by
  unfold Ev.noroomTaken
  split
  · rename_i m hm
    rcases hn m hm with ha | hp
    · exact if_neg fun hc => ha hc.1
    · exact if_neg fun hc => by simp [hp] at hc
  · rfl

/-! ## LANDED -/

/-- A LANDED, or a JOIN, from the target of a transfer completes it in either phase (R14, R133). -/
theorem Ev.landedTaken_target (hm : e.st.movingOf h = some m) (ha : m.context.targetAnt = a) :
    e.landedTaken a h = e.complete m := by
  simp [Ev.landedTaken, hm, ha]

theorem Ev.joinTaken_target (hm : e.st.movingOf h = some m) (ha : m.context.targetAnt = a) : e.joinTaken a h = e.complete m := by
  obtain ⟨q, hr, _⟩ := State.movingOf_some hm
  simp [Ev.joinTaken, Ev.joinMoving, hr, hm, ha]

/-- A LANDED that matches no transfer is treated as a READY that matches none, but for an ORPHAN headset (R137, R138). -/
theorem Ev.landedTaken_late (hn : ∀ m, e.st.movingOf h = some m → m.context.targetAnt ≠ a)
    (ho : ∀ r, e.st.rec? h = some r → ∀ n, r.att ≠ .orphan n) : e.landedTaken a h = e.lateReady a h := by
  have hlate : e.lateLanded a h = e.lateReady a h := by
    unfold Ev.lateLanded
    split
    · rename_i n hr
      exact absurd rfl (ho _ hr n)
    · rfl
  unfold Ev.landedTaken
  split
  · rename_i m hm
    rw [if_neg (hn m hm), hlate]
  · exact hlate

/-- The reserved slot is HELD (R29). -/
theorem Ev.To.convertTarget_slot (he : e.To due s) {i : SlotNo} (ht : m.context.target = .slot i) :
    (e.convertTarget m).To due (s.setSlot m.context.targetAnt i (.held m.profile.ident)) := by
  simp only [Ev.convertTarget, ht]
  exact he.setSlot _ _ _

/-- The reserved place is a served place (R55). -/
theorem Ev.To.convertTarget_carrier (he : e.To due s) {k : CarrierNo} {before behind : Carrier} {n r : Nat}
    (ht : m.context.target = .carrier k)
    (hk : s.carrier m.context.targetAnt k = before ++ ⟨m.profile.monitor, n, r + 1⟩ :: behind)
    (ho : ∀ l ∈ before ++ behind, l.line ≠ m.profile.monitor) :
    (e.convertTarget m).To due
      (s.setCarrier m.context.targetAnt k (before ++ ⟨m.profile.monitor, n + 1, r⟩ :: behind)) := by
  have hset := he.upd (f := fun s => s.setCarrier m.context.targetAnt k
    (Carrier.convertPlace (s.carrier m.context.targetAnt k) m.profile.monitor)) (fun _ => rfl)
  simp only [hk, Carrier.convertPlace_split ho] at hset
  simp only [Ev.convertTarget, ht]
  exact hset

/-! ## Expiries -/

/-- An expiry considered while no event waits, whose event ends with room for its cells, leads to where it ends. -/
theorem State.consider_to {w : WaitingEvent} (hw : s.waiting = []) (ha : s.attempt w = e.attempt s.head)
    (hf : (Ev.start s).Frame e) (ht : e.finish.To [] t) (hr : s.roomTo t) : s.consider w = t := by
  have hidle : t.waiting = [] := by
    rw [← ht.whole]
    exact ((Ev.Frame.refl e).finish.1.waiting.trans hf.1.waiting).trans hw
  unfold State.consider
  rw [ha, Ev.attempt, ht.settle hf hr]
  exact State.reconsider_of_waiting_nil t hidle

theorem State.attemptTransfer_due (hx : s.ctx c = some x) (hr : s.rec? x.headset = some ⟨q, p, .transfer svc c tr⟩)
    (h0 : x.timer = 0) (reason : FailReason) : s.attemptTransfer c x.phase reason =
      ((Ev.start s).expireTransfer ⟨p, svc, c, tr, x⟩ reason).attempt s.head := by
  simp [State.attemptTransfer, State.movingIn_eq hx hr, h0]

/-- The expiry of a transfer's timer: FREE to the target unit, and then the reservation is given up (R130, R135). -/
theorem State.consider_expiry {w : WaitingEvent} {reason : FailReason} (hw : s.waiting = []) (hx : s.ctx c = some x)
    (hr : s.rec? x.headset = some ⟨q, p, .transfer svc c tr⟩) (h0 : x.timer = 0)
    (ha : s.attempt w = s.attemptTransfer c x.phase reason) (hn : s.roomTo t)
    (hu : x.source = none ∧ (s.sends [.free x.targetAnt x.headset]).FailsOrphan p svc c x reason t ∨
      ∃ place : Place, x.source = some place ∧
        (s.sends [.free x.targetAnt x.headset]).Returns p svc c x tr place reason t) : s.consider w = t := by
  rw [← show p.ident = x.headset from State.ident_of_rec hr] at hu
  have hfree := (Ev.to_start s).emit (.free x.targetAnt p.ident)
  exact State.consider_to hw (ha.trans (State.attemptTransfer_due hx hr h0 reason))
    ((Ev.Frame.refl _).expireTransfer ⟨p, svc, c, tr, x⟩ reason) (hfree.giveUp_finish (m := ⟨p, svc, c, tr, x⟩) hu) hn

theorem exec_tPrepExpiry (hp : s.resetPin = false) : exec (.tPrepExpiry c) s = .next (s.consider (.tPrep c)) := by
  simp [exec, execTPrepExpiry, hp]

theorem exec_tMoveExpiry (hp : s.resetPin = false) : exec (.tMoveExpiry c) s = .next (s.consider (.tMove c)) := by
  simp [exec, execTMoveExpiry, hp]

end Sys2Proof.Machine

open Sys2Proof Sys2Proof.Machine

/-- Settles O52: the READY that orders the move, with and without BREAK_FIRST, and the late READY. -/
theorem readyOrdersMove : Obligations.ReadyOrdersMove := by
  unfold Obligations.ReadyOrdersMove
  intro s b h a hs hv
  have h0 := Ev.to_start s
  refine ⟨?_, ?_, ?_, ?_⟩
  · rintro p pr svc c tr x _ hr hx rfl hp rfl
    obtain rfl : pr.ident = h := State.ident_of_rec hr
    have hready : (Ev.start s).readyTaken x.targetAnt pr.ident = (Ev.start s).orderMove ⟨pr, svc, c, tr, x⟩ :=
      Ev.readyTaken_prepare (State.movingOf_eq hr hx) rfl hp
    refine ⟨fun ho hn => ?_, fun place t ho hsrc hu hn => ?_⟩
    · refine exec_ready_eq hs hv (hready ▸ h0.orderMove_keeps ho) ⟨hn.1, ?_⟩
      simpa [State.sends, State.setCtx, State.setHead] using hn.2
    · exact exec_ready_eq hs hv (hready ▸ h0.orderMove_breaks ho hsrc hu) hn
  · rintro p pr svc held tr hr rfl
    have hlate : (Ev.start s).readyTaken held.ant h = _ := Ev.readyTaken_late fun m => State.target_ne_of_served hr
    exact exec_ready_discarded hs hv (hlate.trans (Ev.lateReady_held (State.heldAntenna_served hr)))
  · rintro p pr svc c tr x hr hx ha rfl hn
    have hlate : (Ev.start s).readyTaken x.sourceAnt h = _ := Ev.readyTaken_late fun m => State.target_ne_of_moving hr hx ha
    exact exec_ready_discarded hs hv (hlate.trans (Ev.lateReady_held (State.heldAntenna_moving hr hx hn)))
  · intro hx hn
    have hlate : (Ev.start s).readyTaken a h = _ := Ev.readyTaken_late fun m => hx.target_ne
    refine exec_ready_eq hs hv (hlate ▸ h0.lateReady_strange hx) ⟨hn.1, ?_⟩
    simpa [State.sends, State.setHead] using hn.2

/-- Settles O53: in ORDERED neither a READY nor a NOROOM from the target changes anything. -/
theorem duplicateReadyIsDiscarded : Obligations.DuplicateReadyIsDiscarded := by
  unfold Obligations.DuplicateReadyIsDiscarded
  intro s b h a p pr svc c tr x hs hv hr hx ha hp
  have hm := State.movingOf_eq hr hx
  refine ⟨exec_ready_discarded hs hv (Ev.readyTaken_ordered hm ha hp),
    exec_noroom_discarded hs hv (Ev.noroomTaken_discarded fun m hm' => .inr ?_)⟩
  obtain rfl := Option.some.inj (hm.symm.trans hm')
  exact hp

/-- Settles O54: the NOROOM that returns the headset, and the one without a transfer in PREPARE toward its antenna. -/
theorem noroomReturns : Obligations.NoroomReturns := by
  unfold Obligations.NoroomReturns
  intro s b h a hs hv
  refine ⟨fun p pr svc c tr x place t hr hx ha hp hsrc hu hn => ?_, fun hno => ?_⟩
  · have hreturn : (Ev.start s).noroomTaken a h = _ := Ev.noroomTaken_prepare (State.movingOf_eq hr hx) ha hp
    refine exec_noroom_eq hs hv ?_ hn
    rw [hreturn]
    exact (Ev.to_start s).giveUp_finish (.inr ⟨place, hsrc, hu⟩)
  · refine exec_noroom_discarded hs hv (Ev.noroomTaken_discarded fun m hm => ?_)
    obtain ⟨q, hr, hx⟩ := State.movingOf_some hm
    exact hno _ hr _ _ _ rfl _ hx

/-- Settles O55: the completion by LANDED and by JOIN, and the late LANDED. -/
theorem landedCompletes : Obligations.LandedCompletes := by
  unfold Obligations.LandedCompletes
  intro s b h a hs hv
  have h0 := Ev.to_start s
  refine ⟨?_, ?_, ?_, ?_⟩
  · rintro p pr svc svc' c tr x s₁ u t hr hx rfl hconv hu rfl hn
    obtain rfl : pr.ident = h := State.ident_of_rec hr
    have hm : (Ev.start s).st.movingOf pr.ident = some ⟨pr, svc, c, tr, x⟩ := State.movingOf_eq hr hx
    have hconvert : ((Ev.start s).convertTarget ⟨pr, svc, c, tr, x⟩).To [] s₁ ∧ placeService pr x.target = svc' := by
      rcases hconv with ⟨i, ht, rfl, hmode⟩ | ⟨k, before, behind, n, r, ht, hmode, rfl, hk, ho, rfl⟩
      · refine ⟨h0.convertTarget_slot ht, ?_⟩
        rcases hmode with ⟨hmode, rfl⟩ | ⟨hmode, rfl⟩ <;> simp [placeService, ht, hmode]
      · exact ⟨h0.convertTarget_carrier ht hk ho, by simp [placeService, ht, hmode]⟩
    have hend := hconvert.1.complete hconvert.2 hu
    exact ⟨exec_landed_eq hs hv (Ev.landedTaken_target hm rfl ▸ hend.finish) hn,
      exec_join_eq hs hv (Ev.joinTaken_target hm rfl ▸ hend.finish) hn⟩
  · rintro p pr svc held tr hr rfl
    have hlate : (Ev.start s).landedTaken held.ant h = _ := Ev.landedTaken_late (fun m => State.target_ne_of_served hr)
      (fun r hr' => by obtain rfl := Option.some.inj (hr.symm.trans hr'); simp)
    exact exec_landed_discarded hs hv (hlate.trans (Ev.lateReady_held (State.heldAntenna_served hr)))
  · rintro p pr svc c tr x hr hx ha rfl hn
    have hlate : (Ev.start s).landedTaken x.sourceAnt h = _ := Ev.landedTaken_late
      (fun m => State.target_ne_of_moving hr hx ha)
      (fun r hr' => by obtain rfl := Option.some.inj (hr.symm.trans hr'); simp)
    exact exec_landed_discarded hs hv (hlate.trans (Ev.lateReady_held (State.heldAntenna_moving hr hx hn)))
  · intro hx ho hn
    have hlate : (Ev.start s).landedTaken a h = _ := Ev.landedTaken_late (fun m => hx.target_ne) ho
    refine exec_landed_eq hs hv (hlate ▸ (h0.lateReady_strange hx).finish) ⟨hn.1, ?_⟩
    simpa [State.sends, State.setHead] using hn.2

/-- Settles O59: the expiries that return the headset, and the one that orphans it. -/
theorem transferTimersExpire : Obligations.TransferTimersExpire := by
  unfold Obligations.TransferTimersExpire
  rintro s r t h p pr svc c tr x hpin hw hx rfl hr h0 rfl hn
  refine ⟨fun place hsrc => ⟨fun hp hu => ?_, fun hp hu => ?_⟩, fun hsrc hp hu => ?_⟩
  · rw [exec_tPrepExpiry hpin, State.consider_expiry hw hx hr h0 (hp ▸ rfl) hn (.inr ⟨place, hsrc, hu⟩)]
  · rw [exec_tMoveExpiry hpin, State.consider_expiry hw hx hr h0 (hp ▸ rfl) hn (.inr ⟨place, hsrc, hu⟩)]
  · rw [exec_tMoveExpiry hpin, State.consider_expiry hw hx hr h0 (hp ▸ rfl) hn (.inl ⟨hsrc, hu⟩)]
end

section
/-! PROOF. The input buffer of the head port (chapter 8): what the arrival of a cell does by the occupancy, and the taking of a cell
with cells behind it. What the owner of a cell does, it does on any head port (Laws/Detached.lean), and so it carries over to a
longer buffer. -/

namespace Sys2Proof.Machine

variable {s t : State} {c : RawCell} {behind : List RawCell}

/-! ## Arrival -/

theorem exec_cellArrival : exec (.cellArrival c) s = .next (s.arrive c) := rfl

/-- HEAR alone has the kind byte 0x01 (R183). -/
theorem unitKindOf_eq_hear {b : Byte} : unitKindOf b = some .hear ↔ b = 0x01 := by
  constructor
  · intro h
    unfold unitKindOf at h
    split at h
    case h_1 hb => exact BitVec.eq_of_toNat_eq hb
    all_goals cases h
  · rintro rfl
    rfl

/-- HSTALL is asserted by the arrival that fills the buffer (R146). -/
theorem stallAfterArrival_succ (b : Bool) {n : Nat} (hn : n < 128) :
    stallAfterArrival b (n + 1) = (b || decide (n = 127)) := by
  by_cases h : n = 127
  · simp [stallAfterArrival, Config.inputCells, h]
  · have : ¬ 128 ≤ n + 1 := by omega
    simp [stallAfterArrival, Config.inputCells, h, this]

/-- Below 128 a cell joins the tail, but for a HEAR at 96 or more (R144 to R146). -/
theorem State.arrive_joins (hp : s.resetPin = false)
    (hn : s.head.input.length < 96 ∨ s.head.input.length < 128 ∧ c.kind ≠ 0x01) :
    s.arrive c = s.setHead { s.head with
      input := s.head.input ++ [c], hstall := s.head.hstall || decide (s.head.input.length = 127) } := by
  have hroom : s.head.input.length < 128 := by omega
  have hkept : ¬ (unitKindOf c.kind = some .hear ∧ Config.shedAt ≤ s.head.occupancy) := by
    rw [unitKindOf_eq_hear]
    rintro ⟨hk, hshed⟩
    rcases hn with hn | ⟨_, hne⟩
    · exact absurd hn (Nat.not_lt.mpr hshed)
    · exact hne hk
  have hfull : ¬ Config.inputCells ≤ s.head.occupancy := Nat.not_le.mpr hroom
  simp only [State.arrive, hp, Bool.false_eq_true, if_false, if_neg hkept, if_neg hfull, HeadPort.joinTail,
    stallAfterArrival_succ _ hroom]

/-- A HEAR at 96 or more is shed (R145). -/
theorem State.arrive_sheds (hp : s.resetPin = false) (hn : 96 ≤ s.head.input.length) (hk : c.kind = 0x01) :
    s.arrive c = s.shed := by
  have hshed : unitKindOf c.kind = some .hear ∧ Config.shedAt ≤ s.head.occupancy := ⟨unitKindOf_eq_hear.mpr hk, hn⟩
  simp only [State.arrive, hp, Bool.false_eq_true, if_false, if_pos hshed]

/-- Any other cell at 128 is lost (R144). -/
theorem State.arrive_lost (hp : s.resetPin = false) (hn : 128 ≤ s.head.input.length) (hk : c.kind ≠ 0x01) :
    s.arrive c = s := by
  have hkept : ¬ (unitKindOf c.kind = some .hear ∧ Config.shedAt ≤ s.head.occupancy) :=
    fun h => hk (unitKindOf_eq_hear.mp h.1)
  have hfull : Config.inputCells ≤ s.head.occupancy := hn
  simp only [State.arrive, hp, Bool.false_eq_true, if_false, if_neg hkept, if_pos hfull]

/-! ## The head of a longer buffer -/

/-- A unit's cell as a command is presented to the head port, whatever its kind (log 2). -/
theorem exec_of_cellOf {i : Instr} (hi : cellOf i = some c) : exec i s = .next (s.presentCell c) := by
  cases i with
  | nonUnitKindCell d =>
    simp only [cellOf, Option.ite_none_right_eq_some, Option.some.injEq] at hi
    obtain ⟨hk, rfl⟩ := hi
    have hwell : (Instr.nonUnitKindCell d).wellFormed = true := by
      simp [Instr.wellFormed, isUnitKind]
      omega
    simp only [exec, execNonUnitKindCell, hwell, if_true]
  | hear | join | ready | noroom | landed | gone | quit | up | down =>
    obtain rfl := Option.some.inj hi
    rfl
  | _ => cases hi

/-- A cell stands at the head of the input buffer with these cells behind it, and no event waits that its taking could let in. -/
structure State.AtHead (s : State) (c : RawCell) (behind : List RawCell) : Prop where
  released : s.resetPin = false
  idle : s.waiting = []
  input : s.head.input = c :: behind

/-- A cell that stands at the head already is considered for taking (log 2). -/
theorem State.AtHead.presentCell (hc : s.AtHead c behind) : s.presentCell c = s.consider .cell := by
  have hhead : s.headIs c = true := by simp [State.headIs, hc.input, sameCell_self]
  simp [State.presentCell, hc.released, hhead]

/-- What the taking of the cell at the head makes of the input buffer, of shedding and of HSTALL (R144 to R146). -/
def HeadPort.left (p : HeadPort) (behind : List RawCell) : HeadPort :=
  { p with
    input := behind, shedding := p.shedding && decide (64 ≤ behind.length), hstall := p.hstall && decide (112 < behind.length) }

/-- The part on which the cell at the head is taken alone: its buffer empty, and the notice of shedding given where the cell leaves
fewer than 64 behind it (R145). -/
def State.alone (s : State) (behind : List RawCell) : State :=
  State.setHead (if s.head.shedding = true ∧ behind.length < 64 then s.notify (.shedding false) else s)
    { s.head with input := [], shedding := false, hstall := false }

theorem State.AtHead.alone_cellReady (hc : s.AtHead c behind) : (s.alone behind).cellReady := by
  unfold State.alone
  split <;> exact ⟨hc.released, rfl, rfl, rfl, hc.idle⟩

/-- The judging of a cell does not read its buffer or the notices (R147). -/
theorem State.judge_alone : (s.alone behind).judge c = s.judge c := by
  unfold State.alone
  split <;> rfl

/-- The part that a cell leaves behind in the buffer is the part on which it is taken alone, but for the head port. -/
theorem State.AtHead.leaveBuffer (hc : s.AtHead c behind) : s.leaveBuffer = (s.alone behind).setHead (s.head.left behind) := by
  have hstall : stallAfterTaking s.head.hstall behind.length = (s.head.hstall && decide (112 < behind.length)) := by
    by_cases h : behind.length ≤ 112
    · simp [stallAfterTaking, Config.stallReleaseAt, h]
    · simp [stallAfterTaking, Config.stallReleaseAt, h, Nat.lt_of_not_le h]
  simp only [State.leaveBuffer, State.alone, HeadPort.left, hc.input, List.tail_cons, hstall, Config.shedOffBelow]
  by_cases hoff : s.head.shedding = true ∧ behind.length < 64
  · have hless : ¬ 64 ≤ behind.length := by omega
    simp only [hoff, hless, decide_true, decide_false, Bool.and_self, Bool.and_false, and_self, if_true]
    rfl
  · have hsame : (s.head.shedding && decide (64 ≤ behind.length)) = s.head.shedding := by
      cases hs : s.head.shedding
      · rfl
      · simp only [hs, true_and] at hoff
        simpa using hoff
    rw [if_neg (by simpa using hoff), if_neg hoff, hsame]
    rfl

/-- A cell at an idle head port after which no event waits is discarded or taken: it does not wait itself. -/
theorem State.presentCell_cases (hs : s.cellReady) (hw : (s.presentCell c).waiting = []) :
    s.judge c = none ∧ s.presentCell c = s ∨
      ∃ k a, s.judge c = some (k, a) ∧ (Ev.cellEvent c k a (Ev.start s)).settle s.head = some (s.presentCell c) := by
  have ⟨_, _, _, _, hidle⟩ := hs
  rw [State.presentCell_ready s c hs] at hw ⊢
  cases hj : s.judge c with
  | none => exact .inl ⟨rfl, rfl⟩
  | some ka =>
    obtain ⟨k, a⟩ := ka
    refine .inr ⟨k, a, rfl, ?_⟩
    simp only [hj] at hw ⊢
    cases he : (Ev.cellEvent c k a (Ev.start s)).settle s.head with
    | none => simp [he] at hw
    | some t =>
      have hkept : s.PortsKept t :=
        Ev.portsKept_attempt (p := s.head) (Ev.portsKept_cellEvent (Ev.start s) c k a) (by simp [Ev.attempt, he])
      exact congrArg some (State.reconsider_of_waiting_nil t (hkept.waiting.trans hidle)).symm

/-- A cell at the head of a longer buffer does what it does alone, and leaves the cells behind it (R144 to R146). -/
theorem State.AtHead.attemptCell (hc : s.AtHead c behind) (ht : (s.alone behind).presentCell c = t) (hw : t.waiting = []) :
    s.attemptCell = .taken (t.setHead { t.head with
      input := behind, shedding := s.head.shedding && decide (64 ≤ behind.length),
      hstall := s.head.hstall && decide (112 < behind.length) }) := by
  subst ht
  simp only [State.attemptCell, hc.input, hc.leaveBuffer]
  rcases State.presentCell_cases hc.alone_cellReady hw with ⟨hj, ht⟩ | ⟨k, a, hj, ht⟩
  · rw [State.judge_alone] at hj
    simp only [hj, ht]
    rfl
  · rw [State.judge_alone] at hj
    have hhead : (Ev.cellEvent c k a (Ev.start (s.alone behind))).finish.st.head = (s.alone behind).head :=
      (Ev.Frame.refl _).finish.1.head.trans (Ev.head_cellEvent _ c k a)
    have hlonger := Ev.settle_onHead _ (q := s.head.left behind) (x := s.head) hhead ht rfl rfl rfl rfl rfl
    rw [← Ev.cellEvent_onHead] at hlonger
    simp only [hj, Ev.attempt]
    rw [show Ev.start ((s.alone behind).setHead (s.head.left behind)) = (Ev.start (s.alone behind)).onHead (s.head.left behind)
      from rfl, hlonger]
    rfl

end Sys2Proof.Machine

open Sys2Proof Sys2Proof.Machine

/-- Settles O44: the arrival by the occupancy, and the cell at the head of a longer buffer. -/
theorem arrivalFollowsOccupancy : Obligations.ArrivalFollowsOccupancy := by
  unfold Obligations.ArrivalFollowsOccupancy
  refine ⟨fun s c hp => ⟨fun hn => ?_, fun hn hk hs => ?_, fun hn hk hs => ?_, fun hn hk => ?_⟩, ?_⟩
  · rw [exec_cellArrival, State.arrive_joins hp hn]
  · simp [exec_cellArrival, State.arrive_sheds hp hn hk, State.shed, hs]
  · simp [exec_cellArrival, State.arrive_sheds hp hn hk, State.shed, hs]
  · rw [exec_cellArrival, State.arrive_lost hp hn hk]
  · rintro i c behind s alone t hi hp hw hin rfl ht htw
    rw [exec_of_cellOf hi] at ht ⊢
    have hc : s.AtHead c behind := ⟨hp, hw, hin⟩
    have htaken := hc.attemptCell (Host.Outcome.next.inj ht) htw
    rw [hc.presentCell, State.consider, show s.attempt .cell = s.attemptCell from rfl, htaken]
    exact congrArg _ (State.reconsider_of_waiting_nil _ htw)
end

section
/-! PROOF. WARM (R172): the frame of a WARM needs no room, since its cells enter a queue that it has emptied (R153, R157). -/

namespace Sys2Proof.Machine

variable {s : State}

theorem exec_warm (tag : Byte) : exec (.warm tag) s = .next (s.presentRequest tag .warm) := rfl

/-! ## What WARM makes of the tables -/

/-- The part on which the cells of a WARM are sent, the free value of log 7 drawn where it is needed. -/
def State.warmed (s : State) : State := { s.warm s.drawBegun.1 with freeIndex := s.drawBegun.2 }

theorem State.ant_warmed (s : State) (a : AntennaNo) : s.warmed.ant a = (s.ant a).warm := by
  simp [State.ant, State.warmed, State.warm]

theorem State.ven_warmed (s : State) (v : VenueNo) : s.warmed.ven v = (s.ven v).warm := by
  simp [State.ven, State.warmed, State.warm]

theorem State.ctx_warmed (s : State) (c : ContextNo) : s.warmed.ctx c = none := by
  simp [State.ctx, State.warmed, State.warm]

theorem State.tap_warmed (s : State) (n : TapNo) : s.warmed.tap n = Tap.reset := by
  simp [State.tap, State.warmed, State.warm]

/-- The fields of a tap that is OFF; of its circular flag the manual says nothing (log 13). -/
theorem Tap.fields_of_reset {x : Tap} (hx : x = Tap.reset) : x = ⟨false, .measure, 0, 0, 0, x.circular, 0, [], false⟩ := by
  subst hx
  rfl

/-- The units that CLEAR goes to are those of the configuration, which WARM keeps (R172). -/
theorem State.onlineUnits_warmed (s : State) : s.warmed.onlineUnits = s.onlineUnits := by
  simp [State.onlineUnits, State.ant_warmed, Antenna.warm]

/-! ## The taking of a WARM -/

/-- The queue that WARM leaves has room for a CLEAR cell to every antenna (R153). -/
theorem State.warmed_room : s.warmed.head.output.length + (s.onlineUnits.map OutCell.clear).length ≤ 128 := by
  have hqueue : s.warmed.head.output.length ≤ 1 := by
    show (if s.drawBegun.1 then s.head.output.take 1 else []).length ≤ 1
    split <;> simp
  have hunits : s.onlineUnits.length ≤ 48 := (List.length_filter_le _ _).trans (by simp [allAntennas])
  rw [List.length_map]
  omega

/-- The record of a WARM, alone in its frame: the CLEAR cells, with no cell before it (R157, R172). -/
theorem Ev.carryOut_warm : (Ev.start s).carryOut .warm =
    (⟨s.warmed, s.onlineUnits.map OutCell.clear, some 0, []⟩, ⟨.ok, 0, [s.mode.code]⟩) := by
  rw [← State.onlineUnits_warmed]
  rfl

/-- An event that begins with a WARM is taken whatever room there was before it (R157). -/
theorem Ev.settle_of_warm_first {e : Ev} (p : HeadPort) (hl : e.late = []) (hw : e.beforeWarm = some 0)
    (hn : e.st.head.output.length + e.cells.length ≤ 128) : e.settle p = some (e.st.sends e.cells) := by
  unfold Ev.settle
  rw [Ev.finish_of_late_nil e hl]
  simp [HeadPort.fits, Ev.counted, hw, HeadPort.enqueue_of_le _ _ hn, State.sends]

/-- WARM at an idle control port is taken whatever room there is (R157, R172). -/
theorem State.presentRequest_warm (tag : Byte) (hs : s.hostReady) : s.presentRequest tag .warm =
    (s.warmed.sends (s.onlineUnits.map OutCell.clear)).replied 0x05 tag .ok 0 [s.mode.code] := by
  obtain ⟨hpin, hrx, hframes, hanswers, hidle⟩ := hs
  have hbuffer : s.ctrl.buffersUsed < Config.frameBuffers := by simp [ControlPort.buffersUsed, hrx, hframes]
  have hmay : (s.ctrl.frames.isEmpty && s.ctrl.mayTake) = true := by simp [hframes, ControlPort.mayTake, hanswers]
  have hframe := Ev.frame_one (Ev.start s) tag .warm (by simp [isQuery])
  rw [Ev.carryOut_warm] at hframe
  simp only [State.presentRequest, State.presentFrame, hpin, hrx, hbuffer, Bool.false_eq_true, if_false, if_true,
    State.takeOrStore, hmay, hframe]
  rw [Ev.settle_of_warm_first s.head rfl rfl State.warmed_room]
  exact State.reconsider_of_waiting_nil _ hidle

/-- A cell that an earlier WARM has kept stays, and where the queue is empty there is none to keep (R153; log 7). -/
theorem State.drawBegun_cases : (s.head.begun = true → s.drawBegun.1 = true) ∧
    (s.head.begun = false → s.head.output = [] → s.drawBegun.1 = false) := by
  constructor
  · intro hb
    simp [State.drawBegun, hb]
  · intro hb ho
    simp [State.drawBegun, hb, ho]

end Sys2Proof.Machine

open Sys2Proof Sys2Proof.Machine

/-- Settles O21: the part after WARM, field by field. -/
theorem warmClearsLiveState : Obligations.WarmClearsLiveState := by
  unfold Obligations.WarmClearsLiveState
  intro s tag hs
  obtain ⟨hkept, hempty⟩ := s.drawBegun_cases
  have htaken := (exec_warm tag).trans (congrArg _ (State.presentRequest_warm tag hs))
  refine ⟨_, s.drawBegun.1, htaken, hkept, hempty, rfl, rfl, rfl, rfl, s.ant_warmed, s.ven_warmed, s.ctx_warmed, rfl, ?_,
    fun n => Tap.fields_of_reset (s.tap_warmed n), rfl, hs.1, rfl⟩
  cases hmode : s.mode <;> rfl
end

section
/-! PROOF. The laws at reset (R167, R173), and the requests of mode control that read the antennas and the registry: IDENT (R166)
and GO (R170, R171). -/

namespace Sys2Proof.Machine

variable {s t : State} {e : Ev} {v : VenueNo}

/-! ## The tables at reset -/

theorem State.ant_reset (a : AntennaNo) : State.reset.ant a = Antenna.reset := by simp [State.ant, State.reset]

theorem State.carrier_reset (a : AntennaNo) (k : CarrierNo) : State.reset.carrier a k = [] := by
  simp [State.carrier, State.ant_reset, Antenna.reset]

theorem State.tap_reset (n : TapNo) : State.reset.tap n = Tap.reset := by simp [State.tap, State.reset]

theorem ControlPort.lawful_reset : ControlPort.reset.lawful := by
  unfold ControlPort.lawful
  decide

theorem HeadPort.lawful_reset : HeadPort.reset.lawful := by
  unfold HeadPort.lawful
  decide

theorem Tap.lawful_reset : Tap.reset.lawful := by
  unfold Tap.lawful
  decide

theorem registryLawful_nil : registryLawful [] := by simp [registryLawful]

/-! ## Requests that the mode accepts -/

theorem exec_ident (tag : Byte) : exec (.ident tag) s = .next (s.presentRequest tag .ident) := rfl
theorem exec_go (tag : Byte) : exec (.go tag) s = .next (s.presentRequest tag .go) := rfl

/-- IDENT is accepted in both modes (R166). -/
theorem Ev.carryOut_ident : (Ev.start s).carryOut .ident = (Ev.start s, ⟨.ok, 0, identResult s.mode⟩) := by
  cases hm : s.mode <;> simp [Ev.carryOut, accepts, Ev.doRequest, Ev.doIdent, Ev.ok, hm]

/-- GO is accepted in SETUP (R165). -/
theorem Ev.carryOut_go (hm : s.mode = .setup) : (Ev.start s).carryOut .go = (Ev.start s).doGo := by
  simp [Ev.carryOut, accepts, Ev.doRequest, hm]

/-- A GO at an idle control port, whose event leaves the head port and the waiting events alone and has no cells or room for
them. -/
theorem exec_go_eq (tag : Byte) {d : Done} (hs : s.hostReady) (hm : s.mode = .setup) (hd : (Ev.start s).doGo = (e, d))
    (ht : e.To [] t) (hh : e.st.head = s.head) (hw : e.st.waiting = s.waiting) (hr : e.cells = [] ∨ s.roomTo t) :
    exec (.go tag) s = .next (t.replied 0x04 tag d.status d.offset d.result) :=
  congrArg _ (State.presentRequest_of_head s tag .go d hs rfl ((Ev.carryOut_go hm).trans hd) ht hh hw hr)

/-- A refused GO changes nothing but the answers (R170). -/
theorem exec_go_refused (tag : Byte) {d : Done} (hs : s.hostReady) (hm : s.mode = .setup)
    (hd : (Ev.start s).doGo = (Ev.start s, d)) :
    exec (.go tag) s = .next (s.replied 0x04 tag d.status d.offset d.result) :=
  exec_go_eq tag hs hm hd (Ev.to_start s) rfl rfl (.inl rfl)

/-! ## The present antennas of the part and of a venue -/

theorem State.presentUnits_isEmpty_iff :
    (allAntennas.filter (fun a => (s.ant a).present)).isEmpty = true ↔ ∀ a, (s.ant a).present = false := by
  simp [allAntennas]

theorem State.presentUnits_nonempty (h : ∃ a, (s.ant a).present = true) :
    ¬ (allAntennas.filter (fun a => (s.ant a).present)).isEmpty = true := by
  obtain ⟨a, hp⟩ := h
  rw [State.presentUnits_isEmpty_iff]
  exact fun hn => by simp [hn a] at hp

theorem State.presentIn_isEmpty_iff :
    (s.presentIn v).isEmpty = true ↔ ∀ a, (s.ant a).present = true → (s.ant a).venue ≠ v := by
  simp [State.presentIn, allAntennas]

theorem State.presentIn_nonempty (h : ∃ a, (s.ant a).present = true ∧ (s.ant a).venue = v) :
    (s.presentIn v).isEmpty = false := by
  obtain ⟨a, hp, hv⟩ := h
  exact Bool.eq_false_iff.mpr (fun hn => State.presentIn_isEmpty_iff.mp hn a hp hv)

/-! ## The two checks of GO (R170) -/

theorem State.unservedHome_none (h : ∀ r ∈ s.registry, ∃ a, (s.ant a).present = true ∧ (s.ant a).venue = r.profile.home) :
    s.unservedHome = none :=
  List.find?_eq_none.mpr (fun r hr => by simp [State.presentIn_nonempty (h r hr)])

/-- In a registry in position order the first record whose home venue has no present antenna is the one of the lowest
position. -/
theorem State.unservedHome_first {r : HeadsetRecord} (hl : registryLawful s.registry) (hr : r ∈ s.registry)
    (hn : ∀ a, (s.ant a).present = true → (s.ant a).venue ≠ r.profile.home)
    (hq : ∀ q ∈ s.registry, q.position < r.position → ∃ a, (s.ant a).present = true ∧ (s.ant a).venue = q.profile.home) :
    s.unservedHome = some r := by
  obtain ⟨hsorted, _, _⟩ := hl
  obtain ⟨before, behind, hsplit⟩ := List.append_of_mem hr
  rw [hsplit, List.pairwise_append] at hsorted
  obtain ⟨_, _, hbefore⟩ := hsorted
  refine List.find?_eq_some_iff_append.mpr ⟨State.presentIn_isEmpty_iff.mpr hn, before, behind, hsplit, fun q hm => ?_⟩
  have hserved := hq q (by simp [hsplit, hm]) (hbefore q hm r (by simp))
  simp [State.presentIn_nonempty hserved]

theorem Ev.doGo_noAntenna (hn : ∀ a, (e.st.ant a).present = false) :
    e.doGo = (e, ⟨.notFound, 0, [1, 0xFF, 0xFF, 0xFF, 0]⟩) := by
  unfold Ev.doGo
  rw [if_pos (State.presentUnits_isEmpty_iff.mpr hn)]
  rfl

/-- Where an antenna is present, a home venue without one refuses the GO (R170). -/
theorem Ev.doGo_unserved {r : HeadsetRecord} (hp : ∃ a, (e.st.ant a).present = true) (hu : e.st.unservedHome = some r) :
    e.doGo = (e, ⟨.notFound, 0, [2] ++ nat16 r.position.val ++ [byte r.profile.home.val, 0]⟩) := by
  unfold Ev.doGo
  rw [if_neg (State.presentUnits_nonempty hp), hu]

/-- Where every home venue is served, RUN is entered with a MODE cell to each unit (R170, R171). -/
theorem Ev.doGo_enters (hp : ∃ a, (e.st.ant a).present = true) (hu : e.st.unservedHome = none) :
    e.doGo = ((e.upd (fun s => { s with mode := .run })).modeCells e.st.onlineUnits false).ok
      [0, 0, 0, 0, byte e.st.onlineUnits.length] := by
  unfold Ev.doGo
  rw [if_neg (State.presentUnits_nonempty hp), hu]

/-- A GO that enters RUN reaches RUN with its MODE cells sent (R171). -/
theorem Ev.To.enterRun (he : e.To [] s) (units : List AntennaNo) :
    ((e.upd (fun s => { s with mode := .run })).modeCells units false).To []
      (State.sends { s with mode := .run } (units.map (fun a => .mode a false))) :=
  (he.upd (f := fun s => { s with mode := .run }) (fun _ => rfl)).modeCells units false

end Sys2Proof.Machine

open Sys2Proof Sys2Proof.Machine

/-- Settles O4: each table at reset is empty or holds its reset entry alone, and each reset entry meets its law. -/
theorem lawsHoldAtReset : Obligations.LawsHoldAtReset := by
  unfold Obligations.LawsHoldAtReset
  refine ⟨ControlPort.lawful_reset, HeadPort.lawful_reset, fun n => ?_, fun r hr => ?_, registryLawful_nil, fun a => ?_,
    State.carriersLawful_of_nil State.carrier_reset, Tuning.lawful_reset⟩
  · rw [State.tap_reset]
    exact Tap.lawful_reset
  · exact absurd hr List.not_mem_nil
  · rw [State.ant_reset]
    exact Nat.zero_le _

/-- Settles O17: IDENT leaves the event as it starts, in either mode. -/
theorem identReports : Obligations.IdentReports := by
  unfold Obligations.IdentReports
  refine ⟨rfl, fun s tag hs => ?_⟩
  rw [exec_ident, State.presentRequest_of_head s tag .ident _ hs rfl Ev.carryOut_ident (Ev.to_start s) rfl rfl (.inl rfl)]
  cases s.mode <;> rfl

/-- Settles O20: the GO that enters RUN, and the refusals of its two checks. -/
theorem goEntersRun : Obligations.GoEntersRun := by
  unfold Obligations.GoEntersRun
  intro s tag hs hm
  refine ⟨?_, fun hn => ?_, fun r hr hl hp hn hq => ?_⟩
  · rintro _ hp hhome rfl ⟨hoverflow, hlength⟩
    have hgo := Ev.doGo_enters (e := Ev.start s) hp (State.unservedHome_none hhome)
    have hfits : s.roomTo (State.sends { s with mode := .run } (s.onlineUnits.map (fun a => .mode a false))) :=
      ⟨hoverflow, by simpa [State.sends, State.onlineUnits, allAntennas] using hlength⟩
    exact exec_go_eq tag hs hm hgo ((Ev.to_start s).enterRun s.onlineUnits) rfl rfl (.inr hfits)
  · exact exec_go_refused tag hs hm (Ev.doGo_noAntenna hn)
  · exact exec_go_refused tag hs hm (Ev.doGo_unserved hp (State.unservedHome_first hl hr hn hq))
end
section
/-! PROOF. The laws of a track (R68, R72, R76, R84), kept by each change that a report, a round or a transfer makes to it. -/

namespace Sys2Proof.Machine

variable {l : List HearEntry} {tr : Track} {n : Nat} {a : AntennaNo}

/-! ## Hearing lists -/

/-- The law of a hearing list whose headset is SERVED: no entry has the pin TARGET (R76). -/
def servedLawful (l : List HearEntry) : Prop := hearingLawful l ∧ l.countP (fun y => y.pin == .target) = 0

/-- At most one entry is of a given antenna. -/
theorem hearingLawful.countP_ant (h : hearingLawful l) (a : AntennaNo) : l.countP (fun x => decide (x.ant = a)) ≤ 1 := by
  obtain ⟨_, hnodup, _⟩ := h
  have hcount := List.nodup_iff_count_le_one.mp hnodup a
  rw [List.count, List.countP_map] at hcount
  exact hcount

/-- A change of the entries that leaves their antennas and averages keeps the law where it leaves each pin on one entry at most. -/
theorem hearingLawful.map (h : hearingLawful l) {f : HearEntry → HearEntry} (hant : ∀ x, (f x).ant = x.ant)
    (havg : ∀ x, (f x).avg = x.avg) (hserving : (l.map f).countP (fun x => x.pin == .serving) ≤ 1)
    (htarget : (l.map f).countP (fun x => x.pin == .target) ≤ 1) : hearingLawful (l.map f) := by
  obtain ⟨hlength, hnodup, hrange, _, _⟩ := h
  refine ⟨by simpa using hlength, ?_, ?_, hserving, htarget⟩
  · rw [List.map_map, show (fun x : HearEntry => x.ant) ∘ f = (·.ant) from funext hant]
    exact hnodup
  · simp only [List.mem_map]
    rintro _ ⟨x, hx, rfl⟩ v hv
    exact hrange x hx v (by rw [← havg]; exact hv)

/-- A change of the entries that leaves their pins too keeps the law. -/
theorem hearingLawful.map_of_pin (h : hearingLawful l) {f : HearEntry → HearEntry} (hant : ∀ x, (f x).ant = x.ant)
    (havg : ∀ x, (f x).avg = x.avg) (hpin : ∀ x, (f x).pin = x.pin) : hearingLawful (l.map f) := by
  obtain ⟨_, _, _, hserving, htarget⟩ := id h
  exact h.map hant havg (by simpa [List.countP_map, Function.comp_def, hpin] using hserving)
    (by simpa [List.countP_map, Function.comp_def, hpin] using htarget)

/-- Entries that leave the list leave it lawful. -/
theorem hearingLawful.sublist {m : List HearEntry} (h : hearingLawful l) (hm : m.Sublist l) : hearingLawful m := by
  obtain ⟨hlength, hnodup, hrange, hserving, htarget⟩ := h
  exact ⟨hm.length_le.trans hlength, (hm.map _).nodup hnodup, fun x hx => hrange x (hm.subset hx),
    (hm.countP_le).trans hserving, (hm.countP_le).trans htarget⟩

theorem servedLawful.sublist {m : List HearEntry} (h : servedLawful l) (hm : m.Sublist l) : servedLawful m :=
  ⟨h.1.sublist hm, Nat.le_zero.mp (h.2 ▸ hm.countP_le)⟩

theorem servedLawful.map_of_pin (h : servedLawful l) {f : HearEntry → HearEntry} (hant : ∀ x, (f x).ant = x.ant)
    (havg : ∀ x, (f x).avg = x.avg) (hpin : ∀ x, (f x).pin = x.pin) : servedLawful (l.map f) :=
  ⟨h.1.map_of_pin hant havg hpin, by simpa [List.countP_map, Function.comp_def, hpin] using h.2⟩

/-- The list that a grant creates (R11, R76). -/
theorem servedLawful_granted (a : AntennaNo) : servedLawful (Track.granted a).hearing := by
  refine ⟨⟨?_, ?_, ?_, ?_, ?_⟩, ?_⟩ <;> simp [Track.granted]

/-! ## A new entry -/

theorem notMem_of_entryOf_none (h : entryOf l a = none) : a ∉ l.map (·.ant) := by
  simpa [entryOf] using h

/-- A full list has an entry to replace, since at most two of its six are pinned (R75). -/
theorem hearingLawful.dropReplaced_length (h : hearingLawful l) (hfull : 6 ≤ l.length) : (dropReplaced l).length ≤ 5 := by
  obtain ⟨hlength, _, _, hserving, htarget⟩ := h
  have hunpinned : ∃ x ∈ l, x.pin = .unpinned := by
    by_contra hnone
    push Not at hnone
    have hpinned := List.length_eq_countP_add_countP (l := l) (fun x => x.pin == .serving)
    have htargets : l.countP (fun x => decide (¬ (x.pin == .serving) = true)) ≤ l.countP (fun x => x.pin == .target) := by
      refine List.countP_mono_left (fun x hx hs => ?_)
      have := hnone x hx
      cases hp : x.pin <;> simp_all
    omega
  obtain ⟨x, hx, hpin⟩ := hunpinned
  have := List.length_eraseP_of_mem (p := fun x : HearEntry => x.pin == .unpinned) (List.mem_reverse.mpr hx) (by simp [hpin])
  simp only [dropReplaced, List.length_reverse] at this ⊢
  omega

theorem dropReplaced_sublist (l : List HearEntry) : (dropReplaced l).Sublist l := by
  simpa [dropReplaced] using (List.eraseP_sublist (p := fun x : HearEntry => x.pin == .unpinned) (l := l.reverse)).reverse

/-- An entry of a new antenna leaves a lawful list lawful, where its average is in range and its pin is on no other (R74, R75). -/
theorem hearingLawful.addEntry {x : HearEntry} (h : hearingLawful l) (hnew : x.ant ∉ l.map (·.ant))
    (havg : ∀ v, x.avg = some v → v ≤ 4000) (hserving : x.pin ≠ .serving)
    (htarget : x.pin = .target → l.countP (fun y => y.pin == Pin.target) = 0) : hearingLawful (addEntry x l) := by
  have hrest : hearingLawful (if l.length < 6 then l else dropReplaced l) ∧
      (if l.length < 6 then l else dropReplaced l).Sublist l ∧ (if l.length < 6 then l else dropReplaced l).length ≤ 5 := by
    split
    · exact ⟨h, List.Sublist.refl _, by omega⟩
    · exact ⟨h.sublist (dropReplaced_sublist l), dropReplaced_sublist l, h.dropReplaced_length (by omega)⟩
  show hearingLawful (x :: _)
  generalize (if l.length < Config.hearingEntries then l else dropReplaced l) = m at hrest ⊢
  obtain ⟨⟨_, hnodup, hrange, hs, ht⟩, hsub, hlength⟩ := hrest
  refine ⟨Nat.succ_le_succ hlength, ?_, ?_, ?_, ?_⟩
  · exact List.nodup_cons.mpr ⟨fun hmem => hnew ((hsub.map _).subset hmem), hnodup⟩
  · intro y hy
    rcases List.mem_cons.mp hy with rfl | hy
    · exact havg
    · exact hrange y hy
  · simpa [List.countP_cons, hserving] using hs
  · rw [List.countP_cons]
    by_cases hx : x.pin = .target
    · have hnone := (hsub.countP_le (p := fun y : HearEntry => y.pin == Pin.target)).trans_eq (htarget hx)
      simp only [hx, beq_self_eq_true, if_true]
      omega
    · simpa [hx] using ht

/-- A new entry without a pin leaves no TARGET pin where there was none. -/
theorem servedLawful.addEntry {x : HearEntry} (h : servedLawful l) (hnew : x.ant ∉ l.map (·.ant))
    (havg : ∀ v, x.avg = some v → v ≤ 4000) (hpin : x.pin = .unpinned) : servedLawful (addEntry x l) := by
  refine ⟨h.1.addEntry hnew havg (by simp [hpin]) (by simp [hpin]), ?_⟩
  have hsub : (if l.length < Config.hearingEntries then l else dropReplaced l).Sublist l := by
    split
    · exact List.Sublist.refl _
    · exact dropReplaced_sublist l
  have hnone := (hsub.countP_le (p := fun y : HearEntry => y.pin == Pin.target)).trans_eq h.2
  rw [Machine.addEntry, List.countP_cons, Nat.le_zero.mp hnone]
  simp [hpin]

/-! ## The pins of a transfer -/

/-- At a start the target entry alone has the pin TARGET (R76). -/
theorem servedLawful.pinTarget (h : servedLawful l) (a : AntennaNo) : hearingLawful (pinTarget a l) := by
  obtain ⟨hl, hnone⟩ := h
  unfold Machine.pinTarget
  split
  · refine hl.map (by intro x; split <;> rfl) (by intro x; split <;> rfl) ?_ ?_ <;> rw [List.countP_map]
    · refine (List.countP_mono_left fun x _ hx => ?_).trans hl.2.2.2.1
      by_cases hxa : x.ant = a <;> simp_all
    · refine (List.countP_mono_left fun x hx ht => ?_).trans (hl.countP_ant a)
      have := List.countP_eq_zero.mp hnone x hx
      by_cases hxa : x.ant = a <;> simp_all
  · rename_i hnew
    exact hl.addEntry (notMem_of_entryOf_none hnew) (by simp) (by simp) (fun _ => hnone)

/-- At a completion the target entry alone is pinned, SERVING (R76). -/
theorem hearingLawful.pinLanded (h : hearingLawful l) (a : AntennaNo) : servedLawful (pinLanded a l) := by
  have hnone : (Machine.pinLanded a l).countP (fun y => y.pin == .target) = 0 := by
    rw [Machine.pinLanded, List.countP_map, List.countP_eq_zero]
    intro x _
    by_cases hxa : x.ant = a <;> simp [hxa]
  refine ⟨h.map (by intro x; split <;> rfl) (by intro x; split <;> rfl) ?_ (hnone.le.trans (Nat.zero_le 1)), hnone⟩
  rw [List.countP_map]
  refine (List.countP_mono_left fun x _ hx => ?_).trans (h.countP_ant a)
  by_cases hxa : x.ant = a <;> simp_all

/-- At a return no TARGET pin is left (R76). -/
theorem hearingLawful.unpinTarget (h : hearingLawful l) (a : AntennaNo) (backoff : Nat) :
    servedLawful (unpinTarget a backoff l) := by
  have hnone : (Machine.unpinTarget a backoff l).countP (fun y => y.pin == .target) = 0 := by
    rw [Machine.unpinTarget, List.countP_map, List.countP_eq_zero]
    intro x _
    by_cases hxa : x.ant = a <;> by_cases hxt : x.pin = .target <;> simp [hxa, hxt]
  refine ⟨h.map ?_ ?_ ?_ (hnone.le.trans (Nat.zero_le 1)), hnone⟩
  · intro x; split <;> [rfl; (split <;> rfl)]
  · intro x; split <;> [rfl; (split <;> rfl)]
  · rw [List.countP_map]
    refine (List.countP_mono_left fun x _ hx => ?_).trans h.2.2.2.1
    by_cases hxa : x.ant = a <;> by_cases hxt : x.pin = .target <;> simp_all

/-! ## Reports -/

theorem averageAfter_le (k : Nat) {old : Option Nat} {q : Nat} (hq : q ≤ 250) (hold : ∀ v, old = some v → v ≤ 4000) :
    averageAfter k old q ≤ 4000 := by
  cases old with
  | none => simp only [averageAfter]; omega
  | some v =>
    have hv := hold v rfl
    have hpos : (0 : Int) < 2 ^ k := by positivity
    simp only [averageAfter]
    rcases le_total (0 : Int) ((16 * q : Int) - v) with hd | hd
    · have := Int.tdiv_le_self (2 ^ k : Int) hd
      omega
    · have hback : 0 ≤ (-((16 * q : Int) - v)).tdiv (2 ^ k) := Int.tdiv_nonneg (by omega) hpos.le
      rw [Int.neg_tdiv] at hback
      omega

theorem quality_le {level errors : Byte} (h : ¬ (252 ≤ level.toNat ∧ level.toNat ≤ 254)) : (quality level errors).1 ≤ 250 := by
  have hlevel : (effectiveLevel level).1 ≤ 250 := by
    have h251 : level = 251 ↔ level.toNat = 251 := by rw [← BitVec.toNat_inj]; rfl
    have h255 : level = 255 ↔ level.toNat = 255 := by rw [← BitVec.toNat_inj]; rfl
    have hlt := level.isLt
    simp only [effectiveLevel, h251, h255]
    split
    · exact Nat.zero_le _
    · split
      · exact le_rfl
      · show level.toNat ≤ 250
        omega
  exact (Nat.sub_le _ _).trans hlevel

theorem hearingLawful.perm {m : List HearEntry} (h : hearingLawful l) (hm : l.Perm m) : hearingLawful m := by
  obtain ⟨hlength, hnodup, hrange, hserving, htarget⟩ := h
  exact ⟨hm.length_eq ▸ hlength, (hm.map _).nodup_iff.mp hnodup, fun x hx => hrange x (hm.mem_iff.mpr hx),
    hm.countP_eq _ ▸ hserving, hm.countP_eq _ ▸ htarget⟩

/-- A HEAR from an antenna with an entry brings the entry to the head, with its antenna and its pin (R73). -/
theorem hearUpdate_of_entry {x : HearEntry} (h : entryOf l a = some x) (k q : Nat) (clip : Bool) :
    ∃ m, l.Perm (x :: m) ∧
      hearUpdate k a q clip l = { x with avg := some (averageAfter k x.avg q), age := 0, clip := clip } :: m := by
  obtain ⟨hx, before, behind, hsplit, hbefore⟩ := List.find?_eq_some_iff_append.mp h
  refine ⟨before ++ behind, hsplit ▸ List.perm_middle, ?_⟩
  have herase : l.eraseP (fun y => y.ant == a) = before ++ behind := by
    rw [hsplit, List.eraseP_append_right _ (fun y hy => by simpa using hbefore y hy), List.eraseP_cons_of_pos (p := fun y : HearEntry => y.ant == a) hx]
  simp only [hearUpdate, h, herase]

/-- A report keeps the law of the hearing list (R62, R74, R75). -/
theorem hearingLawful.hearUpdate (h : hearingLawful l) (k a : _) {q : Nat} (hq : q ≤ 250) (clip : Bool) :
    hearingLawful (hearUpdate k a q clip l) := by
  cases hx : entryOf l a with
  | none =>
    simp only [Machine.hearUpdate, hx]
    exact h.addEntry (notMem_of_entryOf_none hx) (by simpa using averageAfter_le k hq (by simp)) (by simp) (by simp)
  | some x =>
    obtain ⟨m, hm, hupdate⟩ := hearUpdate_of_entry hx k q clip
    rw [hupdate]
    obtain ⟨hlength, hnodup, hrange, hserving, htarget⟩ := h.perm hm
    refine ⟨hlength, hnodup, ?_, hserving, htarget⟩
    simp only [List.mem_cons]
    rintro y (rfl | hy)
    · simpa using averageAfter_le k hq (fun v hv => hrange x (by simp) v hv)
    · exact hrange y (by simp [hy])

/-- A report gives no entry the pin TARGET. -/
theorem servedLawful.hearUpdate (h : servedLawful l) (k a : _) {q : Nat} (hq : q ≤ 250) (clip : Bool) :
    servedLawful (hearUpdate k a q clip l) := by
  cases hx : entryOf l a with
  | none =>
    simp only [Machine.hearUpdate, hx]
    exact h.addEntry (notMem_of_entryOf_none hx) (by simpa using averageAfter_le k hq (by simp)) rfl
  | some x =>
    refine ⟨h.1.hearUpdate k a hq clip, ?_⟩
    obtain ⟨m, hm, hupdate⟩ := hearUpdate_of_entry hx k q clip
    rw [hupdate, ← h.2, hm.countP_eq]
    rfl

/-- The ageing and the count-down of a round keep the law (R78, R79). -/
theorem servedLawful.roundList (h : servedLawful l) (s : State) : servedLawful (s.roundList l) := by
  have haged : servedLawful (ageList s.tuning.staleLimit l) :=
    (h.map_of_pin (by intro x; split <;> rfl) (by intro x; split <;> rfl) (by intro x; split <;> rfl)).sublist
      List.filter_sublist
  exact haged.map_of_pin (fun _ => rfl) (fun _ => rfl) (fun _ => rfl)

/-! ## Tracks -/

/-- The law of the track of a headset in TRANSFER: its hearing list, and its trigger count at most `n` and 0 without a candidate
(R84). -/
def Track.movingLawful (n : Nat) (tr : Track) : Prop :=
  hearingLawful tr.hearing ∧ tr.count ≤ n ∧ (tr.candidate = none → tr.count = 0)

/-- The law of the track of a SERVED headset. -/
def Track.servedLawful (n : Nat) (tr : Track) : Prop :=
  Machine.servedLawful tr.hearing ∧ tr.count ≤ n ∧ (tr.candidate = none → tr.count = 0)

theorem Attachment.lawful_served {svc : Service} {held : Resource} :
    (Attachment.served svc held tr).lawful n ↔ tr.servedLawful n :=
  ⟨fun ⟨hl, hc, h0, ht⟩ => ⟨⟨hl, ht⟩, hc, h0⟩, fun ⟨⟨hl, ht⟩, hc, h0⟩ => ⟨hl, hc, h0, ht⟩⟩

theorem Attachment.lawful_transfer {svc : Service} {c : ContextNo} :
    (Attachment.transfer svc c tr).lawful n ↔ tr.movingLawful n := Iff.rfl

theorem Track.servedLawful.moving (h : tr.servedLawful n) : tr.movingLawful n := ⟨h.1.1, h.2⟩

theorem Track.servedLawful_granted (n : Nat) (a : AntennaNo) : (Track.granted a).servedLawful n :=
  ⟨Machine.servedLawful_granted a, Nat.zero_le n, fun _ => rfl⟩

theorem Track.servedLawful.pinTarget (h : tr.servedLawful n) (a : AntennaNo) :
    Track.movingLawful n { tr with hearing := pinTarget a tr.hearing } := ⟨h.1.pinTarget a, h.2⟩

theorem Track.movingLawful.landed (h : tr.movingLawful n) (a : AntennaNo) :
    Track.servedLawful n { candidate := none, count := 0, hearing := pinLanded a tr.hearing } :=
  ⟨h.1.pinLanded a, Nat.zero_le n, fun _ => rfl⟩

theorem Track.movingLawful.returned (h : tr.movingLawful n) (a : AntennaNo) (backoff : Nat) :
    Track.servedLawful n { candidate := none, count := 0, hearing := unpinTarget a backoff tr.hearing } :=
  ⟨h.1.unpinTarget a backoff, Nat.zero_le n, fun _ => rfl⟩

/-- The track after a report of quality `q` (R62 steps 2 to 5). -/
def Track.heard (tr : Track) (k : Nat) (a : AntennaNo) (q : Nat × Bool) : Track :=
  { tr with hearing := hearUpdate k a q.1 q.2 tr.hearing }

theorem Track.servedLawful.heard (h : tr.servedLawful n) (k : Nat) (a : AntennaNo) {q : Nat × Bool} (hq : q.1 ≤ 250) :
    (tr.heard k a q).servedLawful n := ⟨h.1.hearUpdate k a hq q.2, h.2⟩

theorem Track.movingLawful.heard (h : tr.movingLawful n) (k : Nat) (a : AntennaNo) {q : Nat × Bool} (hq : q.1 ≤ 250) :
    (tr.heard k a q).movingLawful n := ⟨h.1.hearUpdate k a hq q.2, h.2⟩

theorem countAfter_le (persist : Nat) (stored : Option AntennaNo) (count : Nat) (x : AntennaNo) (met : Bool) :
    countAfter persist stored count x met ≤ persist := by
  rw [countAfter_eq]
  split
  · exact min_le_left _ _
  · exact Nat.zero_le _

/-- The track of a SERVED headset keeps the law in TRANSFER too, so it may replace the track of either (R72). -/
theorem Track.servedLawful.mapTrack {x : Attachment} (h : tr.servedLawful n) (hx : x.lawful n) :
    (x.mapTrack (fun _ => tr)).lawful n := by
  cases x with
  | served svc held t => exact Attachment.lawful_served.mpr h
  | transfer svc c t => exact h.moving
  | idle => exact hx
  | waiting a m => exact hx
  | orphan m => exact hx

theorem Attachment.lawful.tick {x : Attachment} (h : x.lawful n) : x.tick.lawful n := by cases x <;> exact h

/-- The counts lowered to a persist value are at most that value (R99). -/
theorem Attachment.lawful.lowerCount {x : Attachment} (h : x.lawful n) (persist : Nat) :
    (x.mapTrack (fun t => { t with count := min t.count persist })).lawful persist := by
  have lower : ∀ {c : Option AntennaNo} {m : Nat}, (c = none → m = 0) → min m persist ≤ persist ∧ (c = none → min m persist = 0) :=
    fun h0 => ⟨min_le_right _ _, fun hc => by simp [h0 hc]⟩
  cases x with
  | served svc held t =>
    obtain ⟨hl, _, h0⟩ := Attachment.lawful_served.mp h
    exact Attachment.lawful_served.mpr ⟨hl, lower h0⟩
  | transfer svc c t =>
    obtain ⟨hl, _, h0⟩ := h
    exact ⟨hl, lower h0⟩
  | idle => exact h
  | waiting a m => exact h
  | orphan m => exact h

end Sys2Proof.Machine
end

section
/-! PROOF. What an event keeps of the laws of the tracks and the taps: every change of an attachment or of a tap inside an event is
one of a few, each of which keeps its law (chapters 4, 5, 7 and 11). -/

namespace Sys2Proof.Machine

variable {s t u : State} {e : Ev} {a : AntennaNo} {m : Moving}

/-! ## The relation -/

/-- The premise of the law of the tracks: a lawful registry whose tracks keep their laws. -/
def State.tracksOk (s : State) : Prop := registryLawful s.registry ∧ s.tracksLawful

/-- What holds in one state of the laws of the tracks and the taps holds in another, under the same tuning set. -/
structure State.Abides (s t : State) : Prop where
  tuning : t.tuning = s.tuning
  tracks : s.tracksOk → t.tracksLawful
  taps : s.tapsLawful → t.tapsLawful

theorem State.Abides.refl (s : State) : s.Abides s := ⟨rfl, And.right, id⟩

/-- A change of the rest of the part. -/
theorem State.Abides.rest (h : s.Abides t) (hr : u.registry = t.registry := by rfl) (ht : u.tuning = t.tuning := by rfl)
    (hp : u.taps = t.taps := by rfl) : s.Abides u := by
  refine ⟨ht.trans h.tuning, fun hs => ?_, fun hs n => ?_⟩
  · unfold State.tracksLawful
    rw [hr, ht]
    exact h.tracks hs
  · unfold State.tap
    rw [hp]
    exact h.taps hs n

theorem State.Abides.foldl {α : Type} (h : s.Abides e.st) {f : Ev → α → Ev}
    (hf : ∀ {e : Ev} (x : α), s.Abides e.st → s.Abides (f e x).st) (l : List α) : s.Abides (l.foldl f e).st := by
  induction l generalizing e with
  | nil => exact h
  | cons x l ih => exact ih (hf x h)

theorem State.Abides.emit (h : s.Abides e.st) (c : OutCell) : s.Abides (e.emit c).st := h

theorem State.Abides.freeCell (h : s.Abides e.st) (a : AntennaNo) (g : Identity) : s.Abides (e.freeCell a g).st := h

theorem State.Abides.emitIf (h : s.Abides e.st) (b : Bool) (c : OutCell) : s.Abides (e.emitIf b c).st := by
  rw [Ev.emitIf_st]
  exact h

theorem State.Abides.notify (h : s.Abides e.st) (n : Notice) : s.Abides (e.notify n).st := h.rest

theorem State.Abides.route (h : s.Abides e.st) (p : Profile) (a : AntennaNo) (x : Option Place) : s.Abides (e.route p a x).st :=
  h.notify _

theorem State.Abides.setCtx (h : s.Abides e.st) (c : ContextNo) (x : Option Context) : s.Abides (e.upd (·.setCtx c x)).st :=
  h.rest

theorem State.Abides.freeCtx (h : s.Abides e.st) (c : ContextNo) : s.Abides (e.freeCtx c).st := h.rest

theorem State.Abides.setSlot (h : s.Abides e.st) (a : AntennaNo) (i : SlotNo) (x : SlotState) :
    s.Abides (e.upd (·.setSlot a i x)).st := h.rest

theorem State.Abides.claimUp (h : s.Abides e.st) (v : VenueNo) : s.Abides (e.claimUp v).st := h.rest

theorem State.Abides.wakeVenue (h : s.Abides e.st) (v : VenueNo) : s.Abides (e.wakeVenue v).st := h.rest

theorem State.Abides.appendWait (h : s.Abides e.st) (a : AntennaNo) (w : WaitEntry) : s.Abides (e.appendWait a w).st := h.rest

theorem State.Abides.failed (h : s.Abides e.st) (m : Moving) (r : FailReason) : s.Abides (e.failed m r).st := h.notify _

/-! ## Records and taps -/

/-- A record found meets the law of its track. -/
theorem State.Abides.found (h : s.Abides t) (hs : s.tracksOk) {r : HeadsetRecord} (hr : r ∈ t.registry) :
    r.att.lawful s.tuning.persist := h.tuning ▸ h.tracks hs r hr

/-- A change of the records of one identity. -/
theorem State.Abides.updRec (h : s.Abides e.st) {g : Identity} {f : HeadsetRecord → HeadsetRecord}
    (hf : s.tracksOk → ∀ r ∈ e.st.registry, r.profile.ident = g → (f r).att.lawful s.tuning.persist) :
    s.Abides (e.upd (·.updRec g f)).st := by
  refine ⟨h.tuning, fun hs r hr => ?_, h.taps⟩
  obtain ⟨x, hx, rfl⟩ := List.mem_map.mp hr
  show Attachment.lawful e.st.tuning.persist _
  rw [h.tuning]
  split
  · rename_i hg
    exact hf hs x hx (by simpa using hg)
  · exact h.found hs hx

theorem State.Abides.setAtt (h : s.Abides e.st) (g : Identity) {x : Attachment}
    (hx : s.tracksOk → x.lawful s.tuning.persist) : s.Abides (e.upd (·.setAtt g x)).st :=
  h.updRec (fun hs _ _ _ => hx hs)

theorem State.Abides.setServed (h : s.Abides e.st) (g : Identity) {svc : Service} {held : Resource} {tr : Track}
    (ht : s.tracksOk → tr.servedLawful s.tuning.persist) : s.Abides (e.upd (·.setAtt g (.served svc held tr))).st :=
  h.setAtt g (fun hs => Attachment.lawful_served.mpr (ht hs))

theorem State.Abides.setMoving (h : s.Abides e.st) (g : Identity) {svc : Service} {c : ContextNo} {tr : Track}
    (ht : s.tracksOk → tr.movingLawful s.tuning.persist) : s.Abides (e.upd (·.setAtt g (.transfer svc c tr))).st :=
  h.setAtt g ht

theorem State.Abides.detach (h : s.Abides e.st) (g : Identity) : s.Abides (e.detach g).st := h.setAtt g (fun _ => trivial)

theorem State.Abides.orphan (h : s.Abides e.st) (g : Identity) (a : AntennaNo) (c : OrphanCause) :
    s.Abides (e.orphan g a c).st :=
  (h.setAtt g (x := .orphan (e.st.tuning.tHold * 1000)) (fun _ => trivial)).rest

theorem State.Abides.startWait (h : s.Abides e.st) (g : Identity) (a : AntennaNo) :
    s.Abides (e.upd (fun s => s.setAtt g (.waiting a (s.tuning.tWait * 1000)))).st :=
  (h.setAtt g (x := .waiting a (e.st.tuning.tWait * 1000)) (fun _ => trivial)).rest

theorem State.Abides.setTap (h : s.Abides e.st) (n : TapNo) {x : Tap} (hx : s.tapsLawful → x.lawful) :
    s.Abides (e.upd (·.setTap n x)).st := by
  refine ⟨h.tuning, h.tracks, fun hs m => ?_⟩
  show ((e.st.setTap n x).tap m).lawful
  rw [State.tap_setTap]
  split
  · exact hx hs
  · exact h.taps hs m

/-! ## Captures -/

/-- A tap that admits a record has one left to capture (R178, R179). -/
theorem Tap.lawful.remaining_of_admits {x : Tap} {r : TapRecord} (h : x.lawful) (ha : x.admits r = true) :
    1 ≤ x.remaining ∧ x.remaining ≤ x.count := by
  simp only [Tap.admits, Bool.and_eq_true] at ha
  exact h.2 ha.1.1

theorem State.Abides.captureAt (h : s.Abides e.st) (r : TapRecord) (n : TapNo) : s.Abides (e.captureAt r n).st := by
  unfold Ev.captureAt
  dsimp only
  split
  · exact h
  · rename_i ha
    have hleft := fun hs => (h.taps hs n).remaining_of_admits (r := r) (by simpa using ha)
    split
    · rename_i hroom
      have hlength : ((e.st.tap n).buffer ++ [r]).length ≤ 16 := by
        simpa [Config.tapBuffer, Nat.lt_succ_iff] using hroom
      split
      · split
        · exact (h.setTap n (fun hs => ⟨hlength, fun _ => ⟨(hleft hs).1.trans (hleft hs).2, le_rfl⟩⟩)).rest
        · exact (h.setTap n (fun _ => ⟨hlength, fun hr => absurd hr Bool.false_ne_true⟩)).rest
      · rename_i hmore
        refine h.setTap n (fun hs => ⟨hlength, fun _ => ?_⟩)
        have := hleft hs
        dsimp only
        omega
    · exact h.setTap n (fun hs => h.taps hs n)

theorem State.Abides.capture (h : s.Abides e.st) (r : TapRecord) : s.Abides (e.capture r).st :=
  h.foldl (fun n h => h.captureAt r n) _

/-! ## Venues, carriers and wait lists -/

theorem State.Abides.claimDown (h : s.Abides e.st) (v : VenueNo) : s.Abides (e.claimDown v).st := by
  unfold Ev.claimDown
  dsimp only
  split <;> exact h.rest

theorem State.Abides.wakeIfClosed (h : s.Abides e.st) (v : VenueNo) : s.Abides (e.wakeIfClosed v).st := by
  unfold Ev.wakeIfClosed
  split
  · exact h.wakeVenue v
  · exact h

theorem State.Abides.changeCarrier (h : s.Abides e.st) (a : AntennaNo) (k : CarrierNo) (x : Carrier) :
    s.Abides (e.changeCarrier a k x).st := by
  unfold Ev.changeCarrier Ev.mixChanged
  dsimp only
  split
  · rw [Ev.notify_st, Ev.emitIf_st]
    exact h.rest
  · exact h.rest

theorem State.Abides.place (h : s.Abides e.st) (a : AntennaNo) (k : CarrierNo) (m : LineNo) (reserved : Bool) :
    s.Abides (e.place a k m reserved).st := (h.changeCarrier a k _).claimUp _

theorem State.Abides.releasePlace (h : s.Abides e.st) (a : AntennaNo) (k : CarrierNo) (m : LineNo) (reserved : Bool) :
    s.Abides (e.releasePlace a k m reserved).st := (h.changeCarrier a k _).claimDown _

theorem State.Abides.removeWait (h : s.Abides e.st) (a : AntennaNo) (g : Identity) : s.Abides (e.removeWait a g).st :=
  State.Abides.claimDown (e := e.upd _) h.rest _

/-! ## Grants and releases -/

/-- The grant of a resource creates a track (R11). -/
theorem State.Abides.granted (h : s.Abides e.st) (p : Profile) (a : AntennaNo) (place : Place) (svc : Service) (r : Bool) :
    s.Abides (((e.upd (·.setAtt p.ident (.served svc ⟨a, place⟩ (Track.granted a)))).emit (.seat a p.ident place)).grantNotices
      p a place svc r).st :=
  (h.setServed p.ident (fun _ => Track.servedLawful_granted _ a)).rest

/-- The entry that an offer grants leaves the wait list, and the slot is claimed (R112, R113). -/
theorem State.Abides.claimOffered (h : s.Abides e.st) (a : AntennaNo) (i : SlotNo) (g : Identity) :
    s.Abides ((e.removeWait a g).claimSlot a i g).st :=
  ((h.removeWait a g).setSlot a i (.held g)).claimUp _

theorem State.Abides.grantJoin (h : s.Abides e.st) (a : AntennaNo) (i : SlotNo) (p : Profile) (r : Bool) :
    s.Abides (e.grantJoin a i p r).st :=
  (h.claimOffered a i p.ident).granted p a _ _ r

/-- A promotion keeps the track of the headset (R113). -/
theorem State.Abides.promote (h : s.Abides e.st) (a : AntennaNo) (i : SlotNo) (p : Profile) (held : Resource) {tr : Track}
    (ht : s.tracksOk → tr.servedLawful s.tuning.persist) : s.Abides (e.promote a i p held tr).st := by
  have h1 : s.Abides (((e.removeWait a p.ident).claimSlot a i p.ident).emit (.seat a p.ident (.slot i))).st :=
    h.claimOffered a i p.ident
  unfold Ev.promote
  cases held.place with
  | slot j => exact ((h1.setServed p.ident ht).notify _).route p a _
  | carrier k => exact (((h1.releasePlace held.ant k p.monitor false).setServed p.ident ht).notify _).route p a _

theorem State.Abides.rotate (h : s.Abides t) (a : AntennaNo) (c : ClassNo) : s.Abides (t.rotate a c) := by
  unfold State.rotate
  split
  · exact h
  · exact h.rest

theorem State.Abides.offer (h : s.Abides e.st) (a : AntennaNo) (i : SlotNo) : s.Abides (e.offer a i).st := by
  unfold Ev.offer
  split
  · exact h
  · refine State.Abides.rotate (t := (Ev.grantEntry e a i _).st) ?_ a _
    unfold Ev.grantEntry
    split
    · exact h.grantJoin a i _ _
    · rename_i hr
      exact h.promote a i _ _ (fun hs => Attachment.lawful_served.mp (h.found hs (List.mem_of_find?_eq_some hr)))
    · exact h

theorem State.Abides.releaseSlot (h : s.Abides e.st) (a : AntennaNo) (i : SlotNo) : s.Abides (e.releaseSlot a i).st := by
  have h1 := State.Abides.claimDown (e := e.upd (·.setSlot a i .free)) h.rest (e.st.venueOfAnt a)
  unfold Ev.releaseSlot
  dsimp only
  split
  · exact h1.offer a i
  · exact h1

/-- The late offers of an event (R124 step 6). -/
theorem State.Abides.finish (h : s.Abides e.st) : s.Abides e.finish.st := by
  refine State.Abides.foldl (e := { e with late := [] }) h (fun a h => ?_) e.late
  unfold Ev.offerLowest
  split
  · exact h
  · exact h.offer a _

theorem State.Abides.releaseHeld (h : s.Abides e.st) (p : Profile) (svc : Service) (held : Resource) :
    s.Abides (e.releaseHeld p svc held).st := by
  unfold Ev.releaseHeld
  split
  · exact h.releaseSlot _ _
  · dsimp only
    split
    · exact (h.releasePlace _ _ _ _).removeWait _ _
    · exact h.releasePlace _ _ _ _

theorem State.Abides.releaseReserved (h : s.Abides e.st) (p : Profile) (a : AntennaNo) (x : Place) :
    s.Abides (e.releaseReserved p a x).st := by
  unfold Ev.releaseReserved
  split
  · exact h.releaseSlot _ _
  · exact h.releasePlace _ _ _ _

/-! ## Taking what a search found -/

/-- A move to a carrier keeps the track of the headset (R103, R105). -/
theorem State.Abides.moveToCarrier (h : s.Abides e.st) (g : Identity) (svc : Service) (held : Resource) :
    s.Abides (e.moveToCarrier g svc held).st := by
  refine h.updRec (fun hs r hr _ => ?_)
  have hlaw := h.found hs hr
  split
  · rename_i hatt
    rw [hatt] at hlaw
    exact Attachment.lawful_served.mpr (Attachment.lawful_served.mp hlaw)
  · exact hlaw

theorem State.Abides.takeSlot (h : s.Abides e.st) (a : AntennaNo) (g : Identity) (plan : SlotPlan) (c : Option ContextNo) :
    s.Abides (e.takeSlot a g plan c).st := by
  cases plan with
  | free i => exact (h.setSlot a i _).claimUp _
  | reseat i p k =>
    have h1 := (h.place a k p.monitor false).moveToCarrier p.ident .listen ⟨a, .carrier k⟩
    exact ((h1.emit (.seat a p.ident (.carrier k))).route p a (some (.carrier k))).setSlot a i (claimant g c)
  | demote i p k =>
    have h1 := (h.place a k p.monitor false).moveToCarrier p.ident .demoted ⟨a, .carrier k⟩
    have h2 := (h1.appendWait a ⟨p.ident, .promote, p.cls⟩).emit (.seat a p.ident (.carrier k))
    exact ((h2.notify (.demoted p.ident a g)).route p a (some (.carrier k))).setSlot a i (claimant g c)

theorem State.Abides.takeNeed (h : s.Abides e.st) (a : AntennaNo) (p : Profile) (plan : NeedPlan) (c : Option ContextNo) :
    s.Abides (e.takeNeed a p plan c).st := by
  cases plan with
  | carrier k => exact h.place a k _ _
  | slot sp => exact h.takeSlot a _ sp c

/-! ## Admission -/

theorem State.Abides.lostRoute (h : s.Abides e.st) (p : Profile) (lost : Option AntennaNo) :
    s.Abides (e.lostRoute p lost).st := by
  cases lost with
  | none => exact h
  | some a => exact h.route p a none

theorem State.Abides.refuseJoin (h : s.Abides e.st) (p : Profile) (a : AntennaNo) (r : DeniedReason)
    (lost : Option AntennaNo) : s.Abides (e.refuseJoin p a r lost).st := by
  have h1 : s.Abides (e.deny p.ident a r).st := by cases r <;> exact h.rest
  exact h1.lostRoute p lost

theorem State.Abides.admitOpen (h : s.Abides e.st) (p : Profile) (a : AntennaNo) (r : Bool) (lost : Option AntennaNo) :
    s.Abides (e.admitOpen p a r lost).st := by
  unfold Ev.admitOpen
  split
  · split
    · exact (h.takeNeed a p _ none).granted p a _ _ r
    · split
      · have h1 := h.appendWait a ⟨p.ident, .join r, p.cls⟩
        exact (h1.startWait p.ident a).lostRoute p lost
      · exact h.refuseJoin p a _ lost
  · exact h.refuseJoin p a _ lost

theorem State.Abides.admitJoin (h : s.Abides e.st) (p : Profile) (a : AntennaNo) (r : Bool) (lost : Option AntennaNo) :
    s.Abides (e.admitJoin p a r lost).st := by
  unfold Ev.admitJoin
  dsimp only
  split
  · exact h.refuseJoin p a _ lost
  · split
    · exact h.refuseJoin p a _ lost
    · split
      · exact (h.wakeVenue (e.st.venueOfAnt a)).admitOpen p a r lost
      · exact h.refuseJoin p a _ lost
    · exact h.admitOpen p a r lost
    · exact h.admitOpen p a r lost

/-! ## Transfers -/

/-- The track of a headset in TRANSFER meets its law. -/
theorem State.Abides.moving {g : Identity} (h : s.Abides t) (hm : t.movingOf g = some m) (hs : s.tracksOk) :
    m.track.movingLawful s.tuning.persist := by
  obtain ⟨q, hr, _⟩ := State.movingOf_some hm
  exact h.found hs (List.mem_of_find?_eq_some hr)

theorem State.movingOf_of_movingIn {c : ContextNo} (hm : s.movingIn c = some m) : ∃ g, s.movingOf g = some m := by
  unfold State.movingIn at hm
  split at hm
  · exact ⟨_, hm⟩
  · cases hm

theorem State.Abides.startTransfer (h : s.Abides e.st) (p : Profile) (svc : Service) (held : Resource) {tr : Track}
    (c : ContextNo) (a : AntennaNo) (plan : NeedPlan) (cause : Cause) (o : Options)
    (ht : s.tracksOk → tr.servedLawful s.tuning.persist) : s.Abides (e.startTransfer p svc held tr c a plan cause o).st :=
  (((h.wakeIfClosed _).takeNeed a p plan (some c)).setCtx c _).setMoving p.ident (fun hs => (ht hs).pinTarget a)

theorem State.Abides.releaseSource (h : s.Abides e.st) (m : Moving) : s.Abides (e.releaseSource m).st := by
  unfold Ev.releaseSource
  split
  · exact h.releaseHeld _ _ _
  · exact h

theorem State.Abides.freeSourceCell (h : s.Abides e.st) (m : Moving) : s.Abides (e.freeSourceCell m).st :=
  h.emitIf _ _

theorem State.Abides.complete (h : s.Abides e.st) (hm : s.tracksOk → m.track.movingLawful s.tuning.persist) :
    s.Abides (e.complete m).st := by
  have h1 : s.Abides (e.convertTarget m).st := by
    unfold Ev.convertTarget
    split <;> exact h.rest
  have h2 := ((h1.freeSourceCell m).releaseSource m).setServed m.profile.ident (svc := placeService m.profile m.context.target)
    (held := ⟨m.context.targetAnt, m.context.target⟩) (fun hs => (hm hs).landed m.context.targetAnt)
  exact ((h2.freeCtx m.ctx).notify _).route _ _ _

theorem State.Abides.failOrphan (h : s.Abides e.st) (m : Moving) (r : FailReason) : s.Abides (e.failOrphan m r).st := by
  have h1 := (h.releaseReserved m.profile m.context.targetAnt m.context.target).releaseSource m
  have h2 := ((h1.freeCtx m.ctx).failed m r).orphan m.profile.ident m.context.sourceAnt .transfer
  unfold Ev.failOrphan
  dsimp only
  split
  · exact h2.route _ _ _
  · exact h2

theorem State.Abides.giveUp (h : s.Abides e.st) (hm : s.tracksOk → m.track.movingLawful s.tuning.persist) (r : FailReason) :
    s.Abides (e.giveUp m r).st := by
  unfold Ev.giveUp
  split
  · rename_i held _
    have h1 := (h.releaseReserved m.profile m.context.targetAnt m.context.target).setServed m.profile.ident (svc := m.service)
      (held := held) (fun hs => (hm hs).returned m.context.targetAnt
        (e.releaseReserved m.profile m.context.targetAnt m.context.target).st.tuning.backoff)
    unfold Ev.returnTo
    dsimp only
    split <;> exact (h1.freeCtx m.ctx).failed m r
  · exact h.failOrphan m r

theorem State.Abides.dropSource (h : s.Abides e.st) (hm : s.tracksOk → m.track.movingLawful s.tuning.persist) :
    s.Abides (e.dropSource m).st := by
  have h1 := (h.releaseSource m).setCtx m.ctx (some { m.context with source := none })
  unfold Ev.dropSource
  dsimp only
  split
  · exact (h1.setMoving m.profile.ident hm).route _ _ _
  · exact h1.route _ _ _

theorem State.Abides.abortTransfer (h : s.Abides e.st) (m : Moving) (silent : Option AntennaNo) :
    s.Abides (e.abortTransfer m silent).st := by
  have h1 := (h.freeCell m.context.targetAnt m.profile.ident).releaseReserved m.profile m.context.targetAnt m.context.target
  unfold Ev.abortTransfer
  dsimp only
  split
  · exact (h1.releaseSource m).freeCtx m.ctx
  · exact ((h1.freeSourceCell m).releaseSource m).freeCtx m.ctx

theorem State.Abides.orderMove (h : s.Abides e.st) (hm : s.tracksOk → m.track.movingLawful s.tuning.persist) :
    s.Abides (e.orderMove m).st := by
  have h1 := (h.emit (.goto m.context.sourceAnt m.profile.ident m.context.targetAnt m.context.target)).setCtx m.ctx
    (some { m.context with phase := .ordered, timer := e.st.tuning.tMove })
  unfold Ev.orderMove
  dsimp only
  split
  · exact (h1.freeSourceCell m).dropSource (m := { m with context := _ }) hm
  · exact h1

theorem State.Abides.sourceLost (h : s.Abides e.st) (hm : s.tracksOk → m.track.movingLawful s.tuning.persist) :
    s.Abides (e.sourceLost m).st := by
  unfold Ev.sourceLost
  split
  · exact (h.freeCell _ _).failOrphan m _
  · exact h.dropSource hm

theorem State.Abides.goneMoving (h : s.Abides e.st) (hm : s.tracksOk → m.track.movingLawful s.tuning.persist)
    (a : AntennaNo) : s.Abides (e.goneMoving m a).st := by
  unfold Ev.goneMoving
  split
  · exact h.sourceLost hm
  · split
    · exact h.giveUp hm _
    · exact h

/-! ## Reports and rounds -/

/-- The track of a SERVED headset replaces those of its identity. -/
theorem State.Abides.setTrack (h : s.Abides e.st) (g : Identity) {tr : Track}
    (ht : s.tracksOk → tr.servedLawful s.tuning.persist) : s.Abides (e.setTrack g tr).st :=
  h.updRec (fun hs _ hr _ => (ht hs).mapTrack (h.found hs hr))

theorem State.Abides.requestStart (h : s.Abides e.st) (p : Profile) (svc : Service) (held : Resource) {tr : Track}
    (a : AntennaNo) (c : Cause) (ht : s.tracksOk → tr.servedLawful s.tuning.persist) :
    s.Abides (e.requestStart p svc held tr a c).1.st := by
  unfold Ev.requestStart
  split
  · exact h
  · split
    · exact h
    · exact h.startTransfer p svc held _ a _ c _ ht

theorem State.Abides.round (h : s.Abides e.st) (p : Profile) (svc : Service) (held : Resource) {tr : Track}
    (ht : s.tracksOk → tr.servedLawful s.tuning.persist) : s.Abides (e.round p svc held tr).st := by
  have hlist := fun hs => (ht hs).1.roundList e.st
  unfold Ev.round
  dsimp only
  split
  · exact (h.setTrack p.ident (fun hs => ⟨hlist hs, Nat.zero_le _, fun _ => rfl⟩)).capture _
  · rename_i c _
    have hcounted : ∀ count, count ≤ e.st.tuning.persist → s.tracksOk →
        Track.servedLawful s.tuning.persist ⟨some c.ant, count, e.st.roundList tr.hearing⟩ :=
      fun count hcount hs => ⟨hlist hs, h.tuning ▸ hcount, nofun⟩
    have hnew := hcounted _ (countAfter_le e.st.tuning.persist tr.candidate tr.count c.ant
      (e.st.triggerMet p held.ant (e.st.score p held.ant (servingAverage (e.st.roundList tr.hearing) held.ant)) c))
    split
    · exact (h.setTrack p.ident hnew).capture _
    · exact ((h.setTrack p.ident hnew).requestStart p svc held c.ant _ hnew).capture _

/-- A HEAR keeps the laws where its level code is no malformed one: the quality it reports is then at most 250 (R63 to R68). In a
lawful registry the record that it is for is the only one of its identity. -/
theorem Ev.abides_hearTaken (e : Ev) (a : AntennaNo) (g : Identity) {level errors : Byte}
    (hlevel : ¬ (252 ≤ level.toNat ∧ level.toNat ≤ 254)) : e.st.Abides (e.hearTaken a g level errors).st := by
  have h := State.Abides.refl e.st
  unfold Ev.hearTaken
  split
  · exact h
  · rename_i r hr
    split
    · exact h
    · rename_i tr htr
      dsimp only
      have hserved : ∀ {svc held}, r.att = .served svc held tr → e.st.tracksOk →
          (tr.heard e.st.tuning.avgShift a (quality level errors)).servedLawful e.st.tuning.persist := fun hatt hs =>
        (Attachment.lawful_served.mp (hatt ▸ h.found hs (List.mem_of_find?_eq_some hr))).heard _ a (quality_le hlevel)
      have honly : e.st.tracksOk → ∀ x ∈ e.st.registry, x.profile.ident = g → x = r := fun hs x hx hg =>
        List.inj_on_of_nodup_map hs.1.2.1 hx (List.mem_of_find?_eq_some hr) (by rw [hg, State.ident_of_rec hr])
      have htrack : e.st.Abides (e.setTrack g (tr.heard e.st.tuning.avgShift a (quality level errors))).st := by
        refine h.updRec (fun hs x hx hg => ?_)
        have hlaw := h.found hs hx
        obtain rfl := honly hs x hx hg
        cases hatt : x.att with
        | served svc held tr' =>
          obtain rfl : tr' = tr := by simpa [hatt, Attachment.track?] using htr
          exact Attachment.lawful_served.mpr (hserved hatt hs)
        | transfer svc c tr' =>
          obtain rfl : tr' = tr := by simpa [hatt, Attachment.track?] using htr
          exact (Attachment.lawful_transfer.mp (hatt ▸ hlaw)).heard _ a (quality_le hlevel)
        | _ => simp [hatt, Attachment.track?] at htr
      have hcaptured := fun q v => (htrack.updRec (g := g) (f := fun r => { r with profile := { r.profile with
        sticky := r.profile.sticky || (quality level errors).2 } }) (fun hs x hx _ => show x.att.lawful _ from htrack.found hs hx)).capture
          (.measure a g q v (quality level errors).2)
      split
      · rename_i svc held tr' hatt
        obtain rfl : tr' = tr := by simpa [hatt, Attachment.track?] using htr
        split
        · exact (hcaptured _ _).round _ _ _ (hserved hatt)
        · exact hcaptured _ _
      · exact hcaptured _ _

/-! ## The cells of the units -/

theorem State.Abides.readyTaken (h : s.Abides e.st) (a : AntennaNo) (g : Identity) : s.Abides (e.readyTaken a g).st := by
  have hlate : s.Abides (e.lateReady a g).st := by
    unfold Ev.lateReady
    split <;> exact h
  unfold Ev.readyTaken
  split
  · rename_i hm
    split
    · split
      · exact h.orderMove (h.moving hm)
      · exact h
    · exact hlate
  · exact hlate

theorem State.Abides.noroomTaken (h : s.Abides e.st) (a : AntennaNo) (g : Identity) : s.Abides (e.noroomTaken a g).st := by
  unfold Ev.noroomTaken
  split
  · rename_i hm
    split
    · exact h.giveUp (h.moving hm) _
    · exact h
  · exact h

theorem State.Abides.joinTaken (h : s.Abides e.st) (a : AntennaNo) (g : Identity) : s.Abides (e.joinTaken a g).st := by
  unfold Ev.joinTaken
  split
  · exact h
  · split
    · exact h.admitJoin _ a _ _
    · split
      · exact h
      · exact ((h.removeWait _ g).detach g).admitJoin _ a _ _
    · unfold Ev.reattachRelease
      dsimp only
      split
      · exact ((h.releaseHeld _ _ _).detach _).admitJoin _ a _ _
      · exact (((h.freeCell _ _).releaseHeld _ _ _).detach _).admitJoin _ a _ _
    · split
      · rename_i hm
        unfold Ev.joinMoving
        split
        · exact h.complete (h.moving hm)
        · exact (((h.abortTransfer _ _).failed _ _).detach _).admitJoin _ a _ _
      · exact h
    · exact (h.detach g).admitJoin _ a _ _

theorem State.Abides.landedTaken (h : s.Abides e.st) (a : AntennaNo) (g : Identity) : s.Abides (e.landedTaken a g).st := by
  have hlate : s.Abides (e.lateLanded a g).st := by
    unfold Ev.lateLanded
    split
    · exact (h.detach g).admitJoin _ a _ _
    · split <;> exact h
  unfold Ev.landedTaken
  split
  · rename_i hm
    split
    · exact h.complete (h.moving hm)
    · exact hlate
  · exact hlate

theorem State.Abides.detachWith (h : s.Abides e.st) (p : Profile) (c : DetachCause) (lost : Option AntennaNo) :
    s.Abides (e.detachWith p c lost).st :=
  ((h.detach p.ident).notify (.detached p.ident c)).lostRoute p lost

theorem State.Abides.quitTaken (h : s.Abides e.st) (a : AntennaNo) (g : Identity) : s.Abides (e.quitTaken a g).st := by
  unfold Ev.quitTaken
  split
  · exact h
  · split
    · exact h
    · exact (h.removeWait _ g).detachWith _ _ _
    · dsimp only
      split
      · exact (h.releaseHeld _ _ _).detachWith _ _ _
      · exact ((h.freeCell _ _).releaseHeld _ _ _).detachWith _ _ _
    · split
      · exact (h.abortTransfer _ _).detachWith _ _ _
      · exact h
    · exact h.detachWith _ _ _

theorem State.Abides.goneTaken (h : s.Abides e.st) (a : AntennaNo) (g : Identity) : s.Abides (e.goneTaken a g).st := by
  unfold Ev.goneTaken
  split
  · exact h
  · split
    · split
      · exact ((h.releaseHeld _ _ _).orphan g _ _).route _ _ _
      · exact h
    · split
      · rename_i hm
        exact h.goneMoving (h.moving hm) a
      · exact h
    · exact h

theorem State.Abides.denyWait (h : s.Abides e.st) (a : AntennaNo) (r : DeniedReason) (g : Identity) :
    s.Abides (Ev.denyWait a r e g).st := by
  have h1 := (h.removeWait a g).setAtt g (x := .idle) (fun _ => trivial)
  unfold Ev.denyWait
  dsimp only
  split <;> exact h1.notify _

theorem State.Abides.downContext (h : s.Abides e.st) (a : AntennaNo) (c : ContextNo) : s.Abides (Ev.downContext a e c).st := by
  unfold Ev.downContext
  split
  · rename_i hm
    obtain ⟨g, hm⟩ := State.movingOf_of_movingIn hm
    split
    · split
      · exact h.sourceLost (h.moving hm)
      · exact h
    · split
      · exact h.giveUp (h.moving hm) _
      · exact h
  · exact h

theorem State.Abides.downHolder (h : s.Abides e.st) (a : AntennaNo) (g : Identity) : s.Abides (Ev.downHolder a e g).st := by
  unfold Ev.downHolder
  split
  · split
    · exact ((h.releaseHeld _ _ _).orphan g a _).route _ _ _
    · exact h
  · exact h

theorem State.Abides.upTaken (h : s.Abides e.st) (a : AntennaNo) : s.Abides (e.upTaken a).st := by
  unfold Ev.upTaken
  dsimp only
  split <;> split <;> exact h.rest

theorem State.Abides.downTaken (h : s.Abides e.st) (a : AntennaNo) : s.Abides (e.downTaken a).st := by
  unfold Ev.downTaken
  split
  · have h1 : s.Abides ((e.upd (·.setOnline a false)).notify (.unitState a false)).st := h.rest
    dsimp only
    split
    · exact h1
    · have hcontexts := h1.foldl (f := Ev.downContext a) (fun c h => h.downContext a c) allContexts
      have hholders := fun l => hcontexts.foldl (f := Ev.downHolder a) (fun g h => h.downHolder a g) l
      exact (hholders _).foldl (fun g h => h.denyWait a .offline g) _
  · exact h

/-- A cell of a unit keeps the laws, where a HEAR carries no malformed level code. -/
theorem Ev.abides_cellEvent (e : Ev) (c : RawCell) (k : UnitKind) (a : AntennaNo)
    (hlevel : k = .hear → ¬ (252 ≤ c.byte5.toNat ∧ c.byte5.toNat ≤ 254)) : e.st.Abides (Ev.cellEvent c k a e).st := by
  have h := State.Abides.refl e.st
  cases k with
  | hear => exact e.abides_hearTaken a _ (hlevel rfl)
  | join => exact h.joinTaken a _
  | ready => exact h.readyTaken a _
  | noroom => exact h.noroomTaken a _
  | landed => exact h.landedTaken a _
  | gone => exact h.goneTaken a _
  | quit => exact h.quitTaken a _
  | up => exact h.upTaken a
  | down => exact h.downTaken a

end Sys2Proof.Machine
end

section
/-! PROOF. The laws of the two ports and of the registry, kept by each change that an event makes to them (chapters 1, 8, 9). -/

namespace Sys2Proof.Machine

variable {s t u : State} {c : ControlPort} {p : HeadPort} {l : List HeadsetRecord}

/-! ## The head port -/

/-- Cells that enter the output queue fill it before any of them has to follow (R148, R150). -/
theorem HeadPort.lawful.enqueue (h : p.lawful) (cells : List OutCell) : (p.enqueue cells).lawful := by
  obtain ⟨hinput, hfull, hstall, hshed, houtput, hoverflow, hbegun⟩ := h
  refine ⟨hinput, hfull, hstall, hshed, ?_, ?_, ?_⟩
  · simp only [HeadPort.enqueue, HeadPort.room, Config.outputCells, List.length_append, List.length_take]
    omega
  · simp only [HeadPort.enqueue, HeadPort.room, Config.outputCells, List.length_append, List.length_take]
    intro hmore
    by_cases ho : p.overflow = []
    · have hrest : List.drop (128 - p.output.length) cells ≠ [] := by simpa [ho] using hmore
      have hlong := List.length_pos_iff.mpr hrest
      rw [List.length_drop] at hlong
      omega
    · have := hoverflow ho
      omega
  · intro hb
    simp [HeadPort.enqueue, hbegun hb]

/-- A cell sent makes room for one cell that follows (R148, R150). -/
theorem HeadPort.lawful.sent (h : p.lawful) : p.sent.lawful := by
  obtain ⟨hinput, hfull, hstall, hshed, houtput, hoverflow, _⟩ := h
  refine ⟨hinput, hfull, hstall, hshed, ?_, ?_, fun hb => absurd hb Bool.false_ne_true⟩
  · simp only [HeadPort.sent, List.length_append, List.length_tail, List.length_take]
    by_cases ho : p.overflow = []
    · simp only [ho, List.length_nil, Nat.min_zero]
      omega
    · have := hoverflow ho
      omega
  · simp only [HeadPort.sent, List.length_append, List.length_tail, List.length_take]
    intro hmore
    have ho : p.overflow ≠ [] := fun ho => hmore (by rw [ho]; rfl)
    have := hoverflow ho
    have := List.length_pos_iff.mpr ho
    omega

/-- A cell joins the tail below 128 cells, and HSTALL is asserted at 128 (R144, R146). -/
theorem HeadPort.lawful.joinTail (h : p.lawful) (x : RawCell) (hroom : p.input.length < 128) : (p.joinTail x).lawful := by
  obtain ⟨hinput, hfull, hstall, hshed, hrest⟩ := h
  have hlength : (p.joinTail x).input.length = p.input.length + 1 := by simp [HeadPort.joinTail]
  have hasserted : (p.joinTail x).hstall = if 128 ≤ p.input.length + 1 then true else p.hstall := rfl
  refine ⟨by omega, fun hl => ?_, fun hs => ?_, fun hs => ?_, hrest⟩
  · rw [hasserted, if_pos (by omega)]
  · rw [hasserted] at hs
    split at hs
    · omega
    · have := hstall hs
      omega
  · have := hshed hs
    omega

/-- A HEAR is shed at 96 cells or more (R145). -/
theorem HeadPort.lawful.shed (h : p.lawful) (hl : 96 ≤ p.input.length) : HeadPort.lawful { p with shedding := true } := by
  obtain ⟨hinput, hfull, hstall, _, hrest⟩ := h
  refine ⟨hinput, hfull, hstall, fun _ => ?_, hrest⟩
  dsimp only
  omega

/-- The cell at the head leaves the buffer: HSTALL is released at 112 or below, shedding ends below 64 (R145, R146). -/
theorem HeadPort.lawful.leave (h : p.lawful) {b : Bool} (hb : b = true → p.shedding = true ∧ 64 ≤ p.input.tail.length) :
    HeadPort.lawful { p with
      input := p.input.tail, hstall := stallAfterTaking p.hstall p.input.tail.length, shedding := b } := by
  obtain ⟨hinput, hfull, hstall, hshed, hrest⟩ := h
  have hlength : p.input.tail.length = p.input.length - 1 := List.length_tail
  refine ⟨?_, fun hl => ?_, fun hs => ?_, fun hs => (hb hs).2, hrest⟩
  · dsimp only
    omega
  · dsimp only at hl
    omega
  · dsimp only [stallAfterTaking, Config.stallReleaseAt] at hs ⊢
    split at hs
    · cases hs
    · omega

/-! ## The control port -/

theorem ControlPort.buffersUsed_inFrame {b : Bool} {q : Nat} (h : c.rx = .inFrame b q) :
    c.buffersUsed = c.frames.length + b.toNat := by
  cases b <;> simp [ControlPort.buffersUsed, h]

theorem ControlPort.buffersUsed_hunting (h : c.rx = .hunting) : c.buffersUsed = c.frames.length := by
  simp [ControlPort.buffersUsed, h]

/-- One answer more, where fewer than four wait (R155, R157). -/
theorem ControlPort.lawful.answer (h : c.lawful) (a : Answer) (hroom : c.answers.length < 4) : (c.answer a).lawful := by
  obtain ⟨hused, hbodies, _, hrest⟩ := h
  refine ⟨hused, hbodies, ?_, hrest⟩
  simp only [ControlPort.answer, List.length_append, List.length_singleton]
  omega

theorem ControlPort.lawful.reject (h : c.lawful) (r : RejectReason) : (c.reject r).lawful := by
  unfold ControlPort.reject
  split
  · exact h.answer _ ‹_›
  · exact h

/-- A receiver that hunts occupies no buffer (R156). -/
theorem ControlPort.lawful.hunt (h : c.lawful) : ControlPort.lawful { c with rx := .hunting } := by
  obtain ⟨hused, hrest⟩ := h
  exact ⟨(Nat.le_add_right _ _).trans hused, hrest⟩

/-- A frame begins with a buffer only where one is free (R156). -/
theorem ControlPort.lawful.sync (h : c.lawful) : c.sync.lawful := by
  obtain ⟨hused, hrest⟩ := h
  unfold ControlPort.sync
  split
  · rename_i hrx
    refine ⟨?_, hrest⟩
    rw [ControlPort.buffersUsed_inFrame rfl]
    by_cases hfree : c.buffersUsed < Config.frameBuffers
    · have hlt : c.frames.length < 2 := c.buffersUsed_hunting hrx ▸ hfree
      simpa [hfree] using hlt
    · simpa [hfree] using (Nat.le_add_right _ _).trans hused
  · rename_i b q hrx
    refine ⟨?_, hrest⟩
    rw [ControlPort.buffersUsed_inFrame hrx] at hused
    rw [ControlPort.buffersUsed_inFrame rfl]
    exact hused

/-- A body in a free buffer (R156, R157). -/
theorem ControlPort.lawful.store (h : c.lawful) {body : List Byte} (hfree : c.buffersUsed < 2) (hlength : body.length ≤ 256)
    (hkind : body.head? = some 0x01) : ControlPort.lawful { c with frames := c.frames ++ [body] } := by
  obtain ⟨_, hbodies, hrest⟩ := h
  refine ⟨?_, ?_, hrest⟩
  · simp only [ControlPort.buffersUsed, List.length_append, List.length_singleton] at hfree ⊢
    omega
  · simp only [List.mem_append, List.mem_singleton]
    rintro b (hb | rfl)
    · exact hbodies b hb
    · exact ⟨hlength, hkind⟩

theorem frameFault_none {b : Bool} {body : List Byte} {check : BitVec 16} (h : frameFault b body check = none) :
    b = true ∧ body.head? = some 0x01 := by
  unfold frameFault at h
  split at h
  · cases h
  · rename_i hb
    split at h
    · cases h
    · split at h
      · cases h
      · split at h
        · cases h
        · rename_i hkind
          exact ⟨by simpa using hb, by simpa using hkind⟩

/-- A complete frame is stored in the buffer that it was received in, or rejected (R155). -/
theorem ControlPort.lawful.completed (h : c.lawful) {body : List Byte} (hlength : body.length ≤ 256) (check : BitVec 16) :
    (c.completed body check).lawful := by
  unfold ControlPort.completed
  split
  · exact h
  · rename_i b q hrx
    unfold ControlPort.judged
    split
    · exact h.hunt.reject _
    · rename_i hfault
      obtain ⟨rfl, hkind⟩ := frameFault_none hfault
      refine h.hunt.store ?_ hlength hkind
      have hused := h.1
      rw [ControlPort.buffersUsed_inFrame hrx] at hused
      rw [ControlPort.buffersUsed_hunting rfl]
      exact hused

theorem ControlPort.lawful.tooLong (h : c.lawful) : c.tooLong.lawful := by
  unfold ControlPort.tooLong
  split
  · exact h
  · exact h.hunt.reject _

theorem ControlPort.lawful.timedOut (h : c.lawful) : c.timedOut.lawful := by
  unfold ControlPort.timedOut
  split
  · exact h.hunt
  · exact h
  · exact h

/-- The oldest frame leaves its buffer (R157). -/
theorem ControlPort.lawful.takeFrame (h : c.lawful) {body : List Byte} {rest : List (List Byte)} (hf : c.frames = body :: rest) :
    ControlPort.lawful { c with frames := rest } := by
  obtain ⟨hused, hbodies, hrest⟩ := h
  refine ⟨?_, fun b hb => hbodies b (by rw [hf]; exact List.mem_cons_of_mem _ hb), hrest⟩
  simp only [ControlPort.buffersUsed, hf, List.length_cons] at hused ⊢
  omega

theorem ControlPort.lawful.sendAnswer (h : c.lawful) : c.sendAnswer.lawful := by
  unfold ControlPort.sendAnswer
  split
  · rename_i a rest _ hanswers
    obtain ⟨hused, hbodies, hcount, hrest⟩ := h
    rw [hanswers] at hcount
    exact ⟨hused, hbodies, (Nat.le_succ _).trans hcount, hrest⟩
  · exact h

theorem ControlPort.lawful.sendNotice (h : c.lawful) : c.sendNotice.lawful := by
  unfold ControlPort.sendNotice
  split
  · rename_i n rest _ _ hnotices
    obtain ⟨hused, hbodies, hcount, hqueue, hsorted, hfloor⟩ := h
    rw [hnotices] at hqueue hsorted
    exact ⟨hused, hbodies, hcount, (Nat.le_succ _).trans hqueue, (List.pairwise_cons.mp hsorted).2, hfloor⟩
  · exact h

theorem ControlPort.lawful.tick (h : c.lawful) : ControlPort.lawful { c with rx := c.rx.tick } := by
  obtain ⟨hused, hrest⟩ := h
  refine ⟨?_, hrest⟩
  cases hrx : c.rx with
  | hunting =>
    rw [ControlPort.buffersUsed_hunting hrx] at hused
    exact hused
  | inFrame b q =>
    rw [ControlPort.buffersUsed_inFrame hrx] at hused
    rw [ControlPort.buffersUsed_inFrame rfl]
    exact hused

/-! ## The registry -/

/-- A change of the records that keeps their positions and identities (R1, R3). -/
theorem registryLawful.map (h : registryLawful l) {f : HeadsetRecord → HeadsetRecord}
    (hf : ∀ r, (f r).position = r.position ∧ (f r).profile.ident = r.profile.ident) : registryLawful (l.map f) := by
  obtain ⟨hsorted, hnodup, hnames⟩ := h
  refine ⟨?_, ?_, ?_⟩
  · simpa [List.pairwise_map, (hf _).1] using hsorted
  · simpa [List.map_map, Function.comp_def, (hf _).2] using hnodup
  · simpa [(hf _).2] using hnames

/-- Records that leave the registry leave it lawful (R6). -/
theorem registryLawful.sublist {m : List HeadsetRecord} (h : registryLawful l) (hm : m.Sublist l) : registryLawful m :=
  ⟨h.1.sublist hm, (hm.map _).nodup h.2.1, fun r hr => h.2.2 r (hm.subset hr)⟩

theorem perm_insertRecord (r : HeadsetRecord) (l : List HeadsetRecord) : (insertRecord r l).Perm (r :: l) := by
  induction l with
  | nil => exact List.Perm.refl _
  | cons x rest ih =>
    unfold insertRecord
    split
    · exact List.Perm.refl _
    · exact (ih.cons x).trans (List.Perm.swap r x rest)

theorem mem_insertRecord {r x : HeadsetRecord} : x ∈ insertRecord r l ↔ x = r ∨ x ∈ l := by
  rw [(perm_insertRecord r l).mem_iff, List.mem_cons]

theorem insertRecord_sorted {r : HeadsetRecord} (h : l.Pairwise (fun r x => r.position < x.position))
    (hnew : ∀ x ∈ l, x.position ≠ r.position) : (insertRecord r l).Pairwise (fun r x => r.position < x.position) := by
  induction l with
  | nil => simp [insertRecord]
  | cons x rest ih =>
    obtain ⟨hx, hrest⟩ := List.pairwise_cons.mp h
    unfold insertRecord
    split
    · rename_i hlt
      refine List.pairwise_cons.mpr ⟨fun y hy => ?_, h⟩
      rcases List.mem_cons.mp hy with rfl | hy
      · exact hlt
      · exact hlt.trans (hx y hy)
    · rename_i hge
      refine List.pairwise_cons.mpr ⟨fun y hy => ?_, ih hrest (fun y hy => hnew y (List.mem_cons_of_mem _ hy))⟩
      rcases mem_insertRecord.mp hy with rfl | hy
      · exact lt_of_le_of_ne (not_lt.mp hge) (hnew x (by simp))
      · exact hx y hy

/-- A record of a new identity at a free position (R3, R5). -/
theorem registryLawful.insert {r : HeadsetRecord} (h : registryLawful l) (hposition : ∀ x ∈ l, x.position ≠ r.position)
    (hident : ∀ x ∈ l, x.profile.ident ≠ r.profile.ident) (hname : identityOk r.profile.ident = true) :
    registryLawful (insertRecord r l) := by
  obtain ⟨hsorted, hnodup, hnames⟩ := h
  refine ⟨insertRecord_sorted hsorted hposition, ?_, ?_⟩
  · refine ((perm_insertRecord r l).map _).nodup_iff.mpr (List.nodup_cons.mpr ⟨?_, hnodup⟩)
    simpa using hident
  · intro x hx
    rcases mem_insertRecord.mp hx with rfl | hx
    · simpa [identityOk] using hname
    · exact hnames x hx

/-- The lowest free position is no record's (R3). -/
theorem State.freePosition_free {q : Position} (h : s.freePosition = some q) : ∀ x ∈ s.registry, x.position ≠ q := by
  have hnone := List.find?_some h
  simp only [State.recAt?, Option.isNone_iff_eq_none, List.find?_eq_none, beq_iff_eq] at hnone
  exact fun x hx hq => hnone x hx (congrArg Fin.val hq)

theorem State.rec_none (h : Identity) (hr : s.rec? h = none) : ∀ x ∈ s.registry, x.profile.ident ≠ h := by
  simpa [State.rec?] using hr

theorem State.enrolFault_none {f : EnrolFields} (h : s.enrolFault f = none) : identityOk f.ident = true := by
  unfold State.enrolFault at h
  split at h
  · cases h
  · rename_i hname
    simpa using hname

end Sys2Proof.Machine
end

section
/-! PROOF. Every step keeps the laws of the two ports, of the registry, of the tracks and of the taps: the requests, the taking of
events, and the commands (chapters 8 to 11). -/

namespace Sys2Proof.Machine

variable {s t u : State} {e : Ev}

/-! ## The relation -/

/-- What holds in one state of the laws of the ports, the registry, the tracks and the taps holds in another. -/
structure State.Sound (s t : State) : Prop where
  ctrl : s.ctrl.lawful → t.ctrl.lawful
  head : s.head.lawful → t.head.lawful
  registry : registryLawful s.registry → registryLawful t.registry
  tracks : s.tracksOk → t.tracksLawful
  taps : s.tapsLawful → t.tapsLawful

theorem State.Sound.refl (s : State) : s.Sound s := ⟨id, id, id, And.right, id⟩

theorem State.Sound.trans (h : s.Sound t) (k : t.Sound u) : s.Sound u :=
  ⟨k.ctrl ∘ h.ctrl, k.head ∘ h.head, k.registry ∘ h.registry, fun hs => k.tracks ⟨h.registry hs.1, h.tracks hs⟩,
    k.taps ∘ h.taps⟩

/-- A change of the two ports alone, which keeps their laws. -/
theorem State.Sound.ports (hc : s.ctrl.lawful → t.ctrl.lawful) (hh : s.head.lawful → t.head.lawful)
    (hr : t.registry = s.registry := by rfl) (ht : t.tuning = s.tuning := by rfl) (hp : t.taps = s.taps := by rfl) :
    s.Sound t :=
  have ha := (State.Abides.refl s).rest hr ht hp
  ⟨hc, hh, fun hl => hr ▸ hl, ha.tracks, ha.taps⟩

/-- A change of what no law is about. -/
theorem State.Sound.rest (h : s.Sound t) (hc : u.ctrl = t.ctrl := by rfl) (hh : u.head = t.head := by rfl)
    (hr : u.registry = t.registry := by rfl) (ht : u.tuning = t.tuning := by rfl) (hp : u.taps = t.taps := by rfl) :
    s.Sound u :=
  h.trans (.ports (fun hl => hc ▸ hl) (fun hl => hh ▸ hl) hr ht hp)

/-- A change of the control port, which keeps its law. -/
theorem State.Sound.setCtrl (h : s.Sound t) {c : ControlPort} (hc : t.ctrl.lawful → c.lawful) : s.Sound (t.setCtrl c) :=
  h.trans (.ports hc id)

/-- A change of the head port, which keeps its law. -/
theorem State.Sound.setHead (h : s.Sound t) {p : HeadPort} (hp : t.head.lawful → p.lawful) : s.Sound (t.setHead p) :=
  h.trans (.ports id hp)

theorem State.Sound.notify (h : s.Sound t) (n : Notice) : s.Sound (t.notify n) :=
  h.setCtrl (t.ctrl.queueNotice_lawful n)

/-- What an event leaves: the laws, and the answers that wait, since its own reply is placed at its end. -/
structure State.Inside (s t : State) : Prop extends s.Sound t where
  answers : t.ctrl.answers = s.ctrl.answers

theorem State.Inside.refl (s : State) : s.Inside s := ⟨.refl s, rfl⟩

theorem State.Inside.trans (h : s.Inside t) (k : t.Inside u) : s.Inside u :=
  ⟨h.toSound.trans k.toSound, k.answers.trans h.answers⟩

theorem State.Inside.rest (h : s.Inside t) (hc : u.ctrl = t.ctrl := by rfl) (hh : u.head = t.head := by rfl)
    (hr : u.registry = t.registry := by rfl) (ht : u.tuning = t.tuning := by rfl) (hp : u.taps = t.taps := by rfl) :
    s.Inside u :=
  ⟨h.toSound.rest hc hh hr ht hp, hc ▸ h.answers⟩

theorem State.Inside.notify (h : s.Inside t) (n : Notice) : s.Inside (t.notify n) :=
  ⟨h.toSound.notify n, (ControlPort.queueNotice_answers _ n).trans h.answers⟩

/-- An operation in the frame of an event that keeps the laws of the tracks and the taps. -/
theorem State.Inside.of_frame (hf : s.Frame t) (ha : s.Abides t) : s.Inside t := by
  refine ⟨⟨hf.ctrl_lawful, fun hl => hf.head ▸ hl, hf.registryLawful, ha.tracks, ha.taps⟩, ?_⟩
  obtain ⟨l, hl⟩ := hf.ctrl
  rw [hl]
  exact List.foldlRecOn l _ (motive := fun c : ControlPort => c.answers = s.ctrl.answers) rfl
    (fun c hc n _ => (ControlPort.queueNotice_answers c n).trans hc)

/-! ## The cells of the units -/

theorem State.Abides.inside (ha : s.Abides e.st) (hf : (Ev.start s).Frame e) : s.Inside e.st := .of_frame hf.1 ha

theorem Ev.inside_setOnline (e : Ev) (a : AntennaNo) (online : Bool) :
    e.st.Inside ((e.upd (·.setOnline a online)).notify (.unitState a online)).st :=
  State.Inside.notify ((State.Inside.refl _).rest : e.st.Inside (e.st.setOnline a online)) _

theorem Ev.inside_upTaken (e : Ev) (a : AntennaNo) : e.st.Inside (e.upTaken a).st := by
  unfold Ev.upTaken
  dsimp only
  split <;> split
  · exact .refl _
  · exact .refl _
  · exact e.inside_setOnline a true
  · exact e.inside_setOnline a true

theorem Ev.inside_downTaken (e : Ev) (a : AntennaNo) : e.st.Inside (e.downTaken a).st := by
  unfold Ev.downTaken
  split
  · dsimp only
    split
    · exact e.inside_setOnline a false
    · refine (e.inside_setOnline a false).trans (.of_frame (Ev.Frame.foldl (Ev.Frame.foldl (Ev.Frame.foldl (Ev.Frame.refl _) _
        (fun e c h => h.trans (e.frame_downContext a c)) _) _ (fun e g h => h.trans (e.frame_downHolder a g)) _) _
        (fun e g h => h.denyWait a .offline g) _).1 ?_)
      exact (((State.Abides.refl _).foldl (fun c h => h.downContext a c) _).foldl (fun g h => h.downHolder a g) _).foldl
        (fun g h => h.denyWait a .offline g) _
  · exact .refl _

/-- A cell of a unit leaves the laws, where a HEAR carries no malformed level code. -/
theorem Ev.inside_cellEvent (e : Ev) (c : RawCell) (k : UnitKind) (a : AntennaNo)
    (hlevel : k = .hear → ¬ (252 ≤ c.byte5.toNat ∧ c.byte5.toNat ≤ 254)) : e.st.Inside (Ev.cellEvent c k a e).st := by
  cases hk : k.isLink with
  | false => exact .of_frame ((Ev.Frame.refl e).cellEvent c k a hk).1 (e.abides_cellEvent c k a hlevel)
  | true =>
    cases k with
    | up => exact e.inside_upTaken a
    | down => exact e.inside_downTaken a
    | _ => cases hk

/-- The judgement of a cell discards a HEAR with a malformed level code (R147 item 4). -/
theorem State.level_of_judge {c : RawCell} {a : AntennaNo} (h : s.judge c = some (.hear, a)) :
    ¬ (252 ≤ c.byte5.toNat ∧ c.byte5.toNat ≤ 254) := by
  intro hbad
  unfold State.judge at h
  split at h
  · rename_i k b _ _
    split at h
    · cases h
    · split at h
      · rename_i hlink
        obtain ⟨rfl, _⟩ := Prod.mk.inj (Option.some.inj h)
        cases hlink
      · split at h
        · cases h
        · split at h
          · simp [hbad] at h
          · split at h <;> cases h
          · rename_i hhear _
            exact hhear (Prod.mk.inj (Option.some.inj h)).1
  · cases h

/-! ## Requests -/

/-- A change of the records alone, which keeps the laws of the registry and of the tracks. -/
theorem State.Inside.setRegistry {l : List HeadsetRecord} (hl : registryLawful s.registry → registryLawful l)
    (ht : s.tracksOk → ∀ r ∈ l, r.att.lawful s.tuning.persist) : s.Inside (s.setRegistry l) :=
  ⟨⟨id, id, hl, ht, id⟩, rfl⟩

/-- A change of every record that keeps its position, its identity and the law of its track. -/
theorem State.Inside.mapRecords {f : HeadsetRecord → HeadsetRecord}
    (hf : ∀ r, (f r).position = r.position ∧ (f r).profile.ident = r.profile.ident)
    (ht : ∀ r, r.att.lawful s.tuning.persist → (f r).att.lawful s.tuning.persist) :
    s.Inside (s.setRegistry (s.registry.map f)) := by
  refine .setRegistry (fun hl => hl.map hf) (fun hs r hr => ?_)
  obtain ⟨x, hx, rfl⟩ := List.mem_map.mp hr
  exact ht x (hs.2 x hx)

/-- A change of the records of an identity that keeps their positions and that identity. -/
theorem State.Inside.updRec (s : State) (g : Identity) {f : HeadsetRecord → HeadsetRecord}
    (hf : ∀ r, (f r).position = r.position ∧ (r.profile.ident = g → (f r).profile.ident = g)) (ha : ∀ r, (f r).att = r.att) :
    s.Inside (s.updRec g f) := by
  refine .mapRecords (fun r => ?_) (fun r hr => ?_)
  · split
    · rename_i hg
      have hg : r.profile.ident = g := by simpa using hg
      exact ⟨(hf r).1, ((hf r).2 hg).trans hg.symm⟩
    · exact ⟨rfl, rfl⟩
  · split
    · rw [ha]
      exact hr
    · exact hr

theorem Ev.inside_doEnrol (e : Ev) (f : EnrolFields) : e.st.Inside (e.doEnrol f).1.st := by
  unfold Ev.doEnrol
  split
  · exact .refl _
  · rename_i hfault
    split
    · rename_i hnone
      split
      · exact .refl _
      · rename_i q hq
        refine .setRegistry (fun hl => hl.insert (State.freePosition_free hq) (State.rec_none _ hnone)
          (State.enrolFault_none hfault)) (fun hs r hr => ?_)
        rcases mem_insertRecord.mp hr with rfl | hr
        · trivial
        · exact hs.2 r hr
    · split
      · exact .updRec _ f.ident (fun _ => ⟨rfl, fun _ => rfl⟩) (fun _ => rfl)
      · exact .refl _

theorem Ev.inside_doUnenrol (e : Ev) (g : Identity) : e.st.Inside (e.doUnenrol g).1.st := by
  unfold Ev.doUnenrol
  split
  · exact .refl _
  · split
    · exact .refl _
    · split
      · exact .setRegistry (fun hl => hl.sublist List.filter_sublist) (fun hs r hr => hs.2 r (List.mem_of_mem_filter hr))
      · exact .refl _

theorem Ev.inside_doUnstick (e : Ev) (g : Identity) : e.st.Inside (e.doUnstick g).1.st := by
  unfold Ev.doUnstick
  split
  · exact .refl _
  · split
    · exact .mapRecords (fun _ => ⟨rfl, rfl⟩) (fun _ h => h)
    · split
      · exact .refl _
      · exact .updRec _ g (fun _ => ⟨rfl, fun h => h⟩) (fun _ => rfl)

/-- A TUNE lowers the counts to the new persist value (R99, R168). -/
theorem Ev.inside_doTune (e : Ev) (f : TuneFields) : e.st.Inside (e.doTune f).1.st := by
  have htuned : ∀ tuning : Tuning, e.st.Inside { e.st with
      tuning := tuning, registry := e.st.registry.map (HeadsetRecord.lowerCount tuning.persist) } := by
    refine fun tuning => ⟨⟨id, id, fun hl => hl.map (fun _ => ⟨rfl, rfl⟩), fun hs r hr => ?_, id⟩, rfl⟩
    obtain ⟨x, hx, rfl⟩ := List.mem_map.mp hr
    exact (hs.2 x hx).lowerCount _
  unfold Ev.doTune
  split
  · exact .refl _
  · dsimp only
    split <;> exact htuned _

theorem State.Inside.setTap (s : State) (n : TapNo) {x : Tap} (hx : (s.tap n).lawful → x.lawful) :
    s.Inside (s.setTap n x) := by
  refine .of_frame (State.Frame.setTap s n x) ⟨rfl, And.right, fun hs m => ?_⟩
  rw [State.tap_setTap]
  split
  · exact hx (hs n)
  · exact hs m

/-- A tap that starts has its whole count, which is not 0, left (R178). -/
theorem Ev.inside_doTap (e : Ev) (n k sel : Byte) (count : BitVec 16) (circ : Byte) :
    e.st.Inside (e.doTap n k sel count circ).1.st := by
  unfold Ev.doTap
  split
  · exact .refl _
  · split
    · exact .refl _
    · split
      · exact .refl _
      · split
        · exact .refl _
        · rename_i hcount
          have hpos : 1 ≤ count.toNat := Nat.pos_of_ne_zero (fun h0 => hcount (BitVec.eq_of_toNat_eq h0))
          split
          · exact .refl _
          · split
            · exact .refl _
            · exact .setTap _ _ (fun _ => ⟨Nat.zero_le _, fun _ => ⟨hpos, le_rfl⟩⟩)

theorem Ev.inside_doUntap (e : Ev) (n : Byte) : e.st.Inside (e.doUntap n).1.st := by
  unfold Ev.doUntap
  split
  · exact .refl _
  · exact .setTap _ _ (fun _ => ⟨Nat.zero_le _, fun hr => absurd hr Bool.false_ne_true⟩)

theorem Ev.inside_doFloor (e : Ev) (v : Byte) : e.st.Inside (e.doFloor v).1.st := by
  unfold Ev.doFloor
  split
  · exact .refl _
  · rename_i hv
    refine ⟨(State.Sound.refl e.st).setCtrl (fun ⟨hused, hbodies, hcount, hqueue, hsorted, _⟩ => ?_), rfl⟩
    exact ⟨hused, hbodies, hcount, hqueue, hsorted, not_lt.mp hv⟩

/-- WARM keeps a cell in the output queue only where it holds one (R153). -/
theorem State.drawBegun_output (h : s.head.lawful) (hb : s.drawBegun.1 = true) : s.head.output ≠ [] := by
  obtain ⟨_, _, _, _, _, _, hbegun⟩ := h
  intro ho
  cases hkept : s.head.begun with
  | true => exact hbegun hkept ho
  | false => rw [(State.drawBegun_cases (s := s)).2 hkept ho] at hb; cases hb

theorem Ev.inside_warm (e : Ev) : e.st.Inside e.warm.st := by
  refine ⟨⟨fun hc => ?_, fun hh => ?_, fun hl => ?_, fun _ r hr => ?_, fun _ n => ?_⟩, rfl⟩
  · obtain ⟨hused, hbodies, hcount, _, _, hfloor⟩ := hc
    exact ⟨hused, hbodies, hcount, Nat.zero_le _, List.Pairwise.nil, hfloor⟩
  · have hkept := State.drawBegun_output hh
    have hlength : (if e.st.drawBegun.1 then e.st.head.output.take 1 else []).length ≤ 1 := by
      split
      · exact List.length_take_le 1 _
      · exact Nat.zero_le _
    show HeadPort.lawful ⟨[], false, false, (if e.st.drawBegun.1 then e.st.head.output.take 1 else []), [], e.st.drawBegun.1⟩
    refine ⟨Nat.zero_le _, by simp, by simp, by simp, hlength.trans (by omega), by simp, fun hb => ?_⟩
    have hb : e.st.drawBegun.1 = true := hb
    simpa [hb] using hkept hb
  · exact hl.map (fun _ => ⟨rfl, rfl⟩)
  · obtain ⟨x, _, rfl⟩ := List.mem_map.mp hr
    trivial
  · rw [show e.warm.st.tap n = Tap.reset by simp [Ev.warm, State.warm, State.tap]]
    exact Tap.lawful_reset

theorem State.Abides.denyJoins (h : s.Abides e.st) (r : DeniedReason) (a : AntennaNo) : s.Abides (Ev.denyJoins r e a).st :=
  h.foldl (fun g h => h.denyWait a r g) _

theorem State.Abides.setVenue (h : s.Abides e.st) (v : VenueNo) (x : VenueState) : s.Abides (e.setVenue v x).st := by
  have hopen : ∀ y, s.Abides (e.openVenue v y).st := by
    intro y
    unfold Ev.openVenue
    dsimp only
    split <;> exact h.rest
  have hshut : s.Abides (e.shutVenue v).st := by
    have h1 : s.Abides ((e.upd (·.setVenueState v .draining)).notify (.venueState v .draining .request)).st := h.rest
    unfold Ev.shutVenue
    split
    · exact h.rest
    · exact h1.foldl (fun a h => h.denyJoins .closed a) _
  unfold Ev.setVenue
  dsimp only
  split
  · exact h
  · split
    · exact hopen _
    · exact hopen _
    · split
      · exact h
      · exact hshut
    · exact h

theorem State.Abides.evictActions (h : s.Abides e.st) (r : HeadsetRecord) : s.Abides (e.evictActions r).st := by
  unfold Ev.evictActions
  dsimp only
  split
  · exact h
  · exact ((h.removeWait _ _).emit _).detachWith _ _ _
  · exact ((h.freeCell _ _).releaseHeld _ _ _).detachWith _ _ _
  · split
    · exact (h.abortTransfer _ _).detachWith _ _ _
    · exact h
  · exact h.detachWith _ _ _

theorem State.Abides.doSteer (h : s.Abides e.st) (g : Identity) (target options : Byte) :
    s.Abides (e.doSteer g target options).1.st := by
  unfold Ev.doSteer
  split
  · exact h
  · split
    · exact h
    · split
      · exact h
      · split
        · exact h
        · rename_i r hr
          split
          · exact h
          · rename_i svc held tr hatt
            have ht : s.tracksOk → tr.servedLawful s.tuning.persist := fun hs =>
              Attachment.lawful_served.mp (hatt ▸ h.found hs (List.mem_of_find?_eq_some hr))
            split
            · exact h
            · unfold Ev.steerStart
              split
              · exact h
              · split
                · exact h
                · exact h.startTransfer _ _ _ _ _ _ _ _ ht
          · exact h

/-- A request keeps the laws, whoever its owner is, and places no answer itself. -/
theorem Ev.inside_doRequest (e : Ev) (r : Request) : e.st.Inside (e.doRequest r).1.st := by
  have same : e.st.Inside e.st := .refl _
  have habides := State.Abides.refl e.st
  cases r with
  | ident => exact same
  | tune f => exact e.inside_doTune f
  | floor v => exact e.inside_doFloor v
  | warm => exact e.inside_warm
  | enrol f => exact e.inside_doEnrol f
  | unenrol g => exact e.inside_doUnenrol g
  | unstick g => exact e.inside_doUnstick g
  | tap n k sel count circ => exact e.inside_doTap n k sel count circ
  | untap n => exact e.inside_doUntap n
  | steer g target options => exact .of_frame (e.frame_doSteer g target options).1 (habides.doSteer g target options)
  | go =>
    show e.st.Inside e.doGo.1.st
    unfold Ev.doGo
    repeat' split
    all_goals exact same.rest
  | site a p v =>
    show e.st.Inside (e.doSite a p v).1.st
    have hsite : ∀ a p v, e.st.Inside (e.site a p v).st := by
      intro a p v
      unfold Ev.site
      dsimp only
      split
      · exact same.rest
      · split <;> exact same.rest
      · rw [Ev.upd_st, Ev.emitIf_st]
        exact same.rest
      · exact same
    unfold Ev.doSite
    split
    · exact same
    · split
      · exact same
      · split
        · exact same
        · split
          · exact same
          · exact hsite _ _ _
  | venue v lo hi w =>
    show e.st.Inside (e.doVenue v lo hi w).1.st
    unfold Ev.doVenue
    repeat' split
    all_goals exact same.rest
  | line n k =>
    show e.st.Inside (e.doLine n k).1.st
    unfold Ev.doLine
    split
    · exact same
    · split
      · exact same
      · generalize (if k = 1 then LineKind.cue else LineKind.opened) = kind
        dsimp only
        repeat' split
        all_goals exact same.rest
  | setVenue v x =>
    show e.st.Inside (e.doSetVenue v x).1.st
    unfold Ev.doSetVenue
    split
    · exact same
    · split
      · exact same
      · exact .of_frame (e.frame_setVenue _ _).1 (habides.setVenue _ _)
  | bar a =>
    show e.st.Inside (e.doBar a).1.st
    unfold Ev.doBar
    split
    · exact same
    · split
      · dsimp only
        split
        · exact same
        · rename_i b _ _ _
          have hbarred : e.st.Inside (e.upd (·.setBarred b true)).st := same.rest
          exact hbarred.trans (.of_frame (Ev.frame_denyJoins _ .barred b).1 ((State.Abides.refl _).denyJoins .barred b))
      · exact same
  | unbar a =>
    show e.st.Inside (e.doUnbar a).1.st
    unfold Ev.doUnbar
    repeat' split
    all_goals exact same.rest
  | evict g =>
    show e.st.Inside (e.doEvict g).1.st
    unfold Ev.doEvict
    split
    · exact same
    · split
      · exact same
      · split
        · exact same
        · exact .of_frame (e.frame_evictActions _).1 (habides.evictActions _)
  | peekHeadset g =>
    show e.st.Inside (e.doPeekHeadset g).1.st
    unfold Ev.doPeekHeadset
    repeat' split
    all_goals exact same
  | peekAntenna a =>
    show e.st.Inside (e.doPeekAntenna a).1.st
    unfold Ev.doPeekAntenna
    split <;> exact same
  | peekVenue v =>
    show e.st.Inside (e.doPeekVenue v).1.st
    unfold Ev.doPeekVenue
    split <;> exact same
  | peekContext c =>
    show e.st.Inside (e.doPeekContext c).1.st
    unfold Ev.doPeekContext
    split <;> exact same
  | list start count filter =>
    show e.st.Inside (e.doList start count filter).1.st
    unfold Ev.doList
    repeat' split
    all_goals exact same

theorem Ev.inside_runItem (e : Ev) (n : Nat) (i : ChainItem) : e.st.Inside (e.runItem n i).1.st := by
  cases i with
  | record tag r =>
    have hcarried : e.st.Inside (e.carryOut r).1.st := by
      unfold Ev.carryOut
      split
      · exact e.inside_doRequest r
      · exact .refl _
    show e.st.Inside (e.runRecord n tag r).1.st
    unfold Ev.runRecord
    dsimp only
    split
    · exact .refl _
    · exact hcarried
  | tooMany code tag => exact .refl _
  | badKind code tag => exact .refl _
  | badLength code tag => exact .refl _
  | remainder n => exact .refl _

theorem Ev.inside_runChain (e : Ev) (n : Nat) (l : List ChainItem) : e.st.Inside (e.runChain n l).1.st := by
  induction l generalizing e n with
  | nil => exact .refl _
  | cons i rest ih => exact (e.inside_runItem _ i).trans (ih _ _)

/-- A request frame places one answer, where fewer than two wait (R157, R160). -/
theorem Ev.sound_frame (e : Ev) (chain : List ChainItem × Bool) (hmay : e.st.ctrl.mayTake = true) :
    e.st.Sound (e.frame chain).st := by
  have hrun := e.inside_runChain 2 chain.1
  have hfew : (e.runChain 2 chain.1).1.st.ctrl.answers.length < 4 := by
    have hfew : e.st.ctrl.answers.length < 2 := by simpa [ControlPort.mayTake] using hmay
    rw [hrun.answers]
    omega
  exact hrun.toSound.setCtrl (fun hl => hl.answer _ hfew)

/-! ## Takings -/

/-- An event settled: its late offers, and then its cells in the output queue (R148, R149). -/
theorem State.Sound.settle {p : HeadPort} (h : s.Sound e.st) (ht : e.settle p = some t) : s.Sound t := by
  unfold Ev.settle at ht
  dsimp only at ht
  split at ht
  · cases ht
    have hfinish : e.st.Inside e.finish.st := .of_frame (Ev.Frame.refl e).finish.1 (State.Abides.refl e.st).finish
    exact (h.trans hfinish.toSound).setHead (fun hl => hl.enqueue _)
  · cases ht

theorem State.Sound.attempt {p : HeadPort} (h : s.Sound e.st) (ht : e.attempt p = .taken t) : s.Sound t := by
  unfold Ev.attempt at ht
  split at ht
  · rename_i x hx
    cases ht
    exact h.settle hx
  · cases ht

theorem State.sound_leaveBuffer (s : State) : s.Sound s.leaveBuffer := by
  unfold State.leaveBuffer
  dsimp only
  split
  · exact ((State.Sound.refl s).setHead (fun hl => hl.leave (b := false) (fun hb => absurd hb Bool.false_ne_true))).notify _
  · rename_i hkeep
    refine (State.Sound.refl s).setHead (fun hl => hl.leave (b := s.head.shedding) (fun hb => ⟨hb, ?_⟩))
    simpa [hb] using hkeep

theorem State.sound_attemptCell (h : s.attemptCell = .taken t) : s.Sound t := by
  unfold State.attemptCell at h
  split at h
  · cases h
  · split at h
    · cases h
      exact s.sound_leaveBuffer
    · rename_i c _ _ _ k a hj
      have hcell := (Ev.start s.leaveBuffer).inside_cellEvent c k a (fun hk => State.level_of_judge (hk ▸ hj))
      exact (s.sound_leaveBuffer.trans hcell.toSound).attempt h

theorem State.sound_attemptFrame (h : s.attemptFrame = .taken t) : s.Sound t := by
  unfold State.attemptFrame at h
  split at h
  · cases h
  · rename_i body rest hframes
    split at h
    · rename_i hmay
      have hfreed : s.Sound ((Ev.start s).upd (fun t => t.setCtrl { t.ctrl with frames := rest })).st :=
        (State.Sound.refl s).setCtrl (fun hl => hl.takeFrame hframes)
      exact (hfreed.trans (Ev.sound_frame _ (bodyChain body) hmay)).attempt h
    · cases h

theorem State.sound_attemptTransfer {c : ContextNo} {p : Phase} {r : FailReason} (h : s.attemptTransfer c p r = .taken t) :
    s.Sound t := by
  unfold State.attemptTransfer at h
  split at h
  · rename_i m hm
    obtain ⟨g, hm⟩ := State.movingOf_of_movingIn hm
    have habides := State.Abides.refl s
    split at h
    · refine State.Sound.attempt (State.Inside.of_frame ((Ev.Frame.refl (Ev.start s)).expireTransfer m r).1 ?_).toSound h
      exact State.Abides.giveUp (e := (Ev.start s).freeCell _ _) habides (habides.moving hm) r
    · cases h
  · cases h

theorem State.sound_attemptWait {g : Identity} (h : s.attemptWait g = .taken t) : s.Sound t := by
  unfold State.attemptWait at h
  split at h
  · refine State.Sound.attempt (State.Inside.of_frame ((Ev.Frame.refl (Ev.start s)).waitExpired g _).1 ?_).toSound h
    exact State.Abides.denyWait (e := Ev.start s) (State.Abides.refl s) _ .full g
  · cases h

theorem State.sound_attemptHold {g : Identity} (h : s.attemptHold g = .taken t) : s.Sound t := by
  unfold State.attemptHold at h
  split at h
  · refine State.Sound.attempt (State.Inside.of_frame ((Ev.Frame.refl (Ev.start s)).holdExpired g).1 ?_).toSound h
    exact (State.Abides.detach (e := Ev.start s) (State.Abides.refl s) g).notify _
  · cases h

/-- An event that is taken keeps the laws. -/
theorem State.sound_attempt {w : WaitingEvent} (h : s.attempt w = .taken t) : s.Sound t := by
  cases w with
  | cell => exact State.sound_attemptCell h
  | frame => exact State.sound_attemptFrame h
  | tPrep c => exact State.sound_attemptTransfer h
  | tMove c => exact State.sound_attemptTransfer h
  | wait g => exact State.sound_attemptWait h
  | hold g => exact State.sound_attemptHold h

theorem State.Sound.reconsider (h : s.Sound t) : s.Sound t.reconsider :=
  State.reconsider_keeps s.Sound (fun _ _ h => h.rest) (fun _ _ h => h.rest)
    (fun _ _ _ h _ ha => h.trans (State.sound_attempt ha)) t h

theorem State.Sound.consider (h : s.Sound t) (w : WaitingEvent) : s.Sound (t.consider w) :=
  State.consider_keeps s.Sound (fun _ _ h => h.rest) (fun _ _ h => h.rest)
    (fun _ _ _ h ha => h.trans (State.sound_attempt ha)) t w h

/-! ## The commands -/

theorem State.sound_arrive (s : State) (c : RawCell) : s.Sound (s.arrive c) := by
  have h := State.Sound.refl s
  unfold State.arrive
  split
  · exact h
  · split
    · rename_i hshed
      unfold State.shed
      split
      · exact h
      · exact (h.setHead (fun hl => hl.shed hshed.2)).notify _
    · split
      · exact h
      · rename_i hroom
        exact h.setHead (fun hl => hl.joinTail c (not_le.mp hroom))

theorem State.sound_presentCell (s : State) (c : RawCell) : s.Sound (s.presentCell c) := by
  have harrived : s.Sound (if s.headIs c then s else s.arrive c) := by
    split
    · exact .refl s
    · exact s.sound_arrive c
  unfold State.presentCell
  split
  · exact .refl s
  · dsimp only
    generalize (if s.headIs c = true then s else s.arrive c) = t at harrived ⊢
    split
    · exact harrived.consider .cell
    · exact harrived

theorem State.sound_cellSent (s : State) : s.Sound s.cellSent := by
  unfold State.cellSent
  split
  · exact .refl s
  · exact ((State.Sound.refl s).setHead (fun hl => hl.sent)).reconsider

theorem State.sound_answerSent (s : State) : s.Sound s.answerSent := by
  unfold State.answerSent
  split
  · exact .refl s
  · exact ((State.Sound.refl s).setCtrl (fun hl => hl.sendAnswer)).reconsider

/-- A request frame received whole: its body is within the limit and of type REQUEST (R154, R155). -/
theorem State.sound_presentFrame (s : State) {body : List Byte} (chain : List ChainItem × Bool) (hlength : body.length ≤ 256)
    (hkind : body.head? = some 0x01) : s.Sound (s.presentFrame body chain) := by
  have h := State.Sound.refl s
  unfold State.presentFrame
  split
  · exact h
  · split
    · exact h
    · split
      · rename_i hfree
        have hstored : s.Sound (s.storeBody body) := by
          unfold State.storeBody State.addWaiting
          have hbody := h.setCtrl (fun hl => hl.store (body := body) hfree hlength hkind)
          split
          · exact hbody
          · exact hbody.rest
        unfold State.takeOrStore
        split
        · rename_i hmay
          have hmay : s.ctrl.mayTake = true := (Bool.and_eq_true _ _ ▸ hmay).2
          split
          · rename_i t ht
            exact (State.Sound.settle ((Ev.start s).sound_frame chain hmay) ht).reconsider
          · exact hstored
        · exact hstored
      · exact h.setCtrl (fun hl => hl.reject .overrun)

theorem length_requestFields_le (r : Request) : (requestFields r).length ≤ 19 := by
  cases r <;> simp [requestFields, be16, be24, be32]

theorem State.sound_presentRequest (s : State) (tag : Byte) (r : Request) : s.Sound (s.presentRequest tag r) := by
  refine s.sound_presentFrame _ ?_ rfl
  have := length_requestFields_le r
  simp only [oneRecordBody, recordBytes, List.length_cons]
  omega

/-- The chain of an irregular record fits a request body. -/
theorem length_of_chainHolds {q : ChainItem → Bool} {chain : List Byte} (h : chainHolds q chain = true) :
    chain.length + 1 ≤ 256 := by
  simp only [chainHolds, Bool.and_eq_true, decide_eq_true_eq] at h
  exact h.1

theorem State.sound_presentChain (s : State) {chain : List Byte} (h : chain.length + 1 ≤ 256) :
    s.Sound (s.presentChain chain) :=
  s.sound_presentFrame _ h rfl

theorem State.sound_onCtrl (s : State) {f : ControlPort → ControlPort} (hf : s.ctrl.lawful → (f s.ctrl).lawful) :
    s.Sound (s.onCtrl f) := by
  unfold State.onCtrl
  split
  · exact .refl s
  · exact (State.Sound.refl s).setCtrl hf

/-- A tap frame takes records from a tap (R180). -/
theorem State.sound_startTapFrame (s : State) (n : TapNo) : s.Sound (s.startTapFrame n) := by
  have hfewer : ∀ x : Tap, x.lawful → { x with buffer := x.buffer.drop Config.tapFrameRecords, gap := false }.lawful :=
    fun x ⟨hl, hr⟩ => ⟨(List.length_drop.trans_le (Nat.sub_le _ _)).trans hl, hr⟩
  have htap := (State.Inside.setTap s n (hfewer (s.tap n))).toSound
  exact ⟨htap.ctrl, htap.head, htap.registry, htap.tracks, htap.taps⟩

theorem State.sound_sendTap (s : State) : s.Sound s.sendTap := by
  unfold State.sendTap
  split
  · exact .refl s
  · split
    · exact s.sound_startTapFrame _
    · exact .refl s

theorem State.sound_tick (s : State) : s.Sound s.tick := by
  unfold State.tick
  split
  · exact .refl s
  · refine ⟨fun hl => hl.tick, id, fun hl => hl.map (fun _ => ⟨rfl, rfl⟩), fun hs r hr => ?_, id⟩
    obtain ⟨x, hx, rfl⟩ := List.mem_map.mp hr
    exact (hs.2 x hx).tick

theorem State.sound_resetTo (s : State) (pin : Bool) : s.Sound (s.resetTo pin) := by
  refine ⟨fun _ => ControlPort.lawful_reset, fun _ => HeadPort.lawful_reset, fun _ => registryLawful_nil,
    fun _ r hr => absurd hr List.not_mem_nil, fun _ n => ?_⟩
  rw [show (s.resetTo pin).tap n = State.reset.tap n from rfl, State.tap_reset]
  exact Tap.lawful_reset

theorem State.Sound.ite {c : Prop} [Decidable c] (h : c → s.Sound t) (k : s.Sound u) : s.Sound (if c then t else u) := by
  split
  · exact h ‹_›
  · exact k

/-- Every command keeps the laws. -/
theorem exec_sound {c : Instr} (h : exec c s = .next t) : s.Sound t := by
  have h0 := State.Sound.refl s
  cases c <;> cases h
  case frameBegin => exact s.sound_onCtrl (fun hl => hl.sync)
  case frameTimeout => exact s.sound_onCtrl (fun hl => hl.timedOut)
  case sendNoticeFrame => exact s.sound_onCtrl (fun hl => hl.sendNotice)
  case frameSendDone => exact s.sound_onCtrl id
  case frameLengthTooLong => exact .ite (fun _ => s.sound_onCtrl (fun hl => hl.tooLong)) h0
  case frameComplete body check =>
    exact .ite (fun hw => s.sound_onCtrl (fun hl => hl.completed (of_decide_eq_true hw) check)) h0
  case sendAnswerFrame => exact s.sound_answerSent
  case sendTapFrame => exact s.sound_sendTap
  case unknownKindRecord => exact .ite (fun hw => s.sound_presentChain (length_of_chainHolds hw)) h0
  case shortRecord => exact .ite (fun hw => s.sound_presentChain (length_of_chainHolds hw)) h0
  case skippedRecord => exact .ite (fun hw => s.sound_presentChain (length_of_chainHolds hw)) h0
  case cellArrival c => exact s.sound_arrive c
  case hear => exact s.sound_presentCell _
  case join => exact s.sound_presentCell _
  case ready => exact s.sound_presentCell _
  case noroom => exact s.sound_presentCell _
  case landed => exact s.sound_presentCell _
  case gone => exact s.sound_presentCell _
  case quit => exact s.sound_presentCell _
  case up => exact s.sound_presentCell _
  case down => exact s.sound_presentCell _
  case nonUnitKindCell => exact .ite (fun _ => s.sound_presentCell _) h0
  case cellSent => exact s.sound_cellSent
  case tPrepExpiry => exact .ite (fun _ => h0) (h0.consider _)
  case tMoveExpiry => exact .ite (fun _ => h0) (h0.consider _)
  case waitExpiry => exact .ite (fun _ => h0) (h0.consider _)
  case holdExpiry => exact .ite (fun _ => h0) (h0.consider _)
  case requestFrameTaken => exact .ite (fun _ => h0) (h0.consider _)
  case resetAssert => exact s.sound_resetTo true
  case resetRelease => exact .ite (fun _ => s.sound_resetTo false) h0
  -- what is left is the host's requests
  all_goals exact s.sound_presentRequest _ _

/-- Every step keeps the laws. -/
theorem step_sound (h : step s = .next t) : s.Sound t := by
  unfold step at h
  split at h
  · cases h
    exact s.sound_tick
  · rename_i c rest _
    have hqueue : s.Sound (s.setPending rest) := (State.Sound.refl s).rest
    exact hqueue.trans (exec_sound h)

end Sys2Proof.Machine

open Sys2Proof Sys2Proof.Machine

/-- Settles O6: every step keeps the law of the control port. -/
theorem controlPortLawKept : Obligations.ControlPortLawKept := by
  unfold Obligations.ControlPortLawKept
  exact fun _ _ hlaw hstep => (step_sound hstep).ctrl hlaw

/-- Settles O7: every step keeps the law of the head port. -/
theorem headPortLawKept : Obligations.HeadPortLawKept := by
  unfold Obligations.HeadPortLawKept
  exact fun _ _ hlaw hstep => (step_sound hstep).head hlaw

/-- Settles O8: every step keeps the law of every tap. -/
theorem tapLawKept : Obligations.TapLawKept := by
  unfold Obligations.TapLawKept
  exact fun _ _ hlaw hstep => (step_sound hstep).taps hlaw

/-- Settles O9: in a lawful registry every step keeps the laws of the tracks. -/
theorem trackLawsKept : Obligations.TrackLawsKept := by
  unfold Obligations.TrackLawsKept
  exact fun _ _ hregistry htracks hstep => (step_sound hstep).tracks ⟨hregistry, htracks⟩

/-- Settles O10: every step keeps the law of the registry. -/
theorem registryLawKept : Obligations.RegistryLawKept := by
  unfold Obligations.RegistryLawKept
  exact fun _ _ hlaw hstep => (step_sound hstep).registry hlaw
end

section
/-! PROOF. No live event changes the configuration, the mode, the tuning set, the crew lines or the control port but for its notices
(chapters 1, 2 and 10). -/

namespace Sys2Proof.Machine

variable {s t u : State} {e : Ev}

/-! ## The relation -/

/-- A state with the head port, the waiting events and the number of free values of another. -/
def State.liveAs (s t : State) : State := { s with head := t.head, waiting := t.waiting, freeIndex := t.freeIndex }

/-- What a live event leaves unchanged: everything that the events of chapters 5 to 7 do, the head port and the waiting events
apart, and the number of free values drawn where nothing waits. -/
structure State.Live (s t : State) : Prop where
  frame : (s.liveAs t).Frame t
  free : s.waiting = [] → t.freeIndex = s.freeIndex

/-- A taking leaves the waiting events and the number of free values too. -/
structure State.LiveTaken (s t : State) : Prop extends s.Live t where
  waiting : t.waiting = s.waiting
  index : t.freeIndex = s.freeIndex

/-- Only expiries wait. -/
def State.onlyExpiries (s : State) : Prop := ∀ w ∈ s.waiting, w ≠ .cell ∧ w ≠ .frame

theorem State.LiveTaken.of_frame (h : s.Frame t) : s.LiveTaken t :=
  ⟨⟨⟨h.resetPin, h.mode, h.tuning, h.lines, rfl, h.tapTurn, rfl, rfl, h.pending, h.ctrl, h.ants, h.vens, h.records⟩,
    fun _ => h.freeIndex⟩, h.waiting, h.freeIndex⟩

theorem State.LiveTaken.refl (s : State) : s.LiveTaken s := .of_frame (.refl s)

theorem State.LiveTaken.setHead (h : s.LiveTaken t) (p : HeadPort) : s.LiveTaken (t.setHead p) :=
  ⟨⟨⟨h.frame.resetPin, h.frame.mode, h.frame.tuning, h.frame.lines, rfl, h.frame.tapTurn, rfl, rfl, h.frame.pending,
    h.frame.ctrl, h.frame.ants, h.frame.vens, h.frame.records⟩, h.free⟩, h.waiting, h.index⟩

theorem State.Live.trans (h : s.Live t) (hw : t.waiting ⊆ s.waiting) (k : t.Live u) : s.Live u := by
  have hcarry : (s.liveAs u).Frame (t.liveAs u) :=
    ⟨h.frame.resetPin, h.frame.mode, h.frame.tuning, h.frame.lines, rfl, h.frame.tapTurn, rfl, rfl, h.frame.pending,
      h.frame.ctrl, h.frame.ants, h.frame.vens, h.frame.records⟩
  exact ⟨hcarry.trans k.frame,
    fun hs => (k.free (List.subset_nil.mp (hs ▸ hw))).trans (h.free hs)⟩

theorem State.LiveTaken.subset (h : s.LiveTaken t) : t.waiting ⊆ s.waiting := fun _ hw => h.waiting ▸ hw

theorem State.LiveTaken.trans (h : s.LiveTaken t) (k : t.LiveTaken u) : s.LiveTaken u :=
  ⟨h.toLive.trans h.subset k.toLive, k.waiting.trans h.waiting, k.index.trans h.index⟩

theorem State.Live.setWaiting (s : State) (l : List WaitingEvent) : s.Live (s.setWaiting l) :=
  ⟨.refl _, fun _ => rfl⟩

/-- A free value is drawn only where an event waits (log 10). -/
theorem State.Live.draw (h : s.Live t) (hs : s.waiting ≠ []) (n : Nat) : s.Live { t with freeIndex := n } := by
  obtain ⟨k, _⟩ := h
  exact ⟨⟨k.resetPin, k.mode, k.tuning, k.lines, rfl, k.tapTurn, rfl, rfl, k.pending, k.ctrl, k.ants, k.vens, k.records⟩,
    fun hnil => absurd hnil hs⟩

/-! ## Takings -/

/-- An event in the frame of its start, settled. -/
theorem State.LiveTaken.settle {p : HeadPort} (h : (Ev.start s).Frame e) (ht : e.attempt p = .taken t) : s.LiveTaken t := by
  unfold Ev.attempt Ev.settle at ht
  dsimp only at ht
  split at ht
  · rename_i x hx
    cases ht
    split at hx
    · cases hx
      exact (State.LiveTaken.of_frame h.finish.1).setHead _
    · cases hx
  · cases ht

theorem State.liveTaken_leaveBuffer (s : State) : s.LiveTaken s.leaveBuffer := by
  unfold State.leaveBuffer
  dsimp only
  split
  · exact ((State.LiveTaken.refl s).setHead _).trans (.of_frame (State.Frame.notify _ _))
  · exact (State.LiveTaken.refl s).setHead _

/-- The kind of a cell that the judgement passes is the kind that its byte names. -/
theorem State.kind_of_judge {c : RawCell} {k : UnitKind} {a : AntennaNo} (h : s.judge c = some (k, a)) :
    unitKindOf c.kind = some k := by
  unfold State.judge at h
  split at h
  · rename_i k' b hk _
    rw [hk]
    split at h
    · cases h
    · split at h
      · cases h; rfl
      · split at h
        · cases h
        · repeat' split at h
          all_goals cases h <;> rfl
  · cases h

/-- The bytes that name a unit kind. -/
theorem isUnitKind_of_unitKindOf {b : Byte} {k : UnitKind} (h : unitKindOf b = some k) : isUnitKind b = true := by
  unfold unitKindOf at h
  unfold isUnitKind
  split at h <;> simp_all

/-- The cell at the head of the buffer, where it is neither UP nor DOWN. -/
theorem State.liveTaken_attemptCell (hkind : ∀ c ∈ s.head.input.head?, ∀ k, unitKindOf c.kind = some k → k.isLink = false)
    (h : s.attemptCell = .taken t) : s.LiveTaken t := by
  unfold State.attemptCell at h
  split at h
  · cases h
  · rename_i c rest hinput
    split at h
    · cases h
      exact s.liveTaken_leaveBuffer
    · rename_i k a hj
      have hlink := hkind c (by simp [hinput]) k (State.kind_of_judge hj)
      exact s.liveTaken_leaveBuffer.trans (.settle ((Ev.Frame.refl (Ev.start s.leaveBuffer)).cellEvent c k a hlink) h)

theorem State.liveTaken_attemptTransfer {c : ContextNo} {p : Phase} {r : FailReason} (h : s.attemptTransfer c p r = .taken t) :
    s.LiveTaken t := by
  unfold State.attemptTransfer at h
  split at h
  · split at h
    · exact .settle ((Ev.Frame.refl (Ev.start s)).expireTransfer _ _) h
    · cases h
  · cases h

theorem State.liveTaken_attemptWait {g : Identity} (h : s.attemptWait g = .taken t) : s.LiveTaken t := by
  unfold State.attemptWait at h
  split at h
  · exact .settle ((Ev.Frame.refl (Ev.start s)).waitExpired _ _) h
  · cases h

theorem State.liveTaken_attemptHold {g : Identity} (h : s.attemptHold g = .taken t) : s.LiveTaken t := by
  unfold State.attemptHold at h
  split at h
  · exact .settle ((Ev.Frame.refl (Ev.start s)).holdExpired _) h
  · cases h

theorem State.liveTaken_expiry {w : WaitingEvent} (hw : w ≠ .cell ∧ w ≠ .frame) (h : s.attempt w = .taken t) :
    s.LiveTaken t := by
  cases w with
  | cell => exact absurd rfl hw.1
  | frame => exact absurd rfl hw.2
  | tPrep c => exact State.liveTaken_attemptTransfer h
  | tMove c => exact State.liveTaken_attemptTransfer h
  | wait g => exact State.liveTaken_attemptWait h
  | hold g => exact State.liveTaken_attemptHold h

/-! ## Waiting expiries -/

theorem State.unwait_of_expiry {w : WaitingEvent} (hw : w ≠ .cell ∧ w ≠ .frame) :
    s.unwait w = s.setWaiting (s.waiting.erase w) := by
  cases w with
  | cell => exact absurd rfl hw.1
  | frame => exact absurd rfl hw.2
  | _ => rfl

/-- The expiry taken first, where only expiries wait. -/
theorem State.live_firstTaken (hs : s.onlyExpiries) (h : s.firstTaken = some t) : s.Live t ∧ t.waiting ⊆ s.waiting := by
  obtain ⟨u, hu, hcase⟩ := State.firstTaken_cases h
  obtain ⟨w, hmem, v, hv, rfl⟩ := State.mem_takeable hu
  rw [State.unwait_of_expiry (hs w hmem)] at hcase
  have hv := State.liveTaken_expiry (hs w hmem) hv
  have hfewer : v.waiting.erase w ⊆ s.waiting := hv.waiting ▸ List.erase_subset
  have hlive := hv.toLive.trans hv.subset (State.Live.setWaiting v (v.waiting.erase w))
  rcases hcase with rfl | rfl
  · exact ⟨hlive, hfewer⟩
  · exact ⟨hlive.draw (List.ne_nil_of_mem hmem) _, hfewer⟩

theorem State.live_reconsiderFrom (fuel : Nat) (hs : s.onlyExpiries) : s.Live (State.reconsiderFrom fuel s) := by
  induction fuel generalizing s with
  | zero => exact (State.LiveTaken.refl s).toLive
  | succ n ih =>
    have hwithdrawn : s.Live s.withdraw := .setWaiting s _
    have hfewer : s.withdraw.waiting ⊆ s.waiting := List.filter_subset_self _
    have honly : s.withdraw.onlyExpiries := fun w hw => hs w (hfewer hw)
    unfold State.reconsiderFrom
    split
    · exact hwithdrawn
    · rename_i t ht
      obtain ⟨hlive, hsub⟩ := State.live_firstTaken honly ht
      exact hwithdrawn.trans hfewer (hlive.trans hsub (ih (fun w hw => honly w (hsub hw))))

theorem State.LiveTaken.reconsider (h : s.LiveTaken t) (hs : s.onlyExpiries) : s.Live t.reconsider :=
  h.toLive.trans h.subset (State.live_reconsiderFrom _ (fun w hw => hs w (h.waiting ▸ hw)))

theorem State.live_consider {w : WaitingEvent} (hs : s.onlyExpiries) (ht : ∀ t, s.attempt w = .taken t → s.LiveTaken t) :
    s.Live (s.consider w) := by
  unfold State.consider
  split
  · exact (State.LiveTaken.refl s).toLive
  · unfold State.addWaiting
    split
    · exact (State.LiveTaken.refl s).toLive
    · exact .setWaiting s _
  · exact (ht _ ‹_›).reconsider hs

/-! ## The commands -/

theorem State.liveTaken_arrive (s : State) (c : RawCell) : s.LiveTaken (s.arrive c) := by
  have h := State.LiveTaken.refl s
  unfold State.arrive
  split
  · exact h
  · split
    · unfold State.shed
      split
      · exact h
      · exact (h.setHead _).trans (.of_frame (State.Frame.notify _ _))
    · split
      · exact h
      · exact h.setHead _

theorem State.head_of_headIs {c : RawCell} (h : s.headIs c = true) : ∀ d ∈ s.head.input.head?, d.kind = c.kind := by
  unfold State.headIs at h
  intro d hd
  cases hinput : s.head.input with
  | nil => simp [hinput] at hd
  | cons x rest =>
    obtain rfl : x = d := by simpa [hinput] using hd
    simp only [hinput, sameCell, Bool.and_eq_true, beq_iff_eq] at h
    exact h.1.1.symm

/-- A cell of a unit, of no kind or of a kind but UP and DOWN. -/
theorem State.live_presentCell {c : RawCell} (hs : s.onlyExpiries) (hc : ∀ k, unitKindOf c.kind = some k → k.isLink = false) :
    s.Live (s.presentCell c) := by
  have harrived : s.LiveTaken (if s.headIs c then s else s.arrive c) := by
    split
    · exact .refl s
    · exact s.liveTaken_arrive c
  unfold State.presentCell
  split
  · exact (State.LiveTaken.refl s).toLive
  · dsimp only
    generalize (if s.headIs c = true then s else s.arrive c) = t at harrived ⊢
    split
    · rename_i hhead
      refine harrived.toLive.trans harrived.subset (State.live_consider (fun w hw => hs w (harrived.waiting ▸ hw)) ?_)
      exact fun u hu => State.liveTaken_attemptCell (fun d hd => State.head_of_headIs hhead d hd ▸ hc) hu
    · exact harrived.toLive

theorem State.live_unitCell {k : UnitKind} (hs : s.onlyExpiries) (hk : k.isLink = false) (a : Byte) (g : Identity) (x y z : Byte) :
    s.Live (s.presentCell ⟨k.code, a, g, x, y, z⟩) := by
  refine State.live_presentCell hs (fun k' hk' => ?_)
  cases k <;> cases hk' <;> exact hk

theorem State.live_expiry {w : WaitingEvent} (hs : s.onlyExpiries) (hw : w ≠ .cell ∧ w ≠ .frame) :
    s.Live (if s.resetPin then s else s.consider w) := by
  split
  · exact (State.LiveTaken.refl s).toLive
  · exact State.live_consider hs (fun _ => State.liveTaken_expiry hw)

theorem State.live_cellSent (hs : s.onlyExpiries) : s.Live s.cellSent := by
  unfold State.cellSent
  split
  · exact (State.LiveTaken.refl s).toLive
  · exact ((State.LiveTaken.refl s).setHead _).reconsider hs

theorem State.live_nonUnitKind {c : RawCell} (hs : s.onlyExpiries) :
    s.Live (if (Instr.nonUnitKindCell c).wellFormed then s.presentCell c else s) := by
  split
  · rename_i hc
    have hnone : isUnitKind c.kind = false := by simpa [Instr.wellFormed] using hc
    exact State.live_presentCell hs (fun k hk => absurd (isUnitKind_of_unitKindOf hk) (by simp [hnone]))
  · exact (State.LiveTaken.refl s).toLive

/-- A live command changes nothing of the configuration. -/
theorem exec_live {c : Instr} (hc : isLive c = true) (hs : s.onlyExpiries) (h : exec c s = .next t) : s.Live t := by
  cases c <;> cases hc <;> cases h
  case cellArrival c => exact (s.liveTaken_arrive c).toLive
  case hear => exact State.live_unitCell (k := .hear) hs rfl _ _ _ _ _
  case join => exact State.live_unitCell (k := .join) hs rfl _ _ _ _ _
  case ready => exact State.live_unitCell (k := .ready) hs rfl _ _ _ _ _
  case noroom => exact State.live_unitCell (k := .noroom) hs rfl _ _ _ _ _
  case landed => exact State.live_unitCell (k := .landed) hs rfl _ _ _ _ _
  case gone => exact State.live_unitCell (k := .gone) hs rfl _ _ _ _ _
  case quit => exact State.live_unitCell (k := .quit) hs rfl _ _ _ _ _
  case nonUnitKindCell => exact State.live_nonUnitKind hs
  case cellSent => exact State.live_cellSent hs
  case tPrepExpiry => exact State.live_expiry hs ⟨nofun, nofun⟩
  case tMoveExpiry => exact State.live_expiry hs ⟨nofun, nofun⟩
  case waitExpiry => exact State.live_expiry hs ⟨nofun, nofun⟩
  case holdExpiry => exact State.live_expiry hs ⟨nofun, nofun⟩

/-- Notices change none of the control port's other fields. -/
theorem ControlPort.foldl_queueNotice_same {α : Type} (f : ControlPort → α) (hf : ∀ c n, f (ControlPort.queueNotice c n) = f c)
    (c : ControlPort) (l : List Notice) : f (l.foldl ControlPort.queueNotice c) = f c :=
  List.foldlRecOn l _ (motive := fun x => f x = f c) rfl (fun x hx n _ => (hf x n).trans hx)

end Sys2Proof.Machine

open Sys2Proof Sys2Proof.Machine

/-- Settles O12: the events of the units, the sending of cells and the expiries are in the frame of chapters 5 to 7, and where only
expiries wait, reconsidering takes only such events. -/
theorem liveEventsKeepConfiguration : Obligations.LiveEventsKeepConfiguration := by
  unfold Obligations.LiveEventsKeepConfiguration
  intro c s t hc hs h
  obtain ⟨hframe, hfree⟩ := exec_live hc hs h
  obtain ⟨l, hctrl⟩ := hframe.ctrl
  have hport : ∀ {α : Type} (f : ControlPort → α), (∀ c n, f (ControlPort.queueNotice c n) = f c) → f t.ctrl = f s.ctrl :=
    fun f hf => hctrl ▸ ControlPort.foldl_queueNotice_same f hf s.ctrl l
  exact ⟨hframe.resetPin, hframe.mode, hframe.tuning, hframe.lines, hframe.tapTurn, hfree, hframe.pending,
    hport ControlPort.rx ControlPort.queueNotice_rx, hport ControlPort.frames ControlPort.queueNotice_frames,
    hport ControlPort.answers ControlPort.queueNotice_answers, hport ControlPort.ctxd ControlPort.queueNotice_ctxd,
    hport ControlPort.floor ControlPort.queueNotice_floor, hframe.ants, hframe.vens, hframe.records⟩
end

section
/-! PROOF. A request frame's bytes: its chain delimited, and the command that stands for it (chapters 9 and 12; log 1). -/

namespace Sys2Proof.Machine

variable {s s1 s2 : State}

/-! ## The delimiting of a chain -/

/-- A record among the first eight under a header of its kind: what is delimited next starts after its fields. -/
theorem delimitFrom_record (fuel : Nat) {done : Nat} (hd : done < 8) {header : Byte} (tag : Byte) {r : Request}
    (hkind : headerKind header = requestCode r) (more : List Byte) :
    delimitFrom (fuel + 1) done (header :: tag :: (requestFields r ++ more)) =
      if headerContinues header then
        (.record tag r :: (delimitFrom fuel (done + 1) more).1, (delimitFrom fuel (done + 1) more).2)
      else ([.record tag r], !more.isEmpty) := by
  simp [delimitFrom, hkind, recordLength_requestCode, parseRequest_requestFields, hd]

theorem delimitFrom_continued (fuel : Nat) {done : Nat} (hd : done < 8) (tag : Byte) (r : Request) (more : List Byte) :
    delimitFrom (fuel + 1) done (recordBytes true tag r ++ more) =
      (.record tag r :: (delimitFrom fuel (done + 1) more).1, (delimitFrom fuel (done + 1) more).2) :=
  (delimitFrom_record fuel hd tag (headerKind_header true r) more).trans (if_pos (headerContinues_header true r))

theorem delimitFrom_last (fuel : Nat) {done : Nat} (hd : done < 8) (tag : Byte) (r : Request) :
    delimitFrom (fuel + 1) done (recordBytes false tag r) = ([.record tag r], false) := by
  have hlast := delimitFrom_record fuel hd tag (headerKind_header false r) []
  rw [List.append_nil, if_neg (Bool.eq_false_iff.mp (headerContinues_header false r))] at hlast
  exact hlast

theorem delimitFrom_chainBytes {l : List (Byte × Request)} (hne : l ≠ []) (fuel done : Nat) (hfuel : l.length ≤ fuel)
    (hdone : done + l.length ≤ 8) :
    delimitFrom fuel done (chainBytes l) = (l.map (fun x => ChainItem.record x.1 x.2), false) := by
  induction l generalizing fuel done with
  | nil => exact absurd rfl hne
  | cons x rest ih =>
    obtain ⟨n, rfl⟩ := Nat.exists_eq_add_of_le' (show 1 ≤ fuel by simp at hfuel; omega)
    have hd : done < 8 := by simp at hdone; omega
    cases rest with
    | nil => exact delimitFrom_last n hd x.1 x.2
    | cons y more =>
      have hrest := ih (List.cons_ne_nil y more) n (done + 1) (by simpa using hfuel) (by simp at hdone ⊢; omega)
      rw [chainBytes, delimitFrom_continued n hd, hrest]
      · rfl
      · exact List.cons_ne_nil y more

theorem delimitChain_chainBytes {l : List (Byte × Request)} (hne : l ≠ []) (hlen : l.length ≤ 8) :
    delimitChain (chainBytes l) = (l.map (fun x => ChainItem.record x.1 x.2), false) := by
  have hbytes := length_le_chainBytes l
  have hpos := List.length_pos_iff.mpr hne
  rw [delimitChain, if_neg (by simpa using List.ne_nil_of_length_pos (hpos.trans_le hbytes))]
  exact delimitFrom_chainBytes hne _ 0 (by omega) (by omega)

theorem bodyChain_oneRecordBody (tag : Byte) (r : Request) : bodyChain (oneRecordBody tag r) = ([.record tag r], false) :=
  delimitChain_chainBytes (l := [(tag, r)]) (List.cons_ne_nil _ _) (by simp)

/-! ## A request as a command (log 1) -/

theorem exec_requestCommand (tag : Byte) (r : Request) (s : State) :
    exec (requestCommand tag r) s = .next (s.presentRequest tag r) := by
  cases r <;> rfl

theorem exec_requestFrameTaken (s : State) :
    exec .requestFrameTaken s = .next (if s.resetPin then s else s.consider .frame) := rfl

/-- The SYNC byte and the rest of a request frame, received by an idle receiver without other frames: its body waits. -/
theorem received_oneRecordBody {tag : Byte} {r : Request} (hp : s.resetPin = false) (hrx : s.ctrl.rx = .hunting)
    (hframes : s.ctrl.frames = []) (h1 : exec .frameBegin s = .next s1)
    (h2 : exec (.frameComplete (oneRecordBody tag r) (frameCheck (oneRecordBody tag r))) s1 = .next s2) :
    s2 = s.setCtrl { s.ctrl with frames := [oneRecordBody tag r] } := by
  have hlength : (oneRecordBody tag r).length ≤ Config.requestBody := by
    have := length_requestFields_le r
    simp only [oneRecordBody, recordBytes, List.length_cons, Config.requestBody]
    omega
  have hsync : s.ctrl.sync = { s.ctrl with rx := .inFrame true 20 } := by
    simp [ControlPort.sync, hrx, ControlPort.buffersUsed_hunting hrx, hframes]
  have hdone : ControlPort.completed { s.ctrl with rx := .inFrame true 20 } (oneRecordBody tag r)
      (frameCheck (oneRecordBody tag r)) = { s.ctrl with frames := [oneRecordBody tag r] } := by
    simp [ControlPort.completed, ControlPort.judged, frameFault, oneRecordBody, ← hrx, hframes]
  cases h1
  cases h2
  have hone : s.onCtrl ControlPort.sync = s.setCtrl { s.ctrl with rx := .inFrame true 20 } := by
    rw [State.onCtrl, if_neg (by simp [hp]), hsync]
  have htwo : (s.setCtrl { s.ctrl with rx := .inFrame true 20 }).onCtrl
      (·.completed (oneRecordBody tag r) (frameCheck (oneRecordBody tag r))) =
      s.setCtrl { s.ctrl with frames := [oneRecordBody tag r] } := by
    rw [State.onCtrl, if_neg (by simp [State.setCtrl, hp])]
    exact congrArg s.setCtrl hdone
  rw [if_pos (by simpa [Instr.wellFormed] using hlength), hone, htwo]

/-- Where a request frame's body alone waits, its taking is the carrying out of the request. -/
theorem State.attemptFrame_oneRecordBody (tag : Byte) (r : Request) (hframes : s.ctrl.frames = []) :
    (s.setCtrl { s.ctrl with frames := [oneRecordBody tag r] }).attemptFrame =
      if s.ctrl.mayTake then ((Ev.start s).frame ([.record tag r], false)).attempt s.head else .waits := by
  have hback : (s.setCtrl { s.ctrl with frames := [oneRecordBody tag r] }).setCtrl { s.ctrl with frames := [] } = s := by
    rw [← hframes]
    rfl
  have hattempt : (s.setCtrl { s.ctrl with frames := [oneRecordBody tag r] }).attemptFrame =
      if s.ctrl.mayTake then ((Ev.start ((s.setCtrl { s.ctrl with frames := [oneRecordBody tag r] }).setCtrl
        { s.ctrl with frames := [] })).frame (bodyChain (oneRecordBody tag r))).attempt s.head else .waits := rfl
  rw [hattempt, hback, bodyChain_oneRecordBody]

/-- Where its body alone waits, the frame is taken as the command takes it. -/
theorem State.consider_oneRecordBody (tag : Byte) (r : Request) (hp : s.resetPin = false) (hrx : s.ctrl.rx = .hunting)
    (hframes : s.ctrl.frames = []) :
    (s.setCtrl { s.ctrl with frames := [oneRecordBody tag r] }).consider .frame = s.presentRequest tag r := by
  have hstored : s.storeBody (oneRecordBody tag r) = (s.setCtrl { s.ctrl with frames := [oneRecordBody tag r] }).addWaiting .frame := by
    rw [State.storeBody, hframes]
    rfl
  have hpresent : s.presentRequest tag r = s.takeOrStore (oneRecordBody tag r) ([.record tag r], false) := by
    simp [State.presentRequest, State.presentFrame, hp, hrx, ControlPort.buffersUsed_hunting hrx, hframes]
  rw [hpresent, State.takeOrStore, hstored, State.consider, State.attempt, State.attemptFrame_oneRecordBody tag r hframes]
  cases s.ctrl.mayTake with
  | false => simp
  | true => cases hsettle : ((Ev.start s).frame ([.record tag r], false)).settle s.head <;> simp [hsettle, hframes, Ev.attempt]

end Sys2Proof.Machine

open Sys2Proof Sys2Proof.Machine

/-- Settles O14, by induction on the records of the chain. -/
theorem chainIsDelimited : Obligations.ChainIsDelimited := by
  unfold Obligations.ChainIsDelimited
  exact fun _ => delimitChain_chainBytes

/-- Settles O13: the frame received leaves its body waiting, and its taking is the command. -/
theorem hostRequestIsItsFrame : Obligations.HostRequestIsItsFrame := by
  unfold Obligations.HostRequestIsItsFrame
  intro tag r s s1 s2 hrx hframes h1 h2
  rw [exec_requestCommand, exec_requestFrameTaken]
  cases hp : s.resetPin with
  | true =>
    have h1 : s1 = s := by cases h1; simp [State.onCtrl, hp]
    subst h1
    have h2 : s2 = s1 := by cases h2; simp [State.onCtrl, hp]
    simp [h2, hp, State.presentRequest, State.presentFrame]
  | false =>
    rw [received_oneRecordBody hp hrx hframes h1 h2, if_neg (by simp [State.setCtrl, hp]), State.consider_oneRecordBody tag r hp hrx hframes]
end

section
/-! PROOF. The sending of a cell, the events that wait for it, and the expiries of the wait and hold timers (chapters 1, 6
and 8). -/

namespace Sys2Proof.Machine

variable {s t u : State} {e : Ev} {a : AntennaNo} {h : Identity}

/-! ## One event that waits -/

/-- The one event that waits is taken; what of it is left at its port is withdrawn (R149, R151). -/
theorem State.reconsider_single {w : WaitingEvent} (hw : s.waiting = [w]) (ha : s.attempt w = .taken t)
    (hu : (t.unwait w).withdraw = u) (hn : u.waiting = []) : s.reconsider = u := by
  have hkept : s.withdraw = s := by
    have hall : s.waiting.filter (fun w => (s.attempt w).present) = s.waiting := by simp [hw, ha, Attempt.present]
    rw [State.withdraw, hall]
    rfl
  have hfirst : s.firstTaken = some (t.unwait w) := by
    simp [State.firstTaken, State.takeable, hw, ha, Attempt.state?]
  have hnone : u.firstTaken = none := by simp [State.firstTaken, State.takeable, hn]
  have hfuel : s.head.input.length + s.ctrl.frames.length + s.waiting.length + 1 =
      s.head.input.length + s.ctrl.frames.length + 1 + 1 := by simp [hw]
  rw [State.reconsider, hfuel]
  simp [State.reconsiderFrom, hkept, hfirst, hu, hnone]

/-- An expiry that waits alone and is taken leaves nothing that waits. -/
theorem State.reconsider_expiry {w : WaitingEvent} (hk : w ≠ .cell ∧ w ≠ .frame) (hw : s.waiting = [w])
    (ha : s.attempt w = .taken t) (ht : t.waiting = [w]) : s.reconsider = t.setWaiting [] := by
  refine State.reconsider_single hw ha ?_ rfl
  rw [State.unwait_of_expiry hk, ht]
  simp [State.withdraw, State.setWaiting]

/-- An event with cells finds no room in a full output queue (R149). -/
theorem Ev.settle_full {p : HeadPort} (hl : e.late = []) (hb : e.beforeWarm = none) {c : OutCell} (hc : e.cells = [c])
    (hfull : p.output.length = 128) : e.settle p = none := by
  unfold Ev.settle
  rw [Ev.finish_of_late_nil e hl]
  simp [HeadPort.fits, HeadPort.room, Ev.counted, hb, hc, hfull]

/-! ## The wait and hold timers -/

theorem exec_waitExpiry (hp : s.resetPin = false) : exec (.waitExpiry h) s = .next (s.consider (.wait h)) := by
  simp [exec, execWaitExpiry, hp]

theorem exec_holdExpiry (hp : s.resetPin = false) : exec (.holdExpiry h) s = .next (s.consider (.hold h)) := by
  simp [exec, execHoldExpiry, hp]

theorem State.attemptWait_due {p : Position} {pr : Profile} (hr : s.rec? h = some ⟨p, pr, .waiting a 0⟩) :
    s.attempt (.wait h) = ((Ev.start s).waitExpired h a).attempt s.head := by
  simp [State.attempt, State.attemptWait, hr]

theorem State.attemptHold_due {p : Position} {pr : Profile} (hr : s.rec? h = some ⟨p, pr, .orphan 0⟩) :
    s.attempt (.hold h) = ((Ev.start s).holdExpired h).attempt s.head := by
  simp [State.attempt, State.attemptHold, hr]

/-- In a venue that is not DRAINING the end of an entry lowers the claims alone (R40, R107). -/
theorem State.entryRefused_of_not_draining {cell : RefuseReason} {reason : DeniedReason}
    (hv : (s.ven (s.ant a).venue).state ≠ .draining) : State.entryRefused a cell reason s h =
      State.notify (State.setAtt (State.sends (State.unclaimed
        (s.setWait a ((s.ant a).wait.eraseP (fun w => w.headset == h))) (s.ant a).venue) [.refuse a h cell]) h .idle)
        (.denied h a reason) := by
  rw [State.entryRefused, State.entryEnded, State.claimEnded, if_neg (fun hd => hv hd.1)]

/-- What the wait expiry of a headset does (R115). -/
theorem Ev.to_waitExpired (s : State) (h : Identity) (a : AntennaNo) :
    ((Ev.start s).waitExpired h a).To [] (State.entryRefused a .full .full s h) :=
  (Ev.to_start s).refuseEntry rfl h

/-- In a venue that is not DRAINING the wait expiry is one cell, and no change of the head port (R115). -/
theorem Ev.waitExpired_port (hv : (s.ven (s.ant a).venue).state ≠ .draining) :
    ((Ev.start s).waitExpired h a).cells = [.refuse a h .full] ∧ ((Ev.start s).waitExpired h a).st.head = s.head ∧
      ((Ev.start s).waitExpired h a).st.waiting = s.waiting := by
  have hdown : (Ev.start s).removeWait a h =
      ((Ev.start s).upd (fun s => s.setWait a ((s.ant a).wait.eraseP (fun w => w.headset == h)))).upd (·.unclaimed (s.ant a).venue) :=
    Ev.claimDown_of_not_draining _ _ hv
  rw [Ev.waitExpired, Ev.denyWait, hdown]
  exact ⟨rfl, rfl, rfl⟩

theorem State.consider_wait {p : Position} {pr : Profile} (hw : s.waiting = []) (hr : s.rec? h = some ⟨p, pr, .waiting a 0⟩)
    (hn : s.roomTo (State.entryRefused a .full .full s h)) :
    s.consider (.wait h) = State.entryRefused a .full .full s h := by
  have hto := Ev.to_waitExpired s h a
  refine State.consider_to hw (State.attemptWait_due hr) ((Ev.Frame.refl (Ev.start s)).waitExpired h a) ?_ hn
  rwa [Ev.finish_of_late_nil _ hto.late]

theorem State.consider_hold {p : Position} {pr : Profile} (hw : s.waiting = []) (hr : s.rec? h = some ⟨p, pr, .orphan 0⟩) :
    s.consider (.hold h) = (s.setAtt h .idle).notify (.dropped h) :=
  State.consider_eq s (.hold h) ((Ev.start s).holdExpired h) (State.attemptHold_due hr) rfl rfl rfl hw (.inl rfl) |>.trans
    (State.sends_nil _)

/-! ## The wait expiry of a full output queue -/

/-- With the output queue full the wait expiry waits (R149). -/
theorem State.consider_wait_full {p : Position} {pr : Profile} (hw : s.waiting = [])
    (hr : s.rec? h = some ⟨p, pr, .waiting a 0⟩) (hv : (s.ven (s.ant a).venue).state ≠ .draining)
    (hfull : s.head.output.length = 128) : s.consider (.wait h) = s.setWaiting [.wait h] := by
  have hto := Ev.to_waitExpired s h a
  have hwaits : s.attempt (.wait h) = .waits := by
    rw [State.attemptWait_due hr, Ev.attempt, Ev.settle_full hto.late hto.noWarm (Ev.waitExpired_port hv).1 hfull]
  simp [State.consider, hwaits, State.addWaiting, hw]

/-- Once there is room, the wait expiry that waits is taken. -/
theorem State.reconsider_wait {p : Position} {pr : Profile} (hw : s.waiting = [.wait h])
    (hr : s.rec? h = some ⟨p, pr, .waiting a 0⟩) (hv : (s.ven (s.ant a).venue).state ≠ .draining) (hn : s.roomFor 1) :
    s.reconsider = (State.entryRefused a .full .full s h).setWaiting [] := by
  have hto := Ev.to_waitExpired s h a
  obtain ⟨hcells, hhead, hwait⟩ := Ev.waitExpired_port (h := h) hv
  have hsettle := Ev.settle_eq _ s hto.late hto.noWarm hhead (.inr (by rw [hcells]; exact hn))
  have htaken : s.attempt (.wait h) = .taken (State.entryRefused a .full .full s h) := by
    rw [State.attemptWait_due hr, Ev.attempt, hsettle, hto.whole]
  refine State.reconsider_expiry (w := .wait h) ⟨nofun, nofun⟩ hw htaken ?_
  rw [← hto.whole]
  exact hwait.trans hw

/-! ## A JOIN for which the output queue has no room -/

/-- With the output queue full a JOIN without a record waits at the head of the input buffer (R149). -/
theorem State.presentCell_join_full {b : Byte} (hs : s.cellReady) (hv : s.servesCells b a h) (hr : s.rec? h = none)
    (hfull : s.head.output.length = 128) :
    s.presentCell (unitCell .join b h) = (s.setHead { s.head with input := [unitCell .join b h] }).setWaiting [.cell] := by
  have hevent : Ev.cellEvent (unitCell .join b h) .join a (Ev.start s) = (Ev.start s).emit (.refuse a h .unknown) :=
    Ev.joinTaken_unknown hr
  have hjoined : s.head.joinTail (unitCell .join b h) = { s.head with input := [unitCell .join b h] } := by
    obtain ⟨_, hinput, _, hstall, _⟩ := hs
    simp [HeadPort.joinTail, hinput, hstall, stallAfterArrival]
  rw [State.presentCell_ready s _ hs, s.judge_unitCell .join b a h (.inl rfl) hv]
  simp only [hevent, Ev.settle_full (e := (Ev.start s).emit (.refuse a h .unknown)) rfl rfl rfl hfull, hjoined]

/-- Once there is room, the JOIN that waits at the head is answered, and nothing waits. -/
theorem State.reconsider_join {b : Byte} (hw : s.waiting = [.cell]) (hin : s.head.input = [unitCell .join b h])
    (hshed : s.head.shedding = false) (hstall : s.head.hstall = false) (hv : s.servesCells b a h) (hr : s.rec? h = none)
    (hn : s.roomFor 1) :
    s.reconsider = State.setWaiting ((s.setHead { s.head with input := [] }).sends [.refuse a h .unknown]) [] := by
  have hleft : s.leaveBuffer = s.setHead { s.head with input := [] } := by
    simp [State.leaveBuffer, hin, hshed, hstall, stallAfterTaking]
  have hevent : Ev.cellEvent (unitCell .join b h) .join a (Ev.start s.leaveBuffer) =
      (Ev.start s.leaveBuffer).emit (.refuse a h .unknown) := Ev.joinTaken_unknown (hleft ▸ hr)
  have hsettle : ((Ev.start s.leaveBuffer).emit (.refuse a h .unknown)).settle s.head =
      some (s.leaveBuffer.sends [.refuse a h .unknown]) := by
    rw [hleft]
    exact Ev.settle_eq ((Ev.start (s.setHead { s.head with input := [] })).emit (.refuse a h .unknown))
      (s.setHead { s.head with input := [] }) rfl rfl rfl (.inr hn)
  have htaken : s.attempt .cell = .taken (s.leaveBuffer.sends [.refuse a h .unknown]) := by
    show s.attemptCell = _
    simp only [State.attemptCell, hin, s.judge_unitCell .join b a h (.inl rfl) hv, hevent, Ev.attempt, hsettle]
  refine State.reconsider_single hw htaken ?_ rfl
  have hgone : (s.leaveBuffer.sends [.refuse a h .unknown]).attempt .cell = .absent := by rw [hleft]; rfl
  have hmark : (s.leaveBuffer.sends [.refuse a h .unknown]).waiting = [.cell] := by rw [hleft]; exact hw
  rw [State.unwait, State.withdraw, hmark, List.filter_cons_of_neg (by simp [hgone, Attempt.present]), hleft]
  rfl

/-! ## The sending of a cell -/

theorem exec_cellSent (s : State) : exec .cellSent s = .next s.cellSent := rfl

theorem State.cellSent_eq (hp : s.resetPin = false) (ho : s.head.output ≠ []) :
    s.cellSent = (s.setHead s.head.sent).reconsider := by
  simp [State.cellSent, hp, ho]

theorem HeadPort.sent_cons {p : HeadPort} {c : OutCell} {rest : List OutCell} (ho : p.output = c :: rest) (hv : p.overflow = []) :
    p.sent = { p with output := rest, begun := false } := by
  simp [HeadPort.sent, ho, hv]

theorem State.cellSent_idle (hp : s.resetPin = false) (ho : s.head.output ≠ []) (hw : s.waiting = []) :
    s.cellSent = s.setHead s.head.sent :=
  (State.cellSent_eq hp ho).trans (State.reconsider_of_waiting_nil _ hw)

/-- A wait expiry that waits at a full queue is taken when a cell is sent. -/
theorem State.cellSent_wait {p : Position} {pr : Profile} {c : OutCell} {rest : List OutCell} (hp : s.resetPin = false)
    (hw : s.waiting = [.wait h]) (ho : s.head.output = c :: rest) (hfull : s.head.output.length = 128)
    (hover : s.head.overflow = []) (hr : s.rec? h = some ⟨p, pr, .waiting a 0⟩)
    (hv : (s.ven (s.ant a).venue).state ≠ .draining) :
    s.cellSent =
      (State.entryRefused a .full .full (s.setHead { s.head with output := rest, begun := false }) h).setWaiting [] := by
  have hlen : rest.length + 1 ≤ 128 := by simpa [ho] using hfull.le
  rw [State.cellSent_eq hp (by simp [ho]), HeadPort.sent_cons ho hover]
  exact State.reconsider_wait (s := s.setHead _) hw hr hv ⟨hover, hlen⟩

/-- A JOIN without a record that waits at a full queue is answered when a cell is sent. -/
theorem State.cellSent_join {b : Byte} {c : OutCell} {rest : List OutCell} (hp : s.resetPin = false) (hw : s.waiting = [.cell])
    (hin : s.head.input = [unitCell .join b h]) (hshed : s.head.shedding = false) (hstall : s.head.hstall = false)
    (ho : s.head.output = c :: rest) (hfull : s.head.output.length = 128) (hover : s.head.overflow = [])
    (hv : s.servesCells b a h) (hr : s.rec? h = none) :
    s.cellSent =
      (s.setHead { s.head with input := [], output := rest ++ [.refuse a h .unknown], begun := false }).setWaiting [] := by
  have hlen : rest.length + 1 ≤ 128 := by simpa [ho] using hfull.le
  rw [State.cellSent_eq hp (by simp [ho]), HeadPort.sent_cons ho hover]
  exact State.reconsider_join (s := s.setHead _) hw hin hshed hstall hv hr ⟨hover, hlen⟩

/-- After the sending of a cell none of the waiting events would be taken (R149). -/
theorem State.consider_cellSent (hp : s.resetPin = false) (ho : s.head.output ≠ []) {w : WaitingEvent}
    (hw : w ∈ s.cellSent.waiting) : s.cellSent.consider w = s.cellSent := by
  rw [State.cellSent_eq hp ho] at hw ⊢
  exact State.consider_reconsider _ w hw

end Sys2Proof.Machine

open Sys2Proof Sys2Proof.Machine

/-- Settles O60: the refusal of a WAITING headset, the end of an ORPHAN one's hold, and neither before its timer ends. -/
theorem waitAndHoldExpire : Obligations.WaitAndHoldExpire := by
  unfold Obligations.WaitAndHoldExpire
  refine ⟨fun s h p pr a hp hw hr hv hn => ?_, fun s h p pr hp hw hr => ?_, fun s h p pr a n => ⟨fun hr => ?_, fun hr => ?_⟩⟩
  · have hrefused := State.consider_wait hw hr (h := h)
    rw [State.entryRefused_of_not_draining hv] at hrefused
    rw [exec_waitExpiry hp, hrefused ⟨hn.1, (List.length_append (as := s.head.output)).trans_le hn.2⟩]
  · rw [exec_holdExpiry hp, State.consider_hold hw hr]
  · simp [exec, execWaitExpiry, State.consider, State.attempt, State.attemptWait, hr]
  · simp [exec, execHoldExpiry, State.consider, State.attempt, State.attemptHold, hr]

/-- Settles O46: the queue after a cell sent, that no event is left that would be taken, and two events taken when room grows. -/
theorem cellSentLeavesQueue : Obligations.CellSentLeavesQueue := by
  unfold Obligations.CellSentLeavesQueue
  refine ⟨fun s c rest hp hw ho => ⟨fun hv => ?_, fun d more hv => ?_⟩, fun s t hp ho ht => ?_,
    fun s c rest h p pr a hp hw ho hfull hover hr hv => ⟨?_, ?_⟩, fun s c rest h b a hs hv hr ho hfull hover => ⟨?_, ?_⟩⟩
  · rw [exec_cellSent, State.cellSent_idle hp (by simp [ho]) hw, HeadPort.sent_cons ho hv]
  · rw [exec_cellSent, State.cellSent_idle hp (by simp [ho]) hw]
    simp [HeadPort.sent, ho, hv]
  · cases ht
    have hnone : ∀ w ∈ s.cellSent.waiting, (if s.cellSent.resetPin then s.cellSent else s.cellSent.consider w) = s.cellSent :=
      fun w hw => by rw [State.consider_cellSent hp ho hw, ite_self]
    exact ⟨State.consider_cellSent hp ho, fun hw => congrArg _ (hnone _ hw),
      fun _ => ⟨fun hw => congrArg _ (hnone _ hw), fun hw => congrArg _ (hnone _ hw)⟩,
      fun _ => ⟨fun hw => congrArg _ (hnone _ hw), fun hw => congrArg _ (hnone _ hw)⟩⟩
  · rw [exec_waitExpiry hp, State.consider_wait_full hw hr hv hfull]
    rfl
  · have hback : s.setHead { s.head with output := rest, begun := false } =
        ((s.setWaiting [.wait h]).setHead { s.head with output := rest, begun := false }).setWaiting [] := by
      rw [← hw]
      rfl
    refine congrArg _ ((State.cellSent_wait (s := s.setWaiting [.wait h]) hp rfl ho hfull hover hr hv).trans ?_)
    rw [State.entryRefused_of_not_draining (s := (s.setWaiting [.wait h]).setHead _) hv, hback]
    rfl
  · rw [exec_join, State.presentCell_join_full hs hv hr hfull]
    rfl
  · obtain ⟨hp, hin, hshed, hstall, hw⟩ := hs
    refine congrArg _ ((State.cellSent_join (s := (s.setHead { s.head with input := [unitCell .join b h] }).setWaiting [.cell]) hp rfl
      rfl hshed hstall ho hfull hover hv hr).trans ?_)
    rw [← hin, ← hw]
    rfl
end

section
/-! PROOF. The candidate of a round (chapters 4 and 5). -/

namespace Sys2Proof.Machine

variable {s : State} {p : Profile} {a : AntennaNo} {l : List HearEntry}

/-- The scored forms of the entries that pass, each from its entry. -/
theorem State.mem_scored {c : Scored} : c ∈ (l.filter (s.eligible p a)).filterMap (s.scored p) ↔
    ∃ x ∈ l, ∃ v : Nat, s.mayBeCandidate p a x ∧ x.avg = some v ∧ c = ⟨x.ant, v, s.scoreOf p x.ant v⟩ := by
  simp only [List.mem_filterMap, List.mem_filter, State.eligible_iff, State.scored, Option.map_eq_some_iff, State.score_eq]
  constructor
  · rintro ⟨x, ⟨hx, hmay⟩, v, hv, rfl⟩
    exact ⟨x, hx, v, hmay, hv, rfl⟩
  · rintro ⟨x, hx, v, hmay, hv, rfl⟩
    exact ⟨x, ⟨hx, hmay⟩, v, hv, rfl⟩

/-- Of a list with an entry that may be the candidate, one is the best, and it is the candidate (R89). -/
theorem State.exists_bestEntry (h : ∃ x ∈ l, s.mayBeCandidate p a x) :
    ∃ x v, s.bestEntry p (s.mayBeCandidate p a) l x v ∧ s.roundCandidate p a l = some ⟨x.ant, v, s.scoreOf p x.ant v⟩ := by
  obtain ⟨y, hy, hmay⟩ := h
  obtain ⟨w, hw⟩ := Option.ne_none_iff_exists'.mp hmay.2.1
  have hscored := State.mem_scored.mpr ⟨y, hy, w, hmay, hw, rfl⟩
  cases hc : s.roundCandidate p a l with
  | none => exact absurd (bestOf_eq_none hc ▸ hscored) List.not_mem_nil
  | some c =>
    obtain ⟨hmem, hbest⟩ := bestOf_mem hc
    obtain ⟨x, hx, v, hmayx, hv, rfl⟩ := State.mem_scored.mp hmem
    exact ⟨x, v, ⟨hx, hmayx, hv, fun z hz u hmayz hu => hbest _ (State.mem_scored.mpr ⟨z, hz, u, hmayz, hu, rfl⟩)⟩, rfl⟩

end Sys2Proof.Machine

open Sys2Proof Sys2Proof.Machine

/-- Settles O49: the best of the scored entries, and none where no entry is eligible. -/
theorem candidateIsBest : Obligations.CandidateIsBest := by
  unfold Obligations.CandidateIsBest
  intro s p serving l score hscore
  obtain rfl : score = s.scoreOf p := funext fun a => funext (hscore a)
  refine ⟨State.roundCandidate_eq_none, fun hsome => ?_⟩
  obtain ⟨x, v, ⟨hx, hmay, hv, hbest⟩, hc⟩ := State.exists_bestEntry hsome
  exact ⟨x, hx, v, hmay, hv, hc, hbest⟩
end

section
/-! PROOF. A step, reset, and requests that send no cell: the mode tests, TUNE and FLOOR (chapters 9 and 10). -/

namespace Sys2Proof.Machine

variable {s t : State}

/-! ## Requests that send no cell -/

/-- A request that the mode accepts, and that sends no cell, leaves the state it makes, with its reply. -/
theorem exec_quiet {d : Done} (tag : Byte) (r : Request) (hs : s.hostReady) (ha : accepts s.mode r = true)
    (hd : (Ev.start s).doRequest r = (Ev.start t, d)) (hq : isQuery r = true → d.result.length ≤ 2042)
    (hh : t.head = s.head) (hw : t.waiting = s.waiting) :
    exec (requestCommand tag r) s = .next (t.replied (requestCode r) tag d.status d.offset d.result) := by
  have hcarried : (Ev.start s).carryOut r = (⟨t, [], none, []⟩, d) := (if_pos ha).trans hd
  have ⟨_, _, _, _, hidle⟩ := hs
  rw [exec_requestCommand, State.presentRequest_eq s t tag r [] d hs hcarried hq hh (hw.trans hidle) (.inl rfl), State.sends_nil]

/-- A request that the mode accepts, and that changes nothing, gives its reply alone. -/
theorem exec_unchanged {d : Done} (tag : Byte) (r : Request) (hs : s.hostReady) (ha : accepts s.mode r = true)
    (hd : (Ev.start s).doRequest r = (Ev.start s, d)) (hq : isQuery r = true → d.result.length ≤ 2042) :
    exec (requestCommand tag r) s = .next (s.replied (requestCode r) tag d.status d.offset d.result) :=
  exec_quiet tag r hs ha hd hq rfl rfl

/-- A request that the mode does not accept is answered WRONG_MODE (R165). -/
theorem exec_wrongMode (tag : Byte) (r : Request) (hs : s.hostReady) (ha : accepts s.mode r = false) :
    exec (requestCommand tag r) s =
      .next (s.replied (requestCode r) tag .wrongMode 0 (List.replicate (resultLength r) 0)) := by
  have hcarried : (Ev.start s).carryOut r = (⟨s, [], none, []⟩, ⟨.wrongMode, 0, List.replicate (resultLength r) 0⟩) :=
    if_neg (by simp [Ev.start, ha])
  have hshort : isQuery r = true → (List.replicate (resultLength r) (0 : Byte)).length ≤ 2042 := by
    intro hq
    cases r <;> simp_all [isQuery, resultLength]
  have ⟨_, _, _, _, hidle⟩ := hs
  rw [exec_requestCommand, State.presentRequest_eq s s tag r [] _ hs hcarried hshort rfl hidle (.inl rfl), State.sends_nil]

/-! ## TUNE -/

theorem firstClamped_eq (f : TuneFields) :
    firstClamped f = (tuneValues f).findSome? (fun x => clampedAt f.mask x.bit x.low x.high x.given x.offset) := rfl

theorem clampedAt_eq_none {mask : BitVec 16} {x : TuneValue} :
    clampedAt mask x.bit x.low x.high x.given x.offset = none ↔ ¬ x.clamps mask := by
  simp only [clampedAt, TuneValue.clamps, ite_eq_right_iff, reduceCtorEq, imp_false, not_and_or, not_le]

theorem clampedAt_eq_some {mask : BitVec 16} {x : TuneValue} (h : x.clamps mask) :
    clampedAt mask x.bit x.low x.high x.given x.offset = some x.offset := by
  obtain ⟨hbit, hout⟩ := h
  exact if_pos ⟨hbit, fun hin => by omega⟩

theorem firstClamped_eq_none {f : TuneFields} (h : ∀ x ∈ tuneValues f, ¬ x.clamps f.mask) : firstClamped f = none := by
  rw [firstClamped_eq, List.findSome?_eq_none_iff]
  exact fun x hx => clampedAt_eq_none.mpr (h x hx)

theorem firstClamped_eq_some {f : TuneFields} {l r : List TuneValue} {x : TuneValue} (hf : tuneValues f = l ++ x :: r)
    (hl : ∀ y ∈ l, ¬ y.clamps f.mask) (hx : x.clamps f.mask) : firstClamped f = some x.offset := by
  rw [firstClamped_eq, List.findSome?_eq_some_iff]
  exact ⟨l, x, r, hf, clampedAt_eq_some hx, fun y hy => clampedAt_eq_none.mpr (hl y hy)⟩

/-- The part after a TUNE with its mask's highest bit clear (R99, R167). -/
def State.tuned (s : State) (f : TuneFields) : State :=
  { s with tuning := s.tuning.tune f, registry := s.registry.map (HeadsetRecord.lowerCount (s.tuning.tune f).persist) }

theorem Ev.doTune_ok {f : TuneFields} (hm : f.mask.getLsbD 15 = false) (hc : firstClamped f = none) :
    (Ev.start s).doTune f = (Ev.start (s.tuned f), ⟨.ok, 0, (s.tuning.tune f).bytes⟩) := by
  simp only [Ev.doTune, hm, hc, Bool.false_eq_true, if_false]
  rfl

theorem Ev.doTune_clamped {f : TuneFields} {offset : Nat} (hm : f.mask.getLsbD 15 = false) (hc : firstClamped f = some offset) :
    (Ev.start s).doTune f = (Ev.start (s.tuned f), ⟨.clamped, offset, (s.tuning.tune f).bytes⟩) := by
  simp only [Ev.doTune, hm, hc, Bool.false_eq_true, if_false]
  rfl

theorem clamp_eq {lo hi : Nat} (h : lo ≤ hi) (x : Nat) : clamp lo hi x = max lo (min hi x) := by
  unfold clamp
  split_ifs <;> omega

/-- A value of one byte is nonzero where it is at least 1. -/
theorem one_le_toNat_iff (b : Byte) : 1 ≤ b.toNat ↔ b ≠ 0 := by
  rw [Nat.one_le_iff_ne_zero, ne_eq, ne_eq, ← BitVec.toNat_inj]
  rfl

/-- The records after a TUNE, their counts written out (R99). -/
theorem HeadsetRecord.lowerCount_eq (persist : Nat) (r : HeadsetRecord) : r.lowerCount persist =
    { r with att := match r.att with
      | .served svc held t => .served svc held { t with count := min t.count persist }
      | .transfer svc c t => .transfer svc c { t with count := min t.count persist }
      | x => x } := by
  cases r with
  | mk position profile att => cases att <;> rfl

/-! ## The tie of step to exec, and reset -/

theorem step_of_pending {c : Instr} {rest : List Instr} (h : s.pending = c :: rest) : step s = exec c (s.setPending rest) := by
  simp [step, h]

theorem step_of_idle (h : s.pending = []) : step s = .next s.tick := by
  simp [step, h]

theorem State.crdy_of_resetPin (h : s.resetPin = true) : s.crdy = false := by
  simp [State.crdy, h]

end Sys2Proof.Machine

open Sys2Proof Sys2Proof.Machine

/-- Settles O1: a step reads the queue and runs its front. -/
theorem stepRunsFrontCommand : Obligations.StepRunsFrontCommand := by
  unfold Obligations.StepRunsFrontCommand
  exact fun _ _ _ h => step_of_pending h

/-- Settles O2: a step on an empty queue is a tick of the clock. -/
theorem idleStepIsOneMillisecond : Obligations.IdleStepIsOneMillisecond := by
  unfold Obligations.IdleStepIsOneMillisecond
  intro s hidle hp
  have htick : s.tick = { s with
      registry := s.registry.map (fun r => { r with att := r.att.tick })
      contexts := s.contexts.map (fun x => x.map (fun c => { c with timer := c.timer - 1 }))
      ctrl := { s.ctrl with rx := s.ctrl.rx.tick } } := if_neg (by simp [hp])
  refine ⟨s.tick, step_of_idle hidle, ?_⟩
  rw [htick]
  refine ⟨?_, fun c => ?_, ?_, rfl⟩
  · refine List.map_congr_left (fun r _ => ?_)
    cases hr : r.att <;> rfl
  · exact Vector.getElem_map _ c.isLt
  · cases hrx : s.ctrl.rx <;> simp [Receiver.tick]

/-- Settles O3: the fields of the reset state. -/
theorem resetState : Obligations.ResetState := by
  unfold Obligations.ResetState
  refine ⟨rfl, rfl, rfl, State.ant_reset, fun v => ?_, fun m => ?_, fun c => ?_, rfl, rfl, rfl, rfl, fun n => ?_⟩
  · simp [State.ven, State.reset, Venue.reset]
  · simp [State.lineKind, State.reset]
  · simp [State.ctx, State.reset]
  · rw [State.tap_reset]
    exact ⟨rfl, rfl, rfl, rfl, rfl, rfl, rfl, rfl⟩

/-- Settles O5: the reset pin's two events, and bytes and cells while it is asserted. -/
theorem resetPin : Obligations.ResetPin := by
  unfold Obligations.ResetPin
  refine ⟨fun s => rfl, fun s hp => ?_, fun s c hp => ⟨State.crdy_of_resetPin hp, ?_, ?_⟩⟩
  · simp [exec, execResetRelease, hp, State.resetTo, State.reset]
  · simp [exec, execFrameBegin, State.onCtrl, hp]
  · simp [exec, execCellArrival, State.arrive, hp]

/-- Settles O16: the kinds that one of the modes does not accept. -/
theorem wrongModeIsAnswered : Obligations.WrongModeIsAnswered := by
  unfold Obligations.WrongModeIsAnswered
  refine ⟨fun s tag hs hm => exec_wrongMode tag .go hs (by rw [hm]; rfl), fun s tag a b c d h n hs hm => ?_⟩
  have hrefused : ∀ r : Request, accepts .setup r = false → exec (requestCommand tag r) s =
      .next (s.replied (requestCode r) tag .wrongMode 0 (List.replicate (resultLength r) 0)) :=
    fun r ha => exec_wrongMode tag r hs (hm ▸ ha)
  exact ⟨hrefused (.setVenue a b) rfl, hrefused (.bar a) rfl, hrefused (.unbar a) rfl, hrefused (.steer h a b) rfl,
    hrefused (.evict h) rfl, hrefused (.unstick h) rfl, hrefused (.tap a b c n d) rfl, hrefused (.untap a) rfl⟩

/-- Settles O18: the values clamped, the counts lowered, and the first clamped offset. -/
theorem tuneReplaces : Obligations.TuneReplaces := by
  unfold Obligations.TuneReplaces
  refine ⟨fun s tag f hs hm => ?_, fun s tag f status offset u hs hm hu hcase => ?_⟩
  · exact exec_unchanged (d := ⟨.badValue, 2, List.replicate 17 0⟩) tag (.tune f) hs rfl (if_pos hm) nofun
  · have htuned : s.tuning.tune f = u := by
      simp only [hu, Tuning.tune, tuned, clamp_eq, Nat.reduceLeDiff, Nat.zero_le, Nat.zero_max, one_le_toNat_iff, ne_eq, ite_not]
    subst htuned
    have hdone : (Ev.start s).doTune f = (Ev.start (s.tuned f), ⟨status, offset, (s.tuning.tune f).bytes⟩) := by
      rcases hcase with ⟨hnone, rfl, rfl⟩ | ⟨l, x, r, hf, hl, hx, rfl, rfl⟩
      · exact Ev.doTune_ok hm (firstClamped_eq_none hnone)
      · exact Ev.doTune_clamped hm (firstClamped_eq_some hf hl hx)
    have hrun := exec_quiet tag (.tune f) hs rfl hdone nofun rfl rfl
    rw [State.tuned, funext (HeadsetRecord.lowerCount_eq _)] at hrun
    exact hrun

/-- Settles O19: the floor set, and a value above 3 refused. -/
theorem floorIsSet : Obligations.FloorIsSet := by
  unfold Obligations.FloorIsSet
  refine fun s tag value hs => ⟨fun hv => ?_, fun hv => ?_⟩
  · exact exec_quiet (t := s.setCtrl { s.ctrl with floor := value.toNat }) (d := ⟨.ok, 0, [byte s.ctrl.floor]⟩) tag (.floor value) hs
      rfl (if_neg (by omega)) nofun rfl rfl
  · exact exec_unchanged (d := ⟨.badValue, 2, [0]⟩) tag (.floor value) hs rfl (if_pos hv) nofun
end

section
/-! PROOF. ENROL, UNENROL and UNSTICK (chapter 1). -/

namespace Sys2Proof.Machine

variable {s : State} {h : Identity} {r : HeadsetRecord} {l : List HeadsetRecord} {q : HeadsetRecord → Bool}

/-! ## A lookup in a registry with one record more or fewer -/

theorem find_insertRecord_self (hr : q r = true) (hl : ∀ x ∈ l, q x = false) : (insertRecord r l).find? q = some r := by
  induction l with
  | nil => simp [insertRecord, hr]
  | cons x rest ih =>
    have hrest := ih (fun y hy => hl y (List.mem_cons_of_mem x hy))
    unfold insertRecord
    split
    · simp [hr]
    · simp [hl x List.mem_cons_self, hrest]

theorem find_insertRecord_other (hr : q r = false) : (insertRecord r l).find? q = l.find? q := by
  induction l with
  | nil => simp [insertRecord, hr]
  | cons x rest ih =>
    unfold insertRecord
    split
    · simp [hr]
    · simp [List.find?_cons, ih]

theorem State.rec_filter_self (s : State) (h : Identity) :
    (s.setRegistry (s.registry.filter (fun x => x.profile.ident != h))).rec? h = none := by
  simp [State.rec?, State.setRegistry]

theorem State.rec_filter_of_ne (s : State) {g : Identity} (hg : g ≠ h) :
    (s.setRegistry (s.registry.filter (fun x => x.profile.ident != h))).rec? g = s.rec? g := by
  simp only [State.rec?, State.setRegistry, List.find?_filter]
  congr 1
  funext x
  by_cases hx : x.profile.ident = g <;> simp [hx, hg]

theorem State.updRec_congr (s : State) {f g : HeadsetRecord → HeadsetRecord} (hfg : ∀ r, r.profile.ident = h → f r = g r) :
    s.updRec h f = s.updRec h g := by
  unfold State.updRec
  congr 1
  refine List.map_congr_left (fun r _ => ?_)
  split
  · exact hfg r (by simp_all)
  · rfl

/-! ## ENROL -/

/-- A record with the profile of an ENROL, its identity and its sticky clip flag kept (R5). -/
def HeadsetRecord.enrolled (f : EnrolFields) (r : HeadsetRecord) : HeadsetRecord :=
  { r with profile := { enrolProfile f r.profile.sticky with ident := r.profile.ident } }

theorem HeadsetRecord.enrolled_eq {f : EnrolFields} (hr : r.profile.ident = f.ident) :
    r.enrolled f = { r with profile := enrolProfile f r.profile.sticky } := by
  rw [HeadsetRecord.enrolled, hr]
  rfl

/-- Fields that pass the checks of R4. -/
theorem State.enrolFault_of_ok {f : EnrolFields} (hf : enrolFieldsOk s f) : s.enrolFault f = none := by
  obtain ⟨h0, h1, hcls, hhome, hpresent, hmode, hmonitor, hlisten⟩ := hf
  have hvenue : ¬ (s.mode = .run ∧ s.presentIn (Fin.ofNat 16 f.home.toNat) = []) := by
    rintro ⟨hrun, hempty⟩
    obtain ⟨a, ha, hv⟩ := hpresent hrun
    have hhere : (s.ant a).venue = Fin.ofNat 16 f.home.toNat :=
      Fin.ext (hv.trans (Nat.mod_eq_of_lt (Nat.lt_succ_of_le hhome)).symm)
    exact State.presentIn_isEmpty_iff.mp (List.isEmpty_iff.mpr hempty) a ha hhere
  have htalk : ¬ (f.mode = 0 ∧ f.talk = 0 ∨ f.mode = 1 ∧ f.talk ≠ 0) := by
    rcases hmode with ⟨hm, ht⟩ | ⟨hm, ht⟩
    · rintro (⟨_, h0⟩ | ⟨h1, _⟩)
      · exact ht h0
      · exact absurd (hm.symm.trans h1) (by decide)
    · rintro (⟨h0, _⟩ | ⟨_, h1⟩)
      · exact absurd (hm.symm.trans h0) (by decide)
      · exact h1 ht
  have hkind : ¬ 1 < f.mode.toNat := by
    rcases hmode with ⟨hm, _⟩ | ⟨hm, _⟩ <;> simp [hm]
  have hline : hasLine f.listen (Fin.ofNat 32 f.monitor.toNat) = true := by
    simpa [hasLine, Nat.mod_eq_of_lt (Nat.lt_succ_of_le hmonitor)] using hlisten
  have hmember : ¬ (31 < f.monitor.toNat ∨ hasLine f.listen (Fin.ofNat 32 f.monitor.toNat) = false) :=
    not_or.mpr ⟨Nat.not_lt.mpr hmonitor, Bool.not_eq_false _ ▸ hline⟩
  rw [State.enrolFault, if_neg (by simp [identityOk_of_ne h0 h1]), if_neg (Nat.not_lt.mpr hcls), if_neg (Nat.not_lt.mpr hhome),
    if_neg hvenue, if_neg hkind, if_neg htalk, if_neg hmember]

/-- The lowest free position (R3). -/
theorem State.freePosition_eq {p : Position} (hfree : ∀ r ∈ s.registry, r.position ≠ p)
    (hlow : ∀ q : Position, q < p → ∃ r ∈ s.registry, r.position = q) : s.freePosition = some p := by
  refine find_finRange ?_ (fun j hj => ?_)
  · simpa [State.recAt?, Fin.val_inj] using hfree
  · obtain ⟨r, hr, rfl⟩ := hlow j hj
    simpa [State.recAt?] using ⟨r, hr, rfl⟩

theorem Ev.doEnrol_new {f : EnrolFields} {p : Position} (hf : s.enrolFault f = none) (hr : s.rec? f.ident = none)
    (hp : s.freePosition = some p) : (Ev.start s).doEnrol f =
      (Ev.start (s.setRegistry (insertRecord ⟨p, enrolProfile f false, .idle⟩ s.registry)), ⟨.ok, 0, nat16 p.val ++ [0]⟩) := by
  simp only [Ev.doEnrol, Ev.start, hf, hr, hp]
  rfl

theorem Ev.doEnrol_idle {f : EnrolFields} (hf : s.enrolFault f = none) (hr : s.rec? f.ident = some r) (hi : r.att = .idle) :
    (Ev.start s).doEnrol f =
      (Ev.start (s.updRec f.ident (HeadsetRecord.enrolled f)), ⟨.ok, 0, nat16 r.position.val ++ [1]⟩) := by
  rw [← s.updRec_congr (fun x hx => (HeadsetRecord.enrolled_eq hx).symm)]
  simp only [Ev.doEnrol, Ev.start, hf, hr, hi, Attachment.isIdle, if_true]
  rfl

theorem Attachment.isIdle_of_ne {x : Attachment} (hx : x ≠ .idle) : x.isIdle = false := by
  cases x with
  | idle => exact absurd rfl hx
  | _ => rfl

theorem Ev.doEnrol_attached {f : EnrolFields} (hf : s.enrolFault f = none) (hr : s.rec? f.ident = some r) (hi : r.att ≠ .idle) :
    (Ev.start s).doEnrol f = (Ev.start s, ⟨.attached, 2, nat16 r.position.val ++ [0]⟩) := by
  simp [Ev.doEnrol, Ev.start, hf, hr, Attachment.isIdle_of_ne hi]

/-! ## UNENROL -/

theorem Ev.doUnenrol_idle (h0 : h ≠ 0x000000) (h1 : h ≠ 0xFFFFFF) (hr : s.rec? h = some r) (hi : r.att = .idle) :
    (Ev.start s).doUnenrol h = (Ev.start (s.setRegistry (s.registry.filter (fun x => x.profile.ident != h))),
      ⟨.ok, 0, nat16 r.position.val⟩) := by
  simp only [Ev.doUnenrol, Ev.start, identityOk_of_ne h0 h1, hr, hi, Attachment.isIdle]
  rfl

theorem Ev.doUnenrol_attached (h0 : h ≠ 0x000000) (h1 : h ≠ 0xFFFFFF) (hr : s.rec? h = some r) (hi : r.att ≠ .idle) :
    (Ev.start s).doUnenrol h = (Ev.start s, ⟨.attached, 2, [0, 0]⟩) := by
  simp only [Ev.doUnenrol, Ev.start, identityOk_of_ne h0 h1, hr, Attachment.isIdle_of_ne hi]
  rfl

theorem Ev.doUnenrol_missing (h0 : h ≠ 0x000000) (h1 : h ≠ 0xFFFFFF) (hr : s.rec? h = none) :
    (Ev.start s).doUnenrol h = (Ev.start s, ⟨.notFound, 2, [0, 0]⟩) := by
  simp only [Ev.doUnenrol, Ev.start, identityOk_of_ne h0 h1, hr]
  rfl

/-! ## UNSTICK -/

theorem Ev.doUnstick_one (h0 : h ≠ 0x000000) (h1 : h ≠ 0xFFFFFF) (hr : s.rec? h = some r) :
    (Ev.start s).doUnstick h =
      (Ev.start (s.updRec h HeadsetRecord.unstick), ⟨.ok, 0, [0, flagByte r.profile.sticky]⟩) := by
  rw [Ev.doUnstick, if_neg h0, if_neg h1]
  simp only [Ev.start, hr]
  rfl

theorem Ev.doUnstick_all : (Ev.start s).doUnstick 0xFFFFFF =
    (Ev.start (s.setRegistry (s.registry.map HeadsetRecord.unstick)),
      ⟨.ok, 0, nat16 (s.registry.filter (fun r => r.profile.sticky)).length⟩) := by
  rw [Ev.doUnstick, if_neg (by decide), if_pos rfl, List.countP_eq_length_filter]
  rfl

end Sys2Proof.Machine

open Sys2Proof Sys2Proof.Machine

/-- Settles O22: a new record in the lowest free position, an IDLE one's new profile, and an attached one refused. -/
theorem enrolCreatesOrReplaces : Obligations.EnrolCreatesOrReplaces := by
  unfold Obligations.EnrolCreatesOrReplaces
  intro s tag f hs hf
  have hfault := State.enrolFault_of_ok hf
  refine ⟨fun p hr hfree hlow => ?_, fun r hr hi => ?_, fun r hr hi => ?_⟩
  · have hrec := State.rec_none _ hr
    refine ⟨_, exec_quiet tag (.enrol f) hs rfl (Ev.doEnrol_new hfault hr (State.freePosition_eq hfree hlow)) nofun rfl rfl, ?_,
      fun g hg => ?_, rfl⟩
    · exact find_insertRecord_self (by simp [enrolProfile]) (fun x hx => by simpa using hrec x hx)
    · exact find_insertRecord_other (by simpa [enrolProfile] using Ne.symm hg)
  · have hident := State.ident_of_rec hr
    refine ⟨_, exec_quiet tag (.enrol f) hs rfl (Ev.doEnrol_idle hfault hr hi) nofun rfl rfl, ?_, fun g hg => ?_, rfl⟩
    · rw [State.rec_updRec_self s f.ident (HeadsetRecord.enrolled f) (fun _ => rfl), hr]
      exact congrArg some (HeadsetRecord.enrolled_eq hident)
    · exact State.rec_updRec_of_ne s hg _ (fun _ => rfl)
  · exact exec_unchanged tag (.enrol f) hs rfl (Ev.doEnrol_attached hfault hr hi) nofun

/-- Settles O23: an IDLE record removed, an attached one kept, a missing one not found. -/
theorem unenrolRemoves : Obligations.UnenrolRemoves := by
  unfold Obligations.UnenrolRemoves
  refine fun s tag h hs h0 h1 => ⟨fun r hr hi => ?_, fun r hr hi => ?_, fun hr => ?_⟩
  · exact ⟨_, exec_quiet tag (.unenrol h) hs rfl (Ev.doUnenrol_idle h0 h1 hr hi) nofun rfl rfl, s.rec_filter_self h,
      fun g hg => s.rec_filter_of_ne hg, rfl⟩
  · exact exec_unchanged tag (.unenrol h) hs rfl (Ev.doUnenrol_attached h0 h1 hr hi) nofun
  · exact exec_unchanged tag (.unenrol h) hs rfl (Ev.doUnenrol_missing h0 h1 hr) nofun

/-- Settles O25: one record's flag cleared, and all of them. -/
theorem unstickClears : Obligations.UnstickClears := by
  unfold Obligations.UnstickClears
  refine ⟨fun s tag h r hs hm h0 h1 hr => ?_, fun s tag hs hm => ?_⟩
  · refine ⟨_, exec_quiet tag (.unstick h) hs (by rw [hm]; rfl) (Ev.doUnstick_one h0 h1 hr) nofun rfl rfl, ?_, fun g hg => ?_, rfl⟩
    · rw [State.rec_updRec_self s h HeadsetRecord.unstick (fun _ => rfl), hr]
      rfl
    · exact State.rec_updRec_of_ne s hg _ (fun _ => rfl)
  · exact exec_quiet tag (.unstick 0xFFFFFF) hs (by rw [hm]; rfl) Ev.doUnstick_all nofun rfl rfl
end

section
/-! PROOF. SITE, VENUE and LINE (chapters 2 and 3). -/

namespace Sys2Proof.Machine

variable {s t : State} {a : AntennaNo} {v : VenueNo} {m : LineNo}

/-- A request that the mode accepts, and whose cells have room, leaves the state it makes with its cells sent, and its reply. -/
theorem exec_sending {cells : List OutCell} {d : Done} (tag : Byte) (r : Request) (hs : s.hostReady)
    (ha : accepts s.mode r = true) (hq : isQuery r = false) (hd : (Ev.start s).doRequest r = (⟨t, cells, none, []⟩, d))
    (hh : t.head = s.head) (hw : t.waiting = s.waiting) (hn : s.roomFor cells.length) :
    exec (requestCommand tag r) s = .next ((t.sends cells).replied (requestCode r) tag d.status d.offset d.result) := by
  have hcarried : (Ev.start s).carryOut r = (⟨t, cells, none, []⟩, d) := (if_pos ha).trans hd
  have ⟨_, _, _, _, hidle⟩ := hs
  rw [exec_requestCommand, State.presentRequest_eq s t tag r cells d hs hcarried (by simp [hq]) hh (hw.trans hidle) (.inr hn)]

/-! ## SITE -/

/-- The claims of an antenna are counted over its slots, its listener places and its wait list (R31). -/
theorem State.claims_pos_iff : 0 < (s.ant a).claims ↔ s.holdsClaim a := by
  have hslots : 0 < (s.ant a).slots.toList.countP (· ≠ .free) ↔ ∃ i : SlotNo, s.slot a i ≠ .free := by
    rw [List.countP_pos_iff]
    constructor
    · rintro ⟨x, hx, hfree⟩
      obtain ⟨i, hi, rfl⟩ := Vector.mem_iff_getElem.mp (Vector.mem_toList_iff.mp hx)
      exact ⟨⟨i, hi⟩, by simpa [State.slot] using hfree⟩
    · rintro ⟨i, hi⟩
      exact ⟨s.slot a i, Vector.mem_toList_iff.mpr (Vector.getElem_mem i.isLt), by simpa using hi⟩
  have hplaces : ∀ c : Carrier, 0 < c.places ↔ ∃ l ∈ c, 1 ≤ l.served + l.reserved := fun c => by
    rw [Carrier.places, List.sum_pos_iff_exists_pos_nat]
    simp only [List.mem_map, exists_exists_and_eq_and, Nat.lt_iff_add_one_le, Nat.zero_add]
  have hcarriers : 0 < ((s.ant a).carriers.toList.map Carrier.places).sum ↔
      ∃ k : CarrierNo, ∃ l ∈ s.carrier a k, 1 ≤ l.served + l.reserved := by
    rw [List.sum_pos_iff_exists_pos_nat]
    constructor
    · rintro ⟨n, hn, hpos⟩
      obtain ⟨c, hc, rfl⟩ := List.mem_map.mp hn
      obtain ⟨k, hk, rfl⟩ := Vector.mem_iff_getElem.mp (Vector.mem_toList_iff.mp hc)
      exact ⟨⟨k, hk⟩, (hplaces _).mp hpos⟩
    · rintro ⟨k, hk⟩
      exact ⟨_, List.mem_map_of_mem (Vector.mem_toList_iff.mpr (Vector.getElem_mem k.isLt)), (hplaces _).mpr hk⟩
  rw [Antenna.claims, Nat.add_pos_iff_pos_or_pos, Nat.add_pos_iff_pos_or_pos, hslots, hcarriers, List.length_pos_iff, or_assoc]

/-- A present antenna is the only one of its venue. -/
theorem State.presentIn_eq_singleton (hp : (s.ant a).present = true) : s.presentIn (s.ant a).venue = [a] ↔
    ∀ b : AntennaNo, b ≠ a → (s.ant b).present = true → (s.ant b).venue ≠ (s.ant a).venue := by
  have hmem : ∀ b, b ∈ s.presentIn (s.ant a).venue ↔ (s.ant b).present = true ∧ (s.ant b).venue = (s.ant a).venue := by
    simp [State.presentIn, allAntennas]
  constructor
  · intro hone b hb hbp hbv
    exact hb (List.mem_singleton.mp (hone ▸ (hmem b).mpr ⟨hbp, hbv⟩))
  · intro halone
    refine List.perm_singleton.mp ((List.perm_ext_iff_of_nodup ((List.nodup_finRange 48).filter _) (List.nodup_singleton a)).mpr
      (fun b => ?_))
    rw [List.mem_singleton]
    refine ⟨fun hb => by_contra fun hne => ?_, fun hb => (hmem b).mpr ⟨hb ▸ hp, hb ▸ rfl⟩⟩
    exact halone b hne ((hmem b).mp hb).1 ((hmem b).mp hb).2

section
variable {present : Bool} (hp : (s.ant a).present = true) (hmoves : present = false ∨ v ≠ (s.ant a).venue)
include hp hmoves

/-- The tests of R27 on an antenna that is to be removed or moved. -/
theorem State.siteFault_eq : s.siteFault a present v =
    if s.holdsClaim a then some 2
    else if s.presentIn (s.ant a).venue = [a] ∧ ∃ r ∈ s.registry, r.profile.home = (s.ant a).venue then
      some (if present then 4 else 3)
    else none := by
  have hany : s.registry.any (fun r => r.profile.home == (s.ant a).venue) = true ↔
      ∃ r ∈ s.registry, r.profile.home = (s.ant a).venue := by simp
  simp only [State.siteFault, if_pos (And.intro hp hmoves), State.claims_pos_iff, hany]

theorem State.siteFault_claim (hc : s.holdsClaim a) : s.siteFault a present v = some 2 := by
  rw [State.siteFault_eq hp hmoves, if_pos hc]

theorem State.siteFault_last (hc : ¬ s.holdsClaim a)
    (hlast : ∀ b : AntennaNo, b ≠ a → (s.ant b).present = true → (s.ant b).venue ≠ (s.ant a).venue)
    (hhome : ∃ r ∈ s.registry, r.profile.home = (s.ant a).venue) :
    s.siteFault a present v = some (if present then 4 else 3) := by
  rw [State.siteFault_eq hp hmoves, if_neg hc, if_pos ⟨(State.presentIn_eq_singleton hp).mpr hlast, hhome⟩]

theorem State.siteFault_none (hc : ¬ s.holdsClaim a)
    (hfree : (∃ b : AntennaNo, b ≠ a ∧ (s.ant b).present = true ∧ (s.ant b).venue = (s.ant a).venue) ∨
      ∀ r ∈ s.registry, r.profile.home ≠ (s.ant a).venue) : s.siteFault a present v = none := by
  rw [State.siteFault_eq hp hmoves, if_neg hc, if_neg]
  rintro ⟨hone, r, hr, hhome⟩
  rcases hfree with ⟨b, hb, hbp, hbv⟩ | hnone
  · exact (State.presentIn_eq_singleton hp).mp hone b hb hbp hbv
  · exact hnone r hr hhome

end

/-- An absent antenna becomes present (R26). -/
theorem Ev.site_enters (hp : (s.ant a).present = false) : (Ev.start s).site a true v =
    Ev.start (s.setAnt a { s.ant a with present := true, venue := v, online := false }) := by
  simp only [Ev.site, Ev.start, hp]
  rfl

theorem Ev.modeForVenue_of {e : Ev} (h : e.st.venueOfAnt a = v) :
    e.modeForVenue a = e.emit (.mode a (e.st.ven v).state.serves) := by
  rw [Ev.modeForVenue, h]

/-- A present antenna moves, with the MODE cell of its new venue in RUN where it is ONLINE and the venue another (R26, R27). -/
theorem Ev.site_moves (hp : (s.ant a).present = true) : (Ev.start s).site a true v =
    ⟨s.setAnt a { s.ant a with venue := v },
      if s.mode = .run ∧ (s.ant a).online = true ∧ v ≠ (s.ant a).venue then [.mode a (s.ven v).state.serves] else [], none, []⟩ := by
  have hvenue : (s.setAnt a { s.ant a with venue := v }).venueOfAnt a = v := by simp [State.venueOfAnt]
  have hmode : ((Ev.start s).upd (·.setAnt a { s.ant a with venue := v })).modeForVenue a =
      ⟨s.setAnt a { s.ant a with venue := v }, [.mode a (s.ven v).state.serves], none, []⟩ := by
    rw [Ev.modeForVenue_of hvenue]
    rfl
  have hsite : (Ev.start s).site a true v = if s.mode = .run ∧ (s.ant a).online = true ∧ v ≠ (s.ant a).venue then
      ((Ev.start s).upd (·.setAnt a { s.ant a with venue := v })).modeForVenue a
      else (Ev.start s).upd (·.setAnt a { s.ant a with venue := v }) := by
    simp only [Ev.site, Ev.start, hp]
    rfl
  rw [hsite, hmode]
  split <;> rfl

/-- A present antenna is removed, with a CLEAR cell where it is ONLINE (R26). -/
theorem Ev.site_leaves (hp : (s.ant a).present = true) : (Ev.start s).site a false v =
    ⟨s.setAnt a { s.ant a with present := false, online := false }, if (s.ant a).online then [.clear a] else [], none, []⟩ := by
  cases ho : (s.ant a).online <;>
    · simp only [Ev.site, Ev.start, hp, Ev.emitIf, ho]
      rfl

theorem State.siteResult_setAnt (s : State) (a : AntennaNo) (x : Antenna) :
    (s.setAnt a x).siteResult a = [flagByte x.present, byte x.venue.val, flagByte x.online] := by
  simp [State.siteResult]

section
variable {ab pb vb : Byte} (hab : ab.toNat = a.val) (hpb : pb = 0 ∨ pb = 1) (hvb : vb.toNat = v.val)
include hab hpb hvb

theorem Ev.doSite_eq : (Ev.start s).doSite ab pb vb =
    match (if s.mode = .run then s.siteFault a (pb == 1) v else none) with
    | some offset => (Ev.start s, ⟨.inUse, offset, [0, 0, 0]⟩)
    | none => ((Ev.start s).site a (pb == 1) v).ok (((Ev.start s).site a (pb == 1) v).st.siteResult a) := by
  have hle : ¬ 1 < pb.toNat := by rcases hpb with rfl | rfl <;> decide
  simp only [Ev.doSite, antennaOf_eq hab, venueOf_eq hvb, if_neg hle]
  rfl

theorem Ev.doSite_inUse {offset : Nat} (hm : s.mode = .run) (hf : s.siteFault a (pb == 1) v = some offset) :
    (Ev.start s).doSite ab pb vb = (Ev.start s, ⟨.inUse, offset, [0, 0, 0]⟩) := by
  simp only [Ev.doSite_eq hab hpb hvb, hm, if_true, hf]

theorem Ev.doSite_ok (hf : s.mode = .run → s.siteFault a (pb == 1) v = none) :
    (Ev.start s).doSite ab pb vb = ((Ev.start s).site a (pb == 1) v).ok (((Ev.start s).site a (pb == 1) v).st.siteResult a) := by
  have hnone : (if s.mode = .run then s.siteFault a (pb == 1) v else none) = none := by
    split
    · exact hf ‹_›
    · rfl
  simp only [Ev.doSite_eq hab hpb hvb, hnone]

/-- An absent antenna enters its venue. -/
theorem Ev.doSite_enters (hm : s.mode = .setup) (h1 : pb = 1) (hp : (s.ant a).present = false) : (Ev.start s).doSite ab pb vb =
    (Ev.start (s.setAnt a { s.ant a with present := true, venue := v, online := false }), ⟨.ok, 0, [1, vb, 0]⟩) := by
  subst h1
  rw [Ev.doSite_ok hab hpb hvb (by simp [hm]), show ((1 : Byte) == 1) = true from rfl, Ev.site_enters hp]
  simp only [Ev.start, State.siteResult_setAnt, byte_val vb _ hvb]
  rfl

/-- A present antenna moves: without a cell in SETUP, and with the MODE cell of another venue in RUN where it is ONLINE. -/
theorem Ev.doSite_moves (hf : s.mode = .run → s.siteFault a true v = none) (h1 : pb = 1) (hp : (s.ant a).present = true) :
    (Ev.start s).doSite ab pb vb = (⟨s.setAnt a { s.ant a with venue := v },
      if s.mode = .run ∧ (s.ant a).online = true ∧ v ≠ (s.ant a).venue then [.mode a (s.ven v).state.serves] else [],
      none, []⟩, ⟨.ok, 0, [1, vb, flagByte (s.ant a).online]⟩) := by
  subst h1
  rw [Ev.doSite_ok hab hpb hvb hf, show ((1 : Byte) == 1) = true from rfl, Ev.site_moves hp]
  simp only [State.siteResult_setAnt, byte_val vb _ hvb, hp]
  rfl

/-- A present antenna is removed. -/
theorem Ev.doSite_leaves (hf : s.mode = .run → s.siteFault a false v = none) (h0 : pb = 0) (hp : (s.ant a).present = true) :
    (Ev.start s).doSite ab pb vb = (⟨s.setAnt a { s.ant a with present := false, online := false },
      if (s.ant a).online then [.clear a] else [], none, []⟩, ⟨.ok, 0, [0, byte (s.ant a).venue.val, 0]⟩) := by
  subst h0
  rw [Ev.doSite_ok hab hpb hvb hf, show ((0 : Byte) == 1) = false from rfl, Ev.site_leaves hp]
  simp only [State.siteResult_setAnt]
  rfl

end

theorem VenueState.serves_iff (x : VenueState) : x.serves = decide (x ≠ .closed) := by
  cases x <;> rfl

/-! ## LINE -/

theorem State.carriedAt_eq_nil (h : ∀ (a : AntennaNo) (j : CarrierNo), ∀ l ∈ s.carrier a j, l.line ≠ m) : s.carriedAt m = [] := by
  simpa [State.carriedAt, allAntennas, allCarriers, Carrier.carries] using h

/-- The lowest antenna that carries a line heads the list of those that do (R48). -/
theorem State.carriedAt_head (ha : ∃ j : CarrierNo, ∃ l ∈ s.carrier a j, l.line = m)
    (hlow : ∀ b : AntennaNo, b < a → ∀ j : CarrierNo, ∀ l ∈ s.carrier b j, l.line ≠ m) : ∃ rest, s.carriedAt m = a :: rest := by
  refine List.head?_eq_some_iff.mp ?_
  rw [State.carriedAt, List.head?_filter]
  exact find_finRange (by simpa [allCarriers, Carrier.carries] using ha) (fun b hb => by
    simpa [allCarriers, Carrier.carries] using hlow b hb)

/-- The kind that the byte of a LINE names (R48). -/
theorem lineKind_of_byte {kb : Byte} {k : LineKind} (hk : kb = 0 ∧ k = .opened ∨ kb = 1 ∧ k = .cue) :
    ¬ 1 < kb.toNat ∧ (if kb = 1 then LineKind.cue else LineKind.opened) = k ∧ k.code = kb ∧
      ∀ x : LineKind, x ≠ k → x.code = 1 - kb := by
  have hother : ∀ k' x : LineKind, x ≠ k' → x.code = 1 - k'.code
    | .opened, .cue, _ => rfl
    | .cue, .opened, _ => rfl
    | .opened, .opened, hx => absurd rfl hx
    | .cue, .cue, hx => absurd rfl hx
  rcases hk with ⟨rfl, rfl⟩ | ⟨rfl, rfl⟩
  · exact ⟨by decide, rfl, rfl, hother .opened⟩
  · exact ⟨by decide, rfl, rfl, hother .cue⟩

/-- A line that is carried nowhere takes the kind, also where it has it (R48). -/
theorem Ev.doLine_free {mb kb : Byte} {k : LineKind} (hm : mb.toNat = m.val) (hk : kb = 0 ∧ k = .opened ∨ kb = 1 ∧ k = .cue)
    (hfree : s.carriedAt m = []) :
    (Ev.start s).doLine mb kb = (Ev.start { s with lines := s.lines.set m.val k }, ⟨.ok, 0, [kb, 0xFF]⟩) := by
  obtain ⟨hle, hkind, hcode, _⟩ := lineKind_of_byte hk
  have hset : State.lineResult { s with lines := s.lines.set m.val k } m = [kb, 0xFF] := by
    have hline : State.lineKind { s with lines := s.lines.set m.val k } m = k := by simp [State.lineKind]
    have hnone : State.carriedAt { s with lines := s.lines.set m.val k } m = [] := hfree
    rw [State.lineResult, hline, hnone, hcode]
  simp only [Ev.doLine, lineOf_eq hm, if_neg hle, hkind]
  split
  · rename_i hsame
    have hkept : { s with lines := s.lines.set m.val k } = s := by
      rw [hsame]
      simp [Ev.start, State.lineKind]
    rw [hkept] at hset ⊢
    exact congrArg (fun l => (Ev.start s, Done.mk Status.ok 0 l)) hset
  · rw [if_pos (by simpa [Ev.start] using hfree)]
    exact congrArg (fun l => (Ev.start { s with lines := s.lines.set m.val k }, Done.mk Status.ok 0 l)) hset

/-- A carried line keeps its kind (R48). -/
theorem Ev.doLine_bound {mb kb : Byte} {k : LineKind} {rest : List AntennaNo} (hm : mb.toNat = m.val)
    (hk : kb = 0 ∧ k = .opened ∨ kb = 1 ∧ k = .cue) (hne : s.lineKind m ≠ k) (hcarried : s.carriedAt m = a :: rest) :
    (Ev.start s).doLine mb kb = (Ev.start s, ⟨.bound, 2, [1 - kb, byte a.val]⟩) := by
  obtain ⟨hle, hkind, _, hother⟩ := lineKind_of_byte hk
  have hresult : s.lineResult m = [1 - kb, byte a.val] := by
    rw [State.lineResult, hcarried, hother _ hne]
  simp only [Ev.doLine, lineOf_eq hm, if_neg hle, hkind]
  rw [if_neg (fun h => hne h.symm), if_neg (by simp [Ev.start, hcarried])]
  exact congrArg (fun l => (Ev.start s, Done.mk Status.bound 2 l)) hresult

end Sys2Proof.Machine

open Sys2Proof Sys2Proof.Machine

/-- Settles O26: SITE in SETUP, and the tests and the MODE cell of SITE in RUN. -/
theorem siteSetsPresence : Obligations.SiteSetsPresence := by
  unfold Obligations.SiteSetsPresence
  refine ⟨fun s tag ab vb a v hs hm hab hvb => ?_, fun s tag ab pb vb a v hs hm hab hvb hp hmoves => ?_⟩
  · have hsetup : ∀ b, s.mode = .run → s.siteFault a b v = none := by simp [hm]
    refine ⟨fun hp => ?_, fun hp => ?_, fun hp hn => ?_⟩
    · exact exec_quiet tag (.site ab 1 vb) hs rfl (Ev.doSite_enters hab (.inr rfl) hvb hm rfl hp) nofun rfl rfl
    · have hsite := Ev.doSite_moves hab (.inr rfl) hvb (hsetup _) rfl hp
      rw [if_neg (by simp [hm])] at hsite
      exact exec_quiet tag (.site ab 1 vb) hs rfl hsite nofun rfl rfl
    · have hroom : s.roomFor (if (s.ant a).online then [OutCell.clear a] else []).length := by
        split
        · exact hn
        · exact ⟨hn.1, Nat.le_of_succ_le hn.2⟩
      exact exec_sending tag (.site ab 0 vb) hs rfl rfl (Ev.doSite_leaves hab (.inl rfl) hvb (hsetup _) rfl hp) rfl rfl hroom
  · have hpb : pb = 0 ∨ pb = 1 := hmoves.imp_right And.left
    have hgone : (pb == 1) = false ∨ v ≠ (s.ant a).venue := by
      rcases hmoves with rfl | ⟨_, hne⟩
      · exact .inl rfl
      · exact .inr hne
    refine ⟨fun hc => ?_, fun hc hlast hhome => ?_, fun hc hfree ho hn => ?_⟩
    · exact exec_unchanged tag (.site ab pb vb) hs rfl
        (Ev.doSite_inUse hab hpb hvb hm (State.siteFault_claim hp hgone hc)) nofun
    · have hoffset : (if pb == 1 then 4 else 3) = if pb = 0 then 3 else 4 := by rcases hpb with rfl | rfl <;> rfl
      rw [← hoffset]
      exact exec_unchanged tag (.site ab pb vb) hs rfl
        (Ev.doSite_inUse hab hpb hvb hm (State.siteFault_last hp hgone hc hlast hhome)) nofun
    · refine ⟨fun h1 => ?_, fun h0 => ?_⟩
      · subst h1
        have hne : v ≠ (s.ant a).venue := hgone.resolve_left (by decide)
        have hsite := Ev.doSite_moves hab hpb hvb (fun _ => State.siteFault_none hp hgone hc hfree) rfl hp
        rw [if_pos ⟨hm, ho, hne⟩, VenueState.serves_iff, ho] at hsite
        exact exec_sending tag (.site ab 1 vb) hs rfl rfl hsite rfl rfl hn
      · subst h0
        have hsite := Ev.doSite_leaves hab hpb hvb (fun _ => State.siteFault_none hp hgone hc hfree) rfl hp
        rw [if_pos ho] at hsite
        exact exec_sending tag (.site ab 0 vb) hs rfl rfl hsite rfl rfl hn

/-- Settles O27: the window and the wake mask, and a mask above 15 refused. -/
theorem venueSetsWindow : Obligations.VenueSetsWindow := by
  unfold Obligations.VenueSetsWindow
  refine fun s tag vb wake low high v hs hvb => ⟨fun hw => ?_, fun hw => ?_⟩
  · have hwake : wake.extractLsb' 0 4 = BitVec.ofNat 4 wake.toNat := BitVec.eq_of_toNat_eq (by simp)
    have hvenue : (Ev.start s).doVenue vb low high wake = (Ev.start (s.setVen v { s.ven v with
        low := low, high := high, wake := BitVec.ofNat 4 wake.toNat }), ⟨.ok, 0, []⟩) := by
      simp only [Ev.doVenue, venueOf_eq hvb, if_neg (Nat.not_lt.mpr hw), hwake]
      rfl
    exact exec_quiet tag (.venue vb low high wake) hs rfl hvenue nofun rfl rfl
  · have hvenue : (Ev.start s).doVenue vb low high wake = (Ev.start s, ⟨.badValue, 9, []⟩) := by
      simp only [Ev.doVenue, venueOf_eq hvb, if_pos hw]
      rfl
    exact exec_unchanged tag (.venue vb low high wake) hs rfl hvenue nofun

/-- Settles O28: the kind of a free line, and a carried line kept. -/
theorem lineSetsKind : Obligations.LineSetsKind := by
  unfold Obligations.LineSetsKind
  refine fun s tag mb kb m k hs hm hk => ⟨fun hfree => ?_, fun a hne ha hlow => ?_⟩
  · exact exec_quiet tag (.line mb kb) hs rfl (Ev.doLine_free hm hk (State.carriedAt_eq_nil hfree)) nofun rfl rfl
  · obtain ⟨rest, hcarried⟩ := State.carriedAt_head ha hlow
    exact exec_unchanged tag (.line mb kb) hs rfl (Ev.doLine_bound hm hk hne hcarried) nofun
end

section
/-! PROOF. SETVENUE: the opening, the closing and the drain of a venue (chapter 2). -/

namespace Sys2Proof.Machine

variable {s t : State} {e : Ev} {due : List AntennaNo} {a : AntennaNo} {v : VenueNo} {x : VenueState}

/-! ## The changes of a venue -/

theorem Ev.To.setVenueState (h : e.To due s) (v : VenueNo) (x : VenueState) :
    (e.upd (·.setVenueState v x)).To due (s.setVen v { s.ven v with state := x }) :=
  h.upd (fun _ => rfl)

/-- A CLOSED venue opens with MODE SERVE to its antennas (R42). -/
theorem Ev.To.openClosed (h : e.To due s) (hv : (s.ven v).state = .closed) (x : VenueState) : (e.openVenue v x).To due
    (State.notify ((s.setVen v { s.ven v with state := x }).sends ((s.unitsOf v).map (fun a => .mode a true)))
      (.venueState v x .request)) := by
  have hset := h.setVenueState v x
  have hopen : e.openVenue v x = ((e.upd (·.setVenueState v x)).modeCells ((e.upd (·.setVenueState v x)).st.venueUnits v) true).notify
      (.venueState v x .request) := by
    rw [Ev.openVenue, if_pos (by rw [h.ven, hv])]
  rw [hopen, hset.venueUnits, State.unitsOf_setVen]
  exact (hset.modeCells _ true).notify _

/-- A venue that is not CLOSED changes its state without a cell (R42). -/
theorem Ev.To.openOther (h : e.To due s) (hv : (s.ven v).state ≠ .closed) (x : VenueState) : (e.openVenue v x).To due
    ((s.setVen v { s.ven v with state := x }).notify (.venueState v x .request)) := by
  have hopen : e.openVenue v x = (e.upd (·.setVenueState v x)).notify (.venueState v x .request) := by
    rw [Ev.openVenue, if_neg (by rwa [h.ven])]
  rw [hopen]
  exact (h.setVenueState v x).notify _

/-- The part after the WAIT_JOIN entries of some antennas are refused CLOSED in turn (R43). -/
def State.joinsClosed (s : State) (l : List AntennaNo) : State :=
  l.foldl (fun s b => (s.waitJoins b).foldl (State.entryRefused b .closed .closed) s) s

theorem State.joinsClosed_cons (s : State) (b : AntennaNo) (l : List AntennaNo) :
    s.joinsClosed (b :: l) = ((s.waitJoins b).foldl (State.entryRefused b .closed .closed) s).joinsClosed l := rfl

theorem State.joinsClosed_append (s : State) (l r : List AntennaNo) : s.joinsClosed (l ++ r) = (s.joinsClosed l).joinsClosed r :=
  List.foldl_append

/-- Antennas without WAIT_JOIN entries leave the part as it is. -/
theorem State.joinsClosed_of_none {l : List AntennaNo} (h : ∀ b ∈ l, s.waitJoins b = []) : s.joinsClosed l = s := by
  induction l with
  | nil => rfl
  | cons b l ih =>
    rw [State.joinsClosed_cons, h b List.mem_cons_self]
    exact ih (fun c hc => h c (List.mem_cons_of_mem b hc))

theorem State.waitJoins_eq_nil (h : ∀ w ∈ (s.ant a).wait, w.kind = .promote) : s.waitJoins a = [] := by
  rw [State.waitJoins_eq, List.map_eq_nil_iff, List.filter_eq_nil_iff]
  exact fun w hw => by simp [h w hw]

/-- A venue with claims drains: its WAIT_JOIN entries are refused (R43). -/
theorem Ev.To.drains (h : e.To due s) (hc : (s.ven v).claims ≠ 0) : (e.shutVenue v).To due
    (State.joinsClosed ((s.setVen v { s.ven v with state := .draining }).notify (.venueState v .draining .request))
      (s.presentIn v)) := by
  have hset := (h.setVenueState v .draining).notify (.venueState v .draining .request)
  have hpresent : ((e.upd (·.setVenueState v .draining)).notify (.venueState v .draining .request)).st.presentIn v =
      s.presentIn v := by
    simp only [State.presentIn, hset.ant]
    rfl
  have hshut : e.shutVenue v = (s.presentIn v).foldl (Ev.denyJoins .closed)
      ((e.upd (·.setVenueState v .draining)).notify (.venueState v .draining .request)) := by
    rw [Ev.shutVenue, if_neg (by rwa [h.ven])]
    simp only [hpresent]
  have hjoins : ∀ {e : Ev} {s : State} (b : AntennaNo), e.To due s →
      (Ev.denyJoins .closed e b).To due ((s.waitJoins b).foldl (State.entryRefused b .closed .closed) s) :=
    fun b h => h.refuseJoins (cell := .closed) rfl
  rw [hshut, State.joinsClosed]
  exact Ev.To.foldl (f := Ev.denyJoins .closed) hjoins hset (s.presentIn v)

/-- A venue without claims closes at once (R43). -/
theorem Ev.To.shuts (h : e.To due s) (hc : (s.ven v).claims = 0) : (e.shutVenue v).To due
    (State.notify ((s.setVen v { s.ven v with state := .closed }).sends ((s.unitsOf v).map (fun a => .mode a false)))
      (.venueState v .closed .request)) := by
  rw [Ev.shutVenue, if_pos (by rwa [h.ven])]
  exact h.closeVenue v .request

/-! ## The drain of one entry -/

/-- Of the antennas of a venue one has a WAIT_JOIN entry, and it is the only entry there: it is refused (R43). -/
theorem State.joinsClosed_one {g : Identity} {mark : Bool} {c : ClassNo} (hp : (s.ant a).present = true)
    (hv : (s.ant a).venue = v) (hw : (s.ant a).wait = [⟨g, .join mark, c⟩])
    (hothers : ∀ b, b ≠ a → (s.ant b).present = true → (s.ant b).venue = v → ∀ w ∈ (s.ant b).wait, w.kind = .promote) :
    s.joinsClosed (s.presentIn v) = State.entryRefused a .closed .closed s g := by
  have hmem : ∀ b ∈ s.presentIn v, (s.ant b).present = true ∧ (s.ant b).venue = v := by
    simp [State.presentIn, allAntennas]
  obtain ⟨before, behind, hsplit⟩ := List.append_of_mem (show a ∈ s.presentIn v by simp [State.presentIn, allAntennas, hp, hv])
  have hnodup : (s.presentIn v).Nodup := (List.nodup_finRange 48).filter _
  rw [hsplit] at hmem hnodup ⊢
  obtain ⟨_, hbehind, hapart⟩ := List.nodup_append.mp hnodup
  have hnone : ∀ b ∈ before ++ a :: behind, b ≠ a → s.waitJoins b = [] := fun b hb hne =>
    State.waitJoins_eq_nil (hothers b hne (hmem b hb).1 (hmem b hb).2)
  have hjoins : s.waitJoins a = [g] := by simp [State.waitJoins_eq, hw]
  have hwait : ∀ b, b ≠ a → (State.entryRefused a .closed .closed s g).waitJoins b = s.waitJoins b := fun b hne => by
    simp only [State.waitJoins_eq]
    rw [show (State.entryRefused a .closed .closed s g).ant b = s.ant b from ?_]
    simp [State.entryRefused, State.entryEnded, State.setWait, State.ant_setAnt_of_ne _ _ hne]
  have hbefore : s.joinsClosed before = s :=
    State.joinsClosed_of_none (fun b hb => hnone b (by simp [hb]) (hapart b hb a List.mem_cons_self))
  rw [State.joinsClosed_append, hbefore, State.joinsClosed_cons, hjoins]
  refine State.joinsClosed_of_none (fun b hb => ?_)
  have hne : b ≠ a := fun h => (List.nodup_cons.mp hbehind).1 (h ▸ hb)
  exact (hwait b hne).trans (hnone b (by simp [hb]) hne)

/-- The end of a claim of a DRAINING venue that has more (R40). -/
theorem State.entryRefused_of_claims {g : Identity} {cell : RefuseReason} {reason : DeniedReason}
    (hc : 2 ≤ (s.ven (s.ant a).venue).claims) : State.entryRefused a cell reason s g =
      State.notify (State.setAtt (State.sends (State.unclaimed
        (s.setWait a ((s.ant a).wait.eraseP (fun w => w.headset == g))) (s.ant a).venue) [.refuse a g cell]) g .idle)
        (.denied g a reason) := by
  have hmore : ¬ ((s.ven (s.ant a).venue).state = .draining ∧ (s.ven (s.ant a).venue).claims ≤ 1) := fun h => by omega
  have hended : s.entryEnded a g =
      (s.setWait a ((s.ant a).wait.eraseP (fun w => w.headset == g))).unclaimed (s.ant a).venue := if_neg hmore
  rw [State.entryRefused, hended]

/-! ## The command -/

/-- A SETVENUE leads to where its change leads, and reports the state of the venue there (R41). -/
theorem exec_setVenue_eq {vb xb : Byte} (tag : Byte) (hs : s.hostReady) (hm : s.mode = .run) (hv : vb.toNat = v.val)
    (hx : requestedState xb = some x) (ht : ((Ev.start s).setVenue v x).To [] t)
    (hn : ((Ev.start s).setVenue v x).cells = [] ∨ s.roomTo t) :
    exec (.setVenue tag vb xb) s = .next (t.replied 0x15 tag .ok 0 [(t.ven v).state.code]) := by
  have hf := ((Ev.start s).frame_setVenue v x).1
  have hd : (Ev.start s).doRequest (.setVenue vb xb) = ((Ev.start s).setVenue v x).ok [(t.ven v).state.code] := by
    show (Ev.start s).doSetVenue vb xb = _
    simp only [Ev.doSetVenue, venueOf_eq hv, hx, ht.ven]
  exact congrArg _ (State.presentRequest_ok tag (.setVenue vb xb) hs hm rfl rfl hd ht hf.head hf.waiting hn)

/-- The change to a state that the venue does not have. -/
theorem Ev.setVenue_open (hx : x = .opened ∨ x = .show) (hne : (s.ven v).state ≠ x) :
    (Ev.start s).setVenue v x = (Ev.start s).openVenue v x := by
  unfold Ev.setVenue
  dsimp only
  rw [if_neg (fun h => hne h.symm)]
  rcases hx with rfl | rfl <;> rfl

theorem Ev.setVenue_shut (hv : (s.ven v).state = .opened ∨ (s.ven v).state = .show) :
    (Ev.start s).setVenue v .closed = (Ev.start s).shutVenue v := by
  unfold Ev.setVenue
  rcases hv with hv | hv <;> simp [hv]

/-- The cells to the antennas of a venue have the room that the venue's count of them asks for. -/
theorem State.roomTo_modes {units : List AntennaNo} (b : Bool) (hn : s.roomFor units.length)
    (ht : t.head = (s.sends (units.map (fun a => .mode a b))).head) : s.roomTo t :=
  ⟨hn.1, by simpa [ht, State.sends, State.setHead] using hn.2⟩

end Sys2Proof.Machine

open Sys2Proof Sys2Proof.Machine

/-- Settles O29: the opening, the changes, the closing and the drain by SETVENUE, and the drain completed by a QUIT. -/
theorem setVenueOpensAndCloses : Obligations.SetVenueOpensAndCloses := by
  unfold Obligations.SetVenueOpensAndCloses
  refine ⟨fun s tag vb v units hs hm hvb hu hn => ⟨fun x xb hx => ?_, fun hv => ⟨fun hc => ?_, fun hc hw => ?_, ?_⟩⟩, ?_⟩
  · have h0 := Ev.to_start s
    have hreq : requestedState xb = some x := by rcases hx with ⟨rfl, rfl⟩ | ⟨rfl, rfl⟩ <;> rfl
    have hopen : x = .opened ∨ x = .show := hx.imp And.left And.left
    have hcode : x.code = xb := by rcases hx with ⟨rfl, rfl⟩ | ⟨rfl, rfl⟩ <;> rfl
    obtain rfl : units = s.unitsOf v := hu
    refine ⟨fun hv => ?_, fun hv hne => ?_, fun hv => ?_⟩
    · have hne : (s.ven v).state ≠ x := by rcases hopen with rfl | rfl <;> simp [hv]
      have hto := h0.openClosed hv x
      rw [← Ev.setVenue_open hopen hne] at hto
      have hrun := exec_setVenue_eq tag hs hm hvb hreq hto (.inr (State.roomTo_modes true hn rfl))
      rwa [show (State.ven _ v).state = x from congrArg Venue.state (State.ven_setVen_self ..), hcode] at hrun
    · have hto := h0.openOther hv x
      rw [← Ev.setVenue_open hopen hne] at hto
      have hrun := exec_setVenue_eq tag hs hm hvb hreq hto (.inr ⟨hn.1, Nat.le_trans (Nat.le_add_right _ _) hn.2⟩)
      rwa [show (State.ven _ v).state = x from congrArg Venue.state (State.ven_setVen_self ..), hcode] at hrun
    · have hsame : (Ev.start s).setVenue v x = Ev.start s := if_pos hv.symm
      have hrun := exec_setVenue_eq tag hs hm hvb hreq (hsame ▸ h0) (.inl (by rw [hsame]; rfl))
      rwa [hv, hcode] at hrun
  · obtain rfl : units = s.unitsOf v := hu
    have hto := (Ev.to_start s).shuts hc
    rw [← Ev.setVenue_shut hv] at hto
    have hrun := exec_setVenue_eq tag hs hm hvb (xb := 0) rfl hto (.inr (State.roomTo_modes false hn rfl))
    rwa [show (State.ven _ v).state = .closed from congrArg Venue.state (State.ven_setVen_self ..)] at hrun
  · have hto := (Ev.to_start s).drains hc
    rw [← Ev.setVenue_shut hv, State.joinsClosed_of_none] at hto
    · have hrun := exec_setVenue_eq tag hs hm hvb (xb := 0) rfl hto (.inr ⟨hn.1, Nat.le_trans (Nat.le_add_right _ _) hn.2⟩)
      rwa [show (State.ven _ v).state = .draining from congrArg Venue.state (State.ven_setVen_self ..)] at hrun
    · intro b hb
      have hb : (s.ant b).present = true ∧ (s.ant b).venue = v := by simpa [State.presentIn, allAntennas] using hb
      exact State.waitJoins_eq_nil (hw b hb.1 hb.2)
  · intro a g mark c hc hp hav hw hroom hothers
    have hto := (Ev.to_start s).drains (v := v) (by omega)
    have hone := State.joinsClosed_one (s := (s.setVen v { s.ven v with state := .draining }).notify
      (.venueState v .draining .request)) hp hav hw hothers
    have hclaims : 2 ≤ (((s.setVen v { s.ven v with state := .draining }).notify
        (.venueState v .draining .request)).ven (s.ant a).venue).claims := by simpa [State.notify, hav] using hc
    rw [← Ev.setVenue_shut hv, show State.joinsClosed _ (s.presentIn v) = _ from hone, State.entryRefused_of_claims hclaims] at hto
    rw [show (((s.setVen v { s.ven v with state := .draining }).notify (.venueState v .draining .request)).ant a).wait =
        [⟨g, .join mark, c⟩] from hw, show (((s.setVen v { s.ven v with state := .draining }).notify
        (.venueState v .draining .request)).ant a).venue = v from hav, List.eraseP_cons_of_pos (by simp)] at hto
    have hrun := exec_setVenue_eq tag hs hm hvb (xb := 0) rfl hto
      (.inr ⟨hroom.1, (List.length_append (as := s.head.output)).trans_le hroom.2⟩)
    have hdrains : State.ven (State.unclaimed (State.setWait (State.notify
        (s.setVen v { s.ven v with state := .draining }) (.venueState v .draining .request)) a []) v) v =
        { s.ven v with state := .draining, claims := (s.ven v).claims - 1 } := by
      simp [State.unclaimed, State.setWait, State.notify]
    refine hrun.trans (congrArg (fun b => Host.Outcome.next (State.replied _ 0x15 tag .ok 0 [b])) ?_)
    exact congrArg (fun x => VenueState.code (Venue.state x)) hdrains
  · intro s b h a p pr svc i tr v units hs hsv hr hw hv hd hc hu hn
    obtain rfl : units = s.unitsOf v := hu
    have hunits : (s.setSlot a i .free).unitsOf v = s.unitsOf v := by simp [State.unitsOf]
    have hended : s.slotEnded a i = State.notify (State.sends
        ((s.setSlot a i .free).setVen v { s.ven v with state := .closed, claims := 0 }) ((s.unitsOf v).map (fun a => .mode a false)))
        (.venueState v .closed .drained) := by
      rw [State.slotEnded, hv, State.claimEnded, if_pos ⟨hd, hc.le⟩, hunits]
      rfl
    have hreleased : (s.sends (if a = a then [] else [.free a h])).Releases pr svc a (.slot i) (s.slotEnded a i) := by
      rw [if_pos rfl, State.sends_nil]
      exact State.releasesSlot_of_wait_nil i hw
    have hto := (Ev.to_start s).quitServed (a := a) (held := ⟨a, .slot i⟩) hr hreleased
    rw [hended] at hto
    exact exec_quit_eq hs hsv hto (State.roomTo_modes false hn rfl)
end

section
/-! PROOF. The queries and the tap requests (chapters 11 and 12). -/

namespace Sys2Proof.Machine

variable {s : State} {a : AntennaNo} {r : HeadsetRecord}

/-! ## The length of a reply -/

theorem length_flatten_map_le {α : Type} {f : α → List Byte} {n : Nat} {l : List α} (hf : ∀ x ∈ l, (f x).length ≤ n) :
    (l.map f).flatten.length ≤ l.length * n := by
  rw [List.length_flatten, List.map_map]
  exact (List.sum_le_card_nsmul _ n (by simpa using hf)).trans_eq (by simp)

/-- A query that answers within its limit changes nothing. -/
theorem exec_query {result : List Byte} (tag : Byte) (q : Request) (hs : s.hostReady) (ha : accepts s.mode q = true)
    (hd : (Ev.start s).doRequest q = (Ev.start s).ok result) (hlen : result.length ≤ 2042) :
    exec (requestCommand tag q) s = .next (s.replied (requestCode q) tag .ok 0 result) :=
  exec_unchanged tag q hs ha hd (fun _ => hlen)

/-! ## PEEK_HEADSET -/

theorem HearEntry.bytes_eq (x : HearEntry) : x.bytes = hearBytes x := by
  have hpin : x.pinByte = (match x.pin with | .unpinned => 0 | .serving => 1 | .target => 2) + (if x.clip then 0x80 else 0) := by
    unfold HearEntry.pinByte
    cases x.pin <;> cases x.clip <;> rfl
  rw [HearEntry.bytes, hearBytes, hpin]
  cases x.avg <;> rfl

theorem Place.code_eq (x : Place) : x.code = placeByte x := by
  cases x <;> rfl

theorem Service.code_eq (x : Service) : x.code = serviceByte x := by
  cases x <;> rfl

theorem State.heldOf_transfer {svc : Service} {c : ContextNo} {t : Track} (hr : r.att = .transfer svc c t) :
    s.heldOf r = s.sourceOf c := by
  simp only [State.heldOf, hr, State.sourceOf]
  split
  · rename_i x hx
    rw [hx]
    obtain ⟨headset, sourceAnt, source, targetAnt, target, cause, options, phase, timer⟩ := x
    cases source <;> rfl
  · rename_i hx
    rw [hx]

/-- The bytes of a record from its state on: state, mask, the fields of the mask, and the hearing list (R184). -/
theorem State.attachmentBytes_eq (s : State) (r : HeadsetRecord) :
    [r.att.code, (s.attachmentFields r).foldl (fun m f => m ||| f.1) 0] ++ ((s.attachmentFields r).map (·.2)).flatten ++
      [byte r.att.hearing.length] ++ (r.att.hearing.map HearEntry.bytes).flatten = s.attachmentBytes r.att := by
  rw [show HearEntry.bytes = hearBytes from funext HearEntry.bytes_eq]
  cases hr : r.att with
  | idle => simp [State.attachmentFields, State.attachmentBytes, hr, Attachment.code, Attachment.hearing, Attachment.track?, byte]
  | waiting b n => simp [State.attachmentFields, State.attachmentBytes, hr, Attachment.code, Attachment.hearing, Attachment.track?, byte]
  | orphan n => simp [State.attachmentFields, State.attachmentBytes, hr, Attachment.code, Attachment.hearing, Attachment.track?, byte]
  | served svc held t =>
    have hheld : s.heldOf r = some held := by simp [State.heldOf, hr]
    cases hc : t.candidate <;> simp [State.attachmentFields, State.attachmentBytes, hr, hheld, hc, Attachment.code,
      Attachment.hearing, Attachment.track?, byte, Place.code_eq, Service.code_eq]
  | transfer svc c t =>
    have hheld := s.heldOf_transfer hr
    cases hsource : s.sourceOf c <;> cases hc : t.candidate <;> simp [State.attachmentFields, State.attachmentBytes, hr, hheld, hsource, hc,
      Attachment.code, Attachment.hearing, Attachment.track?, byte, Place.code_eq, Service.code_eq]

@[simp] theorem length_be16 (v : BitVec 16) : (be16 v).length = 2 := rfl
@[simp] theorem length_be24 (v : Identity) : (be24 v).length = 3 := rfl
@[simp] theorem length_be32 (v : LineSet) : (be32 v).length = 4 := rfl

theorem State.length_attachmentFields (s : State) (r : HeadsetRecord) :
    ((s.attachmentFields r).map (·.2)).flatten.length ≤ 10 := by
  cases hr : r.att with
  | idle => simp [State.attachmentFields, hr]
  | waiting b n => simp [State.attachmentFields, hr]
  | orphan n => simp [State.attachmentFields, hr]
  | served svc held t => cases hh : s.heldOf r <;> cases hc : t.candidate <;> simp [State.attachmentFields, hr, hh, hc]
  | transfer svc c t => cases hh : s.heldOf r <;> cases hc : t.candidate <;> simp [State.attachmentFields, hr, hh, hc]

/-- A record with at most six hearing list entries is reported in few bytes. -/
theorem State.length_headsetResult (s : State) (hr : r.att.hearing.length ≤ 6) : (s.headsetResult r).length ≤ 2042 := by
  have hhears := length_flatten_map_le (f := HearEntry.bytes) (n := 6) (l := r.att.hearing)
    (fun x _ => by rw [HearEntry.bytes_eq]; rfl)
  have hfields := s.length_attachmentFields r
  simp only [State.headsetResult, nat16, List.length_append, length_be16, length_be24, length_be32, List.length_cons, List.length_nil]
  omega

theorem State.headsetResult_eq (s : State) (r : HeadsetRecord) : s.headsetResult r =
    be16 (BitVec.ofNat 16 r.position.val) ++ be24 r.profile.ident ++
      [BitVec.ofNat 8 r.profile.cls.val, BitVec.ofNat 8 r.profile.home.val, r.profile.mode.code] ++ be32 r.profile.talk ++
      be32 r.profile.listen ++ [BitVec.ofNat 8 r.profile.monitor.val, flagByte r.profile.sticky] ++ s.attachmentBytes r.att := by
  simp [← s.attachmentBytes_eq r, State.headsetResult, nat16, byte]

/-! ## PEEK_ANTENNA -/

theorem SlotState.bytes_eq (x : SlotState) : x.bytes = slotBytes x := by
  cases x <;> rfl

theorem State.carrierBytes_eq (s : State) (x : Carrier) : s.carrierBytes x = s.carrierEntry x := by
  cases x with
  | nil => rfl
  | cons l rest =>
    simp only [State.carrierBytes, State.carrierEntry, State.carrierState]
    cases s.lineKind l.line <;> rfl

theorem WaitEntry.bytes_eq (w : WaitEntry) : w.bytes = waitBytes w := by
  rw [WaitEntry.bytes, waitBytes]
  cases w.kind <;> rfl

theorem State.slots_toList (s : State) (a : AntennaNo) :
    (s.ant a).slots.toList = (List.finRange 10).map (fun i : SlotNo => s.slot a i) := by
  refine List.ext_getElem (by simp) (fun i _ _ => by simp [State.slot])

theorem State.carriers_toList (s : State) (a : AntennaNo) :
    (s.ant a).carriers.toList = (List.finRange 4).map (fun k : CarrierNo => s.carrier a k) := by
  refine List.ext_getElem (by simp) (fun i _ _ => by simp [State.carrier])

theorem State.antennaResult_eq (s : State) (a : AntennaNo) : s.antennaResult (s.ant a) =
    [(if (s.ant a).present then 1 else 0), BitVec.ofNat 8 (s.ant a).venue.val, (if (s.ant a).online then 1 else 0),
        (if (s.ant a).barred then 1 else 0), BitVec.ofNat 8 (s.ant a).rotation.val] ++
      ((List.finRange 10).map (fun i : SlotNo => slotBytes (s.slot a i))).flatten ++
      ((List.finRange 4).map (fun k : CarrierNo => s.carrierEntry (s.carrier a k))).flatten ++
      [BitVec.ofNat 8 (s.ant a).wait.length] ++ ((s.ant a).wait.map waitBytes).flatten := by
  rw [State.antennaResult, State.slots_toList, State.carriers_toList, show SlotState.bytes = slotBytes from funext SlotState.bytes_eq,
    show s.carrierBytes = s.carrierEntry from funext s.carrierBytes_eq, show WaitEntry.bytes = waitBytes from funext WaitEntry.bytes_eq,
    List.map_map, List.map_map]
  rfl

/-- An antenna within its capacities is reported in few bytes. -/
theorem State.length_antennaResult (hw : (s.ant a).wait.length ≤ 8) (hc : ∀ k : CarrierNo, (s.carrier a k).length ≤ 3) :
    (s.antennaResult (s.ant a)).length ≤ 2042 := by
  have hslots := length_flatten_map_le (f := fun i : SlotNo => slotBytes (s.slot a i)) (n := 5) (l := List.finRange 10)
    (fun i _ => by cases s.slot a i <;> simp [slotBytes])
  have hcarriers := length_flatten_map_le (f := fun k : CarrierNo => s.carrierEntry (s.carrier a k)) (n := 17)
    (l := List.finRange 4) (fun k _ => by
      have hlines := length_flatten_map_le (f := fun l : CarrierLine => [BitVec.ofNat 8 l.line.val] ++
        be16 (BitVec.ofNat 16 l.served) ++ be16 (BitVec.ofNat 16 l.reserved)) (n := 5) (l := s.carrier a k) (fun _ _ => le_rfl)
      have := hc k
      simp only [State.carrierEntry, List.length_append, List.length_cons, List.length_nil]
      omega)
  have hwaits := length_flatten_map_le (f := waitBytes) (n := 6) (l := (s.ant a).wait)
    (fun w _ => by rw [waitBytes]; cases w.kind <;> simp)
  rw [List.length_finRange] at hslots hcarriers
  rw [State.antennaResult_eq]
  simp only [List.length_append, List.length_cons, List.length_nil]
  omega

/-! ## PEEK_VENUE and PEEK_CONTEXT -/

theorem venueOf_none {b : Byte} (h : 15 < b.toNat) : venueOf b = none := by
  have : ¬ b.toNat < 16 := by omega
  simp [venueOf, bounded, this]

theorem contextOf_none {b : Byte} (h : 23 < b.toNat) : contextOf b = none := by
  have : ¬ b.toNat < 24 := by omega
  simp [contextOf, bounded, this]

theorem Options.code_eq (o : Options) : o.code =
    (if o.breakFirst then 1 else 0) + (if o.noChecks then 2 else 0) + (if o.preempt then 4 else 0) := by
  obtain ⟨b, n, p⟩ := o
  cases b <;> cases n <;> cases p <;> rfl

theorem contextResult_some {c : ContextNo} {cb : Byte} (hc : cb.toNat = c.val) (x : Context) : contextResult c (some x) =
    [1, cb] ++ be24 x.headset ++ [BitVec.ofNat 8 x.sourceAnt.val] ++
      (match x.source with | some q => [1, q.code] | none => [0, 0]) ++
      [BitVec.ofNat 8 x.targetAnt.val, x.target.code,
        (match x.cause with | .auto => 0 | .rescue => 1 | .drain => 2 | .steer => 3),
        (if x.options.breakFirst then 1 else 0) + (if x.options.noChecks then 2 else 0) +
          (if x.options.preempt then 4 else 0),
        (match x.phase with | .prepare => 0 | .ordered => 1)] ++ be16 (BitVec.ofNat 16 x.timer) := by
  rw [contextResult, byte_val cb _ hc, Options.code_eq, show x.cause.code = (match x.cause with
    | .auto => 0 | .rescue => 1 | .drain => 2 | .steer => 3) by cases x.cause <;> rfl]
  rfl

theorem length_contextResult (c : ContextNo) (x : Option Context) : (contextResult c x).length = 15 := by
  cases x with
  | none => rfl
  | some x =>
    rw [contextResult]
    cases x.source <;> simp [nat16]

/-! ## LIST -/

theorem filterAdmits_eq (filter : Byte) (x : Attachment) : filterAdmits filter x = (filter == 0 ||
    filter.getLsbD (match x with | .idle => 0 | .waiting _ _ => 1 | .served _ _ _ => 2 | .transfer _ _ _ => 3 | .orphan _ => 4)) := by
  cases x <;> rfl

theorem nextPosition_eq (count : Nat) (rs : List HeadsetRecord) : nextPosition count rs = match rs.getLast? with
    | some r => if rs.length = count then r.position.val + 1 else 512
    | none => 512 := by
  unfold nextPosition
  cases rs.getLast? <;> simp

/-! ## TAP and UNTAP -/

section
variable {nb kb sel circ : Byte} {count : BitVec 16} {n : TapNo}
  (hn : nb.toNat = n.val) (hk : kb.toNat ≤ 1) (hsel : sel.toNat ≤ 48) (hcount : count ≠ 0) (hcirc : circ.toNat ≤ 1)
include hn hk hsel hcount hcirc

theorem Ev.doTap_busy (hbusy : (s.tap n).running = true ∨ (s.tap n).buffer ≠ []) :
    (Ev.start s).doTap nb kb sel count circ = (Ev.start s, ⟨.busy, 2, [0]⟩) := by
  have hbusy : (s.tap n).running || !(s.tap n).buffer.isEmpty := by simpa using hbusy
  simp only [Ev.doTap, tapOf_eq hn, if_neg (Nat.not_lt.mpr hk), if_neg (Nat.not_lt.mpr hsel), if_neg hcount,
    if_neg (Nat.not_lt.mpr hcirc)]
  exact if_pos hbusy

theorem Ev.doTap_starts (hoff : (s.tap n).running = false) (hempty : (s.tap n).buffer = []) :
    (Ev.start s).doTap nb kb sel count circ = (Ev.start (s.setTap n
      { running := true, kind := if kb = 0 then .measure else .round, selector := sel.toNat, count := count.toNat,
        remaining := count.toNat, circular := decide (circ = 1), block := 0, buffer := [], gap := false }), ⟨.ok, 0, [nb]⟩) := by
  have hfree : ¬ ((s.tap n).running || !(s.tap n).buffer.isEmpty) = true := by simp [hoff, hempty]
  simp only [Ev.doTap, tapOf_eq hn, if_neg (Nat.not_lt.mpr hk), if_neg (Nat.not_lt.mpr hsel), if_neg hcount,
    if_neg (Nat.not_lt.mpr hcirc), Ev.start, if_neg hfree, byte_val nb _ hn]
  rfl

end

end Sys2Proof.Machine

open Sys2Proof Sys2Proof.Machine

/-- Settles O32: the bytes of a record in each of its states. -/
theorem peekHeadsetReports : Obligations.PeekHeadsetReports := by
  unfold Obligations.PeekHeadsetReports
  intro s tag h r hs h0 h1 hr hlen
  have hpeek : (Ev.start s).doPeekHeadset h = (Ev.start s).ok (s.headsetResult r) := by
    simp only [Ev.doPeekHeadset, identityOk_of_ne h0 h1, Ev.start, hr]
    rfl
  rw [State.headsetResult_eq] at hpeek
  exact exec_query tag (.peekHeadset h) hs rfl hpeek (State.headsetResult_eq s r ▸ s.length_headsetResult hlen)

/-- Settles O33: the bytes of an antenna within its capacities. -/
theorem peekAntennaReports : Obligations.PeekAntennaReports := by
  unfold Obligations.PeekAntennaReports
  intro s tag ab a hs hab hw hc
  have hpeek : (Ev.start s).doPeekAntenna ab = (Ev.start s).ok (s.antennaResult (s.ant a)) := by
    simp only [Ev.doPeekAntenna, antennaOf_eq hab]
    rfl
  rw [← State.antennaResult_eq]
  exact exec_query tag (.peekAntenna ab) hs rfl hpeek (State.length_antennaResult hw hc)

/-- Settles O34: the bytes of a venue and of a context, and numbers out of range refused. -/
theorem peekVenueAndContextReport : Obligations.PeekVenueAndContextReport := by
  unfold Obligations.PeekVenueAndContextReport
  refine ⟨fun s tag vb hs hv => ?_, fun s tag vb v hs hv => ?_, fun s tag cb hs hc => ?_, fun s tag cb c hs hc hx => ?_,
    fun s tag cb c x hs hc hx => ?_⟩
  · have hpeek : (Ev.start s).doPeekVenue vb = (Ev.start s, ⟨.badValue, 2, []⟩) := by
      simp only [Ev.doPeekVenue, venueOf_none hv]
      rfl
    exact exec_unchanged tag (.peekVenue vb) hs rfl hpeek (fun _ => Nat.zero_le _)
  · have hwake : (s.ven v).wake.zeroExtend 8 = BitVec.ofNat 8 (s.ven v).wake.toNat := BitVec.eq_of_toNat_eq (by simp)
    have hpeek : (Ev.start s).doPeekVenue vb = (Ev.start s).ok ([(s.ven v).state.code] ++ be24 (s.ven v).low ++
        be24 (s.ven v).high ++ [BitVec.ofNat 8 (s.ven v).wake.toNat] ++ nat16 (s.ven v).claims ++
        [byte (s.presentIn v).length]) := by
      simp only [Ev.doPeekVenue, venueOf_eq hv]
      rw [← hwake]
      rfl
    have hrun := exec_query tag (.peekVenue vb) hs rfl hpeek (by simp [nat16])
    rw [show (s.ven v).state.code = (match (s.ven v).state with
      | .closed => (0 : Byte) | .opened => 1 | .show => 2 | .draining => 3) by cases (s.ven v).state <;> rfl] at hrun
    exact hrun
  · have hpeek : (Ev.start s).doPeekContext cb = (Ev.start s, ⟨.badValue, 2, []⟩) := by
      simp only [Ev.doPeekContext, contextOf_none hc]
      rfl
    exact exec_unchanged tag (.peekContext cb) hs rfl hpeek (fun _ => Nat.zero_le _)
  · have hpeek : (Ev.start s).doPeekContext cb = (Ev.start s).ok (contextResult c none) := by
      simp only [Ev.doPeekContext, contextOf_eq hc, Ev.start, hx]
    exact exec_query (result := contextResult c none) tag (.peekContext cb) hs rfl hpeek
      ((length_contextResult c none).trans_le (by decide))
  · have hpeek : (Ev.start s).doPeekContext cb = (Ev.start s).ok (contextResult c (some x)) := by
      simp only [Ev.doPeekContext, contextOf_eq hc, Ev.start, hx]
    have hrun := exec_query tag (.peekContext cb) hs rfl hpeek ((length_contextResult c _).trans_le (by decide))
    exact hrun.trans (congrArg (fun l => Host.Outcome.next (s.replied 0x43 tag .ok 0 l)) (contextResult_some hc x))

/-- Settles O35: the records gathered and the next position. -/
theorem listWalks : Obligations.ListWalks := by
  unfold Obligations.ListWalks
  intro s tag count filter start rs hs hstart h1 h16 hfilter hrs
  have hlisted : s.listed start.toNat count.toNat filter = rs := by
    rw [hrs]
    exact congrArg (List.take count.toNat) (List.filter_congr (fun r _ => congrArg _ (filterAdmits_eq filter r.att)))
  have hlist : (Ev.start s).doList start count filter = (Ev.start s).ok (nat16 (nextPosition count.toNat rs) ++ [byte rs.length] ++
      (rs.map (fun r => nat16 r.position.val ++ be24 r.profile.ident ++ [r.att.code])).flatten) := by
    have hcount : ¬ (count.toNat = 0 ∨ 16 < count.toNat) := by omega
    simp only [Ev.doList, if_neg (Nat.not_lt.mpr hstart), if_neg hcount, if_neg (Nat.not_lt.mpr hfilter), ← hlisted]
    rfl
  have hfew : rs.length ≤ 16 := by
    rw [hrs]
    exact (List.length_take_le _ _).trans h16
  have hbytes := length_flatten_map_le (f := fun r : HeadsetRecord => nat16 r.position.val ++ be24 r.profile.ident ++ [r.att.code])
    (n := 6) (l := rs) (fun _ _ => le_rfl)
  have hrun := exec_query tag (.list start count filter) hs rfl hlist (by
    simp only [List.length_append, List.length_cons, List.length_nil, nat16, length_be16]
    simp only [nat16] at hbytes
    omega)
  rw [nextPosition_eq] at hrun
  exact hrun

/-- Settles O36: a tap started, a tap that is busy, and a tap made OFF. -/
theorem tapAndUntap : Obligations.TapAndUntap := by
  unfold Obligations.TapAndUntap
  refine ⟨fun s tag nb kb sel circ count n hs hm hn hk hsel hcount hcirc => ⟨fun hoff hempty => ?_, fun hbusy => ?_⟩,
    fun s tag nb n hs hm hn => ?_⟩
  · exact exec_quiet tag (.tap nb kb sel count circ) hs (by rw [hm]; rfl) (Ev.doTap_starts hn hk hsel hcount hcirc hoff hempty) nofun
      rfl rfl
  · exact exec_unchanged tag (.tap nb kb sel count circ) hs (by rw [hm]; rfl) (Ev.doTap_busy hn hk hsel hcount hcirc hbusy) nofun
  · have huntap : (Ev.start s).doUntap nb = (Ev.start (s.setTap n
        { s.tap n with running := false, buffer := [], gap := false, block := 0 }),
        ⟨.ok, 0, [if (s.tap n).running then 1 else 0, BitVec.ofNat 8 (s.tap n).buffer.length]⟩) := by
      simp only [Ev.doUntap, tapOf_eq hn]
      rfl
    exact exec_quiet tag (.untap nb) hs (by rw [hm]; rfl) huntap nofun rfl rfl
end

section
/-! PROOF. The control port: irregular records, the receiver, the taking of a frame, and the sender (chapters 9 and 11). -/

namespace Sys2Proof.Machine

variable {s t : State} {e : Ev} {kind tag : Byte} {rest : List Byte}

/-! ## Chains that change nothing -/

/-- A chain whose items change nothing is answered by its reply frame (R160; log 8). -/
theorem State.presentChain_unchanged {chain : List Byte} {items : List ChainItem} {extra : Bool} {records : List ReplyRecord}
    (hs : s.hostReady) (hd : delimitChain chain = (items, extra)) (hr : (Ev.start s).runChain 2 items = (Ev.start s, records)) :
    s.presentChain chain = s.setCtrl { s.ctrl with answers := s.ctrl.answers ++ [.reply extra records] } := by
  obtain ⟨hp, hrx, hframes, hfew, hw⟩ := hs
  have hframe : (Ev.start s).frame (items, extra) =
      Ev.start (s.setCtrl { s.ctrl with answers := s.ctrl.answers ++ [.reply extra records] }) := by
    rw [Ev.frame]
    simp only [hr]
    rfl
  have hsettle := Ev.settle_eq (Ev.start (s.setCtrl { s.ctrl with answers := s.ctrl.answers ++ [.reply extra records] })) s
    rfl rfl rfl (.inl rfl)
  have hmay : s.ctrl.mayTake = true := decide_eq_true hfew
  have hpresent : s.presentChain chain = s.takeOrStore (0x01 :: chain) (items, extra) := by
    simp [State.presentChain, State.presentFrame, hp, hrx, ControlPort.buffersUsed_hunting hrx, hframes, hd]
  rw [hpresent, State.takeOrStore, if_pos (by simp [hframes, hmay]), hframe, hsettle]
  exact (congrArg State.reconsider (State.sends_nil _)).trans (State.reconsider_of_waiting_nil _ hw)

/-- A kind code in the low seven bits of a header byte (R182). -/
theorem header_of_lt (hk : kind.toNat < 128) : headerKind kind = kind ∧ headerContinues kind = false ∧
    headerKind (0x80 ||| kind) = kind ∧ headerContinues (0x80 ||| kind) = true := by
  have hfields := header_fields kind hk
  rwa [show (0x00 : Byte) ||| kind = kind from BitVec.zero_or] at hfields

theorem delimitChain_cons (bytes : List Byte) (b : Byte) :
    delimitChain (b :: bytes) = delimitFrom (bytes.length + 1 + 1) 0 (b :: bytes) := rfl

/-! ## Unknown kinds -/

theorem delimitChain_unknown (hk : kind.toNat < 128) (hnone : recordLength kind = none) :
    delimitChain (kind :: tag :: rest) = ([.badKind kind tag], false) := by
  obtain ⟨hkind, hlast, _⟩ := header_of_lt hk
  simp [delimitChain_cons, delimitFrom, hkind, hnone, hlast]

theorem delimitChain_remainder (hk : kind.toNat < 128) (hnone : recordLength kind = none) (hrest : rest ≠ []) :
    delimitChain ((0x80 ||| kind) :: tag :: rest) = ([.badKind kind tag, .remainder rest.length], false) := by
  obtain ⟨_, _, hkind, hmore⟩ := header_of_lt hk
  have hheader : ∀ header : Byte, headerKind header = kind → headerContinues header = true →
      delimitChain (header :: tag :: rest) = ([.badKind kind tag, .remainder rest.length], false) := fun header hkind hmore => by
    simp [delimitChain_cons, delimitFrom, hkind, hnone, hmore, hrest]
  exact hheader _ hkind hmore

/-! ## Short records -/

/-- What holds of the empty list and of every entry before a shorter list holds of all lists below the bound. -/
theorem forall_shorter {α : Type} {n : Nat} {p : List α → Prop} (hnil : p []) (hcons : ∀ a l, l.length < n → p (a :: l)) :
    ∀ l : List α, l.length < n + 1 → p l
  | [], _ => hnil
  | a :: l, h => hcons a l (Nat.lt_of_succ_lt_succ h)

/-- Fields shorter than those of their kind are no request (R182). -/
theorem parseRequest_short {len : Nat} (hlen : recordLength kind = some len) :
    ∀ fields : List Byte, fields.length < len - 2 → parseRequest kind fields = none := by
  have hkind : kind = BitVec.ofNat 8 kind.toNat := by simp
  unfold recordLength at hlen
  split at hlen
  case h_24 => cases hlen
  all_goals
    rename_i hcode
    rw [hcode] at hkind
    obtain rfl := hkind
    obtain rfl := Option.some.inj hlen
    simp only [Nat.reduceSub]
    repeat refine forall_shorter rfl fun _ => ?_
    exact fun _ h => absurd h (Nat.not_lt_zero _)

theorem recordLength_lt {len : Nat} (h : recordLength kind = some len) : kind.toNat < 128 ∧ len ≤ 21 := by
  unfold recordLength at h
  split at h <;> simp_all <;> omega

theorem delimitChain_short {len : Nat} (hlen : recordLength kind = some len) (hshort : rest.length + 2 < len) :
    delimitChain (kind :: tag :: rest) = ([.badLength kind tag], false) := by
  obtain ⟨hkind, _⟩ := header_of_lt (recordLength_lt hlen).1
  have hnone : parseRequest kind (rest.take (len - 2)) = none := by
    rw [List.take_of_length_le (by omega)]
    exact parseRequest_short hlen rest (by omega)
  simp [delimitChain_cons, delimitFrom, hkind, hlen, hnone]

/-! ## The receiver -/

/-- A REJECT joins the answers where fewer than four wait (R155). -/
theorem ControlPort.reject_eq (c : ControlPort) (r : RejectReason) : c.reject r =
    { c with answers := c.answers ++ (if c.answers.length < 4 then [.reject r] else []) } := by
  unfold ControlPort.reject
  split
  · rfl
  · rw [List.append_nil]

theorem State.onCtrl_eq (hp : s.resetPin = false) (f : ControlPort → ControlPort) : s.onCtrl f = s.setCtrl (f s.ctrl) :=
  if_neg (by simp [hp])

theorem frameFault_eq {b : Bool} {body : List Byte} {check : BitVec 16} {reason : RejectReason}
    (h : b = false ∧ reason = .overrun ∨ b = true ∧ check ≠ frameCheck body ∧ reason = .check ∨
      b = true ∧ check = frameCheck body ∧ body = [] ∧ reason = .length ∨
      b = true ∧ check = frameCheck body ∧ body ≠ [] ∧ body.head? ≠ some 0x01 ∧ reason = .type) :
    frameFault b body check = some reason := by
  unfold frameFault
  rcases h with ⟨rfl, rfl⟩ | ⟨rfl, hcheck, rfl⟩ | ⟨rfl, rfl, rfl, rfl⟩ | ⟨rfl, rfl, hbody, hkind, rfl⟩
  · rfl
  · simp [hcheck]
  · simp
  · obtain ⟨k, more, rfl⟩ := List.exists_cons_of_ne_nil hbody
    simp_all

theorem frameFault_passes {body : List Byte} {check : BitVec 16} (hcheck : check = frameCheck body)
    (hkind : body.head? = some 0x01) : frameFault true body check = none := by
  obtain ⟨more, rfl⟩ := List.head?_eq_some_iff.mp hkind
  simp [frameFault, hcheck]

theorem exec_frameComplete {body : List Byte} {check : BitVec 16} {b : Bool} {q : Nat} (hp : s.resetPin = false)
    (hrx : s.ctrl.rx = .inFrame b q) (hlen : body.length ≤ 256) : exec (.frameComplete body check) s =
      .next (s.setCtrl (ControlPort.judged { s.ctrl with rx := .hunting } b body check)) := by
  have hwell : (Instr.frameComplete body check).wellFormed = true := decide_eq_true hlen
  have hdone : s.ctrl.completed body check = ControlPort.judged { s.ctrl with rx := .hunting } b body check := by
    simp only [ControlPort.completed, hrx]
  rw [← hdone, ← State.onCtrl_eq hp (·.completed body check)]
  exact congrArg _ (if_pos hwell)

/-! ## The taking of a frame -/

/-- The oldest frame, whose chain sends no cell, is taken where fewer than two answers wait (R157). -/
theorem State.attemptFrame_taken {body : List Byte} {behind : List (List Byte)} (hf : s.ctrl.frames = body :: behind)
    (hfew : s.ctrl.answers.length < 2)
    (he : (Ev.start (s.setCtrl { s.ctrl with frames := behind })).frame (bodyChain body) = Ev.start t) (hh : t.head = s.head) :
    s.attempt .frame = .taken t := by
  have hmay : s.ctrl.mayTake = true := decide_eq_true hfew
  have hattempt : s.attempt .frame = ((Ev.start (s.setCtrl { s.ctrl with frames := behind })).frame (bodyChain body)).attempt s.head := by
    simp only [State.attempt, State.attemptFrame, hf, hmay, if_true]
    rfl
  rw [hattempt, he, Ev.attempt, Ev.settle_eq (Ev.start t) s rfl rfl hh (.inl rfl)]
  exact congrArg Attempt.taken (State.sends_nil t)

theorem State.consider_frame {body : List Byte} {behind : List (List Byte)} (hf : s.ctrl.frames = body :: behind)
    (hfew : s.ctrl.answers.length < 2)
    (he : (Ev.start (s.setCtrl { s.ctrl with frames := behind })).frame (bodyChain body) = Ev.start t) (hh : t.head = s.head)
    (hw : t.waiting = []) : s.consider .frame = t := by
  rw [State.consider, State.attemptFrame_taken hf hfew he hh]
  exact State.reconsider_of_waiting_nil t hw

/-- Behind two answers a frame waits (R157). -/
theorem State.consider_frame_waits {body : List Byte} {behind : List (List Byte)} (hf : s.ctrl.frames = body :: behind)
    (hmany : 2 ≤ s.ctrl.answers.length) (hw : s.waiting = []) : s.consider .frame = s.setWaiting [.frame] := by
  have hmay : s.ctrl.mayTake = false := decide_eq_false (Nat.not_lt.mpr hmany)
  have hwaits : s.attempt .frame = .waits := by simp [State.attempt, State.attemptFrame, hf, hmay]
  simp [State.consider, hwaits, State.addWaiting, hw]

/-- The one frame that waits is taken, and nothing waits then. -/
theorem State.reconsider_frame {body : List Byte} (hw : s.waiting = [.frame]) (hf : s.ctrl.frames = [body])
    (hfew : s.ctrl.answers.length < 2)
    (he : (Ev.start (s.setCtrl { s.ctrl with frames := [] })).frame (bodyChain body) = Ev.start t) (hh : t.head = s.head)
    (htw : t.waiting = [.frame]) (htf : t.ctrl.frames = []) : s.reconsider = t.setWaiting [] := by
  refine State.reconsider_single hw (State.attemptFrame_taken hf hfew he hh) ?_ rfl
  have hgone : t.attempt .frame = .absent := by simp [State.attempt, State.attemptFrame, htf]
  rw [State.unwait, State.withdraw, htw, List.filter_cons_of_neg (by simp [hgone, Attempt.present])]
  rfl

/-- A frame type alone has no record, and its reply none (R158, R160). -/
theorem Ev.frame_typeAlone (e : Ev) :
    e.frame (bodyChain [0x01]) = e.upd (fun s => s.setCtrl { s.ctrl with answers := s.ctrl.answers ++ [.reply false []] }) := rfl

/-! ## The sender -/

theorem State.answerSent_eq {a : Answer} {behind : List Answer} (hp : s.resetPin = false) (hc : s.ctrl.ctxd = none)
    (ha : s.ctrl.answers = a :: behind) :
    s.answerSent = (s.setCtrl { s.ctrl with ctxd := some (.answer a), answers := behind }).reconsider := by
  have hsent : s.ctrl.sendAnswer = { s.ctrl with ctxd := some (.answer a), answers := behind } := by
    simp only [ControlPort.sendAnswer, hc, ha]
  rw [State.answerSent, if_neg (by simp [hp, hc, ha]), hsent]

theorem ControlPort.sendNotice_of_answers {c : ControlPort} {a : Answer} {behind : List Answer} (ha : c.answers = a :: behind) :
    c.sendNotice = c := by
  simp [ControlPort.sendNotice, ha]

/-- Neither an answer nor a notice may wait where a tap frame is sent (R161). -/
theorem State.sendTap_of_waiting (h : s.ctrl.answers ≠ [] ∨ s.ctrl.notices ≠ []) : s.sendTap = s := by
  unfold State.sendTap
  split
  · rfl
  · split
    · simp_all
    · rfl

theorem State.nextTap_eq {j : Fin 4} (hj : (s.tap (s.tapTurn + j)).buffer ≠ [])
    (hlow : ∀ i : Fin 4, i < j → (s.tap (s.tapTurn + i)).buffer = []) : s.nextTap = some (s.tapTurn + j) := by
  rw [State.nextTap, List.find?_map, allTaps, find_finRange (k := j)]
  · rfl
  · simpa using hj
  · intro i hi
    simpa using hlow i hi

end Sys2Proof.Machine

open Sys2Proof Sys2Proof.Machine

/-- Settles O37: an unknown kind, and the bytes after it. -/
theorem unknownKindAndRemainder : Obligations.UnknownKindAndRemainder := by
  unfold Obligations.UnknownKindAndRemainder
  intro s kind tag rest hs hk hnone hlen
  have hfits : rest.length + 1 + 1 < Config.requestBody := by
    simp only [Config.requestBody]
    omega
  refine ⟨?_, fun hrest => ?_⟩
  · have hd := delimitChain_unknown (tag := tag) (rest := rest) hk hnone
    have hwell : (Instr.unknownKindRecord (kind :: tag :: rest)).wellFormed = true := by
      simp [Instr.wellFormed, chainHolds, hd, hfits]
    exact congrArg _ ((if_pos hwell).trans (State.presentChain_unchanged hs hd rfl))
  · have hd := delimitChain_remainder (tag := tag) hk hnone hrest
    have hwell : (Instr.skippedRecord ((0x80 ||| kind) :: tag :: rest)).wellFormed = true := by
      rw [Instr.wellFormed, chainHolds, hd]
      simp [hfits]
    exact congrArg _ ((if_pos hwell).trans (State.presentChain_unchanged hs hd rfl))

/-- Settles O38: a record that runs past the end of the body. -/
theorem shortRecordIsAnswered : Obligations.ShortRecordIsAnswered := by
  unfold Obligations.ShortRecordIsAnswered
  intro s kind tag len rest hs hlen hshort
  have hd := delimitChain_short (tag := tag) hlen hshort
  have hmax := (recordLength_lt hlen).2
  have hwell : (Instr.shortRecord (kind :: tag :: rest)).wellFormed = true := by
    simp [Instr.wellFormed, chainHolds, hd, Config.requestBody]
    omega
  exact congrArg _ ((if_pos hwell).trans (State.presentChain_unchanged hs hd rfl))

/-- Settles O39: eight records carried out, the ninth SKIPPED. -/
theorem ninthRecordIsSkipped : Obligations.NinthRecordIsSkipped := by
  unfold Obligations.NinthRecordIsSkipped
  intro s a b c d e f g h tag hs
  have hd : delimitChain [0x81, a, 0x81, b, 0x81, c, 0x81, d, 0x81, e, 0x81, f, 0x81, g, 0x81, h, 0x01, tag] =
      ([a, b, c, d, e, f, g, h].map (fun x => ChainItem.record x .ident) ++ [.tooMany 0x01 tag], false) := rfl
  have hwell : (Instr.skippedRecord [0x81, a, 0x81, b, 0x81, c, 0x81, d, 0x81, e, 0x81, f, 0x81, g, 0x81, h, 0x01, tag]).wellFormed =
      true := by
    rw [Instr.wellFormed, chainHolds, hd]
    simp [Config.requestBody]
  exact congrArg _ ((if_pos hwell).trans (State.presentChain_unchanged hs hd rfl))

/-- Settles O40: the SYNC byte, a length too long, and 20 ms of quiet. -/
theorem receiverFollowsItsFrame : Obligations.ReceiverFollowsItsFrame := by
  unfold Obligations.ReceiverFollowsItsFrame
  refine ⟨fun s hp hrx => ?_, fun s b q length hp hrx hlen => ?_, fun s b hp hrx => ?_⟩
  · have hsync : s.ctrl.sync = { s.ctrl with rx := .inFrame (decide (s.ctrl.frames.length < 2)) 20 } := by
      simp only [ControlPort.sync, hrx, ControlPort.buffersUsed_hunting hrx]
    exact congrArg _ ((State.onCtrl_eq hp _).trans (congrArg s.setCtrl hsync))
  · have hwell : (Instr.frameLengthTooLong length).wellFormed = true := decide_eq_true hlen
    have htoo : s.ctrl.tooLong = ControlPort.reject { s.ctrl with rx := .hunting } .length := by
      simp only [ControlPort.tooLong, hrx]
    rw [ControlPort.reject_eq] at htoo
    exact congrArg _ ((if_pos hwell).trans ((State.onCtrl_eq hp _).trans (congrArg s.setCtrl htoo)))
  · have hout : s.ctrl.timedOut = { s.ctrl with rx := .hunting } := by
      simp only [ControlPort.timedOut, hrx]
    exact congrArg _ ((State.onCtrl_eq hp _).trans (congrArg s.setCtrl hout))

/-- Settles O41: the four tests of a complete frame. -/
theorem completeFrameIsJudged : Obligations.CompleteFrameIsJudged := by
  unfold Obligations.CompleteFrameIsJudged
  refine fun s b q body check hp hrx hlen => ⟨?_, fun reason hreason => ?_⟩
  · rintro ⟨rfl, hcheck, hkind⟩
    rw [exec_frameComplete hp hrx hlen, ControlPort.judged, frameFault_passes hcheck hkind]
  · rw [exec_frameComplete hp hrx hlen, ControlPort.judged, frameFault_eq hreason]
    exact congrArg (fun c => Host.Outcome.next (s.setCtrl c)) (ControlPort.reject_eq _ reason)

/-- Settles O15: a frame that waits behind two answers, one of a frame type alone, and one of an IDENT record. -/
theorem requestFrameIsTaken : Obligations.RequestFrameIsTaken := by
  unfold Obligations.RequestFrameIsTaken
  refine ⟨fun s a b hp hw hf ha hc => ⟨?_, ?_⟩, fun s rest hp hw hf hfew => ?_, fun s rest tag hp hw hf hfew => ?_⟩
  · rw [exec_requestFrameTaken, if_neg (by simp [hp]), State.consider_frame_waits hf (by simp [ha]) hw]
    rfl
  · have hsent := State.answerSent_eq (s := s.setWaiting [.frame]) hp hc ha
    have htaken := State.reconsider_frame (body := [0x01])
      (s := (s.setWaiting [.frame]).setCtrl { s.ctrl with ctxd := some (.answer a), answers := [b] })
      rfl hf (Nat.lt_succ_self 1) (Ev.frame_typeAlone _) rfl rfl rfl
    refine congrArg _ ((hsent.trans htaken).trans ?_)
    rw [← hw]
    rfl
  · rw [exec_requestFrameTaken, if_neg (by simp [hp]), State.consider_frame hf hfew (Ev.frame_typeAlone _) rfl hw]
    rfl
  · rw [exec_requestFrameTaken, if_neg (by simp [hp]), State.consider_frame hf hfew rfl rfl hw]
    rfl

/-- Settles O42: answers before notices, and the line freed. -/
theorem senderChoosesFrame : Obligations.SenderChoosesFrame := by
  unfold Obligations.SenderChoosesFrame
  refine ⟨fun s a rest hp hw hc ha => ⟨?_, ?_, ?_⟩, fun s n rest hp hc ha hn => ⟨?_, ?_⟩, fun s hp => ?_⟩
  · exact congrArg _ ((State.answerSent_eq hp hc ha).trans (State.reconsider_of_waiting_nil _ hw))
  · exact congrArg _ ((State.onCtrl_eq hp _).trans (congrArg s.setCtrl (ControlPort.sendNotice_of_answers ha)))
  · exact congrArg _ (State.sendTap_of_waiting (.inl (by simp [ha])))
  · have hsent : s.ctrl.sendNotice = { s.ctrl with ctxd := some (.notice s.ctrl.lost n), notices := rest, lost := false } := by
      simp only [ControlPort.sendNotice, hc, ha, hn]
    exact congrArg _ ((State.onCtrl_eq hp _).trans (congrArg s.setCtrl hsent))
  · exact congrArg _ (State.sendTap_of_waiting (.inr (by simp [hn])))
  · exact congrArg _ (State.onCtrl_eq hp _)

/-- Settles O43: the frame of the first tap, from the turn upward, that holds a record. -/
theorem tapFrameIsSent : Obligations.TapFrameIsSent := by
  unfold Obligations.TapFrameIsSent
  intro s j hp hc ha hn hj hlow
  have hsent : s.sendTap = s.startTapFrame (s.tapTurn + j) := by
    simp only [State.sendTap, hp, hc, ha, hn, State.nextTap_eq hj hlow]
    rfl
  exact congrArg _ hsent
end

section
/-! PROOF. The judging of a cell at its taking, and UP (chapters 2 and 8). -/

namespace Sys2Proof.Machine

variable {s t : State} {e : Ev} {b : Byte} {h : Identity} {a : AntennaNo} {c : RawCell} {k : UnitKind} {i : Instr}

/-! ## Cells that fail the judgement (R147) -/

theorem exec_discarded (hi : cellOf i = some c) (hs : s.cellReady) (hj : s.judge c = none) : exec i s = .next s := by
  rw [exec_of_cellOf hi, State.presentCell_ready s c hs, hj]

theorem unitKindOf_none (hk : c.kind.toNat = 0 ∨ 9 < c.kind.toNat) : unitKindOf c.kind = none := by
  unfold unitKindOf
  split
  case h_10 => rfl
  all_goals omega

theorem State.judge_not_unitKind (hk : unitKindOf c.kind = none) : s.judge c = none := by
  simp [State.judge, hk]

theorem State.judge_absent (ha : 47 < c.antenna.toNat ∨ ∃ a : AntennaNo, c.antenna.toNat = a.val ∧ (s.ant a).present = false) :
    s.judge c = none := by
  unfold State.judge
  cases unitKindOf c.kind with
  | none => rfl
  | some k =>
    rcases ha with ha | ⟨a, ha, hp⟩
    · simp [antennaOf_none ha]
    · simp [antennaOf_eq ha, hp]

/-- What shuts out every cell but UP and DOWN (R147 items 2, 3, 5 and 6). -/
theorem State.judge_unserved (hk : unitKindOf c.kind = some k) (hl : k.isLink = false)
    (hf : 47 < c.antenna.toNat ∨
      (∃ a : AntennaNo, c.antenna.toNat = a.val ∧ ((s.ant a).present = false ∨ (s.ant a).online = false)) ∨
      c.ident = 0x000000 ∨ c.ident = 0xFFFFFF ∨ s.mode = .setup) : s.judge c = none := by
  have hbad : (∀ a, antennaOf c.antenna = some a → (!identityOk c.ident || !(s.ant a).online || s.mode == .setup) = true) →
      s.judge c = none := fun hbad => by
    unfold State.judge
    cases ha : antennaOf c.antenna with
    | none => simp
    | some a => simp [hk, hl, hbad a ha]
  rcases hf with ha | ⟨a, ha, hp | ho⟩ | hi | hi | hm
  · exact State.judge_absent (.inl ha)
  · exact State.judge_absent (.inr ⟨a, ha, hp⟩)
  · refine hbad fun a' ha' => ?_
    obtain rfl := Option.some.inj ((antennaOf_eq ha).symm.trans ha')
    simp [ho]
  · exact hbad fun _ _ => by simp [identityOk, hi]
  · exact hbad fun _ _ => by simp [identityOk, hi]
  · exact hbad fun _ _ => by simp [hm]

/-- A HEAR with a malformed level code, or of a headset that is not heard for, is discarded (R147 items 4 and 7). -/
theorem State.judge_hear_none (hk : unitKindOf c.kind = some .hear)
    (hf : 252 ≤ c.byte5.toNat ∧ c.byte5.toNat ≤ 254 ∨ s.heardFor c.ident = false) : s.judge c = none := by
  have hbad : (252 ≤ c.byte5.toNat → 254 < c.byte5.toNat) → s.heardFor c.ident = false := fun hlevel => by
    rcases hf with ⟨hlow, hhigh⟩ | hf
    · exact absurd (hlevel hlow) (Nat.not_lt.mpr hhigh)
    · exact hf
  unfold State.judge
  cases antennaOf c.antenna with
  | none => simp
  | some a => simpa [hk, UnitKind.isLink] using fun _ _ _ _ => hbad

/-- A GONE from an antenna that holds nothing for the headset is discarded (R147 item 8). -/
theorem State.judge_gone_none (hk : unitKindOf c.kind = some .gone) (ha : c.antenna.toNat = a.val)
    (hf : s.holdsFor a c.ident = false) : s.judge c = none := by
  simp [State.judge, hk, antennaOf_eq ha, UnitKind.isLink, hf]

theorem State.heardFor_false (hr : ∀ r, s.rec? h = some r →
    r.att = .idle ∨ (∃ a n, r.att = .waiting a n) ∨ ∃ n, r.att = .orphan n) : s.heardFor h = false := by
  unfold State.heardFor
  cases hrec : s.rec? h with
  | none => rfl
  | some r => rcases hr r hrec with hatt | ⟨_, _, hatt⟩ | ⟨_, hatt⟩ <;> simp [hatt, Attachment.track?]

theorem State.holdsFor_false (hr : ∀ r, s.rec? h = some r → (∀ svc held tr, r.att = .served svc held tr → held.ant ≠ a) ∧
    (∀ svc c tr, r.att = .transfer svc c tr → ∀ x, s.ctx c = some x → x.targetAnt ≠ a ∧ (x.source ≠ none → x.sourceAnt ≠ a))) :
    s.holdsFor a h = false := by
  cases hrec : s.rec? h with
  | none => simp [State.holdsFor, hrec]
  | some r =>
    obtain ⟨p, pr, att⟩ := r
    obtain ⟨hserved, hmoving⟩ := hr _ hrec
    cases att with
    | idle | waiting | orphan => simp [State.holdsFor, hrec]
    | served svc held tr => simp [State.holdsFor, hrec, hserved svc held tr rfl]
    | transfer svc c tr =>
      cases hx : s.ctx c with
      | none => simp [State.holdsFor, State.movingOf, hrec, hx]
      | some x =>
        obtain ⟨htarget, hsource⟩ := hmoving svc c tr rfl x hx
        have hnot : x.sourceAnt = a → x.source = none := fun ha => Classical.byContradiction fun hn => hsource hn ha
        simpa [State.holdsFor, State.movingOf, hrec, hx, Moving.source, htarget] using hnot

/-! ## UP (R32) -/

/-- The MODE cell that an UP is answered with. -/
def State.upCells (s : State) (a : AntennaNo) : List OutCell :=
  if s.mode = .run then [.mode a (decide ((s.ven (s.ant a).venue).state ≠ .closed))] else []

/-- The state in which an antenna is ONLINE, with the notice where it was not. -/
def State.nowUp (s : State) (a : AntennaNo) : State :=
  if (s.ant a).online then s else (s.setAnt a { s.ant a with online := true }).notify (.unitState a true)

theorem State.nowUp_tables : (s.nowUp a).mode = s.mode ∧ (s.nowUp a).venueOfAnt a = (s.ant a).venue ∧
    (s.nowUp a).venues = s.venues ∧ (s.nowUp a).head = s.head ∧ (s.nowUp a).waiting = s.waiting := by
  unfold State.nowUp
  split
  · exact ⟨rfl, rfl, rfl, rfl, rfl⟩
  · have hvenue : (s.setAnt a { s.ant a with online := true }).venueOfAnt a = (s.ant a).venue := by simp [State.venueOfAnt]
    exact ⟨rfl, hvenue, rfl, rfl, rfl⟩

theorem Ev.upTaken_eq : (Ev.start s).upTaken a = ⟨s.nowUp a, s.upCells a, none, []⟩ := by
  obtain ⟨hmode, hvenue, hvenues, _⟩ := State.nowUp_tables (s := s) (a := a)
  have hup : (if (s.ant a).online then Ev.start s else ((Ev.start s).upd (·.setOnline a true)).notify (.unitState a true)) =
      Ev.start (s.nowUp a) := by
    unfold State.nowUp
    split <;> rfl
  have hcell : (Ev.start (s.nowUp a)).modeForVenue a =
      ⟨s.nowUp a, [.mode a (decide ((s.ven (s.ant a).venue).state ≠ .closed))], none, []⟩ := by
    rw [Ev.modeForVenue_of hvenue, VenueState.serves_iff, State.ven, Ev.start, hvenues]
    rfl
  have hevent : (Ev.start s).upTaken a =
      if (s.nowUp a).mode = .run then (Ev.start (s.nowUp a)).modeForVenue a else Ev.start (s.nowUp a) := by
    rw [Ev.upTaken, show (Ev.start s).st = s from rfl, hup]
    rfl
  rw [hevent, hmode, hcell, State.upCells]
  split <;> rfl

theorem exec_up_eq (hs : s.cellReady) (hb : b.toNat = a.val) (hp : (s.ant a).present = true)
    (hr : s.upCells a = [] ∨ s.roomFor (s.upCells a).length) : exec (.up b) s = .next ((s.nowUp a).sends (s.upCells a)) := by
  obtain ⟨_, _, _, hhead, hwaiting⟩ := State.nowUp_tables (s := s) (a := a)
  have hto : (⟨s.nowUp a, s.upCells a, none, []⟩ : Ev).To [] ((s.nowUp a).sends (s.upCells a)) := ⟨rfl, rfl, rfl⟩
  refine congrArg _ (State.presentCell_of_head s (unitCell .up b 0) .up hs (State.judge_link s .up b a 0 (.inl rfl) hb hp)
    Ev.upTaken_eq hhead hwaiting hto.finish (hr.imp_right fun hroom => ⟨hroom.1, ?_⟩))
  simpa [State.sends, State.setHead, hhead] using hroom.2

end Sys2Proof.Machine

open Sys2Proof Sys2Proof.Machine

/-- Settles O45, by the tests of the judgement. -/
theorem failingCellsAreDiscarded : Obligations.FailingCellsAreDiscarded := by
  unfold Obligations.FailingCellsAreDiscarded
  refine ⟨fun s c hs hk => ?_, fun s b hs ha => ?_, fun s b level errors h hs hf => ?_, fun s b level errors h hs hf => ?_,
    fun s b h a hs ha hf => ?_⟩
  · exact exec_discarded (if_pos hk) hs (State.judge_not_unitKind (unitKindOf_none hk))
  · constructor <;> exact exec_discarded rfl hs (State.judge_absent ha)
  · refine ⟨?_, ?_, ?_, ?_, ?_, ?_, ?_⟩ <;> exact exec_discarded rfl hs (State.judge_unserved rfl rfl hf)
  · exact exec_discarded rfl hs (State.judge_hear_none rfl (hf.imp_right State.heardFor_false))
  · exact exec_discarded rfl hs (State.judge_gone_none rfl ha (State.holdsFor_false hf))

/-- Settles O57, by the link state and the mode. -/
theorem upMakesOnline : Obligations.UpMakesOnline := by
  unfold Obligations.UpMakesOnline
  intro s b a hs hb hp
  have hcase : ∀ {u : State} {cells : List OutCell}, s.nowUp a = u → s.upCells a = cells →
      (cells = [] ∨ s.roomFor cells.length) → exec (.up b) s = .next (u.sends cells) := fun hu hc hr => by
    subst hu hc
    exact exec_up_eq hs hb hp hr
  have hoff : (s.ant a).online = false →
      s.nowUp a = (s.setAnt a { s.ant a with online := true }).notify (.unitState a true) := fun ho => if_neg (by simp [ho])
  have hon : (s.ant a).online = true → s.nowUp a = s := fun ho => if_pos ho
  have hsetup : s.mode = .setup → s.upCells a = [] := fun hm => if_neg (by simp [hm])
  have hrun : s.mode = .run → s.upCells a = [.mode a (decide ((s.ven (s.ant a).venue).state ≠ .closed))] := fun hm => if_pos hm
  refine ⟨fun ho hm => ?_, fun ho hm => ?_, fun hr ho hm => ?_, fun hr ho hm => ?_⟩
  · exact (hcase (hoff ho) (hsetup hm) (.inl rfl)).trans (congrArg _ (State.sends_nil _))
  · exact (hcase (hon ho) (hsetup hm) (.inl rfl)).trans (congrArg _ (State.sends_nil _))
  · exact hcase (hoff ho) (hrun hm) (.inr hr)
  · exact hcase (hon ho) (hrun hm) (.inr hr)
end
